-- ==== Sys2Proof/Word.lean ====
section
/-! DEFINITION. The word types of Lanielo 1: bytes, 32-bit register words, 64-bit addresses, tag sets (R3, R30, R249). -/

namespace Sys2Proof

/-- One byte of memory. -/
abbrev Byte := BitVec 8
/-- The contents of one vector or uniform register (R30). -/
abbrev W32 := BitVec 32
/-- A virtual address, a program counter, or a 64-bit register group (R60, R181). -/
abbrev W64 := BitVec 64
/-- A tag set: bit n stands for assumption slot n of the core that holds the thread (R14, R350). -/
abbrev Tags := BitVec 8

end Sys2Proof
end

