-- ==== Sys2Proof/Syntax.lean ====
section
/-! DEFINITION. The syntax of Lanielo 1: the fields of the 96-bit instruction word (R59, R67 to R76) and one constructor of
Instr for each row of spec/opcode_table.json: the 133 words of the opcode map (R81 to R89) and the operations and events of
the agents that are no words (the table's rows without an opcode). -/

namespace Sys2Proof

/-- TYPE, MOD[3:0] (R73). -/
inductive Ty where
  | b32 | s32 | u64 | s64 | f32 | f64 | f16x2 | bf16x2
  | e4m3x4 | e5m2x4 | fp4x8 | u8 | s8 | u16 | s16 | b128
  deriving DecidableEq, Repr

/-- RND, MOD[5:4] (R115). -/
inductive Rnd where
  | rne | rtz | rdn | rup
  deriving DecidableEq, Repr

/-- The special registers of R71, numbers 64 to 73. -/
inductive SReg where
  | tid | crew | block | nthreads | core | die | device | ctx | task | cycle
  deriving DecidableEq, Repr

/-- The special operands of R71, kind 11, other than the uniform registers. -/
inductive Special where
  | pred (n : BitVec 4)
  | queue (n : BitVec 4)
  | acc (n : BitVec 3)
  | bar (n : BitVec 4)
  | sr (r : SReg)
  | stream (n : BitVec 5)
  deriving DecidableEq, Repr

/-- A source field (R67): kind 00 a vector register, 01 a constant-window word, 10 an immediate, 11 a special operand.
A field an operation does not use is `.reg 0 false false`, the all-zero field. -/
inductive Src where
  | reg (n : BitVec 10) (neg abs : Bool)
  | cwin (w : BitVec 3) (off : BitVec 17)
  | imm (p : BitVec 20)
  | special (sp : Special)
  | unif (n : BitVec 8) (neg abs : Bool)
  deriving DecidableEq, Repr

/-- The all-zero source field of an unused source (R67). -/
def Src.none : Src := .reg 0 false false

/-- The fields of an instruction word but for OPC (R59, R74). In classes 0 to 2 `scope` is MOD[9:7], whose lowest bit is U
(R66); in `shf` the bits of `rnd` hold F (R135). -/
structure Fields where
  gneg : Bool
  gp : BitVec 4
  la : BitVec 4
  y : Bool
  dst : BitVec 10
  sa : Src
  sb : Src
  xc : BitVec 10
  ord : BitVec 2
  scope : BitVec 3
  sat : Bool
  rnd : Rnd
  ty : Ty
  deriving DecidableEq, Repr

/-- What an uncorrectable error strikes (R408). -/
inductive ErrTarget where
  | sector (pa : Nat) (unit : BitVec 8)        -- a 32-byte sector of physical memory
  | scratch (core : Nat) (sector : Nat)        -- a sector of a core's scratchpad part
  | vreg (t : Nat) (n : Nat)                   -- a vector register of a thread
  | ureg (c : Nat) (n : Nat)                   -- a uniform register of a crew
  | pred (t : Nat) (n : Nat)                   -- a predicate of a thread
  | queue (b : Nat) (q : Nat) (e : Nat)        -- an entry of a queue register
  | tile (b : Nat) (acc : Nat)                 -- an element of a tile (R411)
  | fetch (pa : Nat)                           -- an instruction word (R410)
  | shadow (t : Nat)                           -- a register of a thread's shadow (R415)
  deriving DecidableEq, Repr

/-- The kinds of a fabric access from another device (R334), a member's part of a group operation (R215, R217), and a message
(R259); a write carries the poison of its bytes (R296). -/
inductive FabOp where
  | load | store (poison : List Bool) | atomic (aop : Nat) (ty : Ty) (rnd : Rnd) | red (aop : Nat) (ty : Ty) (rnd : Rnd)
  | mcRead | mcWrite (sc : Bool) (poison : List Bool)
  /-- a message for a block of a task, with the poison bits of its words (R259) -/
  | mail (task : W32) (poison : List Bool)
  deriving DecidableEq, Repr

/-- One row of spec/opcode_table.json each. -/
inductive Instr where
  -- class 0 (R82)
  | illZero
  | iadd (f : Fields) | isub (f : Fields) | iaddc (f : Fields) | isubb (f : Fields)
  | imul (f : Fields) | imulhi (f : Fields) | imad (f : Fields)
  | iadd64 (f : Fields) | isub64 (f : Fields)
  | imin (f : Fields) | imax (f : Fields) | iabs (f : Fields)
  | and (f : Fields) | or (f : Fields) | xor (f : Fields) | andn (f : Fields) | orn (f : Fields)
  | shl (f : Fields) | shr (f : Fields) | sar (f : Fields) | rot (f : Fields) | shf (f : Fields)
  | bfe (f : Fields) | bfi (f : Fields)
  | popc (f : Fields) | clz (f : Fields) | ctz (f : Fields) | brev (f : Fields) | prmt (f : Fields)
  | sel (f : Fields) | icmp (f : Fields) | icmp64 (f : Fields) | plop (f : Fields)
  | mov (f : Fields) | mov64 (f : Fields) | movsr (f : Fields) | lea (f : Fields)
  -- class 1 (R83)
  | fadd (f : Fields) | fsub (f : Fields) | fmul (f : Fields) | ffma (f : Fields)
  | fmin (f : Fields) | fmax (f : Fields) | fcmp (f : Fields) | fclass (f : Fields)
  | frcp (f : Fields) | frsq (f : Fields) | fsqrt (f : Fields) | fex2 (f : Fields)
  | flg2 (f : Fields) | fsin (f : Fields) | fcos (f : Fields) | ftanh (f : Fields)
  | fscale (f : Fields) | fround (f : Fields)
  | dadd (f : Fields) | dmul (f : Fields) | dfma (f : Fields) | dmin (f : Fields) | dmax (f : Fields) | dcmp (f : Fields)
  | hadd2 (f : Fields) | hmul2 (f : Fields) | hfma2 (f : Fields) | hmin2 (f : Fields) | hmax2 (f : Fields)
  -- class 2 (R84)
  | cvt (f : Fields) | cvtx (f : Fields) | q4enc (f : Fields) | q4dec (f : Fields) | bscale (f : Fields)
  -- class 3 (R85)
  | ldG (f : Fields) | ldS (f : Fields) | ldX (f : Fields) | ldC (f : Fields)
  | stG (f : Fields) | stS (f : Fields) | stX (f : Fields)
  | atomG (f : Fields) | atomS (f : Fields) | atomX (f : Fields)
  | redG (f : Fields) | redS (f : Fields)
  | fence (f : Fields) | prefetch (f : Fields) | accld (f : Fields) | accst (f : Fields)
  | ldredMc (f : Fields) | stmc (f : Fields) | mcgOpen (f : Fields) | mcgClose (f : Fields)
  -- class 4 (R86)
  | nop (f : Fields) | bra (f : Fields) | brx (f : Fields) | call (f : Fields) | callx (f : Fields) | ret (f : Fields)
  | exit (f : Fields) | mkj (f : Fields) | join (f : Fields) | yield (f : Fields)
  | vote (f : Fields) | shfl (f : Fields) | match_ (f : Fields) | redux (f : Fields) | elect (f : Fields)
  -- class 5 (R87)
  | bar (f : Fields) | waitc (f : Fields) | waitw (f : Fields)
  | guess (f : Fields) | guessW (f : Fields) | affirm (f : Fields) | deny (f : Fields) | tags (f : Fields)
  | ctnOpen (f : Fields) | ctnClose (f : Fields) | msend (f : Fields) | mrecv (f : Fields)
  -- class 6 (R88)
  | mma (f : Fields) | mclr (f : Fields) | mbar (f : Fields) | mloop (f : Fields) | mset (f : Fields) | madd (f : Fields)
  | mjmp (f : Fields) | mend (f : Fields)
  | qpush (f : Fields) | qpop (f : Fields) | qstat (f : Fields) | cpyt (f : Fields) | cpyg (f : Fields) | cpym (f : Fields)
  -- class 7 (R89)
  | trap (f : Fields) | trapHost (f : Fields) | ill (f : Fields) | brk (f : Fields) | sleep (f : Fields)
  | rtt (f : Fields) | csrr (f : Fields) | csrw (f : Fields)
  | trapPool
  -- operations and events of the agents
  | issueSelection (core sub : Nat)
  | monitorRetry (t : Nat)
  | messageDelivery (t : Nat)
  | mmaComplete (core : Nat)
  | copyCompletion (id : Nat)
  | sleepExpiry (t : Nat)
  | trapEntry (t : Nat)
  | longLatencyComplete (t k : Nat)
  | reckonTimeout (t : Nat)
  | outboundWritePerformed (die k : Nat)
  | eviction (core k : Nat)
  | uncorrectableError (die : Nat) (e : ErrTarget)
  | launch (q : Nat)
  | hostResume (q : Nat)
  | kick (w : Nat) (bits : W32)
  | queueScan (q : Nat)
  | qdescWrite (q : Nat) (hi : Bool) (v : W64)
  | blockPlacement (node blk core : Nat)
  | placementStarvation (node blk : Nat)
  | completionEvent (b : Nat)
  | nodeCompletion (node : Nat)
  | takeover
  | preempt (ctx : BitVec 16) | restore (ctx : BitVec 16) | switch (ctx : BitVec 16) | end_ (ctx : BitVec 16)
  | sliceExpiry (die : Nat) (ctx : BitVec 16) | drainExpiry (die : Nat) (ctx : BitVec 16)
  | saveComplete (die : Nat) (ctx : BitVec 16) | forceExpiry (die : Nat) (ctx : BitVec 16)
  | blockRestore (ctx : BitVec 16) (k core : Nat)
  | tileFetch (b acc : Nat)
  | swapOut (b : Nat)
  | swapIn (ctx : BitVec 16) (k : Nat)
  | attach (ctx : BitVec 16) | detach (ctx : BitVec 16)
  | halt (ctx : BitVec 16) (all : Bool) | resume (ctx : BitVec 16) (all : Bool)
  | step (ctx : BitVec 16) (crew : BitVec 2)
  | xlresUnpark (ctx : BitVec 16) | xlresKill (ctx : BitVec 16)
  | xlinvcmd (ctx : BitVec 16) (len : W32)
  | invalidationComplete
  | begin_ | commit (len : W32) | abort | fwdata (v : W64)
  | nonce (k : Nat) (v : W32)
  | signatureComplete
  | sxval
  | registerWrite (off : Nat) (v : W64)
  | fabricRequest (src : BitVec 12) (ctx : BitVec 16) (op : FabOp) (pa : Nat) (data : List Byte)
  | fabricReply (port : Nat) (tag : BitVec 12) (gen : BitVec 4) (member : Nat) (leaf : BitVec 8) (status : Nat) (data : List Byte)
  | fabricTimeout (port : Nat) (tag : BitVec 12)
  | fabidAssignment (device : BitVec 12) (leaf : BitVec 8)
  | laneFailure (port lane : Nat)
  | retrainingComplete (port : Nat)
  | flitReplay (port : Nat)
  | pause (port cls : Nat) | pauseEnd (port cls : Nat)
  | moduleFailure (m : Nat)
  | hostMemoryAccess (write : Bool) (pa : Nat) (data : List Byte)
  | cxlPoison (pa : Nat)
  | cxlCompletionTimeout (pa : Nat)
  | coldStart | warmStart
  | powerLimit | junctionLimit (die : Nat) | criticalTemperature (die : Nat)
  | accessPerformed (t k : Nat)
  | correctedError (die : Nat)
  | arithmeticClockRaise
  | lateReplyDiscard (port : Nat) (tag : BitVec 12) (gen : BitVec 4)
  deriving DecidableEq, Repr

end Sys2Proof
end

