-- ==== Sys2Proof/Machine/Shapes.lean ====
section
/-! DEFINITION. The form of each instruction word: its types, destination, sources, extension and permitted modifiers, from
the tables R136, R157, R171, R180, R219, R239, R264 and R280, and the checks of R79 steps 4 and 5 that follow from them. -/

namespace Sys2Proof

/-- The code of a type (R73). -/
def Ty.code : Ty → Nat
  | .b32 => 0 | .s32 => 1 | .u64 => 2 | .s64 => 3 | .f32 => 4 | .f64 => 5 | .f16x2 => 6 | .bf16x2 => 7
  | .e4m3x4 => 8 | .e5m2x4 => 9 | .fp4x8 => 10 | .u8 => 11 | .s8 => 12 | .u16 => 13 | .s16 => 14 | .b128 => 15

/-- The type of a code (R73). -/
def Ty.ofCode (n : Nat) : Ty :=
  match n with
  | 0 => .b32 | 1 => .s32 | 2 => .u64 | 3 => .s64 | 4 => .f32 | 5 => .f64 | 6 => .f16x2 | 7 => .bf16x2
  | 8 => .e4m3x4 | 9 => .e5m2x4 | 10 => .fp4x8 | 11 => .u8 | 12 => .s8 | 13 => .u16 | 14 => .s16 | _ => .b128

/-- Registers of one operand of a type (R73). -/
def Ty.regs : Ty → Nat
  | .u64 | .s64 | .f64 => 2
  | .b128 => 4
  | _ => 1

/-- Bytes of one memory element of a type (R189). -/
def Ty.bytes : Ty → Nat
  | .u64 | .s64 | .f64 => 8
  | .b128 => 16
  | .u8 | .s8 => 1
  | .u16 | .s16 => 2
  | _ => 4

/-- Types on which negate and absolute act (R68). -/
def Ty.modable : Ty → Bool
  | .f32 | .f64 | .f16x2 | .bf16x2 | .e4m3x4 | .e5m2x4 | .fp4x8 | .s32 | .s64 | .s8 | .s16 => true
  | _ => false

/-- The bits of a 20-bit immediate payload that its type reserves are zero (R73). -/
def Ty.immOk (t : Ty) (p : BitVec 20) : Bool :=
  match t with
  | .f16x2 | .bf16x2 => p.toNat < 2 ^ 16
  | .e4m3x4 | .e5m2x4 => p.toNat < 2 ^ 8
  | .fp4x8 => p.toNat < 2 ^ 4
  | .b128 => false
  | _ => true

/-- What a source position accepts. -/
inductive SrcShape where
  | absent                              -- must be 0x00_0000 (R67)
  | val (n : Nat) (ty : Ty) (ar : Bool) -- kinds 00, 01, 10 (n ≤ 2) and 11 with 0-15, 64-73, 256-511
  | val4 (n : Nat) (ty : Ty)            -- a value of class 4: as val, but 64 bits of kind 11 are an even uniform pair (R220)
  | valQ (ty : Ty)                      -- as val of one register, and a queue (the SA of mov, R137)
  | addr (n : Nat)                      -- kind 00, or kind 11 with 256-511
  | addrC                               -- a64 of class 4: addr 2 and kind 01 (R220)
  | oper (n : Nat) (ty : Ty) (imm : Bool) -- atomic operand: addr n, and kind 10 where imm (R199)
  | imm20                               -- kind 10 alone: displacement, offset, code (R76, R181, R264)
  | count                               -- kind 10, 0 to 1,024 (R240)
  | pred                                -- kind 11 with 0-15
  | vgroup (n : Nat)                    -- kind 00 alone
  | tile                                -- kind 11 with 32-39 (R208)
  | handle                              -- an even uniform register (R215, R280)
  | uni                                 -- a uniform register (the SA of mcg.close)
  | tagsReg                             -- kind 00, or kind 11 with 0-15 or 256-511 (R254)
  | slot                                -- kind 10, [2:0] (R254)
  | queue                               -- kind 11 with 16-31 (R280)
  | qdata (n : Nat) (ty : Ty)           -- kind 00, 10, and 11 with 64-73 or 256-511 (R281)
  | seqVal (ty : Ty)                    -- the source of mset and madd (R281)
  | stream                              -- x register
  | streamEven                          -- even x register (R283)
  deriving DecidableEq, Repr

/-- A destination position (R65) with the registers it holds. -/
inductive DstShape where
  | none
  | v (n : Nat)
  | s (n : Nat)
  | p
  | q
  | b
  | acc
  | j
  | x
  deriving DecidableEq, Repr

/-- The form of a word. -/
structure Shape where
  tys : List Ty
  dst : DstShape
  a : SrcShape := .absent
  b : SrcShape := .absent
  /-- registers of the group that XC names as a third source -/
  xcRegs : Nat := 0
  /-- XC holds a permitted extension -/
  xc : Bool := true
  ords : List Nat := [0]
  scopes : List Nat := [0]
  sat : Bool := false
  /-- number of permitted RND codes -/
  rnds : Nat := 1
  /-- the group of DST is read (a store's data) -/
  dstRead : Bool := false
  /-- predicates XC or SA and SB name, read and written -/
  predReads : List Nat := []
  predWrites : List Nat := []
  /-- a word of the matrix sequencer (R80) -/
  seq : Bool := false
  deriving DecidableEq, Repr

/-- Uniform registers a source reads, when it names some. -/
def Src.isUnif : Src → Bool
  | .unif .. => true
  | _ => false

/-- A vector group of n registers is aligned and carries modifiers only where allowed. -/
def groupOk (n : Nat) (first : Nat) : Bool := n != 0 && first % n == 0

/-- Modifiers are clear, or the source is arithmetic with a type of R68. -/
def modsOk (ar : Bool) (ty : Ty) (neg abs : Bool) : Bool := (!neg && !abs) || (ar && ty.modable)

/-- A source field is one its position accepts (R67 to R73, R79 step 4). -/
def SrcShape.accepts (sh : SrcShape) (s : Src) : Bool :=
  match sh with
  | .absent => s == Src.none
  | .val n ty ar =>
    match s with
    | .reg r neg abs => groupOk n r.toNat && modsOk ar ty neg abs
    | .cwin _ off => groupOk n off.toNat
    | .imm p => n ≤ 2 && ty.immOk p
    | .special (.pred _) => true
    | .special (.sr _) => true
    | .unif r neg abs => groupOk n r.toNat && modsOk ar ty neg abs
    | _ => false
  | .val4 n ty =>
    match s with
    | .reg r neg abs => groupOk n r.toNat && !neg && !abs
    | .cwin _ off => groupOk n off.toNat
    | .imm p => ty.immOk p
    | .special (.pred _) => n == 1
    | .special (.sr _) => n == 1
    | .unif r neg abs => groupOk n r.toNat && !neg && !abs
    | _ => false
  | .valQ ty =>
    match s with
    | .reg _ neg abs => !neg && !abs
    | .cwin .. => true
    | .imm p => ty.immOk p
    | .special (.pred _) => true
    | .special (.sr _) => true
    | .special (.queue _) => true
    | .unif _ neg abs => !neg && !abs
    | _ => false
  | .addr n =>
    match s with
    | .reg r neg abs => groupOk n r.toNat && !neg && !abs
    | .unif r neg abs => groupOk n r.toNat && !neg && !abs
    | _ => false
  | .addrC =>
    match s with
    | .reg r neg abs => groupOk 2 r.toNat && !neg && !abs
    | .cwin _ off => groupOk 2 off.toNat
    | .unif r neg abs => groupOk 2 r.toNat && !neg && !abs
    | _ => false
  | .oper n ty imm =>
    match s with
    | .reg r neg abs => groupOk n r.toNat && !neg && !abs
    | .unif r neg abs => groupOk n r.toNat && !neg && !abs
    | .imm p => imm && ty.immOk p
    | _ => false
  | .imm20 => match s with | .imm _ => true | _ => false
  | .count => match s with | .imm p => p.toNat ≤ 1024 | _ => false
  | .pred => match s with | .special (.pred _) => true | _ => false
  | .vgroup n => match s with | .reg r neg abs => groupOk n r.toNat && !neg && !abs | _ => false
  | .tile => match s with | .special (.acc _) => true | _ => false
  | .handle => match s with | .unif r neg abs => groupOk 2 r.toNat && !neg && !abs | _ => false
  | .uni => match s with | .unif _ neg abs => !neg && !abs | _ => false
  | .tagsReg =>
    match s with
    | .reg _ neg abs => !neg && !abs
    | .unif _ neg abs => !neg && !abs
    | .special (.pred _) => true
    | _ => false
  | .slot => match s with | .imm p => p.toNat < 8 | _ => false
  | .queue => match s with | .special (.queue _) => true | _ => false
  | .qdata n ty =>
    match s with
    | .reg r neg abs => groupOk n r.toNat && !neg && !abs
    | .imm p => ty.immOk p
    | .special (.sr _) => true
    | .unif r neg abs => groupOk n r.toNat && !neg && !abs
    | _ => false
  | .seqVal ty =>
    match s with
    | .cwin _ off => groupOk 2 off.toNat
    | .imm p => ty.immOk p
    | .special (.queue _) => true
    | .special (.sr _) => true
    | .special (.stream _) => true
    | _ => false
  | .stream => match s with | .special (.stream _) => true | _ => false
  | .streamEven => match s with | .special (.stream n) => n.toNat % 2 == 0 | _ => false

/-- Registers a source position reads. -/
def SrcShape.regs : SrcShape → Nat
  | .val n _ _ => n
  | .val4 n _ => n
  | .valQ _ => 1
  | .addr n => n
  | .addrC => 2
  | .oper n _ _ => n
  | .vgroup n => n
  | .handle => 1
  | .uni => 1
  | .tagsReg => 1
  | .qdata n _ => n
  | _ => 0

/-- The reserved bits of DST are zero and its group is aligned (R65, R73). -/
def DstShape.ok (d : DstShape) (dst : BitVec 10) : Bool :=
  match d with
  | .none => dst == 0
  | .v n => groupOk n dst.toNat
  | .s n => dst.toNat < 256 && groupOk n dst.toNat
  | .p | .q | .b | .j => dst.toNat < 16
  | .acc => dst.toNat < 8
  | .x => dst.toNat < 32

/-- Reasons a word fails steps 2 to 4 of R79, by name. -/
inductive Illegal where
  | zeroWord | poolWord | opcode | source | destination | type | order | scope | saturate | rounding | extension | agent
  deriving DecidableEq, Repr

/-- Step 4 of R79 for a word's fields under its form: the first reason, or none. -/
def Shape.illegal (sh : Shape) (f : Fields) : Option Illegal :=
  if !sh.tys.contains f.ty then some .type
  else if !sh.dst.ok f.dst then some .destination
  else if !sh.a.accepts f.sa || !sh.b.accepts f.sb then some .source
  else if !sh.xc || (sh.xcRegs != 0 && !groupOk sh.xcRegs f.xc.toNat) then some .extension
  else if !sh.ords.contains f.ord.toNat then some .order
  else if !sh.scopes.contains f.scope.toNat then some .scope
  else if f.sat && !sh.sat then some .saturate
  else if (match f.rnd with | .rne => 0 | .rtz => 1 | .rdn => 2 | .rup => 3) ≥ sh.rnds then some .rounding
  else if sh.seq && !(f.gp == 15 && !f.gneg && f.la == 0 && !f.y) then some .agent
  else none

/-- The vector registers a source reads. -/
def SrcShape.vregs (sh : SrcShape) (s : Src) : List Nat :=
  match s with
  | .reg r _ _ => (List.range sh.regs).map (r.toNat + ·)
  | _ => []

/-- The uniform registers a source reads. -/
def SrcShape.uregs (sh : SrcShape) (s : Src) : List Nat :=
  match s with
  | .unif r _ _ => (List.range sh.regs).map (r.toNat + ·)
  | _ => []

/-- Step 5 of R79: every register, uniform register and tile named lies in the allocation. -/
def Shape.inRange (sh : Shape) (f : Fields) (regs uregs tiles : Nat) : Bool :=
  let vs := sh.a.vregs f.sa ++ sh.b.vregs f.sb ++ (List.range sh.xcRegs).map (f.xc.toNat + ·)
  let us := sh.a.uregs f.sa ++ sh.b.uregs f.sb
  let tl := (match f.sa with | .special (.acc n) => [n.toNat] | _ => [])
  let d := match sh.dst with
    | .v n => decide (f.dst.toNat + n ≤ regs)
    | .s n => decide (f.dst.toNat + n ≤ uregs)
    | .acc => decide (f.dst.toNat < tiles)
    | .j => decide (uregs = 256)
    | _ => true
  vs.all (· < regs) && us.all (· < uregs) && tl.all (· < tiles) && d

/-- The condition codes of R151. -/
def condOk (n : Nat) : Bool := n < 6

/-- U = 1 turns a vector destination into a uniform one (R66). -/
def vOrS (f : Fields) (n : Nat) : DstShape := if f.scope.toNat % 2 == 1 then .s n else .v n

/-- UD in XC[3] does the same for loads and stores (R183). -/
def vOrSLs (f : Fields) (n : Nat) : DstShape := if f.xc.getLsbD 3 then .s n else .v n

/-- COUNT, XC[1:0], as a number of elements (R180). -/
def Fields.count (f : Fields) : Nat := 2 ^ (f.xc.toNat % 4)

/-- AOP, XC[3:0] (R180). -/
def Fields.aop (f : Fields) : Nat := f.xc.toNat % 16

/-- Floating-point types of atomics (R199). -/
def Ty.isFloat : Ty → Bool
  | .f32 | .f64 | .f16x2 | .bf16x2 => true
  | _ => false

/-- The types of an AOP (R199). -/
def aopTys (aop : Nat) : List Ty :=
  match aop with
  | 0 => [.b32, .s32, .u64, .s64, .f32, .f64, .bf16x2]
  | 1 | 2 => [.b32, .s32, .u64, .s64, .f32, .f64]
  | 3 | 4 | 5 | 6 | 7 => [.b32, .u64]
  | _ => []

/-- Decode forms of R191, encode forms of R192: f32.x8 and bf16x2.x4. -/
def blockForm (f : Fields) : Bool := (f.ty == .f32 && f.count == 8) || (f.ty == .bf16x2 && f.count == 4)

/-- Registers of a load's or store's group: element registers × COUNT, or two with `.sc` (R464, R194). -/
def lsRegs (f : Fields) : Nat := if f.xc.getLsbD 2 then 2 else f.ty.regs * f.count

/-- Shape of a load or store of class 3 (R180, R464). -/
def lsShape (f : Fields) (a64 : Bool) (store : Bool) (global const : Bool) (scopes : List Nat) : Shape :=
  { tys := [.b32, .s32, .u64, .s64, .f32, .f64, .f16x2, .bf16x2, .e4m3x4, .e5m2x4, .fp4x8, .u8, .s8, .u16, .s16, .b128]
    dst := vOrSLs f (lsRegs f)
    a := .addr (if a64 then 2 else 1)
    b := .imm20
    xc := f.xc.toNat < 128 && (const || f.xc.toNat / 16 == 0) && lsRegs f ≤ 8
            && (!f.xc.getLsbD 2 || (global && f.ty == .fp4x8 && f.count == 1))
    ords := if const then [0] else if store then [0, 2] else [0, 1]
    scopes := scopes
    rnds := if global && blockForm f then 4 else 1
    sat := global && !store && blockForm f
    dstRead := store }

/-- Shape of `atom` (R180, R199). -/
def atomShape (f : Fields) (a64 : Bool) (scopes : List Nat) : Shape :=
  { tys := aopTys f.aop
    dst := .v f.ty.regs
    a := .addr (if a64 then 2 else 1)
    b := .oper (if f.aop == 7 then 2 * f.ty.regs else f.ty.regs) f.ty (f.aop != 7)
    xc := f.xc.toNat < 16
    ords := [0, 1, 2, 3]
    scopes := scopes
    rnds := if f.aop == 0 && f.ty.isFloat then 4 else 1 }

/-- Shape of `red` (R180, R199): codes 0 to 5, REASSOC in XC[4] on a float `.add`. -/
def redShape (f : Fields) (a64 : Bool) (scopes : List Nat) : Shape :=
  { tys := aopTys f.aop
    dst := .none
    a := .addr (if a64 then 2 else 1)
    b := .oper f.ty.regs f.ty true
    xc := f.xc.toNat < 32 && f.aop ≤ 5 && (!f.xc.getLsbD 4 || (f.aop == 0 && f.ty.isFloat))
    ords := [0, 2]
    scopes := scopes
    rnds := if f.aop == 0 && f.ty.isFloat then 4 else 1 }

/-- Shape of a 32-bit or 64-bit integer operation of class 0 with two sources (R136). -/
def int2 (f : Fields) (tys : List Ty) (n : Nat) (ar : Bool) (sat : Bool) : Shape :=
  { tys := tys, dst := vOrS f n, a := .val n f.ty ar, b := .val n f.ty ar, xc := f.xc == 0, scopes := [0, 1], sat := sat }

/-- Shape of a shift (R136): the count is read as b32. -/
def shiftShape (f : Fields) (tys : List Ty) : Shape :=
  { tys := tys, dst := vOrS f f.ty.regs, a := .val f.ty.regs f.ty false, b := .val 1 .b32 false, xc := f.xc == 0,
    scopes := [0, 1] }

/-- Shape of a one-source bit count (R136). -/
def countShape (f : Fields) : Shape :=
  { tys := [.b32, .u64], dst := vOrS f 1, a := .val f.ty.regs f.ty false, xc := f.xc == 0, scopes := [0, 1] }

/-- Shape of a float operation with two sources (R157). -/
def flt2 (f : Fields) (tys : List Ty) (n : Nat) (sat : Bool) (rnds : Nat) : Shape :=
  { tys := tys, dst := vOrS f n, a := .val n f.ty true, b := .val n f.ty true, xc := f.xc == 0, scopes := [0, 1],
    sat := sat, rnds := rnds }

/-- Shape of a float operation with three sources (R157). -/
def flt3 (f : Fields) (tys : List Ty) (n : Nat) : Shape :=
  { tys := tys, dst := vOrS f n, a := .val n f.ty true, b := .val n f.ty true, xcRegs := n, scopes := [0, 1],
    sat := true, rnds := 4 }

/-- Shape of a float function of one source (R157). -/
def flt1 (f : Fields) (tys : List Ty) (sat : Bool) (rnds : Nat) : Shape :=
  { tys := tys, dst := vOrS f f.ty.regs, a := .val f.ty.regs f.ty true, xc := f.xc == 0, scopes := [0, 1],
    sat := sat, rnds := rnds }

/-- Types `cvt` accepts (R172). -/
def cvtTys : List Ty := [.b32, .s32, .u64, .s64, .u8, .s8, .u16, .s16, .f32, .f64]

/-- STYPE of `cvt` and `cvtx`, XC[3:0] (R171). -/
def Fields.stype (f : Fields) : Ty := Ty.ofCode (f.xc.toNat % 16)

/-- Shape of `cvt` (R172). -/
def cvtShape (f : Fields) : Shape :=
  let sf := f.stype == .f32 || f.stype == .f64
  let df := f.ty == .f32 || f.ty == .f64
  { tys := cvtTys, dst := vOrS f f.ty.regs, a := .val f.stype.regs f.stype false,
    xc := f.xc.toNat < 16 && cvtTys.contains f.stype, scopes := [0, 1],
    sat := sf == df, rnds := if sf || df then 4 else 1 }

/-- The pairs of `cvtx` with the registers of DST, SA and SB, and whether the row packs (R173). -/
def cvtxForm (ty st : Ty) : Option (Nat × Nat × Nat × Bool) :=
  match ty, st with
  | .f16x2, .f32 | .bf16x2, .f32 => some (1, 1, 1, true)
  | .e4m3x4, .f32 | .e5m2x4, .f32 => some (1, 4, 0, true)
  | .e4m3x4, .f16x2 | .e4m3x4, .bf16x2 | .e5m2x4, .f16x2 | .e5m2x4, .bf16x2 => some (1, 1, 1, true)
  | .fp4x8, .f32 => some (1, 8, 0, true)
  | .fp4x8, .bf16x2 => some (1, 4, 0, true)
  | .f32, .f16x2 | .f32, .bf16x2 => some (2, 1, 0, false)
  | .f32, .e4m3x4 | .f32, .e5m2x4 => some (4, 1, 0, false)
  | .f32, .fp4x8 => some (8, 1, 0, false)
  | _, _ => none

/-- Shape of `cvtx` (R173). -/
def cvtxShape (f : Fields) : Shape :=
  match cvtxForm f.ty f.stype with
  | none => { tys := [], dst := .none }
  | some (d, na, nb, pack) =>
    { tys := [f.ty], dst := vOrS f d, a := .val na f.stype false,
      b := if nb == 0 then .absent else .val nb f.stype false,
      xc := f.xc.toNat < 16, scopes := [0, 1], sat := pack, rnds := if pack then 4 else 1 }

/-- Width of a system register in registers, and whether any mode writes it (R267). -/
def sysForm (n : Nat) : Option (Nat × Bool) :=
  match n with
  | 0 | 1 | 5 | 6 | 7 => some (1, false)
  | 3 => some (2, false)
  | 2 | 4 => some (2, true)
  | 8 | 9 | 10 | 11 => some (1, true)
  | _ => none

/-- Shape of an operation without operands. -/
def bare (f : Fields) : Shape := { tys := [.b32], dst := .none, xc := f.xc == 0 }

/-- The form of an instruction word with fields f (R136, R157, R171, R180, R219, R239, R264, R280). An operation that is no
word of these tables has no form. -/
def Instr.shape : Instr → Option (Fields × Shape)
  | .iadd f | .isub f | .imul f => some (f, int2 f [.b32, .s32] 1 true true)
  | .iaddc f | .isubb f => some (f,
      { tys := [.b32], dst := .v 1, a := .val 1 .b32 false, b := .val 1 .b32 false,
        xc := !f.xc.getLsbD 9 && (f.xc.getLsbD 8 || f.xc.toNat / 16 % 16 == 0),
        predReads := if f.xc.getLsbD 8 then [f.xc.toNat / 16 % 16] else [], predWrites := [f.xc.toNat % 16] })
  | .imulhi f | .imin f | .imax f => some (f, int2 f [.b32, .s32] 1 true false)
  | .imad f => some (f,
      let t : Ty := match f.ty with | .u64 => .b32 | .s64 => .s32 | t => t
      { tys := [.b32, .s32, .u64, .s64], dst := vOrS f f.ty.regs, a := .val 1 t true, b := .val 1 t true,
        xcRegs := f.ty.regs, scopes := [0, 1], sat := true })
  | .iadd64 f | .isub64 f => some (f, int2 f [.u64, .s64] 2 true true)
  | .iabs f => some (f,
      { tys := [.s32], dst := vOrS f 1, a := .val 1 .s32 true, xc := f.xc == 0, scopes := [0, 1],
        sat := true })
  | .and f | .or f | .xor f | .andn f | .orn f => some (f, int2 f [.b32, .u64] f.ty.regs false false)
  | .shl f | .shr f | .rot f => some (f, shiftShape f [.b32, .u64])
  | .sar f => some (f, shiftShape f [.s32, .s64])
  | .shf f => some (f,
      { tys := [.b32], dst := vOrS f 1, a := .val 1 .b32 false, b := .val 1 .b32 false, xcRegs := 1,
        scopes := [0, 1], rnds := 2 })
  | .bfe f => some (f,
      { tys := [.b32, .s32], dst := vOrS f 1, a := .val 1 f.ty false, b := .val 1 .b32 false,
        xc := f.xc == 0, scopes := [0, 1] })
  | .bfi f | .prmt f => some (f,
      { tys := [.b32], dst := vOrS f 1, a := .val 1 .b32 false, b := .val 1 .b32 false,
        xcRegs := 1, scopes := [0, 1] })
  | .popc f | .clz f | .ctz f => some (f, countShape f)
  | .brev f => some (f,
      { tys := [.b32, .u64], dst := vOrS f f.ty.regs, a := .val f.ty.regs f.ty false, xc := f.xc == 0,
        scopes := [0, 1] })
  | .sel f => some (f,
      { tys := [.b32, .u64], dst := vOrS f f.ty.regs, a := .val f.ty.regs f.ty false,
        b := .val f.ty.regs f.ty false, xc := f.xc.toNat < 32, scopes := [0, 1], predReads := [f.xc.toNat % 16] })
  | .icmp f => some (f,
      { tys := [.b32, .s32], dst := .p, a := .val 1 f.ty true, b := .val 1 f.ty true,
        xc := condOk f.xc.toNat })
  | .icmp64 f => some (f,
      { tys := [.u64, .s64], dst := .p, a := .val 2 f.ty true, b := .val 2 f.ty true,
        xc := condOk f.xc.toNat })
  | .plop f => some (f, { tys := [.b32], dst := .p, a := .pred, b := .pred, xc := f.xc.toNat < 16 })
  | .mov f => some (f, { tys := [.b32, .s32], dst := vOrS f 1, a := .valQ f.ty, xc := f.xc == 0, scopes := [0, 1] })
  | .mov64 f => some (f,
      { tys := [.u64, .s64], dst := vOrS f 2, a := .val 2 f.ty false, xc := f.xc == 0,
        scopes := [0, 1] })
  | .movsr f => some (f, { tys := [.b32], dst := vOrS f 1, xc := f.xc.toNat < 5, scopes := [0, 1] })
  | .lea f => some (f,
      { tys := [.b32, .s32], dst := vOrS f 2, a := .val 2 .u64 false, b := .val 1 f.ty false,
        xc := f.xc.toNat < 32, scopes := [0, 1] })
  | .fadd f | .fsub f | .fmul f => some (f, flt2 f [.f32] 1 true 4)
  | .ffma f => some (f, flt3 f [.f32] 1)
  | .fmin f | .fmax f => some (f, flt2 f [.f32] 1 false 1)
  | .fcmp f => some (f, { tys := [.f32], dst := .p, a := .val 1 .f32 true, b := .val 1 .f32 true, xc := f.xc.toNat < 14 })
  | .fclass f => some (f, { tys := [.f32, .f64], dst := .p, a := .val f.ty.regs f.ty true })
  | .frcp f | .fsqrt f => some (f, flt1 f [.f32] true 4)
  | .frsq f | .fex2 f | .flg2 f | .fsin f | .fcos f | .ftanh f => some (f, flt1 f [.f32] true 1)
  | .fscale f => some (f,
      { tys := [.f32, .f64], dst := vOrS f f.ty.regs, a := .val f.ty.regs f.ty true,
        b := .val 1 .s32 false, xc := f.xc == 0, scopes := [0, 1], sat := true, rnds := 4 })
  | .fround f => some (f, flt1 f [.f32, .f64] false 4)
  | .dadd f | .dmul f => some (f, flt2 f [.f64] 2 true 4)
  | .dfma f => some (f, flt3 f [.f64] 2)
  | .dmin f | .dmax f => some (f, flt2 f [.f64] 2 false 1)
  | .dcmp f => some (f, { tys := [.f64], dst := .p, a := .val 2 .f64 true, b := .val 2 .f64 true, xc := f.xc.toNat < 14 })
  | .hadd2 f | .hmul2 f => some (f, flt2 f [.f16x2, .bf16x2] 1 true 4)
  | .hfma2 f => some (f, flt3 f [.f16x2, .bf16x2] 1)
  | .hmin2 f | .hmax2 f => some (f, flt2 f [.f16x2, .bf16x2] 1 false 1)
  | .cvt f => some (f, cvtShape f)
  | .cvtx f => some (f, cvtxShape f)
  | .q4enc f => some (f,
      { tys := [.f32, .bf16x2], dst := vOrS f 2,
        a := .val (if f.ty == .f32 then 8 else 4) f.ty false, b := .val 1 .f32 false, xc := f.xc == 0, scopes := [0, 1],
        rnds := 4 })
  | .q4dec f => some (f,
      { tys := [.f32, .bf16x2], dst := vOrS f (if f.ty == .f32 then 8 else 4), a := .val 1 .b32 false,
        b := .val 1 .f32 false, xcRegs := 1, scopes := [0, 1], sat := true, rnds := 4 })
  | .bscale f => some (f, { tys := [.f32], dst := .v 1, a := .addr 2, b := .val 1 .f32 true, xc := f.xc == 0 })
  | .ldG f => some (f, lsShape f true false true false [0, 1, 2, 3, 4, 5, 6])
  | .ldS f => some (f, lsShape f false false false false [0, 1, 2])
  | .ldX f => some (f, lsShape f false false false false [0, 1, 2, 3])
  | .ldC f => some (f, lsShape f false false false true [0])
  | .stG f => some (f, lsShape f true true true false [0, 1, 2, 3, 4, 5, 6])
  | .stS f => some (f, lsShape f false true false false [0, 1, 2])
  | .stX f => some (f, lsShape f false true false false [0, 1, 2, 3])
  | .atomG f => some (f, atomShape f true [0, 1, 2, 3, 4, 5, 6])
  | .atomS f => some (f, atomShape f false [0, 1, 2])
  | .atomX f => some (f, atomShape f false [0, 1, 2, 3])
  | .redG f => some (f, redShape f true [0, 1, 2, 3, 4, 5, 6])
  | .redS f => some (f, redShape f false [0, 1, 2])
  | .fence f => some (f,
      { tys := [.b32], dst := .none, xc := f.xc == 0, ords := [0, 1, 2, 3],
        scopes := [0, 1, 2, 3, 4, 5, 6] })
  | .prefetch f => some (f, { tys := [.b32], dst := .none, a := .addr 2, b := .imm20, xc := f.xc.toNat < 2 })
  | .accld f => some (f,
      { tys := [.f32, .bf16x2], dst := .v f.count, a := .tile, b := .val 1 .b32 false,
        xc := f.xc.toNat < 4, sat := true, rnds := 4 })
  | .accst f => some (f,
      { tys := [.f32, .f64], dst := .acc, a := .val 1 .b32 false, b := .vgroup (f.ty.regs * f.count),
        xc := f.xc.toNat < 4 && f.ty.regs * f.count ≤ 8 })
  | .ldredMc f => some (f,
      let n := if f.ty == .bf16x2 then 2 * f.count else f.count
      { tys := [.f32, .bf16x2], dst := .v n, a := .addr 2, b := .handle,
        xc := f.xc.toNat < 128 && !f.xc.getLsbD 2 && n ≤ 8, ords := [0, 1], scopes := [6],
        predWrites := [f.xc.toNat / 8 % 16] })
  | .stmc f => some (f,
      { tys := [.b32, .u64, .b128, .fp4x8], dst := .v (lsRegs f), a := .addr 2, b := .handle,
        xc := f.xc.toNat < 128 && lsRegs f ≤ 8 && (!f.xc.getLsbD 2 || (f.ty == .fp4x8 && f.count == 1)),
        ords := [0, 2], scopes := [6], dstRead := true, predWrites := [f.xc.toNat / 8 % 16] })
  | .mcgOpen f => some (f, { tys := [.b32], dst := .s 1, a := .addr 1, xc := f.xc.toNat < 2 })
  | .mcgClose f => some (f, { tys := [.b32], dst := .s 1, a := .uni, xc := f.xc == 0 })
  | .nop f | .exit f | .yield f => some (f, bare f)
  | .bra f => some (f, { tys := [.b32], dst := .none, b := .imm20, xc := f.xc.toNat < 64 })
  | .brx f | .ret f => some (f, { tys := [.b32], dst := .none, a := .addrC, xc := f.xc == 0 })
  | .call f => some (f, { tys := [.b32], dst := .v 2, b := .imm20, xc := f.xc.toNat < 64 })
  | .callx f => some (f, { tys := [.b32], dst := .v 2, a := .addrC, xc := f.xc == 0 })
  | .mkj f => some (f, { tys := [.b32], dst := .j, xc := f.xc.toNat < 2 })
  | .join f => some (f, { tys := [.b32], dst := .j, xc := f.xc == 0 })
  | .vote f => some (f, { tys := [.b32], dst := if f.xc.toNat % 4 == 3 then .v 1 else .p, a := .pred, xc := f.xc.toNat < 8 })
  | .shfl f => some (f,
      { tys := [.b32, .u64], dst := .v f.ty.regs, a := .val4 f.ty.regs f.ty,
        b := .val4 1 (if f.xc.toNat % 4 == 1 then .s32 else .b32), xc := f.xc.toNat < 24 })
  | .match_ f => some (f, { tys := [.b32, .u64], dst := .v 1, a := .val4 f.ty.regs f.ty, xc := f.xc.toNat < 2 })
  | .redux f => some (f, { tys := [.b32, .s32], dst := .v 1, a := .val4 1 f.ty, xc := f.xc.toNat < 6 })
  | .elect f => some (f,
      { tys := [.b32], dst := .p, a := if f.xc == 1 then .val4 1 .b32 else .absent,
        xc := f.xc.toNat < 2 })
  | .bar f => some (f, { tys := [.b32], dst := .b, b := .count, xc := f.xc.toNat < 2, ords := [0, 3], scopes := [1, 2] })
  | .waitc f => some (f,
      { tys := [.b32, .s32, .u64, .s64], dst := .v f.ty.regs, a := .addr 2,
        b := .val f.ty.regs f.ty false, xc := condOk f.xc.toNat, ords := [0, 1], scopes := [3, 4, 5, 6] })
  | .waitw f => some (f,
      { tys := [.b32, .s32], dst := .v 1, a := .addr 1, b := .val 1 f.ty false,
        xc := condOk f.xc.toNat, ords := [0, 1], scopes := [0, 1, 2] })
  | .guess f => some (f,
      { tys := [.b32, .u64], dst := .v (2 * f.ty.regs), b := .val f.ty.regs f.ty false,
        xc := f.xc == 0 })
  | .guessW f => some (f,
      { tys := [.b32, .u64], dst := .v (2 * f.ty.regs), a := .addr 2,
        b := .val f.ty.regs f.ty false, xcRegs := f.ty.regs, ords := [0, 1], scopes := [3, 4, 5, 6] })
  | .affirm f => some (f, { tys := [.b32], dst := .p, a := .addr 1, xc := f.xc == 0 })
  | .deny f => some (f, { tys := [.b32, .u64], dst := .p, a := .addr 1, b := .val f.ty.regs f.ty false, xc := f.xc == 0 })
  | .tags f => some (f,
      { tys := [.b32], dst := .v 1,
        a := (match f.xc.toNat with | 0 => .tagsReg | 1 => .absent | _ => .slot), xc := f.xc.toNat < 3 })
  | .ctnOpen f => some (f, { tys := [.b32], dst := .none, b := .imm20, xc := f.xc.toNat < 64 })
  | .ctnClose f => some (f, bare f)
  | .msend f => some (f,
      { tys := [.b32], dst := .p, a := .addr 2, b := .vgroup f.count, xc := f.xc.toNat < 3,
        ords := [0, 2], scopes := [2, 3, 4, 5, 6] })
  | .mrecv f => some (f,
      { tys := [.b32], dst := .v f.count, xc := f.xc.toNat < 3, ords := [0, 1],
        scopes := [2, 3, 4, 5, 6] })
  | .mma f => some (f,
      { tys := [.fp4x8, .e4m3x4, .e5m2x4, .bf16x2], dst := .acc, a := .streamEven, b := .streamEven,
        xc := f.xc.toNat < 64, seq := true })
  | .mclr f => some (f, { tys := [.b32], dst := .acc, xc := f.xc == 0, seq := true })
  | .mbar f => some (f, { tys := [.b32], dst := .b, b := .count, xc := f.xc.toNat < 2, seq := true })
  | .mloop f => some (f, { tys := [.b32], dst := .x, b := .imm20, xc := f.xc.toNat < 64, seq := true })
  | .mset f => some (f, { tys := [.u64, .s64], dst := .x, a := .seqVal f.ty, xc := f.xc == 0, seq := true })
  | .madd f => some (f, { tys := [.u64, .s64], dst := .x, a := .stream, b := .seqVal f.ty, xc := f.xc == 0, seq := true })
  | .mjmp f => some (f, { tys := [.b32], dst := .none, b := .imm20, xc := f.xc.toNat < 64, seq := true })
  | .mend f => some (f, { tys := [.b32], dst := .none, xc := f.xc == 0, seq := true })
  | .qpush f => some (f, { tys := [.b32, .u64], dst := .q, a := .qdata f.ty.regs f.ty, xc := f.xc == 0 })
  | .qpop f => some (f, { tys := [.b32, .u64], dst := .v f.ty.regs, a := .queue, xc := f.xc == 0 })
  | .qstat f => some (f,
      { tys := [.b32], dst := .v 1,
        xc := f.xc.toNat < 64 && f.xc.toNat % 4 < 3 && (f.xc.toNat % 4 == 0 || f.xc.toNat / 4 == 0) })
  | .cpyt f | .cpyg f => some (f, { tys := [.b32], dst := .none, a := .addr 1, xc := f.xc == 0 })
  | .cpym f => some (f, { tys := [.b32], dst := .none, a := .addr 1, b := .handle, xc := f.xc == 0 })
  | .trap f => some (f, { tys := [.b32], dst := .none, b := .imm20, xc := f.xc == 0 })
  | .trapHost f => some (f, { tys := [.b32], dst := .none, b := .imm20, xc := f.xc == 1 })
  | .ill f | .brk f => some (f, { tys := [.b32], dst := .none, b := .imm20, xc := f.xc == 0 })
  | .sleep f => some (f, { tys := [.b32], dst := .none, b := .val 1 .b32 false, xc := f.xc == 0 })
  | .rtt f => some (f, bare f)
  | .csrr f => some (f,
      { tys := [.b32, .u64], dst := .v f.ty.regs,
        xc := (match sysForm f.xc.toNat with | some (n, _) => n == f.ty.regs | none => false) })
  | .csrw f => some (f,
      { tys := [.b32, .u64], dst := .none, a := .addr f.ty.regs,
        xc := (match sysForm f.xc.toNat with | some (n, w) => n == f.ty.regs && w | none => false) })
  | .illZero | .trapPool => none
  | .issueSelection .. | .monitorRetry .. | .messageDelivery .. | .mmaComplete .. | .copyCompletion .. | .sleepExpiry ..
  | .trapEntry .. | .longLatencyComplete .. | .reckonTimeout .. | .outboundWritePerformed .. | .eviction ..
  | .uncorrectableError .. | .launch .. | .hostResume .. | .kick .. | .queueScan .. | .qdescWrite .. | .blockPlacement ..
  | .placementStarvation .. | .completionEvent .. | .nodeCompletion .. | .takeover | .preempt .. | .restore .. | .switch ..
  | .end_ .. | .sliceExpiry .. | .drainExpiry .. | .saveComplete .. | .forceExpiry .. | .blockRestore .. | .tileFetch ..
  | .swapOut .. | .swapIn .. | .attach .. | .detach .. | .halt .. | .resume .. | .step .. | .xlresUnpark .. | .xlresKill ..
  | .xlinvcmd .. | .invalidationComplete | .begin_ | .commit .. | .abort | .fwdata .. | .nonce .. | .signatureComplete
  | .sxval | .registerWrite .. | .fabricRequest .. | .fabricReply .. | .fabricTimeout .. | .fabidAssignment ..
  | .laneFailure .. | .retrainingComplete .. | .flitReplay .. | .pause .. | .pauseEnd .. | .moduleFailure ..
  | .hostMemoryAccess .. | .cxlPoison .. | .cxlCompletionTimeout .. | .coldStart | .warmStart | .powerLimit
  | .junctionLimit .. | .criticalTemperature .. | .accessPerformed .. | .correctedError .. | .arithmeticClockRaise
  | .lateReplyDiscard .. => none

/-- Does the instruction issue for threads, as a word of a text section (R80)? -/
def Instr.isThreadWord (i : Instr) : Bool :=
  match i.shape with
  | some (_, sh) => !sh.seq
  | none => i == .illZero || i == .trapPool

end Sys2Proof
end

