-- ==== Sys2Proof/Config.lean ====
section
/-! DEFINITION. What the manual leaves open: free values and uninterpreted functions. None of them has a body, so no proof can
lean on a value of one (log 6 and the entries named at each). -/

namespace Sys2Proof

/-- The k-th free value (log 6). A step that needs a value the manual leaves open reads `State.free`, applies this, and
advances the counter. UNVERIFIED: nothing is known of it. -/
opaque Config.freeValue : Nat → BitVec 64

/-- The k-th free choice among `n + 1` alternatives the manual allows: `freeChoice k n ≤ n` is enforced where it is used. -/
opaque Config.freeChoice : Nat → Nat → Nat

/-- The functions of R168 that R169 bounds and does not fix. -/
inductive Approx where
  | rsq | ex2 | lg2 | sin | cos | tanh
  deriving DecidableEq, Repr

/-- The fixed function of the input bits that R170 gives each approximated function (log 11): a candidate result, which the
model uses only where it lies within the bound of R169. -/
opaque Config.approx : Approx → W32 → W32

/-- SHA-512 (47:R447, 49:R460), not defined by the manual (log 12). -/
opaque Config.sha512 : List Byte → BitVec 512
/-- Ed25519 verification of a signature over a message by a public key (47:R447, 49:R458, log 12). -/
opaque Config.edVerify : BitVec 256 → List Byte → BitVec 512 → Bool
/-- Ed25519 signing by the device's private key (49:R460, log 12). -/
opaque Config.edSign : List Byte → BitVec 512
/-- Verification of a firmware image at step 1 of a start: Ed25519 over SHA-512 by the key fused in die 0 (R456); the manual gives
the image no layout (log 12). -/
opaque Config.imageVerifies : List Byte → Bool
/-- The firmware image in package flash from manufacture (R456, log 12). -/
opaque Config.flashImage : List Byte
/-- IDKEY, the device's public key, fixed at manufacture (49:R460, log 12). -/
opaque Config.idKey : BitVec 256

/-- A word of another device's memory as the k-th free value of a constant window that lies there (R69, log 78). -/
opaque Config.peerWord : Nat → BitVec 12 → Nat → W32

/-- Bytes of a die's memory in which the helm can reserve undo logs (R355): the manual does not say how many there are (log 87). -/
opaque Config.undoRoom : Nat → Nat

/-- Whether the counter of an item class and an INDEX measures cycles, beside INDEX 0 of class 2 (R452, log 55). -/
opaque Config.countsCycles : Nat → Nat → Bool
/-- INDEX of the stale-reply counter in class 4 (R338, R446, log 55). -/
opaque Config.staleIndex : Nat
/-- The 32 bytes of a trace record by class, die, sequence number, timestamp, TASKID, BLOCK, CREW, TID, CORE and payload: the manual gives the
fields no places (R453, log 56). -/
opaque Config.traceLayout : List Nat → BitVec 256

/-- The home slice of a line within its die, one of 16: a function fixed at bring-up (R328, log 15). -/
opaque Config.homeSlice : Nat → Nat

end Sys2Proof
end

