-- ==== Sys2Proof/Machine/State.lean ====
section
/-! DEFINITION. The state of the device as plain data, the reasons a step can stop, and the state after reset. INVENTORY.md,
'## State', lists each piece with the rule that names it and its reset value. -/

namespace Sys2Proof.Machine

/-- Reasons the machine stops. -/
inductive Fault where
  /-- The helm was given a physical address that lies in no range of R424 (a queue ring, the context table, a report ring): the
  manual says that no memory is there. Raised when the helm reads or writes there. Safe: the device's answer to it is not described. -/
  | noMemory (pa : Nat)
  deriving DecidableEq, Repr

/-- Reasons a step has no meaning. -/
inductive Refusal where
  /-- An instruction of the opcode table that has no meaning yet. Raised by an arm of Dispatch.lean. Safe. -/
  | notModelled (mnemonic : String)
  deriving DecidableEq, Repr

/-- A vector or uniform register: value, poison bit, tag set (R30, R65). -/
structure Reg where
  val : W32 := 0
  poison : Bool := false
  tags : Tags := 0
  deriving DecidableEq, Repr

/-- A predicate: value, poison bit, tag set (R30). -/
structure PReg where
  val : Bool := false
  poison : Bool := false
  tags : Tags := 0
  deriving DecidableEq, Repr

/-- A register of a thread: vector, uniform (of its crew) or predicate. -/
inductive Loc where
  | v (n : Nat)
  | s (n : Nat)
  | p (n : Nat)
  deriving DecidableEq, Repr

/-- A mark a thread holds in a slot (R352): the slot, the address of the consuming instruction, the log position there, and
the place of that instruction in the model's issue order. -/
structure Mark where
  slot : Nat
  addr : W64
  logPos : Nat
  seq : Nat
  /-- HANDLER of the thread there (R362) -/
  inHandler : Bool := false
  /-- place of the `ctn.close` by which the thread left the slot's region: from there on the mark steers an unwind and is not in
  RegTagUnion (R257, R367) -/
  closeSeq : Option Nat := none
  /-- place at which the thread consumed the slot again after that -/
  againSeq : Option Nat := none
  deriving DecidableEq, Repr

/-- What a translation answers (R423): the physical address and the leaf. -/
structure Page where
  pa : Nat
  r : Bool
  w : Bool
  x : Bool
  fmt : Nat
  /-- the device that holds the page, when it is another's (FAB) -/
  peer : Option (BitVec 12)
  /-- the virtual address of the scale frame (FMT = 1) -/
  frame : Nat
  /-- a secondary page: the virtual address of the primary byte (R429) -/
  synonym : Option Nat
  /-- bytes of the page -/
  size : Nat
  deriving DecidableEq, Repr

/-- Half-bytes that an access touches: of its context's virtual space, where two addresses of one place are two (R302), or of a core's
scratchpad part. A nibble is the smallest unit (R305). -/
structure Span where
  pad : Option Nat := none
  lo : Nat
  n : Nat
  deriving DecidableEq, Repr

/-- What a unit of a load has read (R187, R305, R336): its bytes, whether a sector of them was poisoned, whether the access failed on another
device. -/
structure Got where
  bytes : List Byte
  poison : Bool
  failed : Bool := false
  deriving DecidableEq, Repr

/-- A load of which units are still to be read (R305, R308): whether it takes a block form, and what each unit has read. The units are the
elements, each aligned half of a b128, or block, scale byte and band record word. -/
structure LateLoad where
  f : Fields
  block : Bool
  got : List (Option Got)
  deriving DecidableEq, Repr

/-- An irrevocable effect as the held-effect buffer keeps it (R188, R275, R293, R359): its checks are done and its operands
read. `out` is the identifier of the outstanding result it answers. -/
inductive Effect where
  | storeG (f : Fields) (va : W64) (pages frames : List Page) (data : Nat)
  | storeX (f : Fields) (core off data : Nat)
  | atomG (f : Fields) (va : W64) (page : Page) (b out : Nat)
  | atomL (f : Fields) (core off b : Nat) (own : Bool) (tags : Tags) (out : Nat)
  | redG (f : Fields) (va : W64) (page : Page) (b : Nat)
  | redS (f : Fields) (core off b : Nat) (tags : Tags)
  | bscale (va : W64) (page : Page) (w : Nat)
  | loadFab (f : Fields) (va : W64) (pages frames : List Page) (out : Nat)
  | fence (scope ord : Nat)
  | ldred (f : Fields) (va : W64) (handle : W32) (out : Nat)
  | stmc (f : Fields) (va : W64) (handle : W32) (data out : Nat)
  | mcgOpen (ordered : Bool) (members : Option (List (BitVec 12))) (out : Nat)
  | mcgClose (handle : W32) (out : Nat)
  | copy (op : Nat) (record : List Byte) (handle : W32)
  | hostTrap (n : W32) (pc : W64)
  | mail (dest : W64) (ws : List (W32 × Bool)) (scope ord out : Nat)
  deriving DecidableEq, Repr

/-- A unit of an access that its thread has issued and that is still to be performed (R305, R308): in any order with the units of other
bytes, in program order with those of the same. -/
inductive LateUnit where
  /-- bytes of one element of a `.g` store; `whole` marks the last of a sector that the store covers whole (R409) -/
  | mem (scope : Nat) (va : W64) (page : Page) (bs : List Byte) (whole : Bool)
  /-- a nibble of an fp4bs block -/
  | nibble (scope : Nat) (va : W64) (page : Page) (hi : Bool) (v : Nat)
  /-- an encode store at pc, which becomes the units of its block once its scale and band have been read (R304); what it has asked of another
  device for has been sent or not, and answered or not (R428) -/
  | encode (f : Fields) (pc va : W64) (page scale band : Page) (data : Nat) (sent : Bool) (sc bd : Option Nat)
  /-- bytes of one element of a scratchpad store, the block's own or by `.x`; `whole` as above (R196, R409) -/
  | scratch (core off : Nat) (bs : List Byte) (own whole : Bool)
  /-- the k-th unit of the load whose result is `out`: bytes of a page, here or on another device -/
  | read (out k scope : Nat) (va : W64) (page : Page) (n : Nat)
  /-- the same of a core's scratchpad part -/
  | readS (out k core off n : Nat)
  /-- an access that is one unit, or that another device performs; what it touches -/
  | effect (eff : Effect) (at_ : List Span)
  deriving DecidableEq, Repr

/-- A result still to be written (R63, R188): the registers it writes, and the values once they are known. -/
structure Outstanding where
  id : Nat
  dests : List Loc
  /-- the values to write; none while a held or fabric operation has not answered -/
  wb : Option (List (Loc × Reg)) := none
  /-- one of the long-latency instructions of R63 -/
  long : Bool := true
  /-- LA of the instruction and the words issued since (R63) -/
  la : Nat := 0
  since : Nat := 0
  seq : Nat
  /-- the tag set the results carry (R187, R353) -/
  tags : Tags := 0
  /-- lines of this device's memory that it reads, and the cycle in which it was issued (R443) -/
  lines : List Nat := []
  asked : Nat := 0
  /-- lines of its context that it missed in the L1 (R14) -/
  miss : List Nat := []
  /-- a fabric read that is an acquire: later accesses of its thread wait for its answer (R335, R340) -/
  acq : Bool := false
  /-- a load whose units are still to be read (R305, R308) -/
  late : Option LateLoad := none
  /-- the values of the shadow thread where they differ (R413) -/
  shadow : List (Loc × W32 × Bool) := []
  deriving DecidableEq, Repr

/-- Where an issued access is until it is performed (R204, R308, R331). Fabric accesses that have been sent are in `State.requests`. -/
inductive PendKind where
  | late (grp : Option Nat) (since : Nat) (u : LateUnit)  -- issued, not yet performed; the place of its issue group (R186), the cycle
  | home                       -- performed at the slice, not yet acknowledged
  | outbound (die k : Nat)     -- in a die's outbound path
  deriving DecidableEq, Repr

/-- A monitor a thread waits on (R246). -/
structure Watch where
  /-- `waitc`, at a home slice; otherwise `waitw`, in the scratchpad -/
  global : Bool
  /-- physical address, or byte of the core's scratchpad part -/
  pa : Nat
  va : W64
  bytes : Nat
  signed : Bool
  cond : Nat
  cmp : W64
  dst : Nat
  acq : Bool
  scope : Nat
  tags : Tags
  /-- false while the slice has no free monitor (R248) -/
  armed : Bool := true
  deriving DecidableEq, Repr

/-- What a thread waits for once its instruction has issued (R39). -/
inductive Wait where
  | none
  | parked (va : W64)                                 -- R54
  | asleep (left : Nat)                               -- R276
  | join (n : Nat) (tags : Tags)                      -- R230, R231
  | bar (b : Nat)                                     -- R243
  | watch (w : Watch)                                 -- R246
  | fence (scope ord : Nat)                           -- R204
  | host (n : W32)                                    -- R275
  | trapHeld (cause : Nat) (epc bad : W64)            -- R272
  | brk                                               -- at a `brk` that halted its crew (R274)
  | send                                              -- in `msend`, its message in `State.mail` (R260)
  deriving DecidableEq, Repr

/-- A message in an inbox (R259, R261); its sender is a thread of this device, or none. -/
structure Msg where
  words : List (W32 × Bool)
  tags : Tags
  sender : Option Nat
  seq : Nat
  deriving DecidableEq, Repr

/-- A thread (R30) with its wait, its issue-selection data (R39 to R42) and its share of the reckoning state (R352, R365). -/
structure Thread where
  pc : W64
  v : Tab Reg := []
  p : Tab PReg := []
  exited : Bool := false
  wait : Wait := .none
  handler : Bool := false
  cause : W32 := 0
  epc : W64 := 0
  badaddr : W64 := 0
  scratch : Tab W32 := []
  /-- the containment slot of the region the thread is in (R256) -/
  region : Option Nat := none
  /-- formation cycle, wait count, last-issued quarter with the place of that issue, and membership of the last issuing group of its
  PC group -/
  form : Nat := 0
  waitCnt : Nat := 0
  lastQ : Option (Nat × Nat) := none
  hot : Bool := false
  marks : List Mark := []
  settled : List W64 := []
  unwinds : List (W64 × Nat) := []
  out : List Outstanding := []
  pend : List (Nat × PendKind) := []
  /-- SCOPE of the held effect released last, and the first identifier that it took: the next one begins once that is performed at the
  SCOPE (R348) -/
  relScope : Option (Nat × Nat) := none
  /-- earliest failed posted fabric address since the last SCOPE 6 fence (R206) -/
  postFail : Option W64 := none
  arrived : BitVec 16 := 0
  holdSince : Option Nat := none
  /-- messages it has popped while it holds marks, with the places of the `mrecv` (R261) -/
  popped : List (Nat × Msg) := []
  /-- value groups of wait-form guesses: AID, first register, count (R467) -/
  deferred : List (W32 × Nat × Nat) := []
  /-- a MATRIX to be entered at the next boundary, with its sys.badaddr (R288) -/
  matrixOwed : Option W64 := none
  /-- PAGE owed by a KILL while the thread was saved (R387) -/
  pageOwed : Option W64 := none
  /-- the `sleep` that a save has ended: issued again, it waits no more (R276, R391) -/
  slept : Option W64 := none
  deriving DecidableEq, Repr

/-- What an undo-log entry restores (R356). -/
inductive LogOld where
  | reg (loc : Loc) (old : Reg)
  | sector (off : Nat) (bytes : List Byte) (poison : Bool) (tags : Tags)
  deriving DecidableEq, Repr

/-- An undo-log entry (R356). -/
structure LogEntry where
  tid : Nat
  pos : Nat
  seq : Nat
  old : LogOld
  /-- the value of a register and its poison bit in the shadow, where they differ (R416) -/
  shadow : Option (W32 × Bool) := none
  deriving DecidableEq, Repr

/-- How a debugger stopped a crew (R56, R274, R277). -/
inductive Halt where
  | boundary
  | brk
  deriving DecidableEq, Repr

/-- A crew (R30, R31): its uniform registers, undo log and stops. -/
structure Crew where
  sub : Nat
  regBase : Nat := 0
  s : Tab Reg := []
  log : List LogEntry := []
  logTail : Nat := 0
  halted : Option Halt := none
  haltReq : Bool := false
  /-- a `brk` is to halt it (R274) -/
  brkReq : Bool := false
  /-- STEP: one issue group may issue before the crew halts again (R277) -/
  stepReq : Bool := false
  /-- STEP: its issue group has issued, and the crew waits for the results (R277) -/
  stepped : Bool := false
  deriving DecidableEq, Repr

/-- A numbered barrier (R242): EXPECT is none while unset, `some 0` for ALL. -/
structure Barrier where
  phase : Bool := false
  arrived : Nat := 0
  expect : Option Nat := none
  rtags : Tags := 0
  /-- the phase's arrivals by threads, with the places of their `bar` (R245) -/
  arrivals : List (Nat × Nat) := []
  deriving DecidableEq, Repr

/-- A queue entry (R290). -/
structure QEntry where
  val : W64
  poison : Bool
  deriving DecidableEq, Repr

/-- A message that waits in `msend` (R259, R260, R370): the receiving block of the sender's node, the words, the AIDs of its tag
set, and the predicate that the outcome goes to. -/
structure Mail where
  sender : Nat
  idx : Nat
  words : List (W32 × Bool)
  aids : List W32
  pd : Nat
  seq : Nat
  /-- SCOPE of an ORD release: earlier accesses of the sender are performed at it before the message enters the inbox -/
  rel : Option Nat := none
  deriving DecidableEq, Repr

/-- MODE of a tile (R129). -/
inductive TileMode where
  | empty | fix64 | f64
  deriving DecidableEq, Repr

/-- An accumulator tile (R129); elements not listed are 0. -/
structure Tile where
  mode : TileMode := .empty
  bandA0 : Option (BitVec 16) := none
  bandA1 : Option (BitVec 16) := none
  bandB0 : Option (BitVec 16) := none
  bandB1 : Option (BitVec 16) := none
  kcount : Nat := 0
  rowFlags : BitVec 128 := 0
  colFlags : BitVec 128 := 0
  el : Tab W64 := []
  /-- absent after a restore, with the physical address of its record (R402) -/
  absent : Option Nat := none
  /-- elements with an uncorrectable error (R411) -/
  bad : List Nat := []
  deriving DecidableEq, Repr

/-- State of the matrix sequencer (R292). -/
inductive SeqState where
  | running | waiting | ended | stopped
  deriving DecidableEq, Repr

/-- What the sequencer waits for (R399 SWAIT). -/
inductive SeqWait where
  | none
  | bar (b : Nat)
  | queue (q : Nat)
  | engine
  | tile (acc : Nat)      -- an absent tile that its `mma` waits for (R402)
  | fault
  deriving DecidableEq, Repr

/-- The matrix sequencer of a block (R278). -/
structure Sequencer where
  pc : W64 := 0
  st : SeqState := .ended
  detail : Nat := 0
  wait : SeqWait := .none
  x : Tab W64 := []
  deriving DecidableEq, Repr

/-- The address of the sequencer's next word: one that waits in `mbar.sync` has issued its word (R282, R292). -/
def Sequencer.next (q : Sequencer) : W64 := match q.wait with | .bar _ => q.pc + 12 | _ => q.pc

/-- Access of a region record (R109, R379). -/
inductive Access where
  | r | w | rw | red
  deriving DecidableEq, Repr

/-- A region record (R379): base, extent, stride, access. -/
structure Region where
  base : Int
  extent : Nat
  stride : Int
  acc : Access
  deriving DecidableEq, Repr

/-- The launch parameters of a node (R33, R108, R377). -/
structure Launch where
  entry : W64 := 0
  stream : Option W64 := none
  undolog : Nat := 0
  fair : Nat := 4096
  regs : Nat := 8
  uregs : Nat := 16
  threads : Nat := 1
  crews : Nat := 1
  carveout : Nat := 0
  progress : Nat := 0
  shadow : Bool := false
  blocks : Nat := 1
  spKib : Nat := 0
  tiles : Nat := 0
  /-- base and size in bytes of c0 to c7 (R69, R377) -/
  windows : List (W64 × Nat) := []
  regions : List Region := []
  deriving DecidableEq, Repr

/-- How far a block's departure has gone. -/
inductive BlockStage where
  | resident
  | ending          -- every thread has exited; effects and accesses drain (R38)
  | saving          -- crews stop for a save (R391)
  | saved           -- in the context's save area (R392)
  | swapped         -- in the context's swap area (R403)
  | restoring       -- eligible for placement again (R401)
  | gone            -- its context has ended; copy commands that it has issued still run (R393)
  deriving DecidableEq, Repr

/-- A block (R31) that has been placed and has not published. -/
structure Block where
  ctx : BitVec 16
  task : W32
  index : Nat
  node : Nat
  core : Nat
  spBase : Nat := 0
  tba : W64
  reckon : Nat
  launch : Launch
  bars : Tab Barrier := []
  queues : Tab (List QEntry) := []
  inbox : List Msg := []
  sequencer : Sequencer := {}
  tiles : Tab Tile := []
  stage : BlockStage := .resident
  placedAt : Nat := 0
  /-- completion words written by its commands: the command's thread, offset and value (R384) -/
  copyWords : List (Nat × Nat × W32) := []
  /-- offset of its record in the save or swap area -/
  saveOff : Nat := 0
  saveLen : Nat := 0
  /-- its record as the device wrote it, up to its tiles (R400) -/
  saveRec : List Byte := []
  /-- a satisfying write has reached a monitor of the swapped block (R403) -/
  woken : Bool := false
  /-- cycles for which it has been passed over on its way back (R382, R401) -/
  passed : Nat := 0
  /-- the die whose memory holds its undo logs (R355, R368) -/
  logDie : Nat := 0
  deriving DecidableEq, Repr

/-- An L1 line (R319, R202): bytes held, those written here, and the update-only partial. -/
structure L1Line where
  ctx : BitVec 16
  line : Nat                 -- virtual address / 128
  pa : Nat                   -- physical address of the line, under the translation it was filled with (R423)
  leaf : Page                -- its copy of the leaf (R423)
  data : List Byte
  dirty : BitVec 128 := 0
  /-- update-only: AOP, type, RND; `dirty` marks the elements reduced into (R202) -/
  red : Option (Nat × Ty × Rnd) := none
  poison : BitVec 4 := 0
  /-- sectors struck by an uncorrectable error while held here (R408) -/
  hurt : BitVec 4 := 0
  /-- threads that wrote the dirty bytes: sector of the line and thread (R204, R332) -/
  by_ : List (Nat × Nat) := []
  deriving DecidableEq, Repr

/-- KIND of a slot (R350). -/
inductive SlotKind where
  | free | guess | mirror | contain
  deriving DecidableEq, Repr

/-- The monitor of a `guess.w` (R251). -/
structure GuessWatch where
  pa : Nat
  bytes : Nat
  pending : W64
  presumed : W64
  acq : Bool
  scope : Nat
  /-- false while the slice has no free monitor (R248) -/
  armed : Bool := true
  deriving DecidableEq, Repr

/-- An assumption slot (R350). -/
structure Slot where
  kind : SlotKind := .free
  aid : W32 := 0
  ctx : BitVec 16 := 0
  /-- the guessing thread; for containment, the threads of the opening group still inside -/
  owner : Nat := 0
  group : List Nat := []
  /-- every thread of the opening group, and the address of the `ctn.open` (R258) -/
  opened : List Nat := []
  parents : Tags := 0
  watch : Option GuessWatch := none
  gen : Nat := 0
  /-- address of the guess, first register and count of its value group, wait form (R250, R467) -/
  at_ : W64 := 0
  dst : Nat := 0
  cnt : Nat := 0
  waitForm : Bool := false
  /-- the presumption b and its poison bit -/
  val : W64 := 0
  valPoison : Bool := false
  /-- handler address of a region (R256) -/
  handler : W64 := 0
  seq : Nat := 0
  deriving DecidableEq, Repr

/-- A held-effect entry (R359). -/
structure Held where
  t : Nat
  pc : W64
  seq : Nat
  tags : Tags
  eff : Effect
  deriving DecidableEq, Repr

/-- A byte of a core's scratchpad part with the context that last wrote it (R36). -/
structure SByte where
  val : Byte
  ctx : BitVec 16
  deriving DecidableEq, Repr

/-- A core (R14). -/
structure Core where
  scratch : Tab SByte := []
  stags : Tab Tags := []
  spoison : List Nat := []
  /-- bytes inside a placed allotment that a block of another context wrote last, and the poison marks such a context left there: what
  runs there sees neither (R36) -/
  shade : Tab SByte := []
  shadeMarks : List (Nat × BitVec 16) := []
  /-- ranges of the scratchpad part, start and bytes, that a block has held since the last start (R36) -/
  worn : List (Nat × Nat) := []
  /-- for each context, the identifier that was next when a block of it was placed here last (R323) -/
  lastPlaced : Tab Nat := []
  l1 : List L1Line := []
  slots : Tab Slot := []
  held : List Held := []
  /-- 0 to 3 while the core is not empty (R17, R108) -/
  carve : Option Nat := none
  active : Option (BitVec 16) := none
  /-- block and tile whose `mma` is running (R286) -/
  engine : Option (Nat × Nat) := none
  deriving DecidableEq, Repr

/-- A byte of a run that a command has read ahead of the run, with what it read, and the destination that has received it: the place of a
core among those of MCAST, 0 without (R302, R305). -/
structure AheadByte where
  run : Nat
  byte : Nat
  target : Nat
  val : Byte
  poison : Bool
  deriving DecidableEq, Repr

/-- A block that left its core while commands of its context ran (R392, R393): the core, its allotment there, and its register words there as
sub-core, first word and count. -/
structure Departed where
  uid : Nat
  core : Nat
  base : Nat
  bytes : Nat
  regs : List (Nat × Nat × Nat)
  deriving DecidableEq, Repr

/-- A copy command that has started (R293, R294). -/
structure Copy where
  blk : Nat
  t : Nat
  core : Nat
  ctx : BitVec 16
  op : Nat                    -- 0 cpyt, 1 cpyg, 2 cpym
  record : List Byte
  handle : W32 := 0
  /-- waits on a translation fault (R296, R425) -/
  faulted : Bool := false
  killed : Bool := false
  /-- status reported for its writes on other devices and on the members of a `cpym` -/
  status : Nat := 0
  /-- runs moved whole, bytes moved ahead, and the offsets of rows that have been read for them (R295, R302, R305) -/
  runsDone : Nat := 0
  ahead : List AheadByte := []
  rows : List (Nat × W64) := []
  /-- what it has written, newest first: memory or a core's scratchpad, the start, and the poison of each byte (R409) -/
  wrote : List (Option Nat × Nat × List Bool) := []
  /-- a source byte was poisoned (R298) -/
  poisoned : Bool := false
  /-- the cycle in which it was issued, and the lines whose reads have had no completion (R443) -/
  asked : Nat := 0
  lost : List Nat := []
  /-- blocks of its context that have left their cores since it started -/
  left : List Departed := []
  /-- its writes that have entered outbound paths (R344) -/
  outIds : List Nat := []
  /-- payload moved; the command waits for its writes on other devices, or for a full queue -/
  moved : Bool := false
  /-- status of the movement itself -/
  result : Nat := 0
  /-- the completion word is written -/
  worded : Bool := false
  /-- source bytes that other devices have answered: device, physical address, bytes, poison -/
  got : List (BitVec 12 × Nat × List Byte × Bool) := []
  deriving DecidableEq, Repr

/-- A write in a die's outbound path (R331). -/
structure OutWrite where
  id : Nat
  pa : Nat
  data : List Byte
  /-- sectors whose mark it clears beside those it covers whole: of the last piece of a store that does (R409) -/
  cleans : List Nat := []
  /-- sectors it marks (R296, R408) -/
  marks : List Nat := []
  /-- it writes one nibble of its byte, the high one or the low (R305) -/
  half : Option Bool := none
  /-- the core whose L1 it left (R321) -/
  core : Option Nat := none
  /-- the cycle in which it entered (R443) -/
  since : Nat := 0
  deriving DecidableEq, Repr

/-- A group open in the switches (R213). -/
structure Group where
  gen : Nat
  members : List (BitVec 12)
  ordered : Bool
  deriving DecidableEq, Repr

/-- The status register that the threads of one issue group write together (R215, R341). -/
structure GroupOp where
  crew : Nat
  seq : Nat
  reg : Nat
  /-- threads whose operation is not complete -/
  waiting : List Nat
  results : List (Nat × Nat) := []
  tags : Tags := 0
  deriving DecidableEq, Repr

/-- One member's answer to a request (R211, R216). -/
structure Answer where
  member : Nat
  leaf : BitVec 8
  status : Nat
  data : List Byte
  deriving DecidableEq, Repr

/-- What a fabric request is for. -/
inductive ReqKind where
  /-- the k-th unit of a load -/
  | piece (out k : Nat)
  /-- the scale byte or the band record word that the encode store of an identifier reads, and its address -/
  | encodeRead (id : Nat) (band : Bool) (va : W64)
  | store (va : W64)
  | atom (f : Fields) (out : Nat)
  | red (f : Fields) (va : W64)
  | ldred (f : Fields) (out : Nat)
  | stmc (f : Fields) (out : Nat)
  | cpym (copy : Nat)
  | copyRead (copy : Nat) (dev : BitVec 12) (pa n : Nat)
  | mail (out : Nat)
  deriving DecidableEq, Repr

/-- An outstanding fabric request (R338). -/
structure Request where
  id : Nat
  port : Nat
  tag : BitVec 12
  gen : BitVec 4
  t : Nat
  ctx : BitVec 16
  /-- task and block of its thread (R384) -/
  task : W32
  index : Nat
  kind : ReqKind
  members : List (BitVec 12)
  answers : List Answer := []
  /-- members' handle index, for groups -/
  handle : Option Nat := none
  ordered : Bool := false
  pa : Nat
  data : List Byte
  /-- poison of bytes of a write, or of words of a message (R259, R296) -/
  poison : List Bool := []
  issued : Nat
  timeout : Nat
  deriving DecidableEq, Repr

/-- A fabric access of another device that waits for a gang slice (R337 step 2, R386), with the timeout it came under (R433). -/
structure Incoming where
  src : BitVec 12
  ctx : BitVec 16
  op : FabOp
  pa : Nat
  data : List Byte
  since : Nat
  timeout : Nat
  deriving DecidableEq, Repr

/-- A fabric port (R434 to R438). -/
structure Port where
  state : Nat := 0
  mode : Nat := 0
  erase : Nat := 15
  failed : BitVec 8 := 0
  /-- classes paused (R437) -/
  paused : BitVec 4 := 0
  gens : Tab (BitVec 4) := []
  stale : Nat := 0
  /-- of each tag, whose its last request was: context, task, block, thread (R338, R448) -/
  last : Tab (BitVec 16 × W32 × Nat × Nat) := []
  /-- when it began to retrain (R435) -/
  since : Option Nat := none
  deriving DecidableEq, Repr

/-- Pre-emption of a context on one die (R390). -/
inductive DieStage where
  | idle
  | drain (left : Nat)
  | save (left : Nat)
  | done
  deriving DecidableEq, Repr

/-- A block that has published, as the edges to later blocks see it (R322, R323): its node, its index, the core it ran on, its identifier,
its node's launch. -/
structure Ran where
  seq : Nat
  idx : Nat
  core : Nat
  uid : Nat
  launch : Launch
  deriving DecidableEq, Repr

/-- What a counter has counted for a context, at the finest level to which it is still attributed (R446, R448, R452): the context, a task, a block
or a thread; the identity fields below that level are 0. -/
structure Tally where
  group : Nat
  index : Nat
  level : Nat
  task : Nat := 0
  blk : Nat := 0
  tid : Nat := 0
  n : Nat
  deriving DecidableEq, Repr

/-- A context the helm has made live (R374, R388, R444, R447). -/
structure Context where
  tba : W64 := 0
  reckon : Nat := 65536
  cores : BitVec 256 := 0
  rpBase : Nat := 0
  rpLog : Nat := 4
  saveBase : Nat := 0
  saveSize : Nat := 0
  slice : Nat := 0
  drain : Nat := 0
  force : Nat := 0
  pair : BitVec 16 := 0xFFFF
  swapBase : Nat := 0
  swapSize : Nat := 0
  hasPolicy : Bool := false
  faddr : Nat := 2
  timek : Nat := 0
  gran : List Byte := []
  fwBase : Nat := 0
  fwSize : Nat := 0
  fwPerm : Nat := 0
  ended : Bool := false
  /-- report entries dropped since the last LOST (R384) -/
  lost : Nat := 0
  /-- gang slice begun (R386) -/
  begun : Bool := false
  stage : Nat := 5
  dies : Tab DieStage := []
  sliceLeft : Tab Nat := []
  groups : Tab Group := []
  groupGen : Nat := 0
  /-- length used of the save area, offsets of the records, and the record as written (R400) -/
  saveUsed : Nat := 0
  /-- blocks that have published -/
  ran : List Ran := []
  /-- its counters (R448, R452) -/
  tallies : List Tally := []
  deriving DecidableEq, Repr

/-- How far a block of a node has come (R382). -/
inductive BlkState where
  | waiting (passed : Nat)    -- cycles passed over
  | placed (uid : Nat)
  | published
  deriving DecidableEq, Repr

/-- A task node (R377). -/
structure Node where
  ctx : BitVec 16
  task : W32
  seq : Nat
  prio : Nat
  launch : Launch
  cplAddr : Nat
  /-- states of blocks other than `waiting 0` -/
  blks : Tab BlkState := []
  /-- core on which each published block ran, with what it wrote, for the edges (R323) -/
  ranOn : Tab Nat := []
  done : Bool := false
  /-- barrier entries it meets: the interval and the mark M (R381) -/
  marks : List (Int × Int × Nat) := []
  /-- blocks passed over for too long (R382) -/
  starved : List Nat := []
  deriving DecidableEq, Repr

/-- A logbook entry (R380, R381): a byte interval, its last writer, its readers, and its barrier mark. -/
structure LogbookEntry where
  lo : Int
  hi : Int
  ctx : BitVec 16
  writer : Option Nat := none
  readers : List Nat := []
  mark : Option Nat := none
  deriving DecidableEq, Repr

/-- A queue descriptor (R373). -/
structure Queue where
  base : Nat := 0
  tail : BitVec 16 := 0
  head : BitVec 16 := 0
  logSize : Nat := 0
  prio : Nat := 0
  stop : Bool := false
  ctx : BitVec 16 := 0
  deriving DecidableEq, Repr

/-- A task record the helm has read from a ring and not yet acted on (R375 to R377). -/
structure TakenRec where
  q : Nat
  seq : Nat
  prio : Nat
  ctx : BitVec 16
  bytes : List Byte
  deriving DecidableEq, Repr

/-- A report entry before filtering (R384). -/
structure Report where
  kind : Nat
  code : Nat := 0
  crew : Nat := 0
  tid : Nat := 0
  task : W32 := 0
  blk : Nat := 0
  n : Nat := 0
  value : Nat := 0
  value2 : Nat := 0
  deriving DecidableEq, Repr

/-- A write of the helm that a takeover puts off (R385). -/
inductive Owed where
  | report (ctx : BitVec 16) (r : Report)
  | record (pa : Nat) (bytes : List Byte)
  deriving DecidableEq, Repr

/-- What the helm has done, which a takeover may find no end entry of and repeat (R385): a record write, or the edge action of a block that
publishes or is placed. -/
inductive Journaled where
  | record (pa : Nat) (bytes : List Byte)
  | edgeOut (ctx : BitVec 16) (core : Nat) (launch : Launch) (idx : Nat)
  | edgeIn (ctx : BitVec 16) (core : Nat) (launch : Launch) (idx : Nat)
  deriving DecidableEq, Repr

/-- Registers of BAR 0 and the helm's own state (R371 to R386, R417, R432 to R443, R451 to R460). -/
structure Helm where
  hstat : W32 := 0
  standby : Bool := true
  ctxtab : Nat := 0
  kicks : List Nat := []
  queues : Tab Queue := []
  /-- next submission sequence (R376) -/
  nextSeq : Nat := 1
  taken : List TakenRec := []
  /-- host resume records of threads that are saved (R394) -/
  later : List TakenRec := []
  logbook : List LogbookEntry := []
  /-- what was journalled in this cycle, after the last thing of those before, oldest first -/
  journal : List Journaled := []
  /-- what it is to write once a takeover is over -/
  owed : List Owed := []
  /-- blocks that have ended during a takeover, in the order in which they ended (R385) -/
  endedLate : List Nat := []
  ctxCtx : BitVec 16 := 0
  stageCtx : BitVec 16 := 0
  ctxErr : Bool := false
  dbgSel : W64 := 0
  dbgCtx : BitVec 16 := 0
  /-- contexts a debugger is attached to: DBG of their threads (R268, R277) -/
  attached : List (BitVec 16) := []
  errBase : W64 := 0
  errLog : Nat := 0
  errTail : W32 := 0
  errHead : W32 := 0
  errLost : W32 := 0
  errCorr : W64 := 0
  errSeq : Tab W32 := []
  trtab : Nat := 0
  xlBase : W64 := 0
  xlBusy : Bool := false
  /-- ranges under invalidation: context, first byte, bytes -/
  xlRanges : List (BitVec 16 × Nat × Nat) := []
  fabValid : Bool := false
  fabLeaf : BitVec 8 := 0
  fabDev : BitVec 12 := 0
  fabTo : Nat := 280000
  cxlCap : Tab Nat := []
  /-- width and speed of each CXL link, in lanes and GT/s, none while it is not trained (R442) -/
  cxlLink : Tab (Nat × Nat) := []
  sxsel : W64 := 0x0000000100000000
  sxkey : W64 := 0
  trBase : W64 := 0
  trLog : Nat := 0
  trTail : W32 := 0
  trHead : W32 := 0
  trLost : W32 := 0
  trCtl : W32 := 0
  trSeq : Tab W32 := []
  bootStep : Nat := 0
  /-- step 4 of the start is complete: HDM accesses go on (R457) -/
  hdmReady : Bool := false
  bootErr : Nat := 0
  dieFail : BitVec 4 := 0
  warm : Bool := false
  powLimit : Nat := 3200
  /-- the clock to which the power limit, and to which the junction limits, have lowered it (R459) -/
  powClock : Nat := 1400
  hotClock : Nat := 1400
  /-- REASON [1:0] -/
  reason : BitVec 2 := 0
  fwSlot : List Byte := []
  fwOpen : Bool := false
  fwStaged : Bool := false
  fwError : Bool := false
  fwRejected : Bool := false
  /-- bytes received since BEGIN -/
  fwCount : Nat := 0
  /-- the image in use in package flash, none while it is the one from manufacture -/
  fwImage : Option (List Byte) := none
  fwMeas : BitVec 512 := 0
  nonce : Tab W32 := []
  attSig : BitVec 512 := 0
  signing : Bool := false
  modules : BitVec 4 := 0xF
  /-- dies at their junction limit, and the package at its power limit (R459) -/
  hot : BitVec 4 := 0
  deriving DecidableEq, Repr

/-- What a selection has chosen to issue (R41, R278). -/
inductive Chosen where
  | group (crew : Nat) (pc : W64) (threads : List Nat)
  | stream (blk : Nat)
  deriving DecidableEq, Repr

/-- A denial by the monitor of a `guess.w` that waits for a cycle to begin (R364): the value and its poison, the core whose slot it is, and
whether the guess acquires. -/
structure Fired where
  aid : W32
  val : W64
  poison : Bool
  core : Nat
  ctx : BitVec 16
  acq : Bool
  deriving DecidableEq, Repr

/-- A part of a step still to be done (spec file 95: what comes about inside a step). -/
inductive Todo where
  | affirm (aid : W32)
  | deny (aid : W32) (x : W64) (poison : Bool)
  | release (core : Nat)                     -- held effects whose tag set is empty (R348)
  | reval (pa : Nat) (n : Nat)               -- monitors on bytes of memory (R246, R251)
  | revalS (core : Nat) (off : Nat) (n : Nat) -- monitors on scratchpad bytes
  | joins (crew : Nat)                       -- R46
  | bars (blk : Nat)                         -- R243
  | fences                                   -- fences whose accesses are performed (R204)
  | groupOp (crew seq : Nat)                 -- the status register of a group operation (R341)
  | contain (core slot : Nat) (cause t unit pa : Nat)  -- R258, with the thread and the place that its record names (R412, R472)
  | endCtx (ctx : BitVec 16) (code : Nat) (t : Option Nat) (addr : W64)
  | noMemory (pa : Nat)                      -- the helm was given an address with no memory (R424)
  deriving DecidableEq, Repr

/-- A register in which the shadow of a crew differs from its leading crew (R413 to R415): of a thread, or of the crew under the key of its
thread 0; the value there and its poison bit. -/
structure ShadowReg where
  t : Nat
  loc : Loc
  val : W32
  poison : Bool
  deriving DecidableEq, Repr

/-- A leaf that a memory controller keeps (R423): context, page number at the leaf's level, level, entry. -/
structure KeptLeaf where
  ctx : BitVec 16
  page : Nat
  level : Nat
  entry : Nat
  deriving DecidableEq, Repr

/-- The device. -/
structure State where
  cycle : Nat := 0
  /-- what `sr.cycle` of each die is ahead of `cycle`: the four counts bear no fixed relation (R21) -/
  dieOff : Tab Nat := []
  mem : List Host.Cell := []
  /-- 32-byte sectors of physical memory that are marked poisoned (R408) -/
  marked : List Nat := []
  /-- leaves kept by the memory controllers, which translate until an invalidation drops them (R423, R427) -/
  leaves : List KeptLeaf := []
  threads : Tab Thread := []
  crews : Tab Crew := []
  blocks : Tab Block := []
  cores : Tab Core := []
  ctxs : Tab Context := []
  nodes : Tab Node := []
  copies : Tab Copy := []
  outbound : Tab (List OutWrite) := []
  ports : Tab Port := []
  requests : List Request := []
  /-- requests that no port has taken yet (R338, R438) -/
  unsent : List Request := []
  groupOps : List GroupOp := []
  incoming : List Incoming := []
  mail : List Mail := []
  helm : Helm := {}
  /-- answers this device has sent to other devices, newest first -/
  replies : List (BitVec 12 × Nat × List Byte) := []
  /-- answers that no port has taken yet, oldest first (R437, R438) -/
  repliesDue : List (BitVec 12 × Nat × List Byte) := []
  /-- bytes of the last host read of memory (R440) -/
  hostData : List Byte := []
  /-- HDM accesses of the host that wait for step 4 of a start: whether each writes, its address and its bytes (R457) -/
  hostWaiting : List (Bool × Nat × List Byte) := []
  /-- SXVAL as last read (R451) -/
  sxval : W64 := 0
  /-- next identifiers of the model: blocks, outstanding results, copies, requests, issue order -/
  nextUid : Nat := 0
  nextId : Nat := 0
  seq : Nat := 0
  /-- counter of the free values (log 6) -/
  free : Nat := 0
  todo : List Todo := []
  agenda : List Instr := []
  cur : Option Chosen := none
  /-- threads that the issue in progress leaves waiting at its word -/
  stayed : List Nat := []
  /-- blocks whose sequencers, and sub-cores (4 × core + sub-core) that, have selected in this cycle -/
  seqsDone : List Nat := []
  subsDone : List Nat := []
  /-- threads that were ready as the cycle began: a selection takes no other (R18, R290) -/
  up : List Nat := []
  /-- denials by monitors that the next cycle begins with (R364) -/
  fired : List Fired := []
  /-- the registers in which shadow crews differ from their leading crews (R413): every other register of a shadow equals the leading one -/
  shadow : List ShadowReg := []
  /-- threads whose shadow has left their path (R415) -/
  astray : List Nat := []
  deriving DecidableEq, Repr

/-- The device right after reset: before step 0 of a cold start (R455, R456), every register at the reset value of its table
and at the values of log 2 to 9 where its table gives none. -/
def State.reset : State := {}

end Sys2Proof.Machine
end

