-- ==== Sys2Proof/Machine/Ops.lean ====
section
/-! DEFINITION. The named operations over memory, registers, tags, marks and the undo log, the entry into a trap handler and
the return from it, and the performance of one instruction by the threads of an issue group. -/

namespace Sys2Proof.Machine

/-! ## Bytes -/

/-- The little-endian bytes of a number (R4). -/
def leBytes (n : Nat) (x : Nat) : List Byte := (List.range n).map fun k => BitVec.ofNat 8 (x / 2 ^ (8 * k))

/-- The number of little-endian bytes (R4). -/
def ofBytes (bs : List Byte) : Nat := bs.foldr (fun b acc => b.toNat + 256 * acc) 0

/-! ## Physical memory -/

/-- What a byte of memory that nothing has written reads as (log 2): 0, but where the band record of a scale frame would stand its reset
value 0x3F80 (R126, R127). DESIGN CHOICE, unsafe. -/
def memDefault (a : Nat) : Byte := if a % 0x8000 = 0x4000 then 0x80 else if a % 0x8000 = 0x4001 then 0x3F else 0

/-- The byte at a physical address. -/
def memGet : List Host.Cell → Nat → Byte
  | [], a => memDefault a
  | (j, x) :: r, a => if j = a then x else memGet r a

/-- Writes one byte, keeping the canonical form: addresses rise and no entry equals the default. -/
def memSet : List Host.Cell → Nat → Byte → List Host.Cell
  | [], a, x => if x = memDefault a then [] else [(a, x)]
  | (j, y) :: r, a, x =>
    if a < j then (if x = memDefault a then (j, y) :: r else (a, x) :: (j, y) :: r)
    else if a = j then (if x = memDefault a then r else (a, x) :: r)
    else (j, y) :: memSet r a x

/-- The bytes at n consecutive addresses. -/
def memRead (m : List Host.Cell) (a n : Nat) : List Byte := (List.range n).map fun k => memGet m (a + k)

/-- Writes consecutive bytes. -/
def memWrite (m : List Host.Cell) : Nat → List Byte → List Host.Cell
  | _, [] => m
  | a, b :: bs => memWrite (memSet m a b) (a + 1) bs

/-- Every address of the cells is above a bound and they rise. -/
def memRising : Nat → List Host.Cell → Bool
  | _, [] => true
  | lo, (a, x) :: r => decide (lo ≤ a) && x != memDefault a && memRising (a + 1) r

/-- The canonical form of memory: addresses strictly rising, no entry equal to what an unlisted address reads as. -/
def Memory.wf (m : List Host.Cell) : Bool := memRising 0 m

/-- Two ranges meet. -/
def overlap (a n b m : Nat) : Bool := decide (a < b + m && b < a + n)

/-! ## Identifiers: thread keys hold block, crew and sr.tid -/

/-- The key of a thread. -/
def threadKey (uid crew tid : Nat) : Nat := (uid * 4 + crew) * 128 + tid
/-- The key of a thread's crew. -/
def crewOf (t : Nat) : Nat := t / 128
/-- The identifier of a thread's block. -/
def blockOf (t : Nat) : Nat := t / 512
/-- `sr.tid` of a thread (R31). -/
def tidOf (t : Nat) : Nat := t % 128
/-- `sr.crew` of a thread (R31). -/
def crewIx (t : Nat) : Nat := t / 128 % 4

/-- A block not placed: what a missing identifier reads as. -/
def Block.absent : Block :=
  { ctx := 0, task := 0, index := 0, node := 0, core := 0, tba := 0, reckon := 65536, launch := {} }

/-- A thread by its key. -/
def State.thread (s : State) (t : Nat) : Thread := tgetD s.threads t { pc := 0, exited := true }
/-- A crew by its key. -/
def State.crew (s : State) (c : Nat) : Crew := tgetD s.crews c { sub := 0 }
/-- A block by its identifier. -/
def State.block (s : State) (b : Nat) : Block := tgetD s.blocks b Block.absent
/-- A core by die × 64 + core. -/
def State.core (s : State) (c : Nat) : Core := tgetD s.cores c {}
/-- A context by its number. -/
def State.ctx (s : State) (c : BitVec 16) : Context := tgetD s.ctxs c.toNat {}

/-- Replaces a thread. -/
def State.setThread (s : State) (t : Nat) (x : Thread) : State := { s with threads := tset s.threads t x }
/-- Replaces a crew. -/
def State.setCrew (s : State) (c : Nat) (x : Crew) : State := { s with crews := tset s.crews c x }
/-- Replaces a block. -/
def State.setBlock (s : State) (b : Nat) (x : Block) : State := { s with blocks := tset s.blocks b x }
/-- Replaces a core. -/
def State.setCore (s : State) (c : Nat) (x : Core) : State := { s with cores := tset s.cores c x }
/-- Replaces a context. -/
def State.setCtx (s : State) (c : BitVec 16) (x : Context) : State := { s with ctxs := tset s.ctxs c.toNat x }

/-- Changes a thread that exists. -/
def State.modThread (s : State) (t : Nat) (f : Thread → Thread) : State := { s with threads := tmod s.threads t f }
/-- Changes a crew that exists. -/
def State.modCrew (s : State) (c : Nat) (f : Crew → Crew) : State := { s with crews := tmod s.crews c f }
/-- Changes a block that exists. -/
def State.modBlock (s : State) (b : Nat) (f : Block → Block) : State := { s with blocks := tmod s.blocks b f }
/-- Changes a core, made when it is not listed. -/
def State.modCore (s : State) (c : Nat) (f : Core → Core) : State := s.setCore c (f (s.core c))
/-- Changes a context that exists. -/
def State.modCtx (s : State) (c : BitVec 16) (f : Context → Context) : State := { s with ctxs := tmod s.ctxs c.toNat f }
/-- Changes the helm's registers. -/
def State.modHelm (s : State) (f : Helm → Helm) : State := { s with helm := f s.helm }

/-- The core of a thread, as die × 64 + core. -/
def State.coreOf (s : State) (t : Nat) : Nat := (s.block (blockOf t)).core
/-- The die of a core. -/
def dieOf (core : Nat) : Nat := core / 64

/-- The keys of the threads of a crew, in ascending `sr.tid`. -/
def State.crewThreads (s : State) (c : Nat) : List Nat := (s.threads.map (·.1)).filter fun t => crewOf t == c
/-- The keys of the threads of a block, crew by crew. -/
def State.blockThreads (s : State) (b : Nat) : List Nat := (s.threads.map (·.1)).filter fun t => blockOf t == b
/-- The identifiers of the blocks on a core. A block that is saved or swapped out stands on a key of its own, from 256 upwards, with
its reckoning state (R368). -/
def State.coreBlocks (s : State) (c : Nat) : List Nat :=
  (s.blocks.filter fun (_, b) => b.core == c).map (·.1)
/-- The keys of the threads on a core. -/
def State.coreThreads (s : State) (c : Nat) : List Nat :=
  (s.threads.map (·.1)).filter fun t => (s.coreBlocks c).contains (blockOf t)

/-- Adds parts of this step that are still to be done. -/
def State.addTodo (s : State) (l : List Todo) : State := { s with todo := s.todo ++ l }

/-! ## Populated memory -/

/-- The on-chip map (R430). -/
def onChipBase : Nat := 0xF000000000000
/-- The base of CXL port p's window (R424). -/
def cxlBase (p : Nat) : Nat := 0x8000000000000 + p * 2 ^ 40

/-- The whole range [pa, pa + n) lies in populated memory of one range of R424: HBM4E, or the attached part of a CXL port
(R473). -/
def State.populated (s : State) (pa n : Nat) : Bool :=
  decide (pa + n ≤ 2 ^ 40) ||
    (List.range 8).any fun p =>
      decide (cxlBase p ≤ pa && pa + n ≤ cxlBase p + tgetD s.helm.cxlCap p 0 * 2 ^ 12)

/-- The helm reaches n bytes of memory: where there is none the machine stops. -/
def State.helmTouch (s : State) (pa n : Nat) : State := if s.populated pa n then s else s.addTodo [.noMemory pa]

/-! ## Free values and choices (log 6) -/

/-- A free value. -/
def State.freeWord (s : State) : W64 × State := (Config.freeValue s.free, { s with free := s.free + 1 })
/-- The formation cycle of a group that forms now (R39). A restored group comes after those of its cycle (R401), so that a cycle has 65,536
places for them. -/
def State.formNow (s : State) : Nat := 65536 * s.cycle
/-- Free values of n bytes. -/
def State.freeBytes (s : State) (n : Nat) : List Byte × State :=
  ((List.range n).map fun k => (Config.freeValue (s.free + k)).setWidth 8, { s with free := s.free + n })
/-- A free choice of a number from 0 to n. -/
def State.choose (s : State) (n : Nat) : Nat × State :=
  (Config.freeChoice s.free n % (n + 1), { s with free := s.free + 1 })

/-! ## Registers -/

/-- The zero register (R35). -/
def Reg.zero : Reg := { val := 0, poison := false, tags := 0 }
/-- Vector register n of a thread. -/
def Thread.getV (th : Thread) (n : Nat) : Reg := tgetD th.v n Reg.zero
/-- Predicate n of a thread; p15 is true, clear and untagged (R61, R141). -/
def Thread.getP (th : Thread) (n : Nat) : PReg :=
  if n = 15 then { val := true, poison := false, tags := 0 } else tgetD th.p n { val := false, poison := false, tags := 0 }
/-- Uniform register n of a crew. -/
def Crew.getS (c : Crew) (n : Nat) : Reg := tgetD c.s n Reg.zero

/-- A predicate held in a Reg, bit 0. -/
def PReg.toReg (p : PReg) : Reg := { val := if p.val then 1 else 0, poison := p.poison, tags := p.tags }
/-- The predicate in bit 0 of a Reg. -/
def Reg.toPReg (r : Reg) : PReg := { val := r.val.getLsbD 0, poison := r.poison, tags := r.tags }

/-- A register of a thread. -/
def State.getLoc (s : State) (t : Nat) : Loc → Reg
  | .v n => (s.thread t).getV n
  | .s n => (s.crew (crewOf t)).getS n
  | .p n => ((s.thread t).getP n).toReg

/-- Writes a register, whatever the log; a write to p15 is discarded (R65). -/
def State.putLoc (s : State) (t : Nat) (l : Loc) (r : Reg) : State :=
  match l with
  | .v n => s.modThread t fun th => { th with v := tset th.v n r }
  | .s n => s.modCrew (crewOf t) fun c => { c with s := tset c.s n r }
  | .p n => if n = 15 then s else s.modThread t fun th => { th with p := tset th.p n r.toPReg }

/-! ## Shadow crews (R413 to R416) -/

/-- The key under which the shadow's copy of a register stands. -/
def shadowKey (t : Nat) : Loc → Nat
  | .s _ => crewOf t * 128
  | _ => t

/-- What the shadow of a thread holds in a register, where that differs. -/
def State.shadowAt (s : State) (t : Nat) (l : Loc) : Option (W32 × Bool) :=
  (s.shadow.find? fun x => x.t == shadowKey t l && x.loc == l).map fun x => (x.val, x.poison)

/-- The shadow of a thread takes a value in a register, or that of the leading thread (R414). -/
def State.setShadow (s : State) (t : Nat) (l : Loc) (d : Option (W32 × Bool)) : State :=
  let rest := s.shadow.filter fun x => !(x.t == shadowKey t l && x.loc == l)
  match d with
  | none => { s with shadow := rest }
  | some (v, p) =>
    let r := s.getLoc t l
    { s with shadow := if v == r.val && p == r.poison then rest else rest ++ [{ t := shadowKey t l, loc := l, val := v, poison := p }] }

/-- The values of registers pass from the leading thread to its shadow (R414). -/
def State.passShadow (s : State) (t : Nat) (ls : List Loc) : State := ls.foldl (fun s l => s.setShadow t l none) s

/-- The block of a thread has shadow crews, and that thread's shadow differs from it somewhere. -/
def State.shadowed (s : State) (t : Nat) : Bool :=
  (s.block (blockOf t)).launch.shadow && (s.astray.contains t || s.shadow.any fun x => x.t == shadowKey t x.loc)

/-- The state with what the shadow of a thread holds in some registers; tag sets are the leading thread's (R414). -/
def State.overlay (s : State) (t : Nat) (ls : List Loc) : State :=
  ls.foldl (fun s l => match s.shadowAt t l with
    | some (v, p) => s.putLoc t l { s.getLoc t l with val := v, poison := p }
    | none => s) s

/-- The shadow of a thread has left its path. -/
def State.stray (s : State) (t : Nat) : State := if s.astray.contains t then s else { s with astray := s.astray ++ [t] }

/-- The shadow of a thread goes where its thread is sent (R416, log 14). -/
def State.rejoinShadow (s : State) (t : Nat) : State := { s with astray := s.astray.filter (· != t) }

/-- The shadow of a block equals its leading crews (R416). -/
def State.dropShadow (s : State) (uid : Nat) : State :=
  { s with shadow := s.shadow.filter fun x => blockOf x.t != uid, astray := s.astray.filter fun t => blockOf t != uid }

/-! ## Tags, marks and the undo log (R350 to R357) -/

/-- The tag set holding one slot. -/
def tagOf (slot : Nat) : Tags := BitVec.ofNat 8 (2 ^ slot)
/-- Slots of a tag set. -/
def slotsOf (g : Tags) : List Nat := (List.range 8).filter fun k => g.getLsbD k

/-- A mark that counts in RegTagUnion (R353, R367): not that of a region the thread has left, unless it consumed the slot again. -/
def Mark.counts (m : Mark) : Bool := m.closeSeq.isNone || m.againSeq.isSome
/-- RegTagUnion(t) (R353, R367). -/
def Thread.tagUnion (th : Thread) : Tags := th.marks.foldl (fun g m => if m.counts then g ||| tagOf m.slot else g) 0
/-- The tag set of the containment slots of a core. -/
def Core.containTags (c : Core) : Tags :=
  c.slots.foldl (fun g p => if p.2.kind == SlotKind.contain then g ||| tagOf p.1 else g) 0
/-- RegTagUnion with any containment slot left out (R266, R272, R360). -/
def State.plainUnion (s : State) (t : Nat) : Tags := (s.thread t).tagUnion &&& ~~~ (s.core (s.coreOf t)).containTags

/-- Takes a mark for each slot of a tag set in which the thread holds none (R352); a mark of a closed region counts again. -/
def Thread.mark (th : Thread) (addr : W64) (logPos seq : Nat) (g : Tags) : Thread :=
  { th with
    marks := (slotsOf g).foldl (fun ms k =>
      if ms.any (·.slot == k) then ms.map fun m => if m.slot = k ∧ !m.counts then { m with againSeq := some seq } else m
      else ms ++ [{ slot := k, addr := addr, logPos := logPos, seq := seq, inHandler := th.handler }]) th.marks }

/-- A thread consumes a tag set at an instruction (R352). -/
def State.consume (s : State) (t : Nat) (addr : W64) (g : Tags) : State :=
  if g = 0 then s
  else s.modThread t fun th => th.mark addr (s.crew (crewOf t)).logTail s.seq g

/-- Bytes of a log entry (R356). -/
def LogOld.size : LogOld → Nat
  | .reg .. => 16
  | .sector .. => 40

/-- Appends a log entry for a thread that holds a mark (R356). -/
def State.logWrite (s : State) (t : Nat) (old : LogOld) : State :=
  if (s.thread t).marks.isEmpty then s
  else s.modCrew (crewOf t) fun c =>
    { c with log := { tid := tidOf t, pos := c.logTail, seq := s.seq, old := old,
                      shadow := match old with | .reg l _ => s.shadowAt t l | _ => none } :: c.log,
             logTail := c.logTail + old.size }

/-- The earliest log position any mark of a crew's threads holds, or the tail (R357). -/
def State.logHead (s : State) (c : Nat) : Nat :=
  (s.crewThreads c).foldl (fun h t => (s.thread t).marks.foldl (fun h m => min h m.logPos) h) (s.crew c).logTail

/-- A crew's log has room for n more bytes (R357). -/
def State.logRoom (s : State) (t n : Nat) : Bool :=
  decide ((s.crew (crewOf t)).logTail + n ≤ s.logHead (crewOf t) + (s.block (blockOf t)).launch.undolog)

/-- The old values of registers that an instruction will write later are logged in its place in the issue order, while the thread holds a
mark (R62, R356): nothing else writes those registers until then (R63). -/
def State.logDests (s : State) (t : Nat) (ls : List Loc) : State :=
  ls.foldl (fun s l => if l = .p 15 then s else s.logWrite t (.reg l (s.getLoc t l))) s

/-- A thread writes a register: logged while it holds a mark, tagged with RegTagUnion(t) and the given set (R353, R356). -/
def State.writeLoc (s : State) (t : Nat) (l : Loc) (val : W32) (poison : Bool) (g : Tags) : State :=
  if l = .p 15 then s
  else (s.logWrite t (.reg l (s.getLoc t l))).putLoc t l
    { val := val, poison := poison, tags := g ||| (s.thread t).tagUnion }

/-- A thread writes the registers of a group. -/
def State.writeGroup (s : State) (t : Nat) (mk : Nat → Loc) (first : Nat) (vals : List W32) (poison : Bool) (g : Tags) :
    State :=
  (List.range vals.length).foldl (fun s k => s.writeLoc t (mk (first + k)) (vals.getD k 0) poison g) s

/-- The low 32-bit words of a number. -/
def words (n : Nat) (x : Nat) : List W32 := (List.range n).map fun k => BitVec.ofNat 32 (x / 2 ^ (32 * k))

/-- The number of 32-bit words, the first lowest. -/
def ofWords (ws : List W32) : Nat := ws.foldr (fun w acc => w.toNat + 2 ^ 32 * acc) 0

/-! ## Causes (R262) -/

/-- Cause codes. -/
inductive Cause where
  | illegal | poolEntry | regRange | misalign | page | permission | undeclared | poisonUse | assumeOverflow | fabric | debug
  | matrix | shadowMismatch | trap | deadline
  deriving DecidableEq, Repr

/-- The code of a cause (R262). -/
def Cause.code : Cause → Nat
  | .illegal => 1 | .poolEntry => 2 | .regRange => 3 | .misalign => 4 | .page => 5 | .permission => 6 | .undeclared => 7
  | .poisonUse => 8 | .assumeOverflow => 9 | .fabric => 10 | .debug => 11 | .matrix => 13 | .shadowMismatch => 14
  | .trap => 15 | .deadline => 16

/-- Why a thread's instruction did not complete. -/
inductive Stop where
  /-- a cause, `sys.badaddr`, and whether `sys.epc` is the next instruction (R270) -/
  | trap (c : Cause) (bad : W64) (next : Bool := false)
  /-- poison used: UNIT and PADDR of the place where it stood (R472) -/
  | poison (bad : W64) (unit : Nat) (pa : Nat)
  /-- a translation fault: the address, the level of the failing entry, 1 read 2 write 3 read-modify-write 4 fetch (R425) -/
  | park (va : W64) (level : Nat) (kind : Nat)
  /-- the instruction waits and issues again -/
  | wait
  deriving DecidableEq, Repr

/-! ## Records the helm writes (R384, R418) -/

/-- Level of an item class in a context's policy (R446, R447); without a policy every class is full. -/
def Context.level (c : Context) (cls : Nat) : Nat := if c.hasPolicy then (c.gran.getD cls 0).toNat else 4

/-- Address filter of a policy (R450). -/
def Context.filterAddr (c : Context) (a : Nat) : Nat :=
  match c.faddr with | 0 => 0 | 1 => a / 2 ^ 16 * 2 ^ 16 | _ => a

/-- The 32 bytes of a report entry (R384). -/
def Report.bytes (r : Report) : List Byte :=
  leBytes 1 r.kind ++ leBytes 1 r.code ++ leBytes 1 r.crew ++ leBytes 1 r.tid ++ leBytes 4 r.task.toNat ++ leBytes 4 r.blk ++
    leBytes 4 r.n ++ leBytes 8 r.value ++ leBytes 8 r.value2

/-- The disclosure filter on a report entry (R449, R450): none when it is withheld. KIND 1, 2, 5 and 7 are always written, with
level 0 treated as 1. A PAGEFAULT is always written at page granularity or finer. -/
def Report.filter (r : Report) (c : Context) : Option Report :=
  let always := r.kind == 1 || r.kind == 2 || r.kind == 5 || r.kind == 7 || r.kind == 8
  let lv := c.level 12
  if lv == 0 && !always then none
  else
    let lv := if lv == 0 then 1 else lv
    let r := if lv ≥ 2 then r else { r with task := 0 }
    let r := if lv ≥ 3 then r else { r with blk := 0xFFFFFFFF }
    let r := if lv ≥ 4 then r else { r with crew := 0xFF, tid := 0xFF }
    let faddr := if r.kind == 8 && c.faddr == 0 then 1 else c.faddr
    let filt := (3 ≤ r.kind && r.kind ≤ 6) || r.kind == 8
    some (if filt then { r with value := ({ c with faddr := faddr }).filterAddr r.value } else r)

/-- Address of a context's record (R374). -/
def State.ctxRecord (s : State) (c : BitVec 16) : Nat := s.helm.ctxtab + 256 * c.toNat

/-- Places one entry in a context's report ring, which it is known to have room for (R384, R469). -/
def State.pushReport (s : State) (c : BitVec 16) (bytes : List Byte) : State :=
  let x := s.ctx c
  let rec_ := s.ctxRecord c
  let tail := ofBytes (memRead s.mem (rec_ + 0x40) 4)
  let at_ := x.rpBase + 32 * (tail % 2 ^ x.rpLog)
  let m := memWrite s.mem at_ bytes
  let s : State := { s with mem := memWrite m (rec_ + 0x40) (leBytes 4 (tail + 1)) }
  State.addTodo (State.helmTouch (s.modHelm fun h => { h with journal := h.journal ++ [.record at_ bytes] }) at_ 32)
    [.reval at_ 32, .reval (rec_ + 0x40) 4]

/-- Room in a context's report ring, in entries (R469). -/
def State.reportRoom (s : State) (c : BitVec 16) : Nat :=
  let x := s.ctx c
  let rec_ := s.ctxRecord c
  let tail := ofBytes (memRead s.mem (rec_ + 0x40) 4)
  let head := ofBytes (memRead s.mem (rec_ + 0x3C) 4)
  2 ^ x.rpLog - (tail + 2 ^ 32 - head) % 2 ^ 32

/-- The count of dropped entries is reported in one LOST entry once there is room (R384). -/
def State.reportLost (s : State) (c : BitVec 16) : State :=
  let x := s.ctx c
  if x.lost ≠ 0 && s.reportRoom c ≥ 1 then
    (s.pushReport c ((({ kind := 7, n := x.lost } : Report).filter x).getD { kind := 7, n := x.lost }).bytes).modCtx c
      fun x => { x with lost := 0 }
  else s

/-- Writes a report entry under the context's policy; dropped and counted when the ring is full (R384, R449, R469). During a takeover it is
owed until the standby core goes on, and a helm that is down writes none (R28, R385). -/
def State.report (s : State) (c : BitVec 16) (r : Report) : State :=
  let x := s.ctx c
  if x.rpBase = 0 || s.helm.hstat.toNat % 4 = 3 then s
  else if s.helm.hstat.toNat % 4 = 2 then s.modHelm fun h => { h with owed := h.owed ++ [.report c r] }
  else match r.filter x with
    | none => s
    | some r =>
      let s := s.reportLost c
      if s.reportRoom c ≥ 1 then s.pushReport c r.bytes
      else s.modCtx c fun x => { x with lost := x.lost + 1 }

/-- An error record before filtering (R418). -/
structure ErrRec where
  pa : Nat
  task : W32 := 0
  blk : Nat := 0xFFFFFFFF
  ctx : BitVec 16 := 0xFFFF
  unit : Nat
  outcome : Nat
  cause : Nat := 0
  tid : Nat := 0xFF
  die : Nat
  core : Nat := 0
  deriving DecidableEq, Repr

/-- Writes an error record to the error ring, filtered under its context's policy (R418, R449, R450, R474). -/
def State.errorRecord (s : State) (e : ErrRec) : State :=
  let h := s.helm
  let x := s.ctx e.ctx
  let own := e.ctx != 0xFFFF
  let lv := if own then x.level 13 else 4
  if lv == 0 then s
  else
    let seq := tgetD h.errSeq e.die 0
    let s := s.modHelm fun h => { h with errSeq := tset h.errSeq e.die (seq + 1) }
    if (h.errTail - h.errHead).toNat = 2 ^ (h.errLog + 4) then
      s.modHelm fun h => { h with errLost := if h.errLost = 0xFFFFFFFF then h.errLost else h.errLost + 1 }
    else
      let pa := if own then x.filterAddr e.pa else e.pa
      let task := if lv ≥ 2 then e.task.toNat else 0
      let blk := if lv ≥ 3 then e.blk else 0xFFFFFFFF
      let tid := if lv ≥ 4 then e.tid else 0xFF
      let core := if lv ≥ 4 then e.core % 64 else 0
      let w := (core * 2 ^ 24 + e.die * 2 ^ 30 + tid * 2 ^ 32 + e.cause * 2 ^ 40 + e.outcome * 2 ^ 48 + e.unit * 2 ^ 56) +
        2 ^ 64 * seq.toNat + 2 ^ 112 * e.ctx.toNat + 2 ^ 128 * blk + 2 ^ 160 * task + 2 ^ 192 * (pa % 2 ^ 52)
      let at_ := h.errBase.toNat + 32 * (h.errTail.toNat % 2 ^ (h.errLog + 4))
      let s := State.modHelm { s with mem := memWrite s.mem at_ (leBytes 32 w) } fun h => { h with errTail := h.errTail + 1 }
      State.addTodo (s.helmTouch at_ 32) [.reval at_ 32]

/-! ## Counters (R448, R452) -/

/-- Adds to a counter. -/
def addTally (l : List Tally) (x : Tally) : List Tally :=
  if l.any fun y => { y with n := 0 } == { x with n := 0 } then
    l.map fun y => if { y with n := 0 } == { x with n := 0 } then { y with n := y.n + x.n } else y
  else l ++ [x]

/-- The values of a block are kept no more: they stand in those of its task (R452). -/
def State.foldBlockTallies (s : State) (uid : Nat) : State :=
  let b := s.block uid
  s.modCtx b.ctx fun c => { c with tallies := (c.tallies.map fun x =>
    if x.level ≥ 3 && x.task == b.task.toNat && x.blk == b.index then { x with level := 2, blk := 0, tid := 0 } else x).foldl addTally [] }

/-- The values of a task are kept no more: they stand in those of its context (R452). -/
def State.foldTaskTallies (s : State) (ctx : BitVec 16) (task : W32) : State :=
  s.modCtx ctx fun c => { c with tallies := (c.tallies.map fun x =>
    if x.level ≥ 2 && x.task == task.toNat then { x with level := 1, task := 0, blk := 0, tid := 0 } else x).foldl addTally [] }

/-! ## Trap entry and return (R269 to R273) -/

/-- Entry into the handler (R269): the saved registers, HANDLER, and the program counter at `sys.tba`. A thread that enters outside an issue of
its own keeps the formation cycle and the last-issued quarter it had, of which R39 does not speak (DESIGN CHOICE, log 103). -/
def State.enterTrap (s : State) (t : Nat) (c : Cause) (epc bad : W64) : State :=
  let tba := (s.block (blockOf t)).tba
  (s.rejoinShadow t).modThread t fun th =>
    { th with cause := BitVec.ofNat 32 c.code, epc := epc, badaddr := bad, handler := true, pc := tba, wait := .none,
              holdSince := none, waitCnt := 0, hot := false }

/-- Cause of a code, for held entries. -/
def Cause.ofCode (n : Nat) : Cause :=
  match n with
  | 1 => .illegal | 2 => .poolEntry | 3 => .regRange | 4 => .misalign | 5 => .page | 6 => .permission | 7 => .undeclared
  | 8 => .poisonUse | 9 => .assumeOverflow | 10 => .fabric | 11 => .debug | 13 => .matrix | 14 => .shadowMismatch
  | 15 => .trap | _ => .deadline

/-- Delivery of a cause to its thread (R269, R271, R272): the context ends when the thread stands in its handler or `sys.tba` is
0; the entry is held while RegTagUnion without the containment slot is not empty, but for ASSUME_OVERFLOW. -/
def State.deliver (s : State) (t : Nat) (a : W64) (c : Cause) (epc bad : W64) : State :=
  if s.plainUnion t ≠ 0 && c ≠ .assumeOverflow then
    s.modThread t fun th => { th with pc := a, wait := .trapHeld c.code epc bad }
  else if (s.thread t).handler || (s.block (blockOf t)).tba = 0 then
    s.addTodo [.endCtx (s.block (blockOf t)).ctx c.code (some t) a]
  else s.enterTrap t c epc bad

/-- A thread at address a raises a cause (R258, R269 to R272): POISON_USE and SHADOW_MISMATCH inside a region deny its slot. UNIT and PADDR
are those of its error record: R472 gives a mismatch none, so that they read as those of a predicate (DESIGN CHOICE, log 100). -/
def State.raise (s : State) (t : Nat) (a : W64) (c : Cause) (epc bad : W64) (unit : Nat := 4) (pa : Nat := 0) : State :=
  match (s.thread t).region with
  | some slot =>
    if (c == .poisonUse || c == .shadowMismatch) && !(s.thread t).handler then
      (s.addTodo [.contain (s.coreOf t) slot c.code t unit pa]).modThread t fun th => { th with pc := a }
    else s.deliver t a c epc bad
  | none => s.deliver t a c epc bad

/-- The error record that names a thread (R418, R472). -/
def State.threadRecord (s : State) (t outcome cause unit pa : Nat) : State :=
  let b := s.block (blockOf t)
  s.errorRecord { pa := pa, task := b.task, blk := b.index, ctx := b.ctx, unit := unit, outcome := outcome,
                  cause := cause, tid := tidOf t, die := dieOf b.core, core := b.core }

/-- The error record of a consumption of poison (R418, R471, R472): OUTCOME 2 trapped, 5 context ended. Inside a region the denial of the
slot writes the one record (R412). -/
def State.poisonRecord (s : State) (t : Nat) (unit pa : Nat) : State :=
  let th := s.thread t
  if th.region.isSome && !th.handler then s
  else s.threadRecord t (if th.handler || (s.block (blockOf t)).tba = 0 then 5 else 2) Cause.poisonUse.code unit pa

/-- Parks a thread at its instruction (R54). The report entry is written once for the whole access (R425). -/
def State.park (s : State) (t : Nat) (a va : W64) : State := s.modThread t fun th => { th with pc := a, wait := .parked va }

/-- Threads that the issue in progress leaves waiting at its word: it is no issue of theirs (R39, R41). -/
def State.stay (s : State) (ts : List Nat) : State := { s with stayed := s.stayed ++ ts }

/-- A thread waits at the word it has begun, which is issued again for it. -/
def State.stayAt (s : State) (t : Nat) (a : W64) : State := (s.modThread t fun th => { th with pc := a }).stay [t]

/-- What a stopped instruction does to its thread at address a. -/
def State.stopThread (s : State) (t : Nat) (a : W64) (x : Stop) : State :=
  match x with
  | .trap c bad next => s.raise t a c (if next then a + 12 else a) bad
  | .poison bad unit pa => (s.poisonRecord t unit pa).raise t a .poisonUse a bad unit pa
  | .park va _ _ => s.park t a va
  | .wait => s.stayAt t a

/-- Return from the handler (R273). -/
def State.returnTrap (s : State) (t : Nat) : State := s.modThread t fun th => { th with handler := false, pc := th.epc }

/-! ## One instruction in the threads of an issue group -/

/-- A faulting access of one thread: its key, address, level and kind. -/
structure FaultAt where
  t : Nat
  va : W64
  level : Nat
  kind : Nat
  deriving DecidableEq, Repr

/-- The PAGEFAULT entry of a thread's fault (R425). -/
def State.reportFault (s : State) (x : FaultAt) : State :=
  let b := s.block (blockOf x.t)
  s.report b.ctx { kind := 8, code := x.level, crew := crewIx x.t, tid := tidOf x.t, task := b.task, blk := b.index,
                   value := x.va.toNat, value2 := x.kind }

/-- Writes the PAGEFAULT entries of one access, its faults in ascending `sr.tid`: threads whose addresses lie in one 64 KiB
range share an entry, that of the lowest `sr.tid` (R425). -/
def State.reportFaults (s : State) (seen : List Nat) : List FaultAt → State
  | [] => s
  | x :: r =>
    let page := x.va.toNat / 2 ^ 16
    if seen.contains page then s.reportFaults seen r else (s.reportFault x).reportFaults (page :: seen) r

/-- The address, LA and threads of the group being issued, where a group is. -/
def State.group (s : State) : Option (Nat × W64 × List Nat) :=
  match s.cur with
  | some (.group c pc ts) => some (c, pc, ts)
  | _ => none

/-- Steps 6 and 7 of R79 for one thread: its guard's value and tags, or the stop of a poisoned guard (R61). -/
def State.guard (s : State) (t : Nat) (f : Fields) : Except Stop Bool :=
  let p := (s.thread t).getP f.gp.toNat
  if p.poison then .error (.poison 0 4 0) else .ok (p.val != f.gneg)

end Sys2Proof.Machine
end

