-- ==== Sys2Proof/Machine/Xlate.lean ====
section
/-! DEFINITION. Address translation (R419 to R424, R428, R429): the five-level walk over page tables in memory. -/

namespace Sys2Proof.Machine

/-- Bits [63:56] of a virtual address all equal bit 56 (R181, R419). -/
def validVa (a : W64) : Bool := let h := a.toNat / 2 ^ 56; h == 0 || h == 255

/-- The whole range lies in the HBM4E range or one CXL window, attached or not (R422, for a page of another device). -/
def inSpace (pa n : Nat) : Bool :=
  decide (pa + n ≤ 2 ^ 40) || (List.range 8).any fun p => decide (cxlBase p ≤ pa && pa + n ≤ cxlBase p + 2 ^ 40)

/-- The die on which a physical address has its home (R328, R424). -/
def homeDie (pa : Nat) : Nat :=
  if pa < 2 ^ 40 then pa / 2 ^ 38 % 4 else if pa < onChipBase then (pa / 2 ^ 40 % 8) / 2 else pa / 2 ^ 30 % 4

/-- A page-table entry (R421). -/
structure Pte where
  w : Nat
  deriving DecidableEq, Repr

/-- Bit n of an entry. -/
def Pte.bit (e : Pte) (n : Nat) : Bool := e.w.testBit n
/-- Bits [hi:lo] of an entry. -/
def Pte.bits (e : Pte) (lo n : Nat) : Nat := e.w / 2 ^ lo % 2 ^ n
/-- PADDR as a physical address. -/
def Pte.paddr (e : Pte) : Nat := e.bits 12 40 * 2 ^ 12
/-- XADDR as a virtual address, sign-extended from bit 56. -/
def Pte.xaddr (e : Pte) : Nat :=
  let v := e.bits 64 42 * 2 ^ 15
  if v ≥ 2 ^ 56 then v + (2 ^ 64 - 2 ^ 57) else v

/-- The virtual-address shift and index bits of a level (R420). -/
def levelShift (level : Nat) : Nat := match level with | 0 => 16 | 1 => 21 | 2 => 30 | 3 => 39 | _ => 48
/-- Entries of a table of a level (R420). -/
def levelCount (level : Nat) : Nat := if level = 0 then 32 else 512
/-- Bytes of a page a leaf of a level maps (R420). -/
def pageSize (level : Nat) : Nat := 2 ^ levelShift level

/-- Conditions of R422 on one entry at a level, but for those on the primary of an synonym. -/
def State.pteOk (s : State) (e : Pte) (level : Nat) : Bool :=
  e.bit 0 && e.bits 106 22 == 0 && !e.bit 7 &&
  (if e.bit 1 then
      level ≤ 2 && e.paddr % pageSize level == 0 &&
      (if e.bit 6 then inSpace e.paddr (pageSize level) else s.populated e.paddr (pageSize level)) &&
      e.bits 8 4 ≤ 1 && (e.bits 8 4 == 0 || level == 0) &&
      (!e.bit 5 || e.bits 8 4 == 0) &&
      (if e.bit 6 then e.bits 8 4 == 0 && !e.bit 5 && !e.bit 4 && e.bits 52 12 != s.helm.fabDev.toNat
        else e.bits 52 12 == 0) &&
      (e.bits 8 4 == 1 || e.bit 5 || e.bits 64 42 == 0)
    else
      level ≥ 1 && !e.bit 6 && e.bits 52 12 == 0 && e.bits 8 4 == 0 && (e.bit 5 || e.bits 64 42 == 0) &&
      e.paddr % (if level = 1 then 512 else 8192) == 0)

/-- The entry a walk reads in a table of a level, when it passes R422. A table in memory that is not populated fails the entry
that it would supply (log 13). -/
def State.entryAt (s : State) (va table level : Nat) : Option Pte :=
  let a := table + 16 * (va / 2 ^ levelShift level % levelCount level)
  if s.populated a 16 && s.pteOk ⟨ofBytes (memRead s.mem a 16)⟩ level then some ⟨ofBytes (memRead s.mem a 16)⟩ else none

/-- The walk from a table of a level: the leaf with its level, or the level of the failing entry (R420, R422). -/
def State.walk (s : State) (va : Nat) : Nat → Nat → Except Nat (Pte × Nat)
  | 0, table =>
    match s.entryAt va table 0 with
    | some e => .ok (e, 0)
    | none => .error 0
  | l + 1, table =>
    match s.entryAt va table (l + 1) with
    | some e => if e.bit 1 then .ok (e, l + 1) else s.walk va l e.paddr
    | none => .error (l + 1)

/-- A kept leaf maps a virtual address of a context. -/
def KeptLeaf.maps (x : KeptLeaf) (ctx : BitVec 16) (va : Nat) : Bool := x.ctx == ctx && x.page == va / pageSize x.level

/-- A kept leaf maps some byte of a range. -/
def KeptLeaf.meets (x : KeptLeaf) (ctx : BitVec 16) (lo n : Nat) : Bool :=
  x.ctx == ctx && overlap (x.page * pageSize x.level) (pageSize x.level) lo n

/-- The leaf of a virtual address of a context (R419, R420): one that a controller keeps (R423), or the walk's. A context without a table, or
with a table that is not a multiple of 8 KiB, fails at level 4. -/
def State.leaf (s : State) (ctx : BitVec 16) (va : Nat) : Except Nat (Pte × Nat) :=
  match s.leaves.find? (·.maps ctx va) with
  | some x => .ok (⟨x.entry⟩, x.level)
  | none =>
  let root := ofBytes (memRead s.mem (s.helm.trtab + 8 * ctx.toNat) 8)
  if root = 0 || root % 8192 ≠ 0 then .error 4 else s.walk va 4 root

/-- Translation of a byte of a context's space (R419 to R422, R429): the page, or the level of the failing entry. -/
def State.translate (s : State) (ctx : BitVec 16) (va : W64) : Except Nat Page :=
  match s.leaf ctx va.toNat with
  | .error l => .error l
  | .ok (e, level) =>
    let size := pageSize level
    let off := va.toNat % size
    let fmt := if e.bit 6 then 0 else e.bits 8 4
    let page : Page :=
      { pa := e.paddr + off, r := e.bit 2, w := e.bit 3, x := e.bit 4, fmt := fmt,
        peer := if e.bit 6 then some (BitVec.ofNat 12 (e.bits 52 12)) else none,
        frame := if fmt = 1 then e.xaddr else 0, synonym := none, size := size }
    if !e.bit 5 then .ok page
    else
      -- a secondary name: its primary's walk and conditions (R422)
      let prim := e.xaddr
      if prim % size ≠ 0 then .error level
      else match s.leaf ctx prim with
        | .error _ => .error level
        | .ok (p, pl) =>
          if pl = level && !p.bit 5 && p.bits 8 4 = 0 && !p.bit 6 && (!e.bit 2 || p.bit 2) && (!e.bit 3 || p.bit 3) &&
              (!e.bit 4 || p.bit 4) then
            .ok { page with pa := p.paddr + off, synonym := some (prim + off) }
          else .error level

/-! ## Scale frames (R126, R127) -/

/-- The physical scale frames of the fp4bs leaves of a table of a level of a context, each found by its virtual address. -/
def State.tableFrames (s : State) (ctx : BitVec 16) : Nat → Nat → List Nat
  | 0, table =>
    (List.range (levelCount 0)).filterMap fun k =>
      match s.entryAt (k * 2 ^ levelShift 0) table 0 with
      | some e => if e.bits 8 4 = 1 then (match s.translate ctx (BitVec.ofNat 64 e.xaddr) with
          | .ok p => if p.peer.isNone then some p.pa else none
          | .error _ => none) else none
      | none => none
  | l + 1, table =>
    (List.range (levelCount (l + 1))).flatMap fun k =>
      match s.entryAt (k * 2 ^ levelShift (l + 1)) table (l + 1) with
      | some e => if e.bit 1 then [] else s.tableFrames ctx l e.paddr
      | none => []

/-- A physical address is the base of the scale frame of an fp4bs page of some context. -/
def State.isFrame (s : State) (base : Nat) : Bool :=
  s.ctxs.any fun c =>
    let root := ofBytes (memRead s.mem (s.helm.trtab + 8 * c.1) 8)
    root != 0 && root % 8192 == 0 && (s.tableFrames (BitVec.ofNat 16 c.1) 4 root).contains base

/-- A byte as it is read (R126, R127): the reserved bits of a scale frame, [31:17] and up of its band record and all after it, are zero. -/
def State.kept (s : State) (pa : Nat) (b : Byte) : Byte :=
  if pa % 0x8000 < 0x4002 || b = 0 || !s.isFrame (pa / 0x8000 * 0x8000) then b
  else if pa % 0x8000 = 0x4002 then b &&& 1 else 0

/-- Bytes of memory as they are read. -/
def State.keptRead (s : State) (pa n : Nat) : List Byte := (List.range n).map fun k => s.kept (pa + k) (memGet s.mem (pa + k))

/-- Bytes of a write as memory takes them: the reserved ones of a scale frame are not stored. -/
def State.keptBytes (s : State) (pa : Nat) (bs : List Byte) : List Byte := bs.zipIdx.map fun b => s.kept (pa + b.2) b.1

end Sys2Proof.Machine
end

