-- ==== Sys2Proof/Machine/Operands.lean ====
section
/-! DEFINITION. Operands: immediates, modifiers, constant windows, special registers, and the reading of a source in every kind
that R67 to R73 give. -/

namespace Sys2Proof.Machine

/-- A source as read: its bits, poison bit, tag set, and for a poisoned one the UNIT and PADDR of R472. -/
structure Opd where
  val : Nat
  poison : Bool := false
  tags : Tags := 0
  unit : Nat := 4
  place : Nat := 0
  deriving DecidableEq, Repr

/-- An immediate extended by a type, as the bits of its registers (R70, R73). -/
def immVal (ty : Ty) (p : BitVec 20) : Nat :=
  match ty with
  | .b32 | .u8 | .u16 => p.toNat
  | .s32 | .s8 | .s16 => (p.signExtend 32).toNat
  | .u64 => p.toNat
  | .s64 => (p.signExtend 64).toNat
  | .f32 => p.toNat * 2 ^ 12
  | .f64 => p.toNat * 2 ^ 44
  | .f16x2 | .bf16x2 => let h := p.toNat % 2 ^ 16; h * 65537
  | .e4m3x4 | .e5m2x4 => let b := p.toNat % 2 ^ 8; b * 0x01010101
  | .fp4x8 => let b := p.toNat % 2 ^ 4; b * 0x11111111
  | .b128 => p.toNat

/-- Width of an element of a type on which the modifiers act (R68). -/
def modWidth (ty : Ty) : Nat :=
  match ty with
  | .f64 | .s64 | .u64 => 64
  | .f16x2 | .bf16x2 | .s16 => 16
  | .e4m3x4 | .e5m2x4 | .s8 => 8
  | .fp4x8 => 4
  | _ => 32

/-- Absolute, then negate, on one element of w bits (R68). -/
def modElem (isInt neg abs : Bool) (w x : Nat) : Nat :=
  let half := 2 ^ (w - 1)
  if isInt then
    let m := if abs && x ≥ half then (2 ^ w - x) % 2 ^ w else x
    if neg then (2 ^ w - m) % 2 ^ w else m
  else
    let m := if abs then x % half else x
    if neg then (if m ≥ half then m - half else m + half) else m

/-- The modifiers of R68 on a source of n registers. -/
def applyMods (ty : Ty) (n : Nat) (neg abs : Bool) (x : Nat) : Nat :=
  if !neg && !abs then x
  else
    let w := modWidth ty
    let isInt := ty == .s32 || ty == .s64 || ty == .s8 || ty == .s16
    (List.range (32 * n / w)).foldl (fun acc k => acc + modElem isInt neg abs w (x / 2 ^ (w * k) % 2 ^ w) * 2 ^ (w * k)) 0

/-- The on-chip map address of vector register n of a thread (R430). -/
def State.regPlace (s : State) (t n : Nat) : Nat :=
  let b := s.block (blockOf t)
  let c := s.crew (crewOf t)
  onChipBase + dieOf b.core * 2 ^ 30 + b.core % 64 * 2 ^ 24 + c.sub * 0x40000 +
    4 * (c.regBase + n * b.launch.threads + tidOf t)

/-- A group of registers as one operand: the first poisoned register gives the place of R472. -/
def opdOf (rs : List (Reg × Nat)) : Opd :=
  { val := ofWords (rs.map (·.1.val)), poison := rs.any (·.1.poison),
    tags := rs.foldl (fun g r => g ||| r.1.tags) 0,
    place := match rs.find? (·.1.poison) with | some r => r.2 | none => 0 }

/-- A vector group of a thread (R73). -/
def State.readV (s : State) (t first n : Nat) : Opd :=
  opdOf ((List.range n).map fun k => ((s.thread t).getV (first + k), s.regPlace t (first + k)))

/-- A uniform group of a thread's crew. -/
def State.readS (s : State) (t first n : Nat) : Opd :=
  opdOf ((List.range n).map fun k => ((s.crew (crewOf t)).getS (first + k), 0))

/-- A predicate as an operand, 0 or 1 (R71). -/
def State.readP (s : State) (t n : Nat) : Opd :=
  let p := (s.thread t).getP n
  { val := if p.val then 1 else 0, poison := p.poison, tags := p.tags }

/-- `sr.cycle` of a die (R21, R71). -/
def State.dieCycle (s : State) (die : Nat) : Nat := (s.cycle + tgetD s.dieOff die 0) % 2 ^ 64

/-- A special register read for a thread (R31, R71). -/
def State.readSr (s : State) (t : Nat) (r : SReg) : Nat :=
  let b := s.block (blockOf t)
  match r with
  | .tid => tidOf t
  | .crew => crewIx t
  | .block => b.index
  | .nthreads => b.launch.threads
  | .core => b.core % 64
  | .die => dieOf b.core
  | .device => s.helm.fabDev.toNat
  | .ctx => b.ctx.toNat
  | .task => b.task.toNat
  | .cycle => s.dieCycle (dieOf b.core)

/-- Some sector of a range of physical memory is marked poisoned (R187, R408). -/
def State.poisoned (s : State) (pa n : Nat) : Bool :=
  (List.range ((pa + n + 31) / 32 - pa / 32)).any fun k => s.marked.contains (pa / 32 + k)

/-- The UNIT of a physical address (R418). -/
def unitOf (pa : Nat) : Nat := if pa < 2 ^ 40 then 1 else 7

/-- A word of a constant window (R69): a page fault parks, an unreadable page gives PERMISSION. The words of a page that another device
holds are free values (log 78). -/
def State.readWindowWord (s : State) (blk w off : Nat) : Except Stop Opd :=
  let b := s.block blk
  let va := (b.launch.windows.getD w (0, 0)).1 + BitVec.ofNat 64 (4 * off)
  match s.translate b.ctx va with
    | .error l => .error (.park va l 1)
    | .ok pg =>
      if !pg.r then .error (.trap .permission va)
      else match pg.peer with
      | some dev => .ok { val := (Config.peerWord s.free dev pg.pa).toNat }
      | none =>
        .ok { val := ofBytes (s.keptRead pg.pa 4), poison := s.poisoned pg.pa 4, unit := unitOf pg.pa, place := pg.pa / 32 * 32 }

/-- n words that lie in a constant window; the first failing word gives the stop. -/
def State.windowWords (s : State) (blk w off : Nat) : Nat → Except Stop Opd
  | 0 => .ok { val := 0 }
  | n + 1 =>
    match s.windowWords blk w off n with
    | .error e => .error e
    | .ok lo =>
      match s.readWindowWord blk w (off + n) with
      | .error e => .error e
      | .ok hi => .ok { val := lo.val + hi.val * 2 ^ (32 * n), poison := lo.poison || hi.poison,
                        unit := if lo.poison then lo.unit else hi.unit, place := if lo.poison then lo.place else hi.place }

/-- An operand of n words of a constant window (R69): one that reaches the window's size raises PERMISSION at its first word there. -/
def State.readWindow (s : State) (blk w off n : Nat) : Except Stop Opd :=
  let (base, size) := (s.block blk).launch.windows.getD w (0, 0)
  match (List.range n).find? fun k => decide (4 * (off + k) + 4 > size) with
  | some k => .error (.trap .permission (base + BitVec.ofNat 64 (4 * (off + k))))
  | none => s.windowWords blk w off n

/-- A source of n registers read as a type, after its modifiers (R67 to R72). Queue pops, tiles, barriers and stream registers are
read by the instructions that accept them. -/
def State.readSrc (s : State) (t n : Nat) (ty : Ty) (src : Src) : Except Stop Opd :=
  match src with
  | .reg r neg abs => let o := s.readV t r.toNat n; .ok { o with val := applyMods ty n neg abs o.val }
  | .unif r neg abs => let o := s.readS t r.toNat n; .ok { o with val := applyMods ty n neg abs o.val }
  | .cwin w off => s.readWindow (blockOf t) w.toNat off.toNat n
  | .imm p => .ok { val := immVal ty p }
  | .special (.pred p) => .ok (s.readP t p.toNat)
  | .special (.sr r) => .ok { val := s.readSr t r % 2 ^ (32 * n) }
  | .special _ => .ok { val := 0 }

/-- v(XC) as a third source of n registers (R72). -/
def State.readXc (s : State) (t n : Nat) (f : Fields) : Opd := s.readV t f.xc.toNat n

/-- Sources read together: the poison, the tags, and for R472 the place of the first poisoned one. -/
def joinOpds (os : List Opd) : Opd :=
  { val := 0, poison := os.any (·.poison), tags := os.foldl (fun g o => g ||| o.tags) 0,
    unit := match os.find? (·.poison) with | some o => o.unit | none => 4,
    place := match os.find? (·.poison) with | some o => o.place | none => 0 }

/-- The signed reading of w bits. -/
def toSigned (w x : Nat) : Int := if x % 2 ^ w ≥ 2 ^ (w - 1) then (x % 2 ^ w : Nat) - (2 ^ w : Nat) else (x % 2 ^ w : Nat)

/-- The low w bits of an integer. -/
def ofSigned (w : Nat) (x : Int) : Nat := (x % (2 ^ w : Nat)).toNat

/-- Int(x, T) of the integer types (R139). -/
def intOf (ty : Ty) (x : Nat) : Int :=
  match ty with
  | .s32 => toSigned 32 x
  | .s64 => toSigned 64 x
  | .s8 => toSigned 8 x
  | .s16 => toSigned 16 x
  | .u8 => (x % 2 ^ 8 : Nat)
  | .u16 => (x % 2 ^ 16 : Nat)
  | .b32 => (x % 2 ^ 32 : Nat)
  | _ => (x % 2 ^ 64 : Nat)

end Sys2Proof.Machine
end

