-- ==== Sys2Proof/Machine/Float.lean ====
section
/-! DEFINITION. Number formats: values, exact arithmetic, the rounding of R115 into each format, special values and SAT
(R113 to R124), and the bounded functions of R168 and R169. -/

namespace Sys2Proof.Machine

/-- A value in a floating-point format: a finite one is the fraction n / d with a sign, which a zero keeps. -/
inductive FV where
  | nan
  | inf (neg : Bool)
  | fin (neg : Bool) (n d : Nat)
  deriving DecidableEq, Repr

/-- What a format does with a rounded magnitude above its largest (R115, R118, R120). -/
inductive Over where
  | inf | nan | clamp
  deriving DecidableEq, Repr

/-- A format: mantissa bits, the exponent of its least normal, the code of its largest magnitude, its width in bits, its
overflow, and its canonical NaN (R114). -/
structure Fmt where
  mant : Nat
  emin : Int
  maxCode : Nat
  width : Nat
  beyond : Over
  nanCode : Nat
  deriving DecidableEq, Repr

/-- binary16 (R113). -/
def fmtF16 : Fmt := ⟨10, -14, 0x7BFF, 16, .inf, 0x7E00⟩
/-- BF16 (R117). -/
def fmtBf16 : Fmt := ⟨7, -126, 0x7F7F, 16, .inf, 0x7FC0⟩
/-- binary32. -/
def fmtF32 : Fmt := ⟨23, -126, 0x7F7FFFFF, 32, .inf, 0x7FC00000⟩
/-- binary64. -/
def fmtF64 : Fmt := ⟨52, -1022, 0x7FEFFFFFFFFFFFFF, 64, .inf, 0x7FF8000000000000⟩
/-- E4M3 (R118). -/
def fmtE4m3 : Fmt := ⟨3, -6, 0x7E, 8, .nan, 0x7F⟩
/-- E5M2 (R118). -/
def fmtE5m2 : Fmt := ⟨2, -14, 0x7B, 8, .inf, 0x7E⟩
/-- FP4 E2M1 (R119, R120); it holds no NaN, which R174 packs as code 0. -/
def fmtFp4 : Fmt := ⟨1, 0, 7, 4, .clamp, 0⟩
/-- E3M5, unsigned (R122): one bit wider here, so that its code has no sign. -/
def fmtE3m5 : Fmt := ⟨5, -2, 255, 9, .clamp, 0⟩

/-- The format of the elements of a type (R73). -/
def fmtOf (ty : Ty) : Fmt :=
  match ty with
  | .f64 => fmtF64
  | .f16x2 => fmtF16
  | .bf16x2 => fmtBf16
  | .e4m3x4 => fmtE4m3
  | .e5m2x4 => fmtE5m2
  | .fp4x8 => fmtFp4
  | _ => fmtF32

/-- m × 2^e as a finite value. -/
def dyadic (neg : Bool) (m : Nat) (e : Int) : FV :=
  if e ≥ 0 then .fin neg (m * 2 ^ e.toNat) 1 else .fin neg m (2 ^ (-e).toNat)

/-- The value of a bit pattern of a format. -/
def Fmt.decode (f : Fmt) (bits : Nat) : FV :=
  let half := 2 ^ (f.width - 1)
  let neg := bits / half % 2 == 1
  let c := bits % half
  if c > f.maxCode then
    if f.beyond == .inf && c == f.maxCode + 1 then .inf neg else .nan
  else if c < 2 ^ f.mant then dyadic neg c (f.emin - f.mant)
  else dyadic neg (c % 2 ^ f.mant + 2 ^ f.mant) (f.emin + (c / 2 ^ f.mant : Nat) - 1 - f.mant)

/-- floor(log2(n / d)) for n, d > 0. -/
def log2Floor (n d : Nat) : Int :=
  let e : Int := (n.log2 : Int) - d.log2
  if (if e ≥ 0 then decide (n < d * 2 ^ e.toNat) else decide (n * 2 ^ (-e).toNat < d)) then e - 1 else e

/-- Rounds q + r / d to an integer under a mode and sign (R115). -/
def roundInc (rnd : Rnd) (neg : Bool) (q r d : Nat) : Nat :=
  if r = 0 then q
  else match rnd with
    | .rne => if 2 * r > d || (2 * r == d && q % 2 == 1) then q + 1 else q
    | .rtz => q
    | .rdn => if neg then q + 1 else q
    | .rup => if neg then q else q + 1

/-- The code of the rounded magnitude of n / d, as if the exponent had no upper bound: codes rise with magnitudes, so a carry
out of the mantissa goes into the exponent. -/
def Fmt.roundMag (f : Fmt) (rnd : Rnd) (neg : Bool) (n d : Nat) : Nat :=
  if n = 0 then 0
  else
    let e := log2Floor n d
    let e := if e < f.emin then f.emin else e
    let k : Int := e - f.mant
    let (n, d) := if k ≥ 0 then (n, d * 2 ^ k.toNat) else (n * 2 ^ (-k).toNat, d)
    (e - f.emin).toNat * 2 ^ f.mant + roundInc rnd neg (n / d) (n % d) d

/-- Puts a sign on a code. -/
def Fmt.sign (f : Fmt) (neg : Bool) (c : Nat) : Nat := if neg then c + 2 ^ (f.width - 1) else c

/-- RoundTo(v, F, RND) followed by Sat (R115, R116, R118, R120): the bit pattern. -/
def Fmt.round (f : Fmt) (rnd : Rnd) (sat : Bool) (v : FV) : Nat :=
  match v with
  | .nan => f.nanCode
  | .inf neg =>
    match f.beyond with
    | .inf => f.sign neg (if sat then f.maxCode else f.maxCode + 1)
    | .nan => if sat then f.sign neg f.maxCode else f.nanCode
    | .clamp => f.sign neg f.maxCode
  | .fin neg n d =>
    let c := f.roundMag rnd neg n d
    if c ≤ f.maxCode then f.sign neg c
    else match f.beyond with
      | .clamp => f.sign neg f.maxCode
      | .nan => if sat then f.sign neg f.maxCode else f.nanCode
      | .inf =>
        let toInf := match rnd with | .rne => true | .rtz => false | .rdn => neg | .rup => !neg
        f.sign neg (if toInf && !sat then f.maxCode + 1 else f.maxCode)

/-- Multiplication under IEEE 754 (R161). -/
def FV.mul (a b : FV) : FV :=
  match a, b with
  | .nan, _ | _, .nan => .nan
  | .inf x, .inf y => .inf (x != y)
  | .inf x, .fin y n _ => if n = 0 then .nan else .inf (x != y)
  | .fin x n _, .inf y => if n = 0 then .nan else .inf (x != y)
  | .fin x n d, .fin y m e => .fin (x != y) (n * m) (d * e)

/-- Addition under IEEE 754; an exact zero sum of operands that are not zeros of one sign is −0 under `.rdn` only (R161). -/
def FV.add (rnd : Rnd) (a b : FV) : FV :=
  match a, b with
  | .nan, _ | _, .nan => .nan
  | .inf x, .inf y => if x = y then .inf x else .nan
  | .inf x, .fin .. => .inf x
  | .fin .., .inf y => .inf y
  | .fin x n d, .fin y m e =>
    let i : Int := (if x then -((n * e : Nat) : Int) else (n * e : Nat)) + (if y then -((m * d : Nat) : Int) else (m * d : Nat))
    if i = 0 then (if n = 0 && m = 0 && x = y then .fin x 0 1 else .fin (rnd == .rdn) 0 1)
    else .fin (decide (i < 0)) i.natAbs (d * e)

/-- The value negated. -/
def FV.negate : FV → FV
  | .nan => .nan
  | .inf x => .inf (!x)
  | .fin x n d => .fin (!x) n d

/-- Order of two values that are not NaNs; −0 is below +0 when `zeros`. -/
def FV.lt (zeros : Bool) (a b : FV) : Bool :=
  match a, b with
  | .nan, _ | _, .nan => false
  | .inf x, .inf y => x && !y
  | .inf x, .fin .. => x
  | .fin .., .inf y => !y
  | .fin x n d, .fin y m e =>
    let i : Int := if x then -((n * e : Nat) : Int) else (n * e : Nat)
    let j : Int := if y then -((m * d : Nat) : Int) else (m * d : Nat)
    decide (i < j) || (zeros && n == 0 && m == 0 && x && !y)

/-- Whether a value is a NaN. -/
def FV.isNan : FV → Bool
  | .nan => true
  | _ => false

/-- Whether a value is a NaN or an infinity. -/
def FV.isSpecial : FV → Bool
  | .fin .. => false
  | _ => true

/-- Whether a value is a zero. -/
def FV.isZero : FV → Bool
  | .fin _ n _ => n == 0
  | _ => false

/-- The sign of a value; a NaN has none. -/
def FV.isNeg : FV → Bool
  | .nan => false
  | .inf x => x
  | .fin x _ _ => x

/-- The magnitude of a finite value as a fraction. -/
def FV.mag : FV → Nat × Nat
  | .fin _ n d => (n, d)
  | _ => (0, 1)

/-- Minimum and maximum of R163 on bit patterns of a format. -/
def Fmt.minMax (f : Fmt) (isMax : Bool) (x y : Nat) : Nat :=
  let a := f.decode x
  let b := f.decode y
  if a.isNan && b.isNan then f.nanCode
  else if a.isNan then y
  else if b.isNan then x
  else if isMax then (if a.lt true b then y else x) else (if b.lt true a then y else x)

/-- The conditions of R164. -/
def fcond (c : Nat) (a b : FV) : Bool :=
  let un := a.isNan || b.isNan
  let lt := a.lt false b
  let gt := b.lt false a
  let base := match c % 8 with
    | 0 => !un && !lt && !gt
    | 1 => !un && (lt || gt)
    | 2 => lt
    | 3 => !un && !gt
    | 4 => gt
    | 5 => !un && !lt
    | 6 => !un
    | _ => un
  if c < 8 then base else base || un

/-- The class of a bit pattern of a format (R165). -/
def Fmt.classOf (f : Fmt) (bits : Nat) : Nat :=
  let half := 2 ^ (f.width - 1)
  let neg := bits / half % 2 == 1
  let c := bits % half
  if c > f.maxCode + 1 then (if c / 2 ^ (f.mant - 1) % 2 == 1 then 9 else 8)
  else if c = f.maxCode + 1 then (if neg then 0 else 7)
  else if c = 0 then (if neg then 3 else 4)
  else if c < 2 ^ f.mant then (if neg then 2 else 5)
  else (if neg then 1 else 6)

/-! ## The approximated functions (R168 to R170) -/

/-- floor(sqrt(n)) for n < 4^k, bit by bit. -/
def isqrt (n : Nat) : Nat → Nat → Nat
  | 0, r => r
  | k + 1, r => let c := r + 2 ^ k; isqrt n k (if c * c ≤ n then c else r)

/-- The root of a positive fraction to more than 200 bits, exact or strictly between two neighbours: rounding it to binary32
rounds the root itself correctly. -/
def rootOf (n d : Nat) : FV :=
  let m := n * d * 2 ^ 400
  let r := isqrt m (m.log2 / 2 + 1) 0
  if r * r = m then .fin false r (d * 2 ^ 200) else .fin false (2 * r + 1) (d * 2 ^ 201)

/-- Fixed point with 320 fraction bits. -/
def fixOne : Nat := 2 ^ 320
/-- π in fixed point. -/
def fixPi : Nat := 6710401180212168915155840974220003240804194089427148950727106424351713218671805380099500388914039
/-- ln 2 in fixed point. -/
def fixLn2 : Nat := 1480553391661173448385607439722553250922680800745876974795605978609098082859138712941075737848984

/-- e^z for 0 ≤ z < 1 in fixed point, by its series: fuel, index, term and sum. -/
def fixExp (z : Nat) : Nat → Nat → Nat → Nat → Nat
  | 0, _, _, acc => acc
  | fuel + 1, k, term, acc => fixExp z fuel (k + 1) (term * z / fixOne / (k + 1)) (acc + term)

/-- The positive and the negative terms of the series of sine or cosine at r: fuel, index, term and the two sums. -/
def fixTrig (r : Nat) : Nat → Nat → Nat → Nat → Nat → Nat × Nat
  | 0, _, _, p, m => (p, m)
  | fuel + 1, k, term, p, m =>
    let next := term * r / fixOne * r / fixOne / ((k + 1) * (k + 2))
    if k / 2 % 2 = 0 then fixTrig r fuel (k + 2) next (p + term) m else fixTrig r fuel (k + 2) next p (m + term)

/-- Fraction bits of log2 of 1 ≤ m < 2 in fixed point, by squaring. -/
def fixLog : Nat → Nat → Nat → Nat
  | _, 0, acc => acc
  | m, fuel + 1, acc =>
    let q := m * m / fixOne
    if q ≥ 2 * fixOne then fixLog (q / 2) fuel (2 * acc + 1) else fixLog q fuel (2 * acc)

/-- An approximation of a function at a finite argument that is no special case of R168, as a signed value over 2^320, close
enough that R169's bound can be checked against it. -/
def approxReal (fn : Approx) (x : FV) : Int :=
  let (n, d) := x.mag
  let neg := x.isNeg
  match fn with
  | .rsq => match rootOf d n with | .fin _ a b => (a * fixOne / b : Nat) | _ => 0
  | .ex2 =>
    let q : Int := if neg then -(((n + d - 1) / d : Nat) : Int) else (n / d : Nat)
    let frac : Int := (if neg then -(n : Int) else n) - q * d
    let e := fixExp (frac.toNat * fixLn2 / d) 80 0 fixOne 0
    if q ≥ 0 then (e * 2 ^ (min q.toNat 200) : Nat) else (e / 2 ^ (min (-q).toNat 400) : Nat)
  | .lg2 =>
    let e := log2Floor n d
    let m := if e ≥ 0 then n * fixOne / (d * 2 ^ e.toNat) else n * 2 ^ (-e).toNat * fixOne / d
    e * fixOne + ((fixLog m 100 0 * 2 ^ 220 : Nat) : Int)
  | .sin | .cos =>
    let r := n * fixOne / d % (2 * fixPi)
    let (p, m) := if fn == .sin then fixTrig r 60 1 r 0 0 else fixTrig r 60 0 fixOne 0 0
    let y : Int := (p : Int) - m
    if neg && fn == .sin then -y else y
  | .tanh =>
    if n ≥ 128 * d then (if neg then -(fixOne : Int) else fixOne)
    else
      let t := 2 * n * fixOne / d
      let k := t / fixLn2
      let e := fixExp (t - k * fixLn2) 80 0 fixOne 0 * 2 ^ k
      let y : Int := (fixOne : Int) - (2 * fixOne * fixOne / (e + fixOne) : Nat)
      if neg then -y else y

/-- The bound of R169 at an exact result near y / 2^320, over 2^320, with the error of `approxReal` taken off. -/
def approxBound (fn : Approx) (x : FV) (y : Int) : Int :=
  let e := log2Floor (max 1 (y.natAbs - 2 ^ 160)) fixOne
  let ulp : Int := 2 ^ (320 + (if e < -126 then -149 else e - 23)).toNat
  let flat : Int := 2 ^ 298
  let (n, d) := x.mag
  let b := match fn with
    | .rsq => ulp
    | .ex2 | .tanh => 2 * ulp
    | .lg2 => if 2 * n ≥ d && n ≤ 2 * d then flat else 2 * ulp
    | .sin | .cos => max (2 * ulp) flat
  b - 2 ^ 160

/-- A finite value over 2^320. -/
def fixOf (v : FV) : Int :=
  let (n, d) := v.mag
  let m : Int := (n * fixOne / d : Nat)
  if v.isNeg then -m else m

/-- The result of an approximated function (R169, R170): the fixed function of the input bits that Config leaves open, wherever
it lies within the bound, and otherwise the rounded value, which does (log 11). -/
def approxResult (fn : Approx) (bits : Nat) : Nat :=
  let x := fmtF32.decode bits
  let y := approxReal fn x
  let c := (Config.approx fn (BitVec.ofNat 32 bits)).toNat
  let v := fmtF32.decode c
  if !v.isSpecial && decide ((fixOf v - y).natAbs ≤ (approxBound fn x y).toNat) then c
  else fmtF32.round .rne false (.fin (decide (y < 0)) y.natAbs fixOne)

/-- Element k of a packed value of w-bit elements (R121). -/
def elemOf (w x k : Nat) : Nat := x / 2 ^ (w * k) % 2 ^ w

/-- The eight values of a block in its registers (R175, R191): binary32, or halves of BF16. -/
def blockElem (ty : Ty) (x k : Nat) : FV := if ty == .f32 then fmtF32.decode (elemOf 32 x k) else fmtBf16.decode (elemOf 16 x k)

end Sys2Proof.Machine
end

