-- ==== Sys2Proof/WellFormed.lean ====
section
/-! DEFINITION. Well-formed instructions: a word whose fields pass step 4 of R79 under its form. Events of the agents are not
words and are well-formed as they stand; what they may name is checked where they act. -/

namespace Sys2Proof

/-- The first check of R79 steps 2 to 4 that an instruction fails, or none. -/
def Instr.illegal (i : Instr) : Option Illegal :=
  match i.shape with
  | some (f, sh) => sh.illegal f
  | none => none

/-- A well-formed instruction passes step 4 of R79. -/
def Instr.WellFormed (i : Instr) : Prop := i.illegal = none

/-- Well-formedness as a Bool. -/
def Instr.wellFormed (i : Instr) : Bool := i.illegal.isNone

end Sys2Proof
end

