-- ==== Sys2Proof/Decode.lean ====
section
/-! DEFINITION. The decoder and the encoder of the 96-bit instruction word (R59, R60, R67 to R89). -/

namespace Sys2Proof

/-- OPC and constructor of class 0 (R82). -/
def opTable0 : List (Nat × (Fields → Instr)) :=
  [(0x001, .iadd), (0x002, .isub), (0x003, .iaddc), (0x004, .isubb), (0x005, .imul), (0x006, .imulhi), (0x007,
   .imad), (0x008, .iadd64), (0x009, .isub64), (0x00A, .imin), (0x00B, .imax), (0x00C, .iabs), (0x010, .and),
   (0x011, .or), (0x012, .xor), (0x013, .andn), (0x014, .orn), (0x018, .shl), (0x019, .shr), (0x01A, .sar), (0x01B,
   .rot), (0x01C, .shf), (0x020, .bfe), (0x021, .bfi), (0x022, .popc), (0x023, .clz), (0x024, .ctz), (0x025, .brev),
   (0x026, .prmt), (0x028, .sel), (0x029, .icmp), (0x02A, .icmp64), (0x02B, .plop), (0x030, .mov), (0x031, .mov64),
   (0x032, .movsr), (0x033, .lea)]

/-- OPC and constructor of class 1 (R83). -/
def opTable1 : List (Nat × (Fields → Instr)) :=
  [(0x080, .fadd), (0x081, .fsub), (0x082, .fmul), (0x083, .ffma), (0x084, .fmin), (0x085, .fmax), (0x086, .fcmp),
   (0x087, .fclass), (0x088, .frcp), (0x089, .frsq), (0x08A, .fsqrt), (0x08B, .fex2), (0x08C, .flg2), (0x08D,
   .fsin), (0x08E, .fcos), (0x08F, .ftanh), (0x090, .fscale), (0x091, .fround), (0x0A0, .dadd), (0x0A1, .dmul),
   (0x0A2, .dfma), (0x0A3, .dmin), (0x0A4, .dmax), (0x0A5, .dcmp), (0x0B0, .hadd2), (0x0B1, .hmul2), (0x0B2,
   .hfma2), (0x0B3, .hmin2), (0x0B4, .hmax2)]

/-- OPC and constructor of class 2 (R84). -/
def opTable2 : List (Nat × (Fields → Instr)) :=
  [(0x100, .cvt), (0x101, .cvtx), (0x108, .q4enc), (0x109, .q4dec), (0x10A, .bscale)]

/-- OPC and constructor of class 3 (R85). -/
def opTable3 : List (Nat × (Fields → Instr)) :=
  [(0x180, .ldG), (0x181, .ldS), (0x182, .ldX), (0x183, .ldC), (0x184, .stG), (0x185, .stS), (0x186, .stX), (0x188,
   .atomG), (0x189, .atomS), (0x18A, .atomX), (0x18C, .redG), (0x18D, .redS), (0x190, .fence), (0x191, .prefetch),
   (0x198, .accld), (0x199, .accst), (0x1A0, .ldredMc), (0x1A1, .stmc), (0x1A2, .mcgOpen), (0x1A3, .mcgClose)]

/-- OPC and constructor of class 4 (R86). -/
def opTable4 : List (Nat × (Fields → Instr)) :=
  [(0x200, .nop), (0x201, .bra), (0x202, .brx), (0x203, .call), (0x204, .callx), (0x205, .ret), (0x206, .exit),
   (0x208, .mkj), (0x209, .join), (0x20A, .yield), (0x210, .vote), (0x211, .shfl), (0x212, .match_), (0x213,
   .redux), (0x214, .elect)]

/-- OPC and constructor of class 5 (R87). -/
def opTable5 : List (Nat × (Fields → Instr)) :=
  [(0x280, .bar), (0x284, .waitc), (0x285, .waitw), (0x288, .guess), (0x289, .guessW), (0x28A, .affirm), (0x28B,
   .deny), (0x28C, .tags), (0x290, .ctnOpen), (0x291, .ctnClose), (0x298, .msend), (0x299, .mrecv)]

/-- OPC and constructor of class 6 (R88). -/
def opTable6 : List (Nat × (Fields → Instr)) :=
  [(0x300, .mma), (0x301, .mclr), (0x302, .mbar), (0x308, .mloop), (0x309, .mset), (0x30A, .madd), (0x30B, .mjmp),
   (0x30C, .mend), (0x310, .qpush), (0x311, .qpop), (0x312, .qstat), (0x318, .cpyt), (0x319, .cpyg), (0x31A, .cpym)]

/-- OPC and constructor of class 7 (R89). -/
def opTable7 : List (Nat × (Fields → Instr)) :=
  [(0x380, fun f => if f.xc == 1 then .trapHost f else .trap f), (0x381, .ill), (0x382, .brk), (0x383, .sleep),
   (0x388, .rtt), (0x390, .csrr), (0x391, .csrw)]

/-- The opcode map (R81 to R89), but for OPC 0x000 and 0x3FF. -/
def opTable : List (Nat × (Fields → Instr)) :=
  opTable0 ++ opTable1 ++ opTable2 ++ opTable3 ++ opTable4 ++ opTable5 ++ opTable6 ++ opTable7

/-- A special operand of kind 11 by its number (R71); none where the number is reserved. -/
def decodeSpecial (n : BitVec 10) : Option Special :=
  let k := n.toNat
  if k < 16 then some (.pred (n.setWidth 4))
  else if k < 32 then some (.queue (n.setWidth 4))
  else if k < 40 then some (.acc (n.setWidth 3))
  else if 40 ≤ k && k < 56 then some (.bar (BitVec.ofNat 4 (k - 40)))
  else if 512 ≤ k && k < 544 then some (.stream (n.setWidth 5))
  else match k with
    | 64 => some (.sr .tid) | 65 => some (.sr .crew) | 66 => some (.sr .block) | 67 => some (.sr .nthreads)
    | 68 => some (.sr .core) | 69 => some (.sr .die) | 70 => some (.sr .device) | 71 => some (.sr .ctx)
    | 72 => some (.sr .task) | 73 => some (.sr .cycle)
    | _ => none

/-- The number of a special operand (R71). -/
def encodeSpecial : Special → BitVec 10
  | .pred n => n.setWidth 10
  | .queue n => BitVec.ofNat 10 (16 + n.toNat)
  | .acc n => BitVec.ofNat 10 (32 + n.toNat)
  | .bar n => BitVec.ofNat 10 (40 + n.toNat)
  | .stream n => BitVec.ofNat 10 (512 + n.toNat)
  | .sr r => match r with
    | .tid => 64 | .crew => 65 | .block => 66 | .nthreads => 67 | .core => 68 | .die => 69 | .device => 70 | .ctx => 71
    | .task => 72 | .cycle => 73

/-- A source field (R67 to R71); none where a reserved bit of it is set or its special number is reserved. -/
def decodeSrc (w : BitVec 22) : Option Src :=
  let kind := w.extractLsb' 20 2
  let high := w.extractLsb' 12 8
  let abs := w.getLsbD 11
  let neg := w.getLsbD 10
  let low := w.extractLsb' 0 10
  if kind == 0 then if high == 0 then some (.reg low neg abs) else none
  else if kind == 1 then some (.cwin (w.extractLsb' 17 3) (w.extractLsb' 0 17))
  else if kind == 2 then some (.imm (w.extractLsb' 0 20))
  else if high != 0 then none
  else if 256 ≤ low.toNat && low.toNat < 512 then some (.unif (low.setWidth 8) neg abs)
  else if neg || abs then none
  else (decodeSpecial low).map .special

/-- The bits of a source field (R67 to R71). -/
def encodeSrc : Src → BitVec 22
  | .reg n neg abs => 0#10 ++ BitVec.ofBool abs ++ BitVec.ofBool neg ++ n
  | .cwin w off => 1#2 ++ w ++ off
  | .imm p => 2#2 ++ p
  | .unif n neg abs => 3#2 ++ 0#8 ++ BitVec.ofBool abs ++ BitVec.ofBool neg ++ 1#2 ++ n
  | .special sp => 3#2 ++ 0#10 ++ encodeSpecial sp

/-- RND codes (R115). -/
def decodeRnd (n : BitVec 2) : Rnd :=
  match n.toNat with | 0 => .rne | 1 => .rtz | 2 => .rdn | _ => .rup

/-- RND codes (R115). -/
def encodeRnd : Rnd → BitVec 2
  | .rne => 0 | .rtz => 1 | .rdn => 2 | .rup => 3

/-- The fields of a word (R59, R74); none where a source field is not one of R67 to R71. -/
def decodeFields (w : BitVec 96) : Option Fields :=
  match decodeSrc (w.extractLsb' 30 22), decodeSrc (w.extractLsb' 52 22) with
  | some sa, some sb =>
    some
      { gneg := w.getLsbD 14, gp := w.extractLsb' 10 4, la := w.extractLsb' 15 4, y := w.getLsbD 19,
        dst := w.extractLsb' 20 10, sa := sa, sb := sb, xc := w.extractLsb' 86 10, ord := w.extractLsb' 84 2,
        scope := w.extractLsb' 81 3, sat := w.getLsbD 80, rnd := decodeRnd (w.extractLsb' 78 2),
        ty := Ty.ofCode (w.extractLsb' 74 4).toNat }
  | _, _ => none

/-- The bits of a word from its OPC and fields (R59, R74). -/
def encodeFields (opc : BitVec 10) (f : Fields) : BitVec 96 :=
  f.xc ++ f.ord ++ f.scope ++ BitVec.ofBool f.sat ++ encodeRnd f.rnd ++ BitVec.ofNat 4 f.ty.code ++
    encodeSrc f.sb ++ encodeSrc f.sa ++ f.dst ++ BitVec.ofBool f.y ++ f.la ++ BitVec.ofBool f.gneg ++ f.gp ++ opc

/-- Steps 2 to 4 of R79: the instruction of a word, or the name of the check it fails. The words of `ill.zero` and of
`trap.pool` decode whatever their other bits hold (R77, R78). -/
def decode (w : BitVec 96) : Except Illegal Instr :=
  let opc := (w.extractLsb' 0 10).toNat
  if opc = 0 then .ok .illZero
  else if opc = 0x3FF then .ok .trapPool
  else match opTable.lookup opc with
    | none => .error .opcode
    | some mk =>
      match decodeFields w with
      | none => .error .source
      | some f =>
        match (mk f).illegal with
        | some r => .error r
        | none => .ok (mk f)

/-- OPC and fields of an instruction word (R82 to R89); none for `ill.zero`, `trap.pool` and the events. -/
def Instr.opcode : Instr → Option (BitVec 10 × Fields)
  | .trap f | .trapHost f => some (0x380, f)
  | .iadd f => some (0x001, f)
  | .isub f => some (0x002, f)
  | .iaddc f => some (0x003, f)
  | .isubb f => some (0x004, f)
  | .imul f => some (0x005, f)
  | .imulhi f => some (0x006, f)
  | .imad f => some (0x007, f)
  | .iadd64 f => some (0x008, f)
  | .isub64 f => some (0x009, f)
  | .imin f => some (0x00A, f)
  | .imax f => some (0x00B, f)
  | .iabs f => some (0x00C, f)
  | .and f => some (0x010, f)
  | .or f => some (0x011, f)
  | .xor f => some (0x012, f)
  | .andn f => some (0x013, f)
  | .orn f => some (0x014, f)
  | .shl f => some (0x018, f)
  | .shr f => some (0x019, f)
  | .sar f => some (0x01A, f)
  | .rot f => some (0x01B, f)
  | .shf f => some (0x01C, f)
  | .bfe f => some (0x020, f)
  | .bfi f => some (0x021, f)
  | .popc f => some (0x022, f)
  | .clz f => some (0x023, f)
  | .ctz f => some (0x024, f)
  | .brev f => some (0x025, f)
  | .prmt f => some (0x026, f)
  | .sel f => some (0x028, f)
  | .icmp f => some (0x029, f)
  | .icmp64 f => some (0x02A, f)
  | .plop f => some (0x02B, f)
  | .mov f => some (0x030, f)
  | .mov64 f => some (0x031, f)
  | .movsr f => some (0x032, f)
  | .lea f => some (0x033, f)
  | .fadd f => some (0x080, f)
  | .fsub f => some (0x081, f)
  | .fmul f => some (0x082, f)
  | .ffma f => some (0x083, f)
  | .fmin f => some (0x084, f)
  | .fmax f => some (0x085, f)
  | .fcmp f => some (0x086, f)
  | .fclass f => some (0x087, f)
  | .frcp f => some (0x088, f)
  | .frsq f => some (0x089, f)
  | .fsqrt f => some (0x08A, f)
  | .fex2 f => some (0x08B, f)
  | .flg2 f => some (0x08C, f)
  | .fsin f => some (0x08D, f)
  | .fcos f => some (0x08E, f)
  | .ftanh f => some (0x08F, f)
  | .fscale f => some (0x090, f)
  | .fround f => some (0x091, f)
  | .dadd f => some (0x0A0, f)
  | .dmul f => some (0x0A1, f)
  | .dfma f => some (0x0A2, f)
  | .dmin f => some (0x0A3, f)
  | .dmax f => some (0x0A4, f)
  | .dcmp f => some (0x0A5, f)
  | .hadd2 f => some (0x0B0, f)
  | .hmul2 f => some (0x0B1, f)
  | .hfma2 f => some (0x0B2, f)
  | .hmin2 f => some (0x0B3, f)
  | .hmax2 f => some (0x0B4, f)
  | .cvt f => some (0x100, f)
  | .cvtx f => some (0x101, f)
  | .q4enc f => some (0x108, f)
  | .q4dec f => some (0x109, f)
  | .bscale f => some (0x10A, f)
  | .ldG f => some (0x180, f)
  | .ldS f => some (0x181, f)
  | .ldX f => some (0x182, f)
  | .ldC f => some (0x183, f)
  | .stG f => some (0x184, f)
  | .stS f => some (0x185, f)
  | .stX f => some (0x186, f)
  | .atomG f => some (0x188, f)
  | .atomS f => some (0x189, f)
  | .atomX f => some (0x18A, f)
  | .redG f => some (0x18C, f)
  | .redS f => some (0x18D, f)
  | .fence f => some (0x190, f)
  | .prefetch f => some (0x191, f)
  | .accld f => some (0x198, f)
  | .accst f => some (0x199, f)
  | .ldredMc f => some (0x1A0, f)
  | .stmc f => some (0x1A1, f)
  | .mcgOpen f => some (0x1A2, f)
  | .mcgClose f => some (0x1A3, f)
  | .nop f => some (0x200, f)
  | .bra f => some (0x201, f)
  | .brx f => some (0x202, f)
  | .call f => some (0x203, f)
  | .callx f => some (0x204, f)
  | .ret f => some (0x205, f)
  | .exit f => some (0x206, f)
  | .mkj f => some (0x208, f)
  | .join f => some (0x209, f)
  | .yield f => some (0x20A, f)
  | .vote f => some (0x210, f)
  | .shfl f => some (0x211, f)
  | .match_ f => some (0x212, f)
  | .redux f => some (0x213, f)
  | .elect f => some (0x214, f)
  | .bar f => some (0x280, f)
  | .waitc f => some (0x284, f)
  | .waitw f => some (0x285, f)
  | .guess f => some (0x288, f)
  | .guessW f => some (0x289, f)
  | .affirm f => some (0x28A, f)
  | .deny f => some (0x28B, f)
  | .tags f => some (0x28C, f)
  | .ctnOpen f => some (0x290, f)
  | .ctnClose f => some (0x291, f)
  | .msend f => some (0x298, f)
  | .mrecv f => some (0x299, f)
  | .mma f => some (0x300, f)
  | .mclr f => some (0x301, f)
  | .mbar f => some (0x302, f)
  | .mloop f => some (0x308, f)
  | .mset f => some (0x309, f)
  | .madd f => some (0x30A, f)
  | .mjmp f => some (0x30B, f)
  | .mend f => some (0x30C, f)
  | .qpush f => some (0x310, f)
  | .qpop f => some (0x311, f)
  | .qstat f => some (0x312, f)
  | .cpyt f => some (0x318, f)
  | .cpyg f => some (0x319, f)
  | .cpym f => some (0x31A, f)
  | .ill f => some (0x381, f)
  | .brk f => some (0x382, f)
  | .sleep f => some (0x383, f)
  | .rtt f => some (0x388, f)
  | .csrr f => some (0x390, f)
  | .csrw f => some (0x391, f)
  | _ => none

/-- The word of an instruction (R59, R60); none for an event, which is no word. -/
def encode (i : Instr) : Option (BitVec 96) :=
  match i with
  | .illZero => some 0
  | .trapPool => some 0x3FF
  | i => i.opcode.map fun (opc, f) => encodeFields opc f

/-- The twelve bytes of a word, at ascending addresses (R60). -/
def wordBytes (w : BitVec 96) : List Byte := (List.range 12).map fun k => w.extractLsb' (8 * k) 8

/-- A number from bytes at ascending addresses, least significant first (R4). -/
def leNat (bs : List Byte) : Nat := bs.foldr (fun b acc => b.toNat + 256 * acc) 0

/-- The instruction of twelve bytes of memory (R60). -/
def decodeBytes (bs : List Byte) : Except Illegal Instr := decode (BitVec.ofNat 96 (leNat bs))

/-- The instruction the decoder reads from a word given as a number: bits above `nbits` are zero, and the word is the twelve
bytes of R60. -/
def decodeTableWord (nbits w : Nat) : Option Instr :=
  match decodeBytes (wordBytes (BitVec.ofNat 96 (w % 2 ^ nbits))) with
  | .ok i => some i
  | .error _ => none

end Sys2Proof
end

