-- ==== Sys2Proof/Machine/Flags.lean ====
section
/-! DEFINITION. The device has no flag register: conditions, carries and saturation are results written to predicates and
registers. This file holds their computations (R140, R141, R151). -/

namespace Sys2Proof.Machine

/-- MinOf and MaxOf of an integer type (R140, R172). -/
def minOf (ty : Ty) : Int :=
  match ty with
  | .s32 => -2147483648
  | .s64 => -9223372036854775808
  | .s8 => -128
  | .s16 => -32768
  | _ => 0

/-- MaxOf of an integer type (R140, R172). -/
def maxOf (ty : Ty) : Int :=
  match ty with
  | .s32 => 2147483647
  | .s64 => 9223372036854775807
  | .s8 => 127
  | .s16 => 32767
  | .u8 => 255
  | .u16 => 65535
  | .b32 => 4294967295
  | _ => 18446744073709551615

/-- Clamp (R140). -/
def clamp (x lo hi : Int) : Int := if x < lo then lo else if x > hi then hi else x

/-- Saturates an exact integer to a type when SAT = 1 (R140). -/
def satInt (sat : Bool) (ty : Ty) (x : Int) : Int := if sat then clamp x (minOf ty) (maxOf ty) else x

/-- The conditions of R151 on integers. -/
def condHolds (c : Nat) (a b : Int) : Bool :=
  match c with
  | 0 => a == b
  | 1 => a != b
  | 2 => decide (a < b)
  | 3 => decide (a ≤ b)
  | 4 => decide (a > b)
  | _ => decide (a ≥ b)

/-- Sum and carry out of R141. -/
def addCarry (a b : Nat) (cin : Bool) : Nat × Bool :=
  let x := a + b + (if cin then 1 else 0)
  (x % 2 ^ 32, decide (x ≥ 2 ^ 32))

/-- Difference and borrow out of R141. -/
def subBorrow (a b : Nat) (cin : Bool) : Nat × Bool :=
  let y := b + (if cin then 1 else 0)
  (if a ≥ y then a - y else (a + 2 ^ 33 - y) % 2 ^ 32, decide (a < y))

end Sys2Proof.Machine
end

