-- ==== Sys2Proof/Machine/Record.lean ====
section
/-! DEFINITION. The records of copy commands (R293 to R295): their fields, and the runs of bytes that they move. -/

namespace Sys2Proof.Machine

/-! ## The command record (R293 to R295) -/

/-- The 64-bit word at a byte of a record. -/
def Copy.word (c : Copy) (k : Nat) : Nat := ofBytes ((c.record.drop k).take 8)

/-- Bits [lo + n - 1 : lo] of CTRL. -/
def Copy.ctrl (c : Copy) (lo n : Nat) : Nat := c.word 16 / 2 ^ lo % 2 ^ n
/-- SRCKIND. -/
def Copy.srcKind (c : Copy) : Nat := c.ctrl 0 4
/-- DSTKIND. -/
def Copy.dstKind (c : Copy) : Nat := c.ctrl 4 4
/-- NDIM. -/
def Copy.ndim (c : Copy) : Nat := c.ctrl 8 4
/-- CWOFF. -/
def Copy.cwoff (c : Copy) : Nat := c.word 24 % 2 ^ 20
/-- VALUE. -/
def Copy.value (c : Copy) : Nat := c.word 24 / 2 ^ 32

/-- A dimension entry: COUNT, SRCSTRIDE, DSTSTRIDE (R295). -/
def Copy.dim (c : Copy) (j : Nat) : Nat × W64 × W64 :=
  (c.word (32 + 24 * j) % 2 ^ 32, BitVec.ofNat 64 (c.word (40 + 24 * j)), BitVec.ofNat 64 (c.word (48 + 24 * j)))

/-- A reserved field or kind, or a disallowed combination (R294, R295, R297). -/
def Copy.badCommand (c : Copy) : Bool :=
  c.ctrl 32 32 != 0 || c.ctrl 12 5 != 0 || c.word 24 / 2 ^ 20 % 2 ^ 12 != 0 || c.ctrl 19 3 == 7 || decide (c.srcKind > 2) ||
  decide (c.dstKind > 3) || (c.ctrl 22 1 == 1 && c.cwoff % 4 != 0) || (c.ctrl 28 4 != 0 && !(c.op == 0 && c.dstKind == 1)) ||
  if c.op = 1 then c.ndim != 0 || c.srcKind != 0 || c.word 32 / 2 ^ 20 != 0 || c.word 32 % 8 != 0
  else
    decide (c.ndim < 1) || decide (c.ndim > 12) || ((List.range c.ndim).any fun j => c.word (32 + 24 * j) / 2 ^ 32 != 0) ||
      (c.dim 0).2 != (0, 0) || (c.op == 2 && (decide (c.srcKind > 1) || c.dstKind != 0))

/-- Starts of the runs of `cpyt` and `cpym`, as displacements from SRC and DSTA, in index order (R295): the first entry of the list
moves fastest. -/
def dimRuns : List (Nat × W64 × W64) → List (W64 × W64)
  | [] => [(0, 0)]
  | (n, ss, ds) :: r => (dimRuns r).flatMap fun x => (List.range n).map fun i => (x.1 + BitVec.ofNat 64 i * ss, x.2 + BitVec.ofNat 64 i * ds)

/-- A run: its source displacement, or its row of the index table; its destination displacement; its bytes. -/
structure Run where
  src : W64
  row : Option Nat := none
  dst : W64
  n : Nat
  deriving DecidableEq, Repr

/-- The runs of a command in index order. -/
def Copy.runs (c : Copy) : List Run :=
  if c.op = 1 then
    let (rows, bytes) := (c.word 40 % 2 ^ 32, c.word 40 / 2 ^ 32)
    (List.range rows).map fun r => { src := 0, row := some r, dst := BitVec.ofNat 64 (r * c.word 48), n := bytes }
  else
    let n := (c.dim 0).1
    if n = 0 then []
    else (dimRuns ((List.range (c.ndim - 1)).map fun j => c.dim (j + 1))).map fun x => { src := x.1, dst := x.2, n := n }

end Sys2Proof.Machine
end

