-- ==== Sys2Proof/Machine/Waits.lean ====
section
/-! DEFINITION. Addresses of memory operands, and the waits of a thread at issue (R39): what keeps an instruction from issuing
although its thread waits for nothing else. -/

namespace Sys2Proof

open Sys2Proof.Machine

/-- Irrevocable effects (R188, R275, R293); of a `ld.g` only one that names another device, which is found at translation. -/
def Instr.irrevocable : Instr → Bool
  | .stG _ | .stX _ | .bscale _ | .atomG _ | .atomS _ | .atomX _ | .redG _ | .redS _ | .fence _ | .ldredMc _ | .stmc _
  | .mcgOpen _ | .mcgClose _ | .cpyt _ | .cpyg _ | .cpym _ | .trapHost _ => true
  | _ => false

/-- Effects that shadow mode compares (R415). -/
def Instr.compared : Instr → Bool
  | .stG _ | .stS _ | .stX _ | .atomG _ | .atomS _ | .atomX _ | .redG _ | .redS _ | .qpush _ | .accst _ | .msend _ | .stmc _
  | .bscale _ | .cpyt _ | .cpyg _ | .cpym _ | .trapHost _ | .exit _ => true
  | _ => false

/-- Instructions that read state outside the thread, whose values the leading thread passes to its shadow (R414). -/
def Instr.passes : Instr → Bool
  | .ldG _ | .ldS _ | .ldX _ | .ldC _ | .atomG _ | .atomS _ | .atomX _ | .waitc _ | .waitw _ | .qpop _ | .mrecv _ | .ldredMc _ | .accld _
  | .csrr _ | .movsr _ | .tags _ | .guess _ | .guessW _ | .affirm _ | .deny _ | .vote _ | .shfl _ | .match_ _ | .redux _ | .elect _
  | .msend _ | .stmc _ | .mcgOpen _ | .mcgClose _ | .qstat _ | .mkj _ => true
  | .mov f => match f.sa with | .special (.queue _) => true | _ => false
  | _ => false

/-- Instructions that access memory: the words of class 3 but tile transfers and `mcg.close`, `bscale`, and the waits and guesses that read
a word (R179, R246, R251). -/
def Instr.memoryAccess : Instr → Bool
  | .ldG _ | .ldS _ | .ldX _ | .ldC _ | .stG _ | .stS _ | .stX _ | .bscale _ | .atomG _ | .atomS _ | .atomX _ | .redG _ | .redS _
  | .ldredMc _ | .stmc _ | .mcgOpen _ | .cpyt _ | .cpyg _ | .cpym _ | .waitc _ | .waitw _ | .guessW _ => true
  | _ => false

/-- Instructions before whose own part the thread's earlier accesses, or those of the bytes that it reads at once, are performed (R301). -/
def Instr.settles (i : Instr) : Bool :=
  match i with
  | .join _ | .exit _ | .waitc _ | .guessW _ | .cpyt _ | .cpyg _ | .cpym _ | .mcgOpen _ => true
  | _ => false

/-- Crew-wide operations (R232). -/
def Instr.crewWide : Instr → Bool
  | .vote _ | .shfl _ | .match_ _ | .redux _ | .elect _ => true
  | _ => false

/-- Instructions that issue once for their whole PC group (R45, R66, R183, R213, R214, R256). -/
def Instr.once (i : Instr) : Bool :=
  match i with
  | .mkj _ | .mcgOpen _ | .mcgClose _ | .ctnOpen _ => true
  | .ldG f | .ldS f | .ldX f | .ldC f => f.xc.getLsbD 3
  | .stG _ | .stS _ | .stX _ => false
  | i => match i.shape with
    | some (_, sh) => match sh.dst with | .s _ => true | _ => false
    | none => false

/-- The long-latency instructions of R63. -/
def Instr.longLatency : Instr → Bool
  | .ldG _ | .ldS _ | .ldX _ | .ldC _ | .atomG _ | .atomS _ | .atomX _ | .ldredMc _ | .accld _ | .frcp _ | .frsq _ | .fsqrt _
  | .fex2 _ | .flg2 _ | .fsin _ | .fcos _ | .ftanh _ | .mrecv _ => true
  | _ => false

/-- A word that names a queue register (R63): a `qstat.q` names one in XC (R292). -/
def Instr.namesQueue (i : Instr) : Bool :=
  match i with
  | .qstat f => f.xc.toNat % 4 == 0
  | i => match i.shape with
    | some (f, sh) => sh.dst == .q || (match f.sa with | .special (.queue _) => true | _ => false) ||
        (match f.sb with | .special (.queue _) => true | _ => false)
    | none => false

/-- Classes 4, 5 and 7 (R86, R87, R89). -/
def Instr.class457 (i : Instr) : Bool :=
  match i.opcode with
  | some (o, _) => let c := o.toNat / 128; c == 4 || c == 5 || c == 7
  | none => false

/-- The registers an instruction reads, as locations of its thread: sources, XC groups, a store's data, predicates, guard. -/
def Shape.reads (sh : Shape) (f : Fields) : List Loc :=
  let d := if sh.dstRead then
      match sh.dst with
      | .v n => (List.range n).map fun k => Loc.v (f.dst.toNat + k)
      | .s n => (List.range n).map fun k => Loc.s (f.dst.toNat + k)
      | _ => []
    else []
  let ps := (match f.sa with | .special (.pred p) => [Loc.p p.toNat] | _ => []) ++
    (match f.sb with | .special (.pred p) => [Loc.p p.toNat] | _ => [])
  (sh.a.vregs f.sa ++ sh.b.vregs f.sb ++ (List.range sh.xcRegs).map (f.xc.toNat + ·)).map Loc.v ++
    (sh.a.uregs f.sa ++ sh.b.uregs f.sb).map Loc.s ++ d ++ ps ++ sh.predReads.map Loc.p ++ [Loc.p f.gp.toNat]

/-- The registers an instruction writes. The status register s(h + 1) of a group operation is one (R215, R217). -/
def Shape.writes (sh : Shape) (f : Fields) : List Loc :=
  (if sh.dstRead then [] else
    match sh.dst with
    | .v n => (List.range n).map fun k => Loc.v (f.dst.toNat + k)
    | .s n => (List.range n).map fun k => Loc.s (f.dst.toNat + k)
    | .p => [Loc.p f.dst.toNat]
    | .j => (List.range 4).map fun k => Loc.s (192 + 4 * f.dst.toNat + k)
    | _ => []) ++ sh.predWrites.map Loc.p ++
  (match sh.b, f.sb, sh.predWrites with | .handle, .unif n _ _, _ :: _ => [Loc.s (n.toNat + 1)] | _, _, _ => [])

end Sys2Proof

namespace Sys2Proof.Machine

/-- The displacement of SB, sign-extended from 20 bits (R181). -/
def dispOf (src : Src) : BitVec 64 := match src with | .imm p => p.signExtend 64 | _ => 0

/-- A `.g` address: base and displacement (R181). -/
def State.addr64 (s : State) (t : Nat) (f : Fields) (disp : Bool) : Opd × W64 :=
  match s.readSrc t 2 .u64 f.sa with
  | .ok o => (o, BitVec.ofNat 64 o.val + if disp then dispOf f.sb else 0)
  | .error _ => ({ val := 0 }, 0)

/-- A `.s`, `.x`, `.c` or record offset: base and displacement (R181). -/
def State.addr32 (s : State) (t : Nat) (f : Fields) (disp : Bool) : Opd × Nat :=
  match s.readSrc t 1 .b32 f.sa with
  | .ok o => (o, (o.val + if disp then ((dispOf f.sb).setWidth 32).toNat else 0) % 2 ^ 32)
  | .error _ => ({ val := 0 }, 0)

/-- The core an `.x` address names: PEER of the issuer's cluster (R182). -/
def peerCore (core a : Nat) : Nat := core / 4 * 4 + a / 2 ^ 20 % 4

/-- Every byte of a range of a core's scratchpad part lies in the scratchpad of a block of the context resident there (R182). -/
def State.ownsScratch (s : State) (ctx : BitVec 16) (core off n : Nat) : Bool :=
  (List.range n).all fun k => (s.coreBlocks core).any fun b =>
    let x := s.block b
    x.ctx == ctx && decide (x.spBase ≤ off + k && off + k < x.spBase + 1024 * x.launch.spKib)

/-- A byte of a core's scratchpad part (R36). -/
def Core.sByte (c : Core) (off : Nat) : Byte := match tget c.scratch off with | some b => b.val | none => 0

/-- Bytes of a core's scratchpad part. -/
def Core.sRead (c : Core) (off n : Nat) : List Byte := (List.range n).map fun k => c.sByte (off + k)

/-- The sectors of a range. -/
def sectorsOf (off n : Nat) : List Nat := (List.range ((off + n + 31) / 32 - off / 32)).map (off / 32 + ·)

/-- The union of the tag sets of a range of a core's scratchpad sectors (R196). -/
def Core.sectorTags (c : Core) (off n : Nat) : Tags := (sectorsOf off n).foldl (fun g k => g ||| tgetD c.stags k 0) 0

/-- Some sector of a range of a core's scratchpad is poisoned (R187). -/
def Core.sectorPoison (c : Core) (off n : Nat) : Bool := (sectorsOf off n).any fun k => c.spoison.contains k

/-- Bytes a memory access of class 3 covers (R189). -/
def accessBytes (f : Fields) : Nat := f.ty.bytes * f.count

/-- The tag sets of everything an instruction reads, its guard included. -/
def State.sourceTags (s : State) (t : Nat) (sh : Shape) (f : Fields) : Tags :=
  (sh.reads f).foldl (fun g l => g ||| (s.getLoc t l).tags) 0

/-- The slot of this core that stands for an AID: its own, or a mirror (R249, R350). -/
def Core.slotOfAid (c : Core) (aid : W32) : Option Nat :=
  (c.slots.find? fun p => p.2.kind != .free && p.2.aid == aid).map (·.1)

/-- The lowest-numbered free slot (R351). -/
def Core.freeSlot (c : Core) : Option Nat :=
  (List.range 8).find? fun k => match tget c.slots k with | some x => x.kind == .free | none => true

/-- Number of free slots of a core. -/
def Core.freeSlots (c : Core) : Nat :=
  ((List.range 8).filter fun k => match tget c.slots k with | some x => x.kind == .free | none => true).length

/-- Log bytes the instruction's register writes and scratchpad sectors take (R356). -/
def State.logBytes (s : State) (t : Nat) (i : Instr) (sh : Shape) (f : Fields) : Nat :=
  let n := ((sh.writes f).filter (· != .p 15)).length
  match i with
  | .stS f => 40 * (sectorsOf (s.addr32 t f true).2 (accessBytes f)).length
  | .ldredMc _ | .stmc _ => 16 * (n - if s.groupOps.any fun o => o.crew == crewOf t && o.seq == s.seq then 1 else 0)
  | _ => 16 * n

/-- A thread that holds a mark has no log space for n bytes (R357). -/
def State.noLogRoom (s : State) (t n : Nat) : Bool := !(s.thread t).marks.isEmpty && !s.logRoom t n

/-- Earlier writes within the device are performed at a scope (R204, R332): those of an identifier and of later ones. -/
def Thread.performed (th : Thread) (scope : Nat) (since : Nat := 0) : Bool :=
  th.pend.all fun p => decide (p.1 < since) || match p.2 with
    | .late .. => scope == 0
    | .home => false
    | .outbound .. => decide (scope < 4)

/-- A request is a copy command's, which no release of its thread waits for (R342). -/
def ReqKind.ofCopy : ReqKind → Bool
  | .cpym _ | .copyRead .. => true
  | _ => false

/-- Fabric requests that have not ended: outstanding at a port, or still to be taken by one. -/
def State.allRequests (s : State) : List Request := s.requests ++ s.unsent

/-- A `cpym` has members that have not acknowledged it (R342, R347). -/
def State.unacked (s : State) (id : Nat) (c : Copy) : Bool := !c.moved || s.allRequests.any fun r => r.kind == .cpym id

/-- A thread's earlier accesses are performed at a scope (R204, R332, R335, R347): at SCOPE 6 its fabric accesses are answered, its
`stmc` and `cpym` acknowledged by every member. `acks` is false for a fence that is no release, which waits for no `cpym`. -/
def State.performed (s : State) (t scope : Nat) (since : Nat := 0) (acks : Bool := true) : Bool :=
  (s.thread t).performed scope since &&
    (decide (scope < 6) || ((s.allRequests.all fun r => decide (r.id < since) || r.t != t || r.kind.ofCopy) &&
      (!acks || s.copies.all fun c => decide (c.1 < since) || !(c.2.t == t && c.2.op == 2 && s.unacked c.1 c.2))))

/-- An effect orders later accesses as an acquire (R349). -/
def Effect.acquires : Effect → Bool
  | .atomG f .. | .atomL f .. => f.ord == 1 || f.ord == 3
  | .loadFab f .. | .ldred f .. => f.ord == 1
  | .fence _ ord => ord != 2
  | _ => false

/-- The addresses of the scale byte and of the band record word for a byte of an fp4bs page (R125 to R127). -/
def frameAddrs (frame : Nat) (va : W64) : W64 × W64 :=
  let o := va.toNat % 2 ^ 16
  (BitVec.ofNat 64 (frame + o / 1024 * 256 + o % 1024 / 4), BitVec.ofNat 64 (frame + 0x4000))

/-- A group of a context by its handle (R213). -/
def State.groupOf (s : State) (ctx : BitVec 16) (h : W32) : Option Group :=
  match tget (s.ctx ctx).groups (h.toNat % 64) with
  | some g => if h.toNat / 2 ^ 26 = 0 ∧ h.toNat / 64 % 2 ^ 20 = g.gen then some g else none
  | none => none

/-- The issuing device's index among the members, if it is one (R213). -/
def State.ownMember (s : State) (g : Group) : Option Nat :=
  (List.range g.members.length).find? fun k => g.members.getD k 0 == s.helm.fabDev

/-- The page of a member's access under its own context: PEER_FAULT when the translation or a permission fails, or the page is
another device's. -/
def State.memberPage (s : State) (ctx : BitVec 16) (va : W64) (write : Bool) : Except Nat Page :=
  match s.translate ctx va with
  | .error _ => .error 5
  | .ok p => if p.peer.isSome || (if write then !p.w else !p.r) then .error 5 else .ok p

/-- Data of an encode store that makes it write its scale byte and its band record (R192). -/
def specialData (f : Fields) (data : Nat) : Bool := ((List.range 8).map (blockElem f.ty data)).any FV.isSpecial

/-- Bytes of this device's memory that an effect would write, were it performed now: physical ranges (R192, R194, R349). -/
def State.writesG (s : State) (e : Effect) : List (Nat × Nat) :=
  let here (p : Page) (n : Nat) : List (Nat × Nat) := if p.peer.isNone then [(p.pa, n)] else []
  match e with
  | .storeG f _ pages frames data =>
    match frames with
    | [] => pages.flatMap fun p => here p f.ty.bytes
    | sp :: r =>
      let bp := r.headD sp
      let block := (pages.take 1).flatMap fun p => here p 4
      if f.xc.getLsbD 2 then block ++ here sp 1 ++ (if data.testBit 40 then here bp 4 else [])
      else if specialData f data || (bp.peer.isNone && (fmtBf16.decode (ofBytes (s.keptRead bp.pa 2))).isSpecial) then
        block ++ here sp 1 ++ here bp 4
      else block
  | .atomG f _ p _ _ | .redG f _ p _ => here p f.ty.bytes
  | .bscale _ p _ => here p 4
  | _ => []

/-- Bytes of a core's scratchpad part an effect writes: core, offset, length. -/
def Effect.writesS : Effect → List (Nat × Nat × Nat)
  | .storeX f core off _ => [(core, off, f.ty.bytes * f.count)]
  | .atomL f core off .. | .redS f core off .. => [(core, off, f.ty.bytes)]
  | _ => []

/-- The command that a held copy is (R293, R349). -/
def State.heldCopy (s : State) (h : Held) : Option Copy :=
  match h.eff with
  | .copy op r k => some { blk := blockOf h.t, t := h.t, core := s.coreOf h.t, ctx := (s.block (blockOf h.t)).ctx, op := op, record := r, handle := k }
  | _ => none

/-- Destination addresses of a command, byte by byte; none of one that it refuses (R294). -/
def Copy.targets (c : Copy) : List W64 :=
  if c.badCommand then []
  else c.runs.flatMap fun r => (List.range r.n).map fun k => BitVec.ofNat 64 (c.word 8) + r.dst + BitVec.ofNat 64 k

/-- A virtual byte of a context lies on this device in a physical range. -/
def State.vaMeets (s : State) (ctx : BitVec 16) (a : W64) (pa n : Nat) : Bool :=
  match s.translate ctx a with
  | .ok p => p.peer.isNone && decide (pa ≤ p.pa && p.pa < pa + n)
  | .error _ => false

/-- This device is a member of the group of a handle. -/
def State.memberHere (s : State) (ctx : BitVec 16) (h : W32) : Bool :=
  match s.groupOf ctx h with | some g => (s.ownMember g).isSome | none => false

/-- A held `stmc` or copy writes bytes of a range of this device's memory (R349). -/
def State.engineMeetsG (s : State) (h : Held) (pa n : Nat) : Bool :=
  let ctx := (s.block (blockOf h.t)).ctx
  match h.eff with
  | .stmc f va k _ _ =>
    let bytes := if f.xc.getLsbD 2 then 4 else f.ty.bytes * f.count
    s.memberHere ctx k && ((List.range bytes).any (fun i => s.vaMeets ctx (va + BitVec.ofNat 64 i) pa n) ||
      (f.xc.getLsbD 2 && (match s.translate ctx va with
        | .ok p => let (sa, ba) := frameAddrs p.frame va
          p.fmt == 1 && (s.vaMeets ctx sa pa n || (List.range 4).any fun i => s.vaMeets ctx (ba + BitVec.ofNat 64 i) pa n)
        | .error _ => false)))
  | .copy op _ k =>
    (match s.heldCopy h with
    | some c => c.dstKind == 0 && (op != 2 || s.memberHere ctx k) && c.targets.any fun a => s.vaMeets ctx a pa n
    | none => false)
  | _ => false

/-- A command writes payload to bytes of a range of a core's scratchpad part, on each core of a multicast (R296, R430). -/
def State.copyMeetsS (s : State) (c : Copy) (core off n : Nat) : Bool :=
  let b := s.block c.blk
  let at_ (k o : Nat) : Bool := k == core && decide (off ≤ o && o < off + n)
  c.targets.any fun a =>
    match c.dstKind with
    | 1 =>
      if c.ctrl 28 4 = 0 then at_ b.core (b.spBase + a.toNat)
      else (List.range 4).any fun i => (c.ctrl 28 4).testBit i && at_ (c.core / 4 * 4 + i) (b.spBase + a.toNat)
    | 2 => decide (a.toNat < 2 ^ 22) && at_ (peerCore c.core a.toNat) (a.toNat % 2 ^ 20)
    | 3 => decide (onChipBase ≤ a.toNat) && a.toNat / 0x400000 % 4 == 1 &&
        at_ (a.toNat / 2 ^ 30 % 4 * 64 + a.toNat / 2 ^ 24 % 64) (a.toNat % 0x400000)
    | _ => false

/-- A held copy writes bytes of a range of a core's scratchpad part: its payload or its completion word (R297, R349). -/
def State.engineMeetsS (s : State) (h : Held) (core off n : Nat) : Bool :=
  match s.heldCopy h with
  | none => false
  | some c =>
    let b := s.block c.blk
    (c.ctrl 22 1 == 1 && b.core == core && overlap (b.spBase + c.cwoff) 4 off n) || s.copyMeetsS c core off n

/-- The identifier under which a held effect answers. -/
def Effect.out : Effect → Option Nat
  | .atomG _ _ _ _ o | .atomL _ _ _ _ _ _ o | .loadFab _ _ _ _ o | .ldred _ _ _ o | .stmc _ _ _ _ o | .mcgOpen _ _ o
  | .mcgClose _ o | .mail _ _ _ _ o => some o
  | _ => none

/-- A result is still to come that no held effect keeps back (R188). -/
def State.resultDue (s : State) (t : Nat) (o : Outstanding) : Bool :=
  !((s.core (s.coreOf t)).held.any fun h => h.eff.out == some o.id)

/-- A long-latency instruction of a crew is outstanding (R63, R277, R391). -/
def State.longDue (s : State) (c : Nat) : Bool :=
  (s.crewThreads c).any fun t => (s.thread t).out.any fun o => o.long && s.resultDue t o

/-- A held effect of the thread writes a byte of a range of memory (R349). -/
def State.heldMeetsG (s : State) (t pa n : Nat) : Bool :=
  (s.core (s.coreOf t)).held.any fun h =>
    h.t == t && (s.engineMeetsG h pa n || (s.writesG h.eff).any fun w => overlap w.1 w.2 pa n)

/-- The same for a range of a core's scratchpad part. -/
def State.heldMeetsS (s : State) (t core off n : Nat) : Bool :=
  (s.core (s.coreOf t)).held.any fun h =>
    h.t == t && (h.eff.acquires || s.engineMeetsS h core off n || h.eff.writesS.any fun w => w.1 == core && overlap w.2.1 w.2.2 off n)

/-- The thread has a held effect that orders every later access (R349). -/
def State.heldAcquire (s : State) (t : Nat) : Bool :=
  (s.core (s.coreOf t)).held.any fun h => h.t == t && h.eff.acquires

/-- The message destination of `msend` (R259): device, reserved bits zero, block. -/
def msendDest (a : Nat) : Nat × Bool × Nat := (a / 2 ^ 52, a / 2 ^ 31 % 2 ^ 21 == 0, a % 2 ^ 31)

/-- The state of block k of a thread's node, as `msend` meets it (R260): its identifier while it takes messages. A block that is
swapped out waits for placement; one whose threads have all exited has ended. -/
def State.receiver (s : State) (t k : Nat) : BlkState :=
  match tget s.nodes (s.block (blockOf t)).node with
  | some n =>
    match tgetD n.blks k (.waiting 0) with
    | .placed uid =>
      (match (s.block uid).stage with
      | .resident | .saving => .placed uid
      | .ending => .published
      | _ => .waiting 0)
    | x => x
  | none => .published

/-- The core that holds the live slot of an AID as a guess, and the slot (R253). -/
def State.guessOf (s : State) (aid : W32) : Option (Nat × Nat) :=
  s.cores.findSome? fun c => (c.2.slots.find? fun p => p.2.kind == .guess && p.2.aid == aid).map fun p => (c.1, p.1)

/-- An AID is live (R249): a guess or a region holds it. -/
def State.live (s : State) (aid : W32) : Bool :=
  s.cores.any fun c => c.2.slots.any fun p => (p.2.kind == .guess || p.2.kind == .contain) && p.2.aid == aid

/-- AIDs of a tag set of a core (R259). -/
def Core.aidsOf (c : Core) (g : Tags) : List W32 :=
  (slotsOf g).filterMap fun k => match tget c.slots k with
    | some x => if x.kind == .free then none else some x.aid
    | none => none

/-- Slots an import of AIDs would have to take on a core (R255, R259): an AID that stands in two slots of the sender takes one. -/
def Core.importNeed (c : Core) (aids : List W32) : Nat := (aids.eraseDups.filter fun a => (c.slotOfAid a).isNone).length

/-- The message a thread has waiting in `msend`. -/
def State.mailOf (s : State) (t : Nat) : Option Mail := s.mail.find? (·.sender == t)

/-- The earlier accesses of the sender that an ORD release waits for are still to be released or performed (R260). -/
def State.sendOrdered (s : State) (m : Mail) : Bool :=
  match m.rel with
  | some scope => (s.core (s.coreOf m.sender)).held.any (·.t == m.sender) || !s.performed m.sender scope
  | none => false

/-- A thread that holds a mark has no log space for pd, which is not written where it is p15 (R357, R463). -/
def State.noSendRoom (s : State) (t : Nat) (m : Mail) : Bool := m.pd != 15 && s.noLogRoom t 16

/-- A message that waits is kept only by slots its AIDs would have to take, or by log space for pd (R357, R370). -/
def State.sendNeedsSlots (s : State) (t : Nat) : Bool :=
  match s.mailOf t with
  | some m =>
    (match s.receiver t m.idx with
    | .placed uid =>
      let r := s.block uid
      decide (r.inbox.length < 64) && !s.sendOrdered m &&
        (decide ((s.core r.core).importNeed (m.aids.filter s.live) > (s.core r.core).freeSlots) || s.noSendRoom t m)
    | _ => false)
  | none => false

/-- A `.g` access names another device: the page itself, or for a block form of an fp4bs page a page of its scale frame (R188, R428). -/
def State.namesPeer (s : State) (ctx : BitVec 16) (va : W64) : Bool :=
  let away (a : W64) : Bool := match s.translate ctx a with | .ok p => p.peer.isSome | .error _ => false
  match s.translate ctx va with
  | .ok p => p.peer.isSome || (p.fmt == 1 && (away (frameAddrs p.frame va).1 || away (frameAddrs p.frame va).2))
  | .error _ => false

/-- A message goes to another device (R259); with a reserved bit in its destination it goes nowhere (R260). -/
def State.sendsAway (s : State) (t : Nat) (f : Fields) : Bool :=
  let (dev, ok, _) := msendDest (s.addr64 t f false).2.toNat
  ok && dev != s.helm.fabDev.toNat

/-- The effect of the instruction in this thread is irrevocable: its form says so, or it is a message or a load that names another device
(R188, R259). -/
def State.irrevocableHere (s : State) (t : Nat) (i : Instr) : Bool :=
  match i with
  | .msend f => s.sendsAway t f
  | .ldG f => s.namesPeer (s.block (blockOf t)).ctx (s.addr64 t f true).2
  | i => i.irrevocable

/-- Bytes of the record in the scratchpad that `cpyt`, `cpyg`, `cpym` and `mcg.open` read (R212, R293). -/
def State.recordBytes (s : State) (t : Nat) (i : Instr) : Nat :=
  let b := s.block (blockOf t)
  let at_ (f : Fields) (k n : Nat) : Nat := ofBytes ((s.core b.core).sRead (b.spBase + (s.addr32 t f false).2 + k) n)
  match i with
  | .cpyt f | .cpym f => 32 + 24 * (at_ f 17 1 % 16)
  | .cpyg _ => 56
  | .mcgOpen f => 8 + 2 * (at_ f 0 8 % 2 ^ 13)
  | _ => 0

/-- Tag sets that the instruction consumes beside those of its registers (R352): of the sectors it reads, of the message it pops. -/
def State.otherTags (s : State) (t : Nat) (i : Instr) : Tags :=
  let b := s.block (blockOf t)
  let sectors (f : Fields) (disp : Bool) (n : Nat) : Tags := (s.core b.core).sectorTags (b.spBase + (s.addr32 t f disp).2) n
  match i with
  | .ldS f => sectors f true (accessBytes f)
  | .atomS f => sectors f false f.ty.bytes
  | .waitw f => sectors f false 4
  | .cpyt f | .cpym f | .cpyg f | .mcgOpen f => sectors f false (s.recordBytes t i)
  | .mrecv _ => match b.inbox with | m :: _ => m.tags | [] => 0
  | _ => 0

/-- A thread would be tainted by the instruction: it holds a mark, or consumes a tag set there (R352). -/
def State.tainted (s : State) (t : Nat) (i : Instr) (sh : Shape) (f : Fields) : Bool :=
  (s.thread t).tagUnion != 0 || s.sourceTags t sh f != 0 || s.otherTags t i != 0

/-- Copy commands of a core that are not complete (R293). -/
def State.coreCopies (s : State) (core : Nat) : Nat := (s.copies.filter fun p => p.2.core == core).length

/-- An `.x` access meets a sector with a non-empty tag set (R197). -/
def State.peerTagged (s : State) (t : Nat) (f : Fields) (disp : Bool) : Bool :=
  let b := s.block (blockOf t)
  let (_, a) := s.addr32 t f disp
  let p := peerCore b.core a
  decide (a < 2 ^ 22) && s.ownsScratch b.ctx p (a % 2 ^ 20) (accessBytes f) &&
    (s.core p).sectorTags (a % 2 ^ 20) (accessBytes f) != 0

/-- Virtual ranges that a `ld.g` reads (R191, R193, R194): of a block form the block, its scale byte and its band record word. -/
def State.readRanges (s : State) (t : Nat) (f : Fields) (va : W64) : List (W64 × Nat) :=
  match s.translate (s.block (blockOf t)).ctx va with
  | .ok p =>
    if p.fmt = 1 && (f.xc.getLsbD 2 || blockForm f) then
      let (sa, ba) := frameAddrs p.frame va
      [(va, 4), (sa, 1), (ba, 4)]
    else [(va, accessBytes f)]
  | .error _ => [(va, accessBytes f)]

/-- A held effect of the thread orders a read of ranges of memory, or writes a byte of them (R349). -/
def State.heldMeetsRead (s : State) (t : Nat) (rs : List (W64 × Nat)) : Bool :=
  s.heldAcquire t || rs.any fun r => (List.range r.2).any fun k =>
    match s.translate (s.block (blockOf t)).ctx (r.1 + BitVec.ofNat 64 k) with
    | .ok p => p.peer.isNone && s.heldMeetsG t p.pa 1
    | .error _ => false

/-- R349 for an access that is not itself held. -/
def State.heldWaits (s : State) (t : Nat) (i : Instr) : Bool :=
  let b := s.block (blockOf t)
  if !(s.core b.core).held.any (·.t == t) then false
  else match i with
  | .ldG f => s.heldMeetsRead t (s.readRanges t f (s.addr64 t f true).2)
  | .waitc f | .guessW f => s.heldMeetsRead t [((s.addr64 t f false).2, f.ty.bytes)]
  | .ldS f => s.heldMeetsS t b.core (b.spBase + (s.addr32 t f true).2) (accessBytes f)
  | .waitw f => s.heldMeetsS t b.core (b.spBase + (s.addr32 t f false).2) f.ty.bytes
  | .ldX f => let a := (s.addr32 t f true).2; s.heldMeetsS t (peerCore b.core a) (a % 2 ^ 20) (accessBytes f)
  | .cpyt f | .cpyg f | .cpym f | .mcgOpen f =>
    s.heldMeetsS t b.core (b.spBase + (s.addr32 t f false).2) (s.recordBytes t i)
  | .ldC _ | .stS _ => s.heldAcquire t
  | _ => false

/-- The scale frame of an encode store that is still to be performed lies on another device (R428). -/
def LateUnit.away (u : LateUnit) : Bool :=
  match u with | .encode _ _ _ _ sp bp _ _ _ _ => sp.peer.isSome || bp.peer.isSome | _ => false

/-- An encode store of the thread waits for its frame on another device (R428): what has to find its earlier accesses performed waits. -/
def Thread.frameWaits (th : Thread) : Bool := th.pend.any fun p => match p.2 with | .late _ _ u => u.away | _ => false

/-- An acquire of the thread has not been performed, and the instruction makes an access (R311, R335, R340). -/
def State.acquireWaits (s : State) (t : Nat) (i : Instr) : Bool :=
  (i.memoryAccess && (s.thread t).out.any fun o => o.acq && o.wb.isNone)

/-- Lines that loads of a core's threads have missed in its L1 and not received (R14). -/
def State.misses (s : State) (core : Nat) : List Nat := ((s.coreThreads core).flatMap fun t => (s.thread t).out.flatMap (·.miss)).eraseDups

/-- Lines of its context that a `ld.g` misses in the L1, those of the scale byte and of the band record word among them (R14). -/
def State.missLines (s : State) (t : Nat) (f : Fields) (va : W64) : List Nat :=
  let b := s.block (blockOf t)
  let cached (a : W64) : Bool := match s.translate b.ctx a with | .ok p => p.peer.isNone && p.synonym.isNone | .error _ => false
  if f.scope.toNat ≥ 3 then []
  else
    let as := (s.readRanges t f va).flatMap fun r => [r.1, r.1 + BitVec.ofNat 64 (r.2 - 1)]
    ((as.filter cached).map (·.toNat / 128)).eraseDups.filter fun k =>
      !((s.core b.core).l1.any fun l => l.ctx == b.ctx && l.line == k && l.red.isNone)

/-- A `ld.g` that would miss in the L1 finds no room among the core's 48 miss-status entries (R14). -/
def State.missWaits (s : State) (t : Nat) (f : Fields) : Bool :=
  let ms := s.misses (s.block (blockOf t)).core
  let new := (s.missLines t f (s.addr64 t f true).2).filter fun k => !ms.contains k
  !new.isEmpty && decide (ms.length + new.length > 48)

/-- A result still to be written keeps the instruction waiting (R62, R63); the value group of a wait-form guess that is not written yet does so
for an instruction that writes it too, of which R250 does not speak (DESIGN CHOICE, log 106). -/
def State.stalled (s : State) (t : Nat) (i : Instr) : Bool :=
  match i.shape with
  | none => false
  | some (f, sh) =>
    let th := s.thread t
    let names := sh.reads f ++ sh.writes f
    let uni := (s.crewThreads (crewOf t)).flatMap fun u =>
      if u = t then [] else (s.thread u).out.flatMap fun o => o.dests.filter fun l => match l with | .s _ => true | _ => false
    let waits := th.deferred.flatMap fun d => (List.range d.2.2).map fun k => Loc.v (d.2.1 + k)
    th.out.any (fun o => o.dests.any names.contains) || names.any waits.contains || names.any uni.contains ||
      (th.out.any (·.long) && (i.class457 || i.namesQueue))

/-- The lookahead window of a thread is spent (R63). -/
def Thread.windowSpent (th : Thread) : Bool := th.out.any fun o => o.long && o.since ≥ o.la

/-- The tag union a thread has once it has consumed what the instruction names (R352, R353). -/
def State.unionAfter (s : State) (t : Nat) (sh : Shape) (f : Fields) : Tags := (s.thread t).tagUnion ||| s.sourceTags t sh f

/-- A group operation of the context on a handle has been issued and not sent, or sent and not ended (R214). -/
def State.handleSent (s : State) (ctx : BitVec 16) (h : W32) : Bool :=
  (s.allRequests.any fun r => r.ctx == ctx && r.handle == some (h.toNat % 64)) ||
    s.threads.any fun p => (s.block (blockOf p.1)).ctx == ctx && p.2.pend.any fun x =>
      match x.2 with | .late _ _ (.effect (.ldred _ _ k _) _) | .late _ _ (.effect (.stmc _ _ k _ _) _) => k == h | _ => false

/-- A group operation of the context on a handle that has not ended: issued, or held (R214). -/
def State.handleBusy (s : State) (ctx : BitVec 16) (h : W32) : Bool :=
  s.handleSent ctx h ||
    s.cores.any fun c => c.2.held.any fun e => (s.block (blockOf e.t)).ctx == ctx &&
      (match e.eff with | .ldred _ _ k _ | .stmc _ _ k _ _ => k == h | _ => false)

/-- A slot of a core. -/
def Core.slot (c : Core) (k : Nat) : Slot := tgetD c.slots k {}

/-- Guess and mirror slots of a tag set (R350: containment slots are left out). -/
def Core.parentsOf (c : Core) (g : Tags) : Tags := g &&& ~~~ c.containTags

/-- A guess of the thread takes its wait form (R252, R365): four of its own are live, a parent is itself a child, its address is
settled, or its settled list is full. `g` holds the parents it would have. -/
def State.waitForm (s : State) (t : Nat) (a : W64) (g : Tags) : Bool :=
  let c := s.core (s.coreOf t)
  let th := s.thread t
  decide ((c.slots.filter fun p => p.2.kind == .guess && p.2.owner == t).length ≥ 4) ||
    ((slotsOf (c.parentsOf g)).any fun k => (c.slot k).parents != 0) ||
    th.settled.contains a || decide (th.settled.length ≥ 4)

/-- Undo-log space for the instruction's writes (R357). A `guess` that is not in its wait form logs its value group under its own mark; for
a `guess.w`, which may mint nothing, `guessWaits` says it. -/
def State.logWaits (s : State) (t : Nat) (i : Instr) (sh : Shape) (f : Fields) : Bool :=
  if s.tainted t i sh f then
    decide (s.logBytes t i sh f ≠ 0) && !s.logRoom t (s.logBytes t i sh f)
  else match i with
    | .guess f => !s.waitForm t (s.thread t).pc 0 && !s.logRoom t (16 * f.ty.regs)
    | _ => false

/-- Tags for which `affirm` and `deny` of an AID wait at issue (R253, R360): RegTagUnion without the slot of the AID and without the issuer's
containment slot. -/
def State.resolveTags (s : State) (t : Nat) (aid : W32) : Tags :=
  let own : Tags := match (s.core (s.coreOf t)).slotOfAid aid with | some k => tagOf k | none => 0
  let mine : Tags := match (s.thread t).region with | some k => tagOf k | none => 0
  (s.thread t).tagUnion &&& ~~~ own &&& ~~~ mine

/-- A release of the thread waits at issue for its earlier accesses (R332, R335, R347): that of a `stmc` for those of every thread that stands
at it with this one, since they write one status register (R341). -/
def State.releaseWaits (s : State) (t : Nat) (i : Instr) (scope : Nat) : Bool :=
  match i with
  | .stmc _ => (s.crewThreads (crewOf t)).any fun u =>
      let x := s.thread u
      !x.exited && x.wait == .none && x.pc == (s.thread t).pc && tidOf u / 32 == tidOf t / 32 && x.tagUnion == 0 && !s.performed u 6
  | _ => !s.performed t scope

/-- The waits at issue of one instruction of a thread by itself, its guard being true (R39). A `csrw` waits also for the tags of its own
datum and guard, of which R266 does not speak (DESIGN CHOICE, log 95). -/
def State.ownWaits (s : State) (t : Nat) (i : Instr) : Bool :=
  match i.shape with
  | none => false
  | some (f, sh) =>
    let b := s.block (blockOf t)
    let c := s.core b.core
    let th := s.thread t
    let dirty := s.tainted t i sh f
    let held := dirty || c.held.any (·.t == t)
    let release := f.ord == 2 || f.ord == 3
    -- undo-log space (R357) and a full held-effect buffer (R359)
    s.logWaits t i sh f ||
    (held && s.irrevocableHere t i && decide (c.held.length ≥ 512)) || s.heldWaits t i ||
    s.acquireWaits t i || (i.settles && th.frameWaits) ||
    match i with
    | .exit _ =>
      let own : Tags := match th.region with | some k => tagOf k | none => 0
      s.unionAfter t sh f &&& ~~~ own != 0
    | .affirm f | .deny f =>
      match s.readSrc t 1 .b32 f.sa with
      | .ok o => !o.poison && s.resolveTags t (BitVec.ofNat 32 o.val) != 0
      | .error _ => false
    | .csrw _ => s.unionAfter t sh f &&& ~~~ c.containTags != 0
    | .qpush f => dirty || decide ((tgetD b.queues f.dst.toNat []).length ≥ 16)
    | .qpop f | .mov f => match f.sa with | .special (.queue q) => (tgetD b.queues q.toNat []).isEmpty | _ => false
    | .mrecv _ => b.inbox.isEmpty
    | .msend f => f.ord == 2 && !held && s.sendsAway t f && s.releaseWaits t i f.scope.toNat
    | .bar f => f.ord == 3 && s.releaseWaits t i f.scope.toNat
    | .guess _ => c.freeSlot.isNone
    | .ctnOpen _ => th.region.isNone && c.freeSlot.isNone
    | .ldG f => s.missWaits t f
    | .ldX f => s.peerTagged t f true
    | .atomX f => s.peerTagged t f false || (release && !held && s.releaseWaits t i f.scope.toNat)
    | .accld f =>
      match f.sa with
      | .special (.acc n) => c.engine == some (blockOf t, n.toNat) || (tgetD b.tiles n.toNat {}).absent.isSome
      | _ => false
    | .accst f => dirty || c.engine == some (blockOf t, f.dst.toNat) || (tgetD b.tiles f.dst.toNat {}).absent.isSome
    | .cpyt _ | .cpyg _ | .cpym _ => !held && decide (s.coreCopies b.core ≥ 1024)
    | .mcgClose f =>
      match s.readSrc t 1 .b32 f.sa with
      | .ok o => s.handleBusy b.ctx (BitVec.ofNat 32 o.val)
      | .error _ => false
    | .stS f => release && s.releaseWaits t i f.scope.toNat
    | .stG f | .stX f | .atomG f | .atomS f | .redG f | .redS f | .stmc f =>
      release && !held && s.releaseWaits t i f.scope.toNat
    | _ => false

/-- A thread that stands at the word of a crew-wide operation is not ready for it (R39, R232). -/
def State.laneWaits (s : State) (u : Nat) (i : Instr) : Bool :=
  let x := s.thread u
  x.wait != .none || x.windowSpent || s.stalled u i ||
    match i.shape with
    | some (f, _) => let p := x.getP f.gp.toNat; !p.poison && p.val != f.gneg && s.ownWaits u i
    | none => false

/-- A crew-wide operation waits while a thread of the crew is parked, or one of the quarter that stands at the word is not ready (R55,
R232). -/
def State.crewWaits (s : State) (t : Nat) (i : Instr) : Bool :=
  i.crewWide && (s.crewThreads (crewOf t)).any fun u =>
    let x := s.thread u
    !x.exited && ((match x.wait with | .parked _ => true | _ => false) ||
      (x.pc == (s.thread t).pc && tidOf u / 32 == tidOf t / 32 && s.laneWaits u i))

/-- The waits at issue of one instruction of a thread, its guard being true (R39). -/
def State.issueWaits (s : State) (t : Nat) (i : Instr) : Bool := s.ownWaits t i || s.crewWaits t i

end Sys2Proof.Machine
end

