-- ==== Sys2Proof/Machine/Issue.lean ====
section
/-! DEFINITION. One instruction in the threads of the group being issued: guards, waits, the instruction's own part, and what a
stop does (R61, R66, R79 steps 6 to 8, R415). -/

namespace Sys2Proof

/-- The registers and type of a source position that is read as a value. -/
def SrcShape.valueOf : SrcShape → Nat × Ty
  | .val n ty _ => (n, ty)
  | .val4 n ty => (n, ty)
  | .valQ ty => (1, ty)
  | _ => (0, .b32)

end Sys2Proof

namespace Sys2Proof.Machine

/-- The program counter of a thread moves to the next word (R60). -/
def State.advance (s : State) (t : Nat) (a : W64) : State := s.modThread t fun th => { th with pc := a + 12 }

/-- The address of an effect, for SHADOW_MISMATCH (R415): that of its memory operand, or 0. -/
def State.effectAddr (s : State) (t : Nat) (i : Instr) : W64 :=
  match i with
  | .stG f => (s.addr64 t f true).2
  | .atomG f | .redG f | .stmc f | .bscale f => (s.addr64 t f false).2
  | .stS f | .stX f => BitVec.ofNat 64 (s.addr32 t f true).2
  | .atomS f | .atomX f | .redS f | .cpyt f | .cpyg f | .cpym f => BitVec.ofNat 64 (s.addr32 t f false).2
  | _ => 0

/-- The registers that an instruction writes. -/
def formWrites (i : Instr) (f : Fields) : List Loc := match i.shape with | some (_, sh) => sh.writes f | none => []
/-- The registers that an instruction reads. -/
def formReads (i : Instr) (f : Fields) : List Loc := match i.shape with | some (_, sh) => sh.reads f | none => []

/-- What the shadow of a thread does with an instruction (R413): nothing under its own guard, or the instruction's part with its own
registers; none where it stops. -/
def State.shadowRun (s : State) (i : Instr) (f : Fields) (a : W64) (body : Nat → State → Except Stop State) (t : Nat) :
    Option (Bool × State) :=
  let o := s.overlay t (formReads i f)
  match o.guard t f with
  | .error _ => none
  | .ok false => some (false, o.advance t a)
  | .ok true => match body t (o.advance t a) with | .ok s' => some (true, s') | .error _ => none

/-- The comparison of an effect in shadow mode (R415): the shadow thread, which stands at the same address, performs the same instruction and
brings about the same, its registers apart. s2 is what the leading thread's effect comes to. -/
def State.mismatch (s : State) (i : Instr) (f : Fields) (a : W64) (body : Nat → State → Except Stop State) (t : Nat) (s2 : State) : Bool :=
  s.astray.contains t ||
    match s.shadowRun i f a body t with
    | some (true, s') =>
      ({ s' with threads := tmod s'.threads t fun th => { th with v := (s2.thread t).v, p := (s2.thread t).p },
                 crews := tmod s'.crews (crewOf t) fun c => { c with s := (s2.crew (crewOf t)).s } } : State) != s2
    | _ => true

/-- The results that an instruction of a thread has still to bring, from an identifier on, with what its shadow computes for them (R413). -/
def Outstanding.shadowOf (o : Outstanding) (sh : List Outstanding) (old : Loc → W32 × Bool) : Outstanding :=
  let wb := (sh.find? (·.id == o.id)).bind (·.wb)
  { o with shadow := o.dests.map fun l =>
      (l, match wb.bind fun w => w.find? fun x => x.1 == l with | some x => (x.2.val, x.2.poison) | none => old l) }

/-- The shadow of a thread executes the word that its leading thread has (R413, R414): g says whether that one had a true guard, s2 is what it
left, ls are the registers it wrote. The values of accesses outside the thread pass to the shadow; it computes the others itself. Where
it takes another address, stops, or has another guard at an effect or at an access, it has left the path (log 14). -/
def State.follow (s : State) (i : Instr) (f : Fields) (a : W64) (body : Nat → State → Except Stop State) (ls : List Loc) (g : Bool)
    (s2 : State) (t : Nat) : State :=
  if s.astray.contains t then s2
  else match s.shadowRun i f a body t with
  | none => s2.stray t
  | some (g', s') =>
    if (s'.thread t).pc != (s2.thread t).pc || (g != g' && (i.compared || i.passes)) then s2.stray t
    else if i.passes then (if g then s2.passShadow t ls else s2)
    else
      let old (l : Loc) : W32 × Bool := (s.shadowAt t l).getD ((s.getLoc t l).val, (s.getLoc t l).poison)
      let now (l : Loc) : W32 × Bool := if g' then ((s'.getLoc t l).val, (s'.getLoc t l).poison) else old l
      (ls.foldl (fun s l => s.setShadow t l (some (now l))) s2).modThread t fun th =>
        { th with out := th.out.map fun o => if s.nextId ≤ o.id then o.shadowOf (s'.thread t).out old else o }

/-- The guard of a thread is true and not poisoned (R61). -/
def State.guardTrue (s : State) (t : Nat) (f : Fields) : Bool := match s.guard t f with | .ok b => b | .error _ => false

/-- The shadows of the threads of a group that have moved past a word which issues once for it, or crew-wide, follow it. -/
def State.followAll (s : State) (i : Instr) (f : Fields) (a : W64) (ts : List Nat) (ls : List Loc) (s2 : State) : State :=
  ts.foldl (fun s2 t => if s.shadowed t && (s2.thread t).pc == a + 12 then s.follow i f a (fun _ s => .ok s) ls (s.guardTrue t f) s2 t else s2) s2

/-- An instruction in one thread at address a. `body` is the instruction's own part in a state whose program counter is already
at the next word; the faults of the access are gathered for their report (R425). -/
def State.stepThread (i : Instr) (f : Fields) (a : W64) (body : Nat → State → Except Stop State)
    (x : State × List FaultAt) (t : Nat) : State × List FaultAt :=
  let s := x.1
  let th := s.thread t
  if th.exited || th.pc != a || th.wait != .none then x
  else match th.matrixOwed with
  | some bad => ((s.modThread t fun th => { th with matrixOwed := none }).raise t a .matrix a bad, x.2)
  | none =>
    let s1 := s.consume t a (th.getP f.gp.toNat).tags
    match s.guard t f with
    | .error e => (s1.stopThread t a e, x.2)
    | .ok false =>
      let s2 := s1.advance t a
      (if s.shadowed t then s1.follow i f a body (formWrites i f) false s2 t else s2, x.2)
    | .ok true =>
      if s.issueWaits t i then (s.stay [t], x.2)
      else
        match body t (s1.advance t a) with
        | .ok s2 =>
          if !s.shadowed t then (s2, x.2)
          else if i.compared && s1.mismatch i f a body t s2 then (s1.raise t a .shadowMismatch a (s1.effectAddr t i), x.2)
          else (s1.follow i f a body (formWrites i f) true s2 t, x.2)
        | .error (.park va l k) => (s1.park t a va, x.2 ++ [{ t := t, va := va, level := l, kind := k }])
        | .error e => (s1.stopThread t a e, x.2)

/-- An instruction in every thread of the issue group, in ascending `sr.tid` (R186). Without a group nothing happens. -/
def State.threadOp (s : State) (i : Instr) (f : Fields) (body : Nat → State → Except Stop State) :
    Host.Outcome State Fault Refusal :=
  match s.group with
  | none => .next s
  | some (_, a, ts) =>
    let (s', fs) := ts.foldl (State.stepThread i f a body) (s, [])
    .next (s'.reportFaults [] fs)

/-- Guards of a PC group in order: the threads with a true guard, and the state with the others moved on or stopped. -/
def State.guardAll (s : State) (f : Fields) (a : W64) : List Nat → State × List Nat
  | [] => (s, [])
  | t :: ts =>
    let s1 := s.consume t a ((s.thread t).getP f.gp.toNat).tags
    match s.guard t f with
    | .error e => (s1.stopThread t a e).guardAll f a ts
    | .ok false => (s1.advance t a).guardAll f a ts
    | .ok true => let (s', r) := s1.guardAll f a ts; (s', t :: r)

/-- The threads of a list that stand at an address and wait for nothing. -/
def State.standing (s : State) (a : W64) (ts : List Nat) : List Nat :=
  ts.filter fun t => let th := s.thread t; !th.exited && th.pc == a && th.wait == .none && th.matrixOwed.isNone

/-- An instruction that issues once for its PC group, which the step has put in `cur` whole (R66): its part is done by the
thread with the lowest `sr.tid` among those with a true guard; the others move on. While that thread waits, they wait. Where that thread traps or parks on its operand, the others
with a true guard move past the word with nothing written: R139 does not say what they do (DESIGN CHOICE, log 91). -/
def State.onceOp (s : State) (i : Instr) (f : Fields) (body : Nat → State → Except Stop State) :
    Host.Outcome State Fault Refusal :=
  match s.group with
  | none => .next s
  | some (_, a, ts) =>
    let all := s.standing a ts
    let (s1, ts) := s.guardAll f a all
    match ts with
    | [] => .next (s.followAll i f a all [] s1)
    | t :: rest =>
      if s1.issueWaits t i then .next (s1.stay ts)
      else
        let s2 := rest.foldl (fun s u => s.advance u a) s1
        match body t (s2.advance t a) with
        | .ok s3 =>
          let s3 := if s.shadowed t then s2.follow i f a body (formWrites i f) true s3 t else s3
          .next (s.followAll i f a (all.filter (· != t)) [] s3)
        | .error e => .next (s.followAll i f a (all.filter (· != t)) [] (match e with
            | .park va l k => (s2.park t a va).reportFaults [] [{ t := t, va := va, level := l, kind := k }]
            | e => s2.stopThread t a e))

/-- An instruction that issues once where its form says so, and in every thread of the issue group otherwise. -/
def State.perform (s : State) (i : Instr) (f : Fields) (body : Nat → State → Except Stop State) :
    Host.Outcome State Fault Refusal :=
  if i.once then s.onceOp i f body else s.threadOp i f body

/-- Writes the result of an operation to the destination its form names: a group in v or s, or a predicate (R65, R66), with the
poison and tags of its sources (R138, R159). The tags are consumed first (R352). -/
def State.writeDst (s : State) (t : Nat) (sh : Shape) (f : Fields) (val : Nat) (poison : Bool) (g : Tags) (a : W64) : State :=
  let s := s.consume t a g
  match sh.dst with
  | .v n => s.writeGroup t .v f.dst.toNat (words n val) poison g
  | .s n => s.writeGroup t .s f.dst.toNat (words n val) poison g
  | .p => s.writeLoc t (.p f.dst.toNat) (BitVec.ofNat 32 (val % 2)) poison g
  | _ => s

/-- The address of the instruction a thread performs: its program counter is at the next word. -/
def State.here (s : State) (t : Nat) : W64 := (s.thread t).pc - 12

/-- An outstanding result of a thread: the registers it will write, and their values when they are known (R63, R188). Their old values are
logged now (R356), but for the status register of a group operation, whose log entry is its own. -/
def State.addOut (s : State) (t : Nat) (dests : List Loc) (wb : Option (List (Loc × Reg))) (la : Nat) (long : Bool := true)
    (lines : List Nat := []) (logged : List Loc := dests) (miss : List Nat := []) (acq : Bool := false)
    (late : Option LateLoad := none) : State :=
  State.modThread { s.logDests t logged with nextId := s.nextId + 1 } t fun th =>
    { th with out := th.out ++ [{ id := s.nextId, dests := dests, wb := wb, long := long, la := la, seq := s.seq,
                                  tags := th.tagUnion, lines := lines, asked := s.cycle, miss := miss, acq := acq, late := late }] }

/-- Reads the sources a form names: SA, SB and v(XC), in order (R67). -/
def State.sources (s : State) (t : Nat) (f : Fields) (na : Nat) (ta : Ty) (nb : Nat) (tb : Ty) (nx : Nat) :
    Except Stop (Opd × Opd × Opd) :=
  match (if na = 0 then .ok { val := 0 } else s.readSrc t na ta f.sa) with
  | .error e => .error e
  | .ok a =>
    match (if nb = 0 then .ok { val := 0 } else s.readSrc t nb tb f.sb) with
    | .error e => .error e
    | .ok b => .ok (a, b, if nx = 0 then { val := 0 } else s.readXc t nx f)

/-- The common form of classes 0 to 2 (R138, R139, R159, R160): read the sources, compute, write the destination. -/
def State.alu (s : State) (i : Instr) (f : Fields) (sh : Shape) (g : Nat → Nat → Nat → Nat) :
    Host.Outcome State Fault Refusal :=
  s.perform i f fun t s =>
    let (na, ta) := sh.a.valueOf
    let (nb, tb) := sh.b.valueOf
    match s.sources t f na ta nb tb sh.xcRegs with
    | .error e => .error e
    | .ok (a, b, x) =>
      let j := joinOpds [a, b, x]
      .ok (s.writeDst t sh f (g a.val b.val x.val) j.poison j.tags (s.here t))

end Sys2Proof.Machine
end

