-- ==== Sys2Proof/Machine/IntOps.lean ====
section
/-! DEFINITION. Class 0: integer, logic, bit-field, predicate and move instructions (R135 to R155). -/

namespace Sys2Proof.Machine

/-- The form of an instruction, for its meaning. -/
def formOf (i : Instr) : Shape := match i.shape with | some (_, sh) => sh | none => { tys := [], dst := .none }

/-- W of a type: 32 or 64 (R140). -/
def width (ty : Ty) : Nat := 32 * ty.regs

/-- The result of an exact integer: saturated, then its low W bits (R140). -/
def intResult (f : Fields) (x : Int) : Nat := ofSigned (width f.ty) (satInt f.sat f.ty x)

/-- The shifts of R144 over w bits with count n. -/
def shlBits (w a n : Nat) : Nat := if n ≥ w then 0 else a * 2 ^ n % 2 ^ w
/-- Logical right shift (R144). -/
def shrBits (w a n : Nat) : Nat := if n ≥ w then 0 else a % 2 ^ w / 2 ^ n
/-- Arithmetic right shift (R144): all sign bits when n ≥ w. -/
def sarBits (w a n : Nat) : Nat := ofSigned w (toSigned w a / (2 ^ min n w : Nat))
/-- Rotation to the left (R144). -/
def rotBits (w a n : Nat) : Nat := let k := n % w; (a * 2 ^ k + a / 2 ^ (w - k)) % 2 ^ w

/-- `shf` (R145): F in RND, 0 left and 1 right. -/
def funnel (right : Bool) (hi n lo : Nat) : Nat :=
  let w := hi * 2 ^ 32 + lo
  let n := min n 32
  if right then w / 2 ^ n % 2 ^ 32 else w * 2 ^ n / 2 ^ 32 % 2 ^ 32

/-- Position and length of a bit field (R146). -/
def fieldOf (b : Nat) : Nat × Nat := (min (b % 256) 32, min (b / 256 % 256) 32)

/-- `bfe` (R146). -/
def bitExtract (ty : Ty) (a b : Nat) : Nat :=
  let (pos, len) := fieldOf b
  let y : Nat := (intOf ty a / (2 ^ pos : Nat) % (2 ^ len : Nat)).toNat
  if ty == .s32 && len > 0 && y ≥ 2 ^ (len - 1) then ofSigned 32 ((y : Int) - (2 ^ len : Nat)) else y % 2 ^ 32

/-- `bfi` (R147). -/
def bitInsert (a b base : Nat) : Nat :=
  let (pos, len) := fieldOf b
  let m := (2 ^ len - 1) * 2 ^ pos % 2 ^ 32
  (base &&& (2 ^ 32 - 1 - m)) ||| (a * 2 ^ pos % 2 ^ 32 &&& m)

/-- Number of one bits among the low w (R148). -/
def popCount (w a : Nat) : Nat := ((List.range w).filter fun k => a.testBit k).length
/-- Zero bits above the highest one bit (R148). -/
def leadZeros (w a : Nat) : Nat := ((List.range w).takeWhile fun k => !a.testBit (w - 1 - k)).length
/-- Zero bits below the lowest one bit (R148). -/
def trailZeros (w a : Nat) : Nat := ((List.range w).takeWhile fun k => !a.testBit k).length
/-- Bit i moved to bit w − 1 − i (R148). -/
def bitReverse (w a : Nat) : Nat :=
  (List.range w).foldl (fun acc k => if a.testBit k then acc + 2 ^ (w - 1 - k) else acc) 0

/-- One result byte of `prmt` (R149). -/
def permuteByte (pool c : Nat) : Nat :=
  let y := pool / 2 ^ (8 * (c % 8)) % 256
  match c / 8 % 4 with
  | 0 => y
  | 1 => 0
  | 2 => if y ≥ 128 then 255 else 0
  | _ => 255

/-- `prmt` (R149). -/
def permute (a sel b : Nat) : Nat :=
  let pool := b * 2 ^ 32 + a
  (List.range 4).foldl (fun acc k => acc + permuteByte pool (sel / 2 ^ (5 * k) % 32) * 2 ^ (8 * k)) 0

/-- `iadd` (R140). -/
def execIadd (f : Fields) (s : State) : Host.Outcome State Fault Refusal :=
  s.alu (.iadd f) f (formOf (.iadd f)) fun a b _ => intResult f (intOf f.ty a + intOf f.ty b)

/-- `isub` (R140). -/
def execIsub (f : Fields) (s : State) : Host.Outcome State Fault Refusal :=
  s.alu (.isub f) f (formOf (.isub f)) fun a b _ => intResult f (intOf f.ty a - intOf f.ty b)

/-- `imul` (R140). -/
def execImul (f : Fields) (s : State) : Host.Outcome State Fault Refusal :=
  s.alu (.imul f) f (formOf (.imul f)) fun a b _ => intResult f (intOf f.ty a * intOf f.ty b)

/-- `imulhi`: the high word of the product (R140). -/
def execImulhi (f : Fields) (s : State) : Host.Outcome State Fault Refusal :=
  s.alu (.imulhi f) f (formOf (.imulhi f)) fun a b _ => ofSigned 32 (intOf f.ty a * intOf f.ty b / (2 ^ 32 : Nat))

/-- `imad` (R140): SA and SB are read as b32 or s32 whatever the width of the sum (R136). -/
def execImad (f : Fields) (s : State) : Host.Outcome State Fault Refusal :=
  s.alu (.imad f) f (formOf (.imad f)) fun a b c => 
    let t : Ty := match f.ty with | .u64 => .b32 | .s64 => .s32 | t => t
    intResult f (intOf t a * intOf t b + intOf f.ty c)

/-- `iadd64` (R140). -/
def execIadd64 (f : Fields) (s : State) : Host.Outcome State Fault Refusal :=
  s.alu (.iadd64 f) f (formOf (.iadd64 f)) fun a b _ => intResult f (intOf f.ty a + intOf f.ty b)

/-- `isub64` (R140). -/
def execIsub64 (f : Fields) (s : State) : Host.Outcome State Fault Refusal :=
  s.alu (.isub64 f) f (formOf (.isub64 f)) fun a b _ => intResult f (intOf f.ty a - intOf f.ty b)

/-- `imin` (R142). -/
def execImin (f : Fields) (s : State) : Host.Outcome State Fault Refusal :=
  s.alu (.imin f) f (formOf (.imin f)) fun a b _ => ofSigned 32 (min (intOf f.ty a) (intOf f.ty b))

/-- `imax` (R142). -/
def execImax (f : Fields) (s : State) : Host.Outcome State Fault Refusal :=
  s.alu (.imax f) f (formOf (.imax f)) fun a b _ => ofSigned 32 (max (intOf f.ty a) (intOf f.ty b))

/-- `iabs` (R142). -/
def execIabs (f : Fields) (s : State) : Host.Outcome State Fault Refusal :=
  s.alu (.iabs f) f (formOf (.iabs f)) fun a _ _ => ofSigned 32 (if f.sat then clamp (intOf .s32 a).natAbs 0 2147483647 else (intOf .s32 a).natAbs)

/-- `and` (R143). -/
def execAnd (f : Fields) (s : State) : Host.Outcome State Fault Refusal :=
  s.alu (.and f) f (formOf (.and f)) fun a b _ => a &&& b

/-- `or` (R143). -/
def execOr (f : Fields) (s : State) : Host.Outcome State Fault Refusal :=
  s.alu (.or f) f (formOf (.or f)) fun a b _ => a ||| b

/-- `xor` (R143). -/
def execXor (f : Fields) (s : State) : Host.Outcome State Fault Refusal :=
  s.alu (.xor f) f (formOf (.xor f)) fun a b _ => a ^^^ b

/-- `andn` (R143). -/
def execAndn (f : Fields) (s : State) : Host.Outcome State Fault Refusal :=
  s.alu (.andn f) f (formOf (.andn f)) fun a b _ => a &&& (2 ^ width f.ty - 1 - b)

/-- `orn` (R143). -/
def execOrn (f : Fields) (s : State) : Host.Outcome State Fault Refusal :=
  s.alu (.orn f) f (formOf (.orn f)) fun a b _ => a ||| (2 ^ width f.ty - 1 - b)

/-- `shl` (R144). -/
def execShl (f : Fields) (s : State) : Host.Outcome State Fault Refusal :=
  s.alu (.shl f) f (formOf (.shl f)) fun a b _ => shlBits (width f.ty) a b

/-- `shr` (R144). -/
def execShr (f : Fields) (s : State) : Host.Outcome State Fault Refusal :=
  s.alu (.shr f) f (formOf (.shr f)) fun a b _ => shrBits (width f.ty) a b

/-- `sar` (R144). -/
def execSar (f : Fields) (s : State) : Host.Outcome State Fault Refusal :=
  s.alu (.sar f) f (formOf (.sar f)) fun a b _ => sarBits (width f.ty) a b

/-- `rot` (R144). -/
def execRot (f : Fields) (s : State) : Host.Outcome State Fault Refusal :=
  s.alu (.rot f) f (formOf (.rot f)) fun a b _ => rotBits (width f.ty) a b

/-- `shf` (R145). -/
def execShf (f : Fields) (s : State) : Host.Outcome State Fault Refusal :=
  s.alu (.shf f) f (formOf (.shf f)) fun a b c => funnel (f.rnd == .rtz) a b c

/-- `bfe` (R146). -/
def execBfe (f : Fields) (s : State) : Host.Outcome State Fault Refusal :=
  s.alu (.bfe f) f (formOf (.bfe f)) fun a b _ => bitExtract f.ty a b

/-- `bfi` (R147). -/
def execBfi (f : Fields) (s : State) : Host.Outcome State Fault Refusal :=
  s.alu (.bfi f) f (formOf (.bfi f)) fun a b c => bitInsert a b c

/-- `popc` (R148). -/
def execPopc (f : Fields) (s : State) : Host.Outcome State Fault Refusal :=
  s.alu (.popc f) f (formOf (.popc f)) fun a _ _ => popCount (width f.ty) a

/-- `clz` (R148). -/
def execClz (f : Fields) (s : State) : Host.Outcome State Fault Refusal :=
  s.alu (.clz f) f (formOf (.clz f)) fun a _ _ => leadZeros (width f.ty) a

/-- `ctz` (R148). -/
def execCtz (f : Fields) (s : State) : Host.Outcome State Fault Refusal :=
  s.alu (.ctz f) f (formOf (.ctz f)) fun a _ _ => trailZeros (width f.ty) a

/-- `brev` (R148). -/
def execBrev (f : Fields) (s : State) : Host.Outcome State Fault Refusal :=
  s.alu (.brev f) f (formOf (.brev f)) fun a _ _ => bitReverse (width f.ty) a

/-- `prmt` (R149). -/
def execPrmt (f : Fields) (s : State) : Host.Outcome State Fault Refusal :=
  s.alu (.prmt f) f (formOf (.prmt f)) fun a b c => permute a b c

/-- `icmp` (R151). -/
def execIcmp (f : Fields) (s : State) : Host.Outcome State Fault Refusal :=
  s.alu (.icmp f) f (formOf (.icmp f)) fun a b _ => if condHolds f.xc.toNat (intOf f.ty a) (intOf f.ty b) then 1 else 0

/-- `icmp64` (R151). -/
def execIcmp64 (f : Fields) (s : State) : Host.Outcome State Fault Refusal :=
  s.alu (.icmp64 f) f (formOf (.icmp64 f)) fun a b _ => if condHolds f.xc.toNat (intOf f.ty a) (intOf f.ty b) then 1 else 0

/-- `mov64` (R153). -/
def execMov64 (f : Fields) (s : State) : Host.Outcome State Fault Refusal :=
  s.alu (.mov64 f) f (formOf (.mov64 f)) fun a _ _ => a

/-- `lea` (R155). -/
def execLea (f : Fields) (s : State) : Host.Outcome State Fault Refusal :=
  s.alu (.lea f) f (formOf (.lea f)) fun a b _ => ofSigned 64 ((a : Int) + intOf f.ty b * (2 ^ (f.xc.toNat % 32) : Nat))

/-- `iaddc` and `isubb` with the carry or borrow in predicates (R141). -/
def State.carryOp (s : State) (i : Instr) (f : Fields) (op : Nat → Nat → Bool → Nat × Bool) :
    Host.Outcome State Fault Refusal :=
  s.perform i f fun t s =>
    match s.sources t f 1 .b32 1 .b32 0 with
    | .error e => .error e
    | .ok (a, b, _) =>
      let cinv := f.xc.getLsbD 8
      let pin := if cinv then s.readP t (f.xc.toNat / 16 % 16) else { val := 0 }
      let (x, cout) := op a.val b.val (pin.val == 1)
      let j := joinOpds [a, b, pin]
      let s := s.writeDst t (formOf i) f x j.poison j.tags (s.here t)
      .ok (s.writeLoc t (.p (f.xc.toNat % 16)) (if cout then 1 else 0) j.poison j.tags)

/-- `iaddc` (R141). -/
def execIaddc (f : Fields) (s : State) : Host.Outcome State Fault Refusal := s.carryOp (.iaddc f) f addCarry

/-- `isubb` (R141). -/
def execIsubb (f : Fields) (s : State) : Host.Outcome State Fault Refusal := s.carryOp (.isubb f) f subBorrow

/-- `sel` (R150). -/
def execSel (f : Fields) (s : State) : Host.Outcome State Fault Refusal :=
  s.perform (.sel f) f fun t s =>
    match s.sources t f f.ty.regs f.ty f.ty.regs f.ty 0 with
    | .error e => .error e
    | .ok (a, b, _) =>
      let p := s.readP t (f.xc.toNat % 16)
      let j := joinOpds [a, b, p]
      let v := if (p.val == 1) != f.xc.getLsbD 4 then a.val else b.val
      .ok (s.writeDst t (formOf (.sel f)) f v j.poison j.tags (s.here t))

/-- `plop` (R152): the truth table in XC applied to two predicates. -/
def execPlop (f : Fields) (s : State) : Host.Outcome State Fault Refusal :=
  s.perform (.plop f) f fun t s =>
    match s.sources t f 1 .b32 1 .b32 0 with
    | .error e => .error e
    | .ok (a, b, _) =>
      let j := joinOpds [a, b]
      let v := if f.xc.toNat.testBit (2 * a.val + b.val) then 1 else 0
      .ok (s.writeDst t (formOf (.plop f)) f v j.poison j.tags (s.here t))

/-- Pops the oldest entry of a queue of the thread's block (R290, R291): its bits and poison, with an empty tag set. -/
def State.popQueue (s : State) (blk q : Nat) : Option (QEntry × State) :=
  match tgetD (s.block blk).queues q [] with
  | [] => none
  | e :: r => some (e, s.modBlock blk fun b => { b with queues := tset b.queues q r })

/-- `mov` (R153): a queue as SA is popped. -/
def execMov (f : Fields) (s : State) : Host.Outcome State Fault Refusal :=
  s.perform (.mov f) f fun t s =>
    match f.sa with
    | .special (.queue q) =>
      match s.popQueue (blockOf t) q.toNat with
      | none => .error .wait
      | some (e, s) => .ok (s.writeDst t (formOf (.mov f)) f (e.val.toNat % 2 ^ 32) e.poison 0 (s.here t))
    | _ =>
      match s.readSrc t 1 f.ty f.sa with
      | .error e => .error e
      | .ok a => .ok (s.writeDst t (formOf (.mov f)) f a.val a.poison a.tags (s.here t))

/-- The placement values of `movsr` (R154). -/
def State.placement (s : State) (t sel : Nat) : Nat :=
  let b := s.block (blockOf t)
  match sel with
  | 0 => tidOf t % 32
  | 1 => tidOf t / 32
  | 2 => b.core % 64 / 4
  | 3 => (s.crew (crewOf t)).sub
  | _ => b.core

/-- `movsr` (R154). -/
def execMovsr (f : Fields) (s : State) : Host.Outcome State Fault Refusal :=
  s.perform (.movsr f) f fun t s =>
    .ok (s.writeDst t (formOf (.movsr f)) f (s.placement t (f.xc.toNat % 8)) false 0 (s.here t))

end Sys2Proof.Machine
end

