-- ==== Sys2Proof/Machine/FloatOps.lean ====
section
/-! DEFINITION. Class 1: floating-point instructions (R156 to R170). -/

namespace Sys2Proof.Machine

/-- An operation on the bit patterns of one format of two or three sources (R161). -/
inductive FOp where
  | add | sub | mul | fma
  deriving DecidableEq, Repr

/-- Arithmetic of R161: the exact result rounded once, then Sat. -/
def Fmt.arith (m : Fmt) (op : FOp) (rnd : Rnd) (sat : Bool) (x y z : Nat) : Nat :=
  let a := m.decode x
  let b := m.decode y
  let v := match op with
    | .add => a.add rnd b
    | .sub => a.add rnd b.negate
    | .mul => a.mul b
    | .fma => (a.mul b).add rnd (m.decode z)
  m.round rnd sat v

/-- A function applied to each half of packed sources (R162). -/
def perHalf (g : Nat → Nat → Nat → Nat) (a b c : Nat) : Nat :=
  g (a % 2 ^ 16) (b % 2 ^ 16) (c % 2 ^ 16) + 2 ^ 16 * g (a / 2 ^ 16 % 2 ^ 16) (b / 2 ^ 16 % 2 ^ 16) (c / 2 ^ 16 % 2 ^ 16)

/-- `fscale` (R166). -/
def scaleBits (m : Fmt) (rnd : Rnd) (sat : Bool) (x : Nat) (n : Int) : Nat :=
  match m.decode x with
  | .fin neg p q =>
    -- beyond these powers the result is decided: every finite value lies between 2^-1075 and 2^1024
    let n := clamp n (-4000) 4000
    m.round rnd sat (if n ≥ 0 then .fin neg (p * 2 ^ n.toNat) q else .fin neg p (q * 2 ^ (-n).toNat))
  | v => m.round rnd sat v

/-- `fround` (R167): infinities and zeros unchanged, a zero result keeps the sign. -/
def roundBits (m : Fmt) (rnd : Rnd) (x : Nat) : Nat :=
  match m.decode x with
  | .fin neg p q => m.round .rne false (.fin neg (roundInc rnd neg (p / q) (p % q) q) 1)
  | v => m.round .rne false v

/-- `frcp` (R168, R169): correctly rounded; a zero gives an infinity of its sign, an infinity a zero of its sign. -/
def rcpBits (rnd : Rnd) (sat : Bool) (x : Nat) : Nat :=
  fmtF32.round rnd sat
    (match fmtF32.decode x with
      | .nan => .nan
      | .inf neg => .fin neg 0 1
      | .fin neg p q => if p = 0 then .inf neg else .fin neg q p)

/-- `fsqrt` (R168, R169): correctly rounded. -/
def sqrtBits (rnd : Rnd) (sat : Bool) (x : Nat) : Nat :=
  fmtF32.round rnd sat
    (match fmtF32.decode x with
      | .nan => .nan
      | .inf neg => if neg then .nan else .inf false
      | .fin neg p q => if p = 0 then .fin neg 0 1 else if neg then .nan else rootOf p q)

/-- The special results of R168 for an approximated function, and those it calls exact; none elsewhere. -/
def approxSpecial (fn : Approx) (x : Nat) : Option FV :=
  match fmtF32.decode x with
  | .nan => some .nan
  | .inf neg =>
    match fn with
    | .rsq => some (if neg then .nan else .fin false 0 1)
    | .ex2 => some (if neg then .fin false 0 1 else .inf false)
    | .lg2 => some (if neg then .nan else .inf false)
    | .sin | .cos => some .nan
    | .tanh => some (.fin neg 1 1)
  | .fin neg p q =>
    match fn with
    | .rsq => if p = 0 then some (.inf neg) else if neg then some .nan else if p = q then some (.fin false 1 1) else none
    | .ex2 =>
      if p = 0 then some (.fin false 1 1)
      else if p % q = 0 && p / q ≤ 149 && (!neg || p / q ≤ 149) then
        (if neg then some (.fin false 1 (2 ^ (p / q))) else if p / q ≤ 127 then some (.fin false (2 ^ (p / q)) 1)
          else some (.inf false))
      else if !neg && p ≥ 128 * q then some (.inf false)
      else none
    | .lg2 =>
      if p = 0 then some (.inf true) else if neg then some .nan
      else
        -- 2^n is the fraction p / q exactly when one divides the other by a power of two
        let e := log2Floor p q
        if (if e ≥ 0 then p == q * 2 ^ e.toNat else p * 2 ^ (-e).toNat == q) then some (.fin (decide (e < 0)) e.natAbs 1)
        else none
    | .sin => if p = 0 || p * 2 ^ 12 < q then some (.fin neg p q) else none
    | .tanh => if p = 0 || p * 2 ^ 12 < q then some (.fin neg p q) else none
    | .cos => if p = 0 then some (.fin false 1 1) else none

/-- SAT on a bit pattern of binary32 (R116). -/
def satF32 (sat : Bool) (x : Nat) : Nat := if sat then fmtF32.round .rne true (fmtF32.decode x) else x

/-- An approximated function (R168 to R170). -/
def approxBits (fn : Approx) (sat : Bool) (x : Nat) : Nat :=
  match approxSpecial fn x with
  | some v => fmtF32.round .rne sat v
  | none => satF32 sat (approxResult fn x)

/-- A long-latency function of one register (R63): the value is computed at issue and written at completion. -/
def State.longAlu (s : State) (i : Instr) (f : Fields) (g : Nat → Nat) : Host.Outcome State Fault Refusal :=
  s.perform i f fun t s =>
    match s.sources t f 1 .f32 0 .b32 0 with
    | .error e => .error e
    | .ok (a, _, _) =>
      let s := s.consume t (s.here t) a.tags
      let r : Reg := { val := BitVec.ofNat 32 (g a.val), poison := a.poison, tags := a.tags ||| (s.thread t).tagUnion }
      let l : Loc := if f.scope.toNat % 2 = 1 then .s f.dst.toNat else .v f.dst.toNat
      .ok (s.addOut t [l] (some [(l, r)]) f.la.toNat)

/-- `fadd` (R161). -/
def execFadd (f : Fields) (s : State) : Host.Outcome State Fault Refusal :=
  s.alu (.fadd f) f (formOf (.fadd f)) fun a b _ => fmtF32.arith .add f.rnd f.sat a b 0

/-- `fsub` (R161). -/
def execFsub (f : Fields) (s : State) : Host.Outcome State Fault Refusal :=
  s.alu (.fsub f) f (formOf (.fsub f)) fun a b _ => fmtF32.arith .sub f.rnd f.sat a b 0

/-- `fmul` (R161). -/
def execFmul (f : Fields) (s : State) : Host.Outcome State Fault Refusal :=
  s.alu (.fmul f) f (formOf (.fmul f)) fun a b _ => fmtF32.arith .mul f.rnd f.sat a b 0

/-- `ffma` (R161). -/
def execFfma (f : Fields) (s : State) : Host.Outcome State Fault Refusal :=
  s.alu (.ffma f) f (formOf (.ffma f)) fun a b c => fmtF32.arith .fma f.rnd f.sat a b c

/-- `fmin` (R163). -/
def execFmin (f : Fields) (s : State) : Host.Outcome State Fault Refusal :=
  s.alu (.fmin f) f (formOf (.fmin f)) fun a b _ => fmtF32.minMax false a b

/-- `fmax` (R163). -/
def execFmax (f : Fields) (s : State) : Host.Outcome State Fault Refusal :=
  s.alu (.fmax f) f (formOf (.fmax f)) fun a b _ => fmtF32.minMax true a b

/-- `fcmp` (R164). -/
def execFcmp (f : Fields) (s : State) : Host.Outcome State Fault Refusal :=
  s.alu (.fcmp f) f (formOf (.fcmp f)) fun a b _ => if fcond f.xc.toNat (fmtF32.decode a) (fmtF32.decode b) then 1 else 0

/-- `fclass` (R165). -/
def execFclass (f : Fields) (s : State) : Host.Outcome State Fault Refusal :=
  s.alu (.fclass f) f (formOf (.fclass f)) fun a _ _ => if f.xc.toNat.testBit ((fmtOf f.ty).classOf a) then 1 else 0

/-- `fscale` (R166). -/
def execFscale (f : Fields) (s : State) : Host.Outcome State Fault Refusal :=
  s.alu (.fscale f) f (formOf (.fscale f)) fun a b _ => scaleBits (fmtOf f.ty) f.rnd f.sat a (toSigned 32 b)

/-- `fround` (R167). -/
def execFround (f : Fields) (s : State) : Host.Outcome State Fault Refusal :=
  s.alu (.fround f) f (formOf (.fround f)) fun a _ _ => roundBits (fmtOf f.ty) f.rnd a

/-- `dadd` (R161). -/
def execDadd (f : Fields) (s : State) : Host.Outcome State Fault Refusal :=
  s.alu (.dadd f) f (formOf (.dadd f)) fun a b _ => fmtF64.arith .add f.rnd f.sat a b 0

/-- `dmul` (R161). -/
def execDmul (f : Fields) (s : State) : Host.Outcome State Fault Refusal :=
  s.alu (.dmul f) f (formOf (.dmul f)) fun a b _ => fmtF64.arith .mul f.rnd f.sat a b 0

/-- `dfma` (R161). -/
def execDfma (f : Fields) (s : State) : Host.Outcome State Fault Refusal :=
  s.alu (.dfma f) f (formOf (.dfma f)) fun a b c => fmtF64.arith .fma f.rnd f.sat a b c

/-- `dmin` (R163). -/
def execDmin (f : Fields) (s : State) : Host.Outcome State Fault Refusal :=
  s.alu (.dmin f) f (formOf (.dmin f)) fun a b _ => fmtF64.minMax false a b

/-- `dmax` (R163). -/
def execDmax (f : Fields) (s : State) : Host.Outcome State Fault Refusal :=
  s.alu (.dmax f) f (formOf (.dmax f)) fun a b _ => fmtF64.minMax true a b

/-- `dcmp` (R164). -/
def execDcmp (f : Fields) (s : State) : Host.Outcome State Fault Refusal :=
  s.alu (.dcmp f) f (formOf (.dcmp f)) fun a b _ => if fcond f.xc.toNat (fmtF64.decode a) (fmtF64.decode b) then 1 else 0

/-- `hadd2` (R162). -/
def execHadd2 (f : Fields) (s : State) : Host.Outcome State Fault Refusal :=
  s.alu (.hadd2 f) f (formOf (.hadd2 f)) fun a b _ => perHalf (fun x y _ => (fmtOf f.ty).arith .add f.rnd f.sat x y 0) a b 0

/-- `hmul2` (R162). -/
def execHmul2 (f : Fields) (s : State) : Host.Outcome State Fault Refusal :=
  s.alu (.hmul2 f) f (formOf (.hmul2 f)) fun a b _ => perHalf (fun x y _ => (fmtOf f.ty).arith .mul f.rnd f.sat x y 0) a b 0

/-- `hfma2` (R162). -/
def execHfma2 (f : Fields) (s : State) : Host.Outcome State Fault Refusal :=
  s.alu (.hfma2 f) f (formOf (.hfma2 f)) fun a b c => perHalf (fun x y z => (fmtOf f.ty).arith .fma f.rnd f.sat x y z) a b c

/-- `hmin2` (R163). -/
def execHmin2 (f : Fields) (s : State) : Host.Outcome State Fault Refusal :=
  s.alu (.hmin2 f) f (formOf (.hmin2 f)) fun a b _ => perHalf (fun x y _ => (fmtOf f.ty).minMax false x y) a b 0

/-- `hmax2` (R163). -/
def execHmax2 (f : Fields) (s : State) : Host.Outcome State Fault Refusal :=
  s.alu (.hmax2 f) f (formOf (.hmax2 f)) fun a b _ => perHalf (fun x y _ => (fmtOf f.ty).minMax true x y) a b 0

/-- `frcp` (R168, R169). -/
def execFrcp (f : Fields) (s : State) : Host.Outcome State Fault Refusal := s.longAlu (.frcp f) f (rcpBits f.rnd f.sat)

/-- `fsqrt` (R168, R169). -/
def execFsqrt (f : Fields) (s : State) : Host.Outcome State Fault Refusal := s.longAlu (.fsqrt f) f (sqrtBits f.rnd f.sat)

/-- `frsq` (R168, R169). -/
def execFrsq (f : Fields) (s : State) : Host.Outcome State Fault Refusal := s.longAlu (.frsq f) f (approxBits .rsq f.sat)

/-- `fex2` (R168, R169). -/
def execFex2 (f : Fields) (s : State) : Host.Outcome State Fault Refusal := s.longAlu (.fex2 f) f (approxBits .ex2 f.sat)

/-- `flg2` (R168, R169). -/
def execFlg2 (f : Fields) (s : State) : Host.Outcome State Fault Refusal := s.longAlu (.flg2 f) f (approxBits .lg2 f.sat)

/-- `fsin` (R168, R169). -/
def execFsin (f : Fields) (s : State) : Host.Outcome State Fault Refusal := s.longAlu (.fsin f) f (approxBits .sin f.sat)

/-- `fcos` (R168, R169). -/
def execFcos (f : Fields) (s : State) : Host.Outcome State Fault Refusal := s.longAlu (.fcos f) f (approxBits .cos f.sat)

/-- `ftanh` (R168, R169). -/
def execFtanh (f : Fields) (s : State) : Host.Outcome State Fault Refusal := s.longAlu (.ftanh f) f (approxBits .tanh f.sat)

end Sys2Proof.Machine
end

