-- ==== Sys2Proof/Machine/ConvOps.lean ====
section
/-! DEFINITION. Class 2: conversions and FP4 blocks (R171 to R176). `bscale`, which stores, is in MemOps.lean. -/

namespace Sys2Proof.Machine

/-- Whether a type is binary32 or binary64 as a scalar of `cvt`. -/
def scalarFloat (ty : Ty) : Bool := ty == .f32 || ty == .f64

/-- Width in bits of an integer type of `cvt` (R172). -/
def intWidth (ty : Ty) : Nat :=
  match ty with
  | .u8 | .s8 => 8
  | .u16 | .s16 => 16
  | .u64 | .s64 => 64
  | _ => 32

/-- An integer as the register bits of its type: its low W bits, sign- or zero-extended (R172). -/
def intRegs (ty : Ty) (x : Int) : Nat := ofSigned (32 * ty.regs) (intOf ty (ofSigned (intWidth ty) x))

/-- `cvt` (R172). -/
def convert (ty st : Ty) (rnd : Rnd) (sat : Bool) (a : Nat) : Nat :=
  if scalarFloat st then
    let v := (fmtOf st).decode a
    if scalarFloat ty then (fmtOf ty).round rnd sat v
    else match v with
      | .nan => 0
      | .inf neg => intRegs ty (if neg then minOf ty else maxOf ty)
      | .fin neg n d =>
        let k : Int := (roundInc rnd neg (n / d) (n % d) d : Nat)
        intRegs ty (clamp (if neg then -k else k) (minOf ty) (maxOf ty))
  else
    let x := intOf st a
    if scalarFloat ty then (fmtOf ty).round rnd false (.fin (decide (x < 0)) x.natAbs 1)
    else intRegs ty (satInt sat ty x)

/-- `cvt` (R172). -/
def execCvt (f : Fields) (s : State) : Host.Outcome State Fault Refusal :=
  s.alu (.cvt f) f (formOf (.cvt f)) fun a _ _ => convert f.ty f.stype f.rnd f.sat a

/-- n elements of w bits packed, element 0 lowest. -/
def packElems (w n : Nat) (g : Nat → Nat) : Nat := (List.range n).foldl (fun acc k => acc + g k % 2 ^ w * 2 ^ (w * k)) 0

/-- Element k of the source of a packing row of R173, as a value: SA holds the first elements, SB the rest. -/
def cvtxElem (st : Ty) (per : Nat) (a b k : Nat) : FV :=
  let w := if st == .f32 then 32 else 16
  (fmtOf st).decode (if k < per then elemOf w a k else elemOf w b (k - per))

/-- `cvtx` (R173, R174). -/
def convertPacked (ty st : Ty) (rnd : Rnd) (sat : Bool) (a b : Nat) : Nat :=
  match ty with
  | .f16x2 | .bf16x2 => packElems 16 2 fun k => (fmtOf ty).round rnd sat (cvtxElem st 1 a b k)
  | .e4m3x4 | .e5m2x4 =>
    packElems 8 4 fun k => (fmtOf ty).round rnd sat (cvtxElem st (if st == .f32 then 4 else 2) a b k)
  | .fp4x8 => packElems 4 8 fun k => fmtFp4.round rnd sat (cvtxElem st 8 a b k)
  | _ =>
    match st with
    | .f16x2 | .bf16x2 => packElems 32 2 fun k => fmtF32.round .rne false ((fmtOf st).decode (elemOf 16 a k))
    | .e4m3x4 | .e5m2x4 => packElems 32 4 fun k => fmtF32.round .rne false ((fmtOf st).decode (elemOf 8 a k))
    | _ => packElems 32 8 fun k => fmtF32.round .rne false (fmtFp4.decode (elemOf 4 a k))

/-- `cvtx` (R173, R174). -/
def execCvtx (f : Fields) (s : State) : Host.Outcome State Fault Refusal :=
  s.alu (.cvtx f) f (formOf (.cvtx f)) fun a b _ => convertPacked f.ty f.stype f.rnd f.sat a b

/-- Quotient of two finite values, the divisor not zero. -/
def FV.quot (a b : FV) : FV :=
  match a, b with
  | .fin x n d, .fin y m e => .fin (x != y) (n * e) (d * m)
  | _, _ => .nan

/-- The larger magnitude of two finite values. -/
def maxMag (a b : Nat × Nat) : Nat × Nat := if a.1 * b.2 < b.1 * a.2 then b else a

/-- `q4enc` (R175): D in the low word, D + 1 in the high word. -/
def quantise (ty : Ty) (rnd : Rnd) (x band : Nat) : Nat :=
  let b := fmtBf16.decode (band / 2 ^ 16 % 2 ^ 16)
  let xs := (List.range 8).map (blockElem ty x)
  if b.isZero || b.isSpecial || xs.any FV.isSpecial then 0x100 * 2 ^ 32
  else
    let ys := xs.map fun v => v.quot b
    let (n, d) := (ys.map FV.mag).foldl maxMag (0, 1)
    let s := if n = 0 then 0 else fmtE3m5.round .rup false (.fin false n (6 * d))
    let code := packElems 4 8 fun k =>
      let y := ys.getD k (.fin false 0 1)
      if s = 0 then fmtFp4.sign y.isNeg 0 else fmtFp4.round rnd false (y.quot (fmtE3m5.decode s))
    code + s * 2 ^ 32

/-- `q4enc` (R175). -/
def execQ4enc (f : Fields) (s : State) : Host.Outcome State Fault Refusal :=
  s.alu (.q4enc f) f (formOf (.q4enc f)) fun a b _ => quantise f.ty f.rnd a b

/-- Value(r, j) of R124: an FP4 code, an E3M5 code and a BF16 band scale, exactly. -/
def blockValue (code scale band : Nat) : FV :=
  ((fmtFp4.decode (code % 16)).mul (fmtE3m5.decode (scale % 256))).mul (fmtBf16.decode (band % 2 ^ 16))

/-- The eight values of a block decoded into registers (R176, R191). -/
def decodeBlock (ty : Ty) (rnd : Rnd) (sat : Bool) (block scale band : Nat) : Nat :=
  if ty == .f32 then packElems 32 8 fun k => fmtF32.round rnd sat (blockValue (elemOf 4 block k) scale band)
  else packElems 16 8 fun k => fmtBf16.round rnd sat (blockValue (elemOf 4 block k) scale band)

/-- `q4dec` (R176). -/
def execQ4dec (f : Fields) (s : State) : Host.Outcome State Fault Refusal :=
  s.alu (.q4dec f) f (formOf (.q4dec f)) fun a b c => decodeBlock f.ty f.rnd f.sat a (c % 256) (b / 2 ^ 16)

/-- An encode store of R192: the block code, or none where the block is written special (R128). -/
def encodeBlock (ty : Ty) (rnd : Rnd) (x scale band : Nat) : Option Nat :=
  let b := fmtBf16.decode (band % 2 ^ 16)
  let xs := (List.range 8).map (blockElem ty x)
  if b.isSpecial || xs.any FV.isSpecial then none
  else
    let k := (fmtE3m5.decode (scale % 256)).mul b
    some (packElems 4 8 fun j =>
      let v := xs.getD j (.fin false 0 1)
      if k.isZero then fmtFp4.sign v.isNeg 0 else fmtFp4.round rnd false (v.quot k))

end Sys2Proof.Machine
end

