-- ==== Sys2Proof/Machine/MemSys.lean ====
section
/-! DEFINITION. The memory system: home slices, the outbound path of each die, the L1 of each core with its update-only lines,
the cache actions, and the per-thread checks of a `.g` access (R184, R185, R195, R202, R205, R303, R319 to R332, R408, R409). -/

namespace Sys2Proof.Machine

/-! ## Home slices -/

/-- A monitor at a home slice watches some of these bytes (R246, R251). -/
def State.watchedG (s : State) (pa n : Nat) : Bool :=
  s.threads.any (fun p => match p.2.wait with | .watch w => w.global && overlap w.pa w.bytes pa n | _ => false) ||
  s.cores.any fun c => c.2.slots.any fun k => match k.2.watch with | some g => overlap g.pa g.bytes pa n | none => false

/-- A monitor in a scratchpad watches some of these bytes (R246). -/
def State.watchedS (s : State) (core off n : Nat) : Bool :=
  s.threads.any fun p => match p.2.wait with
    | .watch w => !w.global && s.coreOf p.1 == core && overlap w.pa w.bytes off n
    | _ => false

/-- Marks that remain after one write of n bytes: a sector it covers whole loses its mark (R409). -/
def unmark (marked : List Nat) (pa n : Nat) : List Nat :=
  marked.filter fun k => !(decide (pa ≤ 32 * k ∧ 32 * k + 32 ≤ pa + n))

/-- Adds sectors to those that are marked. -/
def addMarks (marked new : List Nat) : List Nat := marked ++ new.filter fun k => !marked.contains k

/-- Marks after one write (R296, R408, R409): sectors it covers whole or names as cleaned lose theirs, and those it carries are marked. -/
def remark (marked : List Nat) (pa n : Nat) (cleans marks : List Nat) : List Nat :=
  addMarks ((unmark marked pa n).filter fun k => !cleans.contains k) marks

/-- A write is performed at the home slice: the bytes, the marks, the monitors (R246, R320, R409). -/
def State.writeHome (s : State) (pa : Nat) (bs : List Byte) (cleans marks : List Nat := []) : State :=
  let s := { s with mem := memWrite s.mem pa (s.keptBytes pa bs), marked := remark s.marked pa bs.length cleans marks }
  if s.watchedG pa bs.length then s.addTodo [.reval pa bs.length] else s

/-- The outbound path of a die, oldest write first (R331). -/
def State.out (s : State) (die : Nat) : List OutWrite := tgetD s.outbound die []

/-- A byte with one nibble of it, the high one or the low, replaced (R305). -/
def mergeNibble (hi : Bool) (v b : Byte) : Byte := if hi then (b &&& 0x0F) ||| (v &&& 0xF0) else (b &&& 0xF0) ||| (v &&& 0x0F)

/-- What a standing write makes of a byte at an address. -/
def OutWrite.over (w : OutWrite) (pa : Nat) (b : Byte) : Byte :=
  if w.pa ≤ pa ∧ pa < w.pa + w.data.length then
    match w.half with
    | some hi => mergeNibble hi (w.data.getD (pa - w.pa) 0) b
    | none => w.data.getD (pa - w.pa) 0
  else b

/-- A byte as an agent of a die reads it at its home slice: the latest write standing in the die's outbound path answers in
place of the home value (R331). Reserved bits of a scale frame read as zero (R126, R127). -/
def State.homeByte (s : State) (die pa : Nat) : Byte :=
  s.kept pa ((s.out die).foldl (fun b w => w.over pa b) (memGet s.mem pa))

/-- Bytes read at the home slice by an agent of a die. -/
def State.homeRead (s : State) (die pa n : Nat) : List Byte := (List.range n).map fun k => s.homeByte die (pa + k)

/-- Whether a sector is marked once a standing write is performed, given whether it was before (R296, R408, R409). -/
def OutWrite.marked (w : OutWrite) (k : Nat) (m : Bool) : Bool :=
  w.marks.contains k ||
    (m && !(decide (w.pa ≤ 32 * k ∧ 32 * k + 32 ≤ w.pa + w.data.length) || w.cleans.contains k))

/-- A sector is marked as an agent of a die reads it at its home slice. -/
def State.homeMarked (s : State) (die k : Nat) : Bool :=
  (s.out die).foldl (fun m w => w.marked k m) (s.marked.contains k)

/-- Bytes read at the home slice by an agent of a die are poisoned. -/
def State.homePoisoned (s : State) (die pa n : Nat) : Bool := (sectorsOf pa n).any (s.homeMarked die)

/-- The writes a thread waits for, without one that is performed. -/
def Thread.ack (th : Thread) (die k : Nat) : Thread := { th with pend := th.pend.filter fun p => p.2 != .outbound die k }

/-- A write reaches its home slice: its bytes, or its nibble (R305, R320). -/
def State.landWrite (s : State) (w : OutWrite) : State :=
  match w.half with
  | some hi => s.writeHome w.pa [mergeNibble hi (w.data.getD 0 0) (memGet s.mem w.pa)] w.cleans w.marks
  | none => s.writeHome w.pa w.data w.cleans w.marks

/-- One write leaves a die's outbound path and is performed at its home slice (R331). -/
def State.performOut (s : State) (die : Nat) (w : OutWrite) : State :=
  let s := s.landWrite w
  State.addTodo { s with threads := s.threads.map fun p => (p.1, p.2.ack die w.id) } [.fences]

/-- Performs the writes of a die up to the last one that meets a range (R302: a read-modify-write at home follows them). -/
def State.flush (s : State) (die pa n : Nat) : State :=
  let l := s.out die
  let keep := (l.reverse.takeWhile fun w => !overlap w.pa w.data.length pa n).length
  if keep = l.length then s
  else (l.take (l.length - keep)).foldl (State.performOut · die) { s with outbound := tset s.outbound die (l.drop (l.length - keep)) }

/-- A write by an agent of a die to a home slice: performed there, or entered in the outbound path (R330, R331). The threads named have
it to wait for (R204, R332). `core` is the core whose L1 it leaves. -/
def State.storeHome (s : State) (die : Nat) (ts : List Nat) (pa : Nat) (bs : List Byte) (cleans marks : List Nat := [])
    (half : Option Bool := none) (core : Option Nat := none) : State :=
  let id := s.nextId
  let s := { s with nextId := id + 1 }
  let kind := if homeDie pa = die then PendKind.home else .outbound die id
  let s := ts.foldl (fun s t => s.modThread t fun th => { th with pend := th.pend ++ [(id, kind)] }) s
  let w : OutWrite := { id := id, pa := pa, data := bs, cleans := cleans, marks := marks, half := half, core := core, since := s.cycle }
  if homeDie pa = die then s.landWrite w else { s with outbound := tset s.outbound die (s.out die ++ [w]) }

/-! ## Atomic operations (R199, R202) -/

/-- The new value of an atomic operation on operands of w bits (R199). -/
def atomValue (aop : Nat) (ty : Ty) (rnd : Rnd) (old b : Nat) : Nat :=
  let w := 32 * ty.regs
  match aop with
  | 0 =>
    match ty with
    | .f32 | .f64 => (fmtOf ty).arith .add rnd false old b 0
    | .bf16x2 | .f16x2 => perHalf (fun x y _ => (fmtOf ty).arith .add rnd false x y 0) old b 0
    | _ => (old + b) % 2 ^ w
  | 1 | 2 =>
    match ty with
    | .f32 | .f64 => (fmtOf ty).minMax (aop == 2) old b
    | _ =>
      let x := intOf ty old
      let y := intOf ty b
      ofSigned w (if aop = 1 then min x y else max x y)
  | 3 => old &&& b
  | 4 => old ||| b
  | 5 => old ^^^ b
  | 6 => b
  | _ => if b % 2 ^ w = old then b / 2 ^ w % 2 ^ w else old

/-- The value of an element of an update-only line when it is allocated (R202). -/
def redIdentity (aop : Nat) (ty : Ty) : Nat :=
  match aop with
  | 1 | 2 =>
    if ty.isFloat then (fmtOf ty).nanCode
    else ofSigned (32 * ty.regs) (if aop = 1 then maxOf ty else minOf ty)
  | 3 => 2 ^ (32 * ty.regs) - 1
  | _ => 0

/-! ## The L1 -/

/-- The line of a core's L1 that holds a virtual address of a context (R423). -/
def Core.line (c : Core) (ctx : BitVec 16) (va : W64) : Option L1Line :=
  c.l1.find? fun l => l.ctx == ctx && l.line == va.toNat / 128

/-- Drops a line. -/
def State.dropLine (s : State) (core : Nat) (l : L1Line) : State :=
  s.modCore core fun c => { c with l1 := c.l1.filter fun x => !(x.ctx == l.ctx && x.line == l.line) }

/-- Replaces a line, or adds it. -/
def State.putLine (s : State) (core : Nat) (l : L1Line) : State :=
  s.modCore core fun c => { c with l1 := c.l1.filter (fun x => !(x.ctx == l.ctx && x.line == l.line)) ++ [l] }

/-- The value of bytes at their home slice, reserved bits of a scale frame being zero (R126). -/
def State.homeWord (s : State) (pa w : Nat) : Nat := ofBytes (s.keptRead pa w)

/-- Combines one element of a partial at the home slice (R202). -/
def State.combineElem (s : State) (aop : Nat) (ty : Ty) (rnd : Rnd) (pa b : Nat) : State :=
  let w := ty.bytes
  s.writeHome pa (leBytes w (atomValue aop ty rnd (s.homeWord pa w) b))

/-- The first marked sector of the line at an address, where one is. -/
def State.lineHurt (s : State) (pa : Nat) : Option Nat := ((List.range 4).map (pa / 128 * 4 + ·)).find? s.marked.contains

/-- Combines an update-only partial into the home copy, its elements in ascending order, and the line leaves the L1 (R202). At a line of
which a sector is marked the whole partial is discarded with one record, which names the first such sector (R203, R472, log 79). -/
def State.combine (s : State) (core : Nat) (l : L1Line) : State :=
  match l.red with
  | none => s
  | some (aop, ty, rnd) =>
    let w := ty.bytes
    let s := (s.dropLine core l).flush (dieOf core) l.pa 128
    match s.lineHurt l.pa with
    | some k => s.errorRecord { pa := 32 * k, ctx := l.ctx, unit := unitOf l.pa, outcome := 6, die := dieOf core, core := core }
    | none =>
      (List.range (128 / w)).foldl (fun s k =>
        if l.dirty.getLsbD (w * k) then s.combineElem aop ty rnd (l.pa + w * k) (ofBytes ((l.data.drop (w * k)).take w))
        else s) s

/-- Bits of a mask over n bytes from an offset. -/
def maskOf (off n : Nat) : BitVec 128 := BitVec.ofNat 128 ((2 ^ n - 1) * 2 ^ off)

/-- The runs of dirty bytes of one sector of a line, as offsets and lengths. -/
def dirtyRuns (dirty : BitVec 128) (first n : Nat) : List (Nat × Nat) :=
  (List.range n).foldl (fun acc k =>
    let o := first + k
    if dirty.getLsbD o then
      match acc.reverse with
      | (a, m) :: r => if a + m = o then (r.reverse ++ [(a, m + 1)]) else acc ++ [(o, 1)]
      | [] => [(o, 1)]
    else acc) []

/-- Threads that wrote dirty bytes of a sector of a line. -/
def L1Line.writers (l : L1Line) (k : Nat) : List Nat := (l.by_.filter (·.1 == k)).map (·.2)

/-- Writes one sector's dirty bytes back: their writers have the writes to wait for (R204, R332), and so have the threads given. A sector
struck in the L1 marks the home sector that receives it (R408), with a record where that was not marked any longer (R471). -/
def State.writeBackSector (s : State) (core : Nat) (ts : List Nat) (l : L1Line) (k : Nat) : State :=
  let hurt := l.hurt.getLsbD k && (l.dirty &&& maskOf (32 * k) 32) != 0
  let marks := if hurt then [l.pa / 32 + k] else []
  let ws := (l.writers k).filter fun t => !ts.contains t
  let s := if hurt && !s.homeMarked (dieOf core) (l.pa / 32 + k) then
      s.errorRecord { pa := 32 * (l.pa / 32 + k), ctx := l.ctx, unit := 3, outcome := 1, die := dieOf core, core := core }
    else s
  (dirtyRuns l.dirty (32 * k) 32).foldl (fun s r =>
    s.storeHome (dieOf core) (ts ++ ws) (l.pa + r.1) ((l.data.drop r.1).take r.2) [] marks (core := some core)) s

/-- Writes a line's dirty bytes back and no others (R319). -/
def State.writeBack (s : State) (core : Nat) (ts : List Nat) (l : L1Line) : State :=
  (List.range 4).foldl (fun s k => s.writeBackSector core ts l k) s

/-- Eviction of a line (R202, R319). -/
def State.evict (s : State) (core : Nat) (l : L1Line) : State :=
  if l.red.isSome then s.combine core l else (s.writeBack core [] l).dropLine core l

/-- The sectors of a line all of whose bytes are dirty. -/
def L1Line.wholeDirty (l : L1Line) : BitVec 4 :=
  BitVec.ofNat 4 ((List.range 4).foldl (fun x k => if l.dirty &&& maskOf (32 * k) 32 = maskOf (32 * k) 32 then x + 2 ^ k else x) 0)

/-- Writes a line back or combines it; an ordinary line stays, clean (R205). A sector that the write-back covers whole is poisoned no longer,
unless it was struck here (R408, R409). -/
def State.cleanLine (s : State) (core : Nat) (ts : List Nat) (l : L1Line) : State :=
  if l.red.isSome then s.combine core l
  else if l.dirty = 0 then s
  else (s.writeBack core ts l).putLine core
    { l with dirty := 0, hurt := 0, by_ := [], poison := (l.poison &&& ~~~ l.wholeDirty) ||| l.hurt }

/-- The release cache action of a core (R205). The threads given wait for what it writes back. -/
def State.releaseAction (s : State) (core : Nat) (ts : List Nat) : State :=
  (s.core core).l1.foldl (fun s l => s.cleanLine core ts l) s

/-- The acquire cache action: every clean line of the context leaves the L1 (R205). -/
def State.acquireAction (s : State) (core : Nat) (ctx : BitVec 16) : State :=
  s.modCore core fun c => { c with l1 := c.l1.filter fun l => !(l.ctx == ctx && l.dirty == 0 && l.red.isNone) }

/-- The home slice recalls every partial of a line before it answers (R202, R327). -/
def State.recall (s : State) (pa : Nat) : State :=
  s.cores.foldl (fun s c => c.2.l1.foldl (fun s l => if l.red.isSome && l.pa / 128 == pa / 128 then s.combine c.1 l else s) s) s

/-- The partial one core holds of a line is combined. -/
def State.combineOwn (s : State) (core pa : Nat) : State :=
  (s.core core).l1.foldl (fun s l => if l.red.isSome && l.pa / 128 == pa / 128 then s.combine core l else s) s

/-- Sectors of a line that are marked at home, as an agent of a die reads it. -/
def State.linePoison (s : State) (die pa : Nat) : BitVec 4 :=
  BitVec.ofNat 4 ((List.range 4).foldl (fun x k => if s.homeMarked die (pa / 32 + k) then x + 2 ^ k else x) 0)

/-- Scratchpad KiB of a core under a carve-out (R17). -/
def partKib (carve : Nat) : Nat := match carve with | 0 => 896 | 1 => 768 | 2 => 512 | _ => 256

/-- Lines that the L1 part of a core holds (R17, R19). -/
def Core.l1Lines (c : Core) : Nat := 8 * (1024 - partKib (c.carve.getD 0))

/-- Lines of a core's L1 leave it, each the model's free choice, until at most n stand (R14, R19, R319). -/
def State.shrinkL1 (s : State) (core n : Nat) : Nat → State
  | 0 => s
  | fuel + 1 =>
    let ls := (s.core core).l1
    if ls.length ≤ n then s
    else
      let (k, s) := s.choose (ls.length - 1)
      match ls[k]? with
      | some l => (s.evict core l).shrinkL1 core n fuel
      | none => s

/-- A full L1 evicts a line before it takes another (R19, R319). -/
def State.makeRoom (s : State) (core : Nat) : State :=
  s.shrinkL1 core ((s.core core).l1Lines - 1) (s.core core).l1.length

/-- An ordinary copy of a line of a page stands in the L1: an update-only one is combined first, one of another translation is written back
and dropped (R427), and a missing one is filled (R303, R465). It takes the leaf's copies (R423). -/
def State.fill (s : State) (core : Nat) (ctx : BitVec 16) (va : W64) (pg : Page) : L1Line × State :=
  let base := pg.pa - va.toNat % 128
  let fresh (s : State) : L1Line × State :=
    let s := s.makeRoom core
    let l : L1Line := { ctx := ctx, line := va.toNat / 128, pa := base, leaf := pg, data := s.homeRead (dieOf core) base 128,
                        poison := s.linePoison (dieOf core) base }
    (l, s.putLine core l)
  match (s.core core).line ctx va with
  | some l => if l.red.isSome || l.pa != base then fresh (s.evict core l) else ({ l with leaf := pg }, s)
  | none => fresh s

/-- A sector of a range of a line is poisoned. -/
def L1Line.poisoned (l : L1Line) (off n : Nat) : Bool :=
  (List.range ((off + n + 31) / 32 - off / 32)).any fun k => (l.poison ||| l.hurt).getLsbD (off / 32 + k)

/-- The sectors of a line among some sectors of physical memory. -/
def L1Line.sectors (l : L1Line) (ks : List Nat) : BitVec 4 :=
  BitVec.ofNat 4 ((List.range 4).foldl (fun x i => if ks.contains (l.pa / 32 + i) then x + 2 ^ i else x) 0)

/-- Bytes written in an L1 line. The write covers some sectors of the line whole, by itself or as the last piece of a store, which clears
their poison, and marks others (R296, R409). -/
def L1Line.write (l : L1Line) (off : Nat) (bs : List Byte) (dirty : Bool) (cleans marks : List Nat := []) : L1Line :=
  let clean := l.sectors (cleans ++ (sectorsOf (l.pa + off) bs.length).filter fun k =>
    decide (l.pa + off ≤ 32 * k ∧ 32 * k + 32 ≤ l.pa + off + bs.length))
  { l with data := l.data.take off ++ bs ++ l.data.drop (off + bs.length),
           dirty := if dirty then l.dirty ||| maskOf off bs.length else l.dirty &&& ~~~ maskOf off bs.length,
           poison := (l.poison &&& ~~~ clean) ||| l.sectors marks, hurt := l.hurt &&& ~~~ clean }

/-- A sector of which no byte is dirty any longer has no writers to wait for. -/
def L1Line.settle (l : L1Line) : L1Line := { l with by_ := l.by_.filter fun w => (l.dirty &&& maskOf (32 * w.1) 32) != 0 }

/-- A thread has written dirty bytes of a sector of the line (R204, R332). -/
def L1Line.noteWriter (l : L1Line) (off t : Nat) : L1Line :=
  { l with by_ := if l.by_.contains (off / 32, t) then l.by_ else l.by_ ++ [(off / 32, t)] }

/-- A write performed at home also writes its bytes into the copies in the issuing core's L1, which are not dirty then (R303). -/
def State.updateOwn (s : State) (core pa : Nat) (bs : List Byte) (cleans marks : List Nat := []) : State :=
  s.modCore core fun c =>
    { c with l1 := c.l1.map fun l => if l.red.isNone && l.pa / 128 == pa / 128 then (l.write (pa - l.pa) bs false cleans marks).settle else l }

/-! ## One element of a `.g` access -/

/-- The access is performed at the home slice: SCOPE 3 or wider, or a secondary page (R195, R429). -/
def atHome (scope : Nat) (pg : Page) : Bool := decide (scope ≥ 3) || pg.synonym.isSome

/-- Reads bytes of one line (R190, R195): the bytes, whether a sector of them is poisoned, and the state. -/
def State.gRead (s : State) (core : Nat) (ctx : BitVec 16) (scope : Nat) (va : W64) (pg : Page) (n : Nat) :
    List Byte × Bool × State :=
  if atHome scope pg then
    let s := s.recall pg.pa
    (s.homeRead (dieOf core) pg.pa n, s.homePoisoned (dieOf core) pg.pa n, s)
  else
    let (l, s) := s.fill core ctx va pg
    let off := va.toNat % 128
    (((l.data.drop off).take n).zipIdx.map fun b => s.kept (pg.pa + b.2) b.1, l.poisoned off n, s)

/-- Writes bytes of one line (R190, R195, R303); `whole` marks the last piece of a store that covers the sector whole (R409). -/
def State.gWrite (s : State) (t core : Nat) (ctx : BitVec 16) (scope : Nat) (va : W64) (pg : Page) (bs : List Byte)
    (whole : Bool := false) : State :=
  let cleans := if whole then [pg.pa / 32] else []
  if atHome scope pg then ((s.combineOwn core pg.pa).storeHome (dieOf core) [t] pg.pa bs cleans).updateOwn core pg.pa bs cleans
  else
    let (l, s) := s.fill core ctx va pg
    let off := va.toNat % 128
    let l := l.write off bs true cleans
    s.putLine core (l.noteWriter off t)

/-- A nibble written at a home slice also goes into the copies in the issuing core's L1 (R303). A byte that is dirty there stays so: its
other nibble may be written nowhere else (R319; DESIGN CHOICE, log 93). -/
def State.updateNibble (s : State) (core pa : Nat) (hi : Bool) (v : Byte) : State :=
  s.modCore core fun c => { c with l1 := c.l1.map fun l =>
    if l.red.isNone && l.pa / 128 == pa / 128 then
      { l with data := l.data.set (pa - l.pa) (mergeNibble hi v (l.data.getD (pa - l.pa) 0)) }
    else l }

/-- Writes a nibble of a byte (R192, R195, R303, R305). -/
def State.gNibble (s : State) (t core : Nat) (ctx : BitVec 16) (scope : Nat) (va : W64) (pg : Page) (hi : Bool) (v : Nat) : State :=
  let x := BitVec.ofNat 8 (17 * (v % 16))
  if atHome scope pg then
    ((s.combineOwn core pg.pa).storeHome (dieOf core) [t] pg.pa [x] [] [] (some hi)).updateNibble core pg.pa hi x
  else
    let (l, s) := s.fill core ctx va pg
    let off := va.toNat % 128
    s.putLine core ((l.write off [mergeNibble hi x (l.data.getD off 0)] true).noteWriter off t)

/-- Sectors of the poisoned bytes of a write that starts at an address. -/
def markedBy (a : Nat) (poison : List Bool) : List Nat :=
  ((List.range poison.length).filter fun k => poison.getD k false).map (fun k => (a + k) / 32) |>.eraseDups

/-- A write of a group operation or of the fabric is performed at the home slice, past any outbound path (R217, R334): earlier writes of the
bytes that stand in the issuing core's die are performed before it, and copies in that core's L1 are updated (R303). -/
def State.writeThrough (s : State) (core : Option Nat) (pa : Nat) (bs : List Byte) (poison : List Bool := []) (cleans : List Nat := []) :
    State :=
  let marks := markedBy pa poison
  match core with
  | some c => (((s.combineOwn c pa).flush (dieOf c) pa bs.length).writeHome pa bs cleans marks).updateOwn c pa bs cleans marks
  | none => s.writeHome pa bs cleans marks

/-- A read of a group operation or of the fabric at the home slice (R331, R334, R340): bytes, and whether one is poisoned. -/
def State.readThrough (s : State) (core : Option Nat) (pa n : Nat) : List Byte × Bool × State :=
  let lines := (List.range ((pa + n + 127) / 128 - pa / 128)).map (pa / 128 + ·)
  let s := lines.foldl (fun s l => s.recall (128 * l)) s
  let s := match core with | some c => s.flush (dieOf c) pa n | none => s
  (s.homeRead (homeDie pa) pa n, s.homePoisoned (homeDie pa) pa n, s)

/-- The read-modify-write of `atom.g` at the home slice (R200, R201, R303): the old value, whether it is poisoned, the state. -/
def State.gAtom (s : State) (core : Nat) (f : Fields) (pa b : Nat) : Nat × Bool × State :=
  let w := f.ty.bytes
  let s := (s.recall pa).flush (dieOf core) pa w
  let old := s.homeWord pa w
  if s.poisoned pa w then (old, true, s)
  else
    let new := atomValue f.aop f.ty f.rnd old b
    if f.aop = 7 && new = old then (old, false, s)
    else (old, false, (s.writeHome pa (leBytes w new)).updateOwn core pa (leBytes w new))

/-- `red.g` of one element at SCOPE 0 to 2 (R202, R465): the partial in the core's L1. A partial of another operation, type or
rounding is combined first. The operands of an issue group come one at a time in ascending `sr.tid`, with `.reassoc` too, where R203
leaves order and grouping open (DESIGN CHOICE, log 66). -/
def State.gRedL1 (s : State) (t core : Nat) (ctx : BitVec 16) (f : Fields) (va : W64) (pg : Page) (b : Nat) : State :=
  let w := f.ty.bytes
  let off := va.toNat % 128
  let key := (f.aop, f.ty, f.rnd)
  let fresh : L1Line :=
    { ctx := ctx, line := va.toNat / 128, pa := pg.pa - off, leaf := pg, red := some key,
      data := (List.range (128 / w)).flatMap fun _ => leBytes w (redIdentity f.aop f.ty) }
  let (l, s) := match (s.core core).line ctx va with
    | some l => if l.red = some key && l.pa == pg.pa - off then (l, s) else (fresh, s.evict core l)
    | none => (fresh, s.makeRoom core)
  let old := ofBytes ((l.data.drop off).take w)
  s.putLine core ((l.write off (leBytes w (atomValue f.aop f.ty f.rnd old b)) true).noteWriter off t)

/-- `red.g` of one element performed at once at the home slice (R203, R465). -/
def State.gRedHome (s : State) (t core : Nat) (f : Fields) (pa b : Nat) : State :=
  let blk := s.block (blockOf t)
  let w := f.ty.bytes
  let s := (s.recall pa).flush (dieOf core) pa w
  if s.poisoned pa w then
    s.errorRecord { pa := pa / 32 * 32, task := blk.task, blk := blk.index, ctx := blk.ctx, unit := unitOf pa, outcome := 6,
                    tid := tidOf t, die := dieOf core, core := core }
  else
    let bs := leBytes w (atomValue f.aop f.ty f.rnd (s.homeWord pa w) b)
    (s.writeHome pa bs).updateOwn core pa bs

/-! ## Checks of a `.g` access (R184) -/

/-- The merged access of the regions of a block that cover a byte (R322, R379): unlike accesses merge to RW. -/
def Block.accessAt (b : Block) (a : Nat) : Option Access :=
  b.launch.regions.foldl (fun acc r =>
    let x : Int := toSigned 64 a
    let lo : Int := r.base + (b.index : Int) * r.stride
    if lo ≤ x ∧ x < lo + r.extent then
      match acc with
      | none => some r.acc
      | some x => if x = r.acc then acc else some .rw
    else acc) none

/-- Region accesses that cover an instruction (R185). -/
inductive Need where
  | load | store | atomic | reduce
  deriving DecidableEq, Repr

/-- R185. -/
def Need.coveredBy : Need → Access → Bool
  | .load, .r | .load, .rw | .store, .w | .store, .rw | .atomic, .rw | .reduce, .red | .reduce, .rw => true
  | _, _ => false

/-- Kind of access in a PAGEFAULT entry (R425). -/
def Need.kind : Need → Nat
  | .load => 1 | .store => 2 | _ => 3

/-- The page permits the access (R184 step 6): R for a load, W for a store, both for a read-modify-write. -/
def Need.allowed (n : Need) (pg : Page) : Bool :=
  match n with | .load => pg.r | .store => pg.w | _ => pg.r && pg.w

/-- Translation of a byte of an access (R423): a line that the L1 of a core holds answers an access at SCOPE 0 to 2 with its copy of the leaf,
but for a write that this copy does not permit. -/
def State.pageAt (s : State) (core : Nat) (ctx : BitVec 16) (scope : Nat) (write : Bool) (va : W64) : Except Nat Page :=
  match (if scope < 3 then (s.core core).line ctx va else none) with
  | some l => if write && !l.leaf.w then s.translate ctx va else .ok { l.leaf with pa := l.pa + va.toNat % 128 }
  | none => s.translate ctx va

/-- The pages of the elements of an access, or the first fault of its translation (R184 step 5). -/
def State.pagesOf (s : State) (core : Nat) (ctx : BitVec 16) (kind scope : Nat) (va : W64) (size : Nat) : Nat → Except Stop (List Page)
  | 0 => .ok []
  | n + 1 =>
    match s.pagesOf core ctx kind scope va size n with
    | .error e => .error e
    | .ok ps =>
      let a := va + BitVec.ofNat 64 (size * n)
      match s.pageAt core ctx scope (kind != 1) a with
      | .error l => .error (.park a l kind)
      | .ok p => .ok (ps ++ [p])

/-- Steps 2 to 7 of R184 for count elements of a size at an address; `fmtOk` is the type check of step 6 (R189). Steps 2
and 4 test every byte of the access: R182 and R184 do not say whether the address alone is meant (DESIGN CHOICE, log 94). -/
def State.locate (s : State) (t : Nat) (va : W64) (size count : Nat) (need : Need) (fmtOk : Page → Bool) (scope : Nat := 6) :
    Except Stop (List Page) :=
  let b := s.block (blockOf t)
  let n := size * count
  if !((List.range n).all fun k => validVa (va + BitVec.ofNat 64 k)) then .error (.trap .permission va)
  else if va.toNat % size ≠ 0 then .error (.trap .misalign va)
  else if !((List.range n).all fun k => match b.accessAt (va + BitVec.ofNat 64 k).toNat with
      | some a => need.coveredBy a | none => false) then .error (.trap .undeclared va)
  else match s.pagesOf b.core b.ctx need.kind scope va size count with
    | .error e => .error e
    | .ok ps =>
      if !(ps.all fun p => need.allowed p && fmtOk p) then .error (.trap .permission va)
      else if ps.any (fun p => p.fmt == 0) && va.toNat % n ≠ 0 then .error (.trap .misalign va)
      else .ok ps

/-- A frame access (R428): the page of one frame byte or of the band record word, here or on another device (R422). -/
def State.frameAt (s : State) (core : Nat) (ctx : BitVec 16) (va : W64) (write : Bool) (scope : Nat := 6) : Except Stop Page :=
  match s.pageAt core ctx scope write va with
  | .error l => .error (.park va l (if write then 2 else 1))
  | .ok p =>
    if p.fmt ≠ 0 || (if write then !p.w else !p.r) then .error (.trap .permission va) else .ok p

end Sys2Proof.Machine
end

