-- ==== Sys2Proof/Machine/Effects.lean ====
section
/-! DEFINITION. What an access does once its checks are done and its operands read: the scratchpads, `.g` loads and stores of
every form, fabric requests and their ends, and the effects that the held-effect buffer keeps (R188, R190 to R204, R206, R211,
R215 to R217, R334 to R338, R359). -/

namespace Sys2Proof.Machine

/-! ## Scratchpads -/

/-- Writes bytes of a core's scratchpad part for a context; a sector covered whole loses its poison (R409). -/
def Core.sWrite (c : Core) (ctx : BitVec 16) (off : Nat) (bs : List Byte) : Core :=
  { c with
    scratch := (List.range bs.length).foldl (fun m k => tset m (off + k) { val := bs.getD k 0, ctx := ctx }) c.scratch,
    spoison := c.spoison.filter fun k => !(decide (off ≤ 32 * k ∧ 32 * k + 32 ≤ off + bs.length)) }

/-- Sets the tag set of a sector; an empty one is not listed. -/
def Core.setTag (c : Core) (k : Nat) (g : Tags) : Core :=
  { c with stags := if g = 0 then tdel c.stags k else tset c.stags k g }

/-- The tag sets after a `st.s`: the store's where it covers a sector whole, joined to the old elsewhere (R196). -/
def Core.tagStore (c : Core) (off n : Nat) (g : Tags) : Core :=
  (sectorsOf off n).foldl (fun c k =>
    c.setTag k (if off ≤ 32 * k ∧ 32 * k + 32 ≤ off + n then g else tgetD c.stags k 0 ||| g)) c

/-- The tag sets of a range become empty (R197, R296). -/
def Core.tagClear (c : Core) (off n : Nat) : Core := (sectorsOf off n).foldl (fun c k => c.setTag k 0) c

/-- A scratchpad write re-evaluates the monitors of its words (R246). -/
def State.wakeS (s : State) (core off n : Nat) : State :=
  if s.watchedS core off n then s.addTodo [.revalS core off n] else s

/-- The physical place of a scratchpad byte in the on-chip map (R430). -/
def scratchPlace (core off : Nat) : Nat := onChipBase + core / 64 * 2 ^ 30 + core % 64 * 2 ^ 24 + 0x400000 + off

/-! ## Loaded values -/

/-- One element as its register bits: u8 and u16 zero-, s8 and s16 sign-extended (R190). -/
def elemRegs (ty : Ty) (bs : List Byte) : Nat :=
  match ty with
  | .s8 => ofSigned 32 (toSigned 8 (ofBytes bs))
  | .s16 => ofSigned 32 (toSigned 16 (ofBytes bs))
  | _ => ofBytes bs

/-- The register bits of count elements (R190). -/
def regsOf (ty : Ty) (count : Nat) (bs : List Byte) : Nat :=
  (List.range count).foldl (fun x k => x + elemRegs ty ((bs.drop (ty.bytes * k)).take ty.bytes) * 2 ^ (32 * ty.regs * k)) 0

/-- The bytes a store of element k takes from its data group (R190). -/
def elemBytes (ty : Ty) (data k : Nat) : List Byte := leBytes ty.bytes (data / 2 ^ (32 * ty.regs * k))

/-- The bytes of a store of count elements. -/
def bytesOf (ty : Ty) (count data : Nat) : List Byte := (List.range count).flatMap fun k => elemBytes ty data k

/-- How a `.g` load or store treats an fp4bs page (R189, R193): raw, decode or encode, or `.sc`. -/
inductive GForm where
  | raw | block | sc
  deriving DecidableEq, Repr

/-- The form of an access on a page of a format. -/
def gForm (f : Fields) (fmt : Nat) : GForm :=
  if f.xc.getLsbD 2 then .sc else if fmt = 1 ∧ blockForm f then .block else .raw

/-- The type is permitted on the page's format (R189). -/
def fmtOk (f : Fields) (pg : Page) : Bool :=
  if pg.fmt = 1 then
    f.xc.getLsbD 2 || blockForm f ||
      (match f.ty with | .b32 | .u64 | .u8 | .u16 | .b128 | .fp4x8 => true | _ => false)
  else !f.xc.getLsbD 2

/-- The register bits of a decode or `.sc` load (R191, R194). -/
def blockLoadValue (f : Fields) (blk scale band : Nat) : Nat :=
  if gForm f 1 = .sc then blk + (scale + band / 2 ^ 16 % 2 * 256) * 2 ^ 32 else decodeBlock f.ty f.rnd f.sat blk scale band

/-- The register bits and their poison of a load whose units have all been read (R187, R190, R191, R194); value 0 and poison where an access
to another device has failed (R336). -/
def LateLoad.result (l : LateLoad) : Option (Nat × Bool) :=
  let gs := l.got.filterMap id
  if gs.length < l.got.length then none
  else if gs.any (·.failed) then some (0, true)
  else
    let v := if l.block then
        match gs with
        | b :: s :: d :: _ => blockLoadValue l.f (ofBytes b.bytes) (ofBytes s.bytes) (ofBytes d.bytes)
        | _ => 0
      else regsOf l.f.ty l.f.count (gs.flatMap (·.bytes))
    some (v, gs.any (·.poison))

/-- An element of a store is the last of a sector that the store covers whole (R409). -/
def lastOfSector (va size count k : Nat) : Bool :=
  let e := va + size * (k + 1)
  decide (e % 32 = 0) && decide (va + 32 ≤ e) && decide (k < count)

/-- The aligned 8-byte halves of an element with their offsets, or the whole of a smaller one (R305). -/
def halves (bs : List Byte) : List (Nat × List Byte) := if bs.length ≤ 8 then [(0, bs)] else [(0, bs.take 8), (8, bs.drop 8)]

/-- The units of the raw elements of a `.g` store (R190, R305). -/
def rawUnits (f : Fields) (va : W64) (data : Nat) : Nat → List Page → List LateUnit
  | _, [] => []
  | k, p :: ps =>
    (halves (elemBytes f.ty data k)).map (fun h => .mem f.scope.toNat (va + BitVec.ofNat 64 (f.ty.bytes * k + h.1))
      { p with pa := p.pa + h.1 } h.2 (h.1 + h.2.length == f.ty.bytes && lastOfSector va.toNat f.ty.bytes f.count k)) ++
      rawUnits f va data (k + 1) ps

/-- The band record word of a block that holds a NaN or an infinity (R128). -/
def specialBand : Nat := 0x17FC0

/-- The units of a block's eight nibbles (R305). -/
def blockUnits (scope : Nat) (va : W64) (pg : Page) (code : Nat) : List LateUnit :=
  (List.range 8).map fun k =>
    .nibble scope (va + BitVec.ofNat 64 (k / 2)) { pg with pa := pg.pa + k / 2 } (k % 2 == 1) (code / 2 ^ (4 * k) % 16)

/-- The units of the first branch of R192: block code 0, scale code 0, and the band record. -/
def specialUnits (scope : Nat) (va : W64) (pg sp bp : Page) : List LateUnit :=
  let (sa, ba) := frameAddrs pg.frame va
  blockUnits scope va pg 0 ++ [.mem scope sa sp (leBytes 1 0) false, .mem scope ba bp (leBytes 4 specialBand) false]

/-- The units of an encode store against a scale code and a band record word (R192). -/
def encodeUnits (f : Fields) (va : W64) (pg sp bp : Page) (data scale band : Nat) : List LateUnit :=
  match encodeBlock f.ty f.rnd data scale band with
  | none => specialUnits f.scope.toNat va pg sp bp
  | some c => blockUnits f.scope.toNat va pg c

/-- The units of a `.g` store at pc (R190, R192, R194, R305). -/
def storeUnits (f : Fields) (pc va : W64) (pages frames : List Page) (data : Nat) : List LateUnit :=
  match pages, frames with
  | p :: _, sp :: r =>
    let bp := r.headD sp
    if gForm f 1 ≠ .sc then [.encode f pc va p sp bp data false none none]
    else if data.testBit 40 then specialUnits f.scope.toNat va p sp bp
    else blockUnits f.scope.toNat va p data ++
      [.mem f.scope.toNat (frameAddrs p.frame va).1 sp (leBytes 1 (data / 2 ^ 32)) false]
  | _, _ => rawUnits f va data 0 pages

/-- Offsets and bytes of the units of count elements of a size (R305). -/
def elemUnits (size count : Nat) : List (Nat × Nat) :=
  (List.range count).flatMap fun k => if size ≤ 8 then [(size * k, size)] else [(size * k, 8), (size * k + 8, size - 8)]

/-- The units of a `.g` load whose result is `out` (R190, R191, R194, R305): of another device its one access. -/
def loadUnits (f : Fields) (va : W64) (pages frames : List Page) (out : Nat) : List LateUnit :=
  let scope := f.scope.toNat
  match pages, frames with
  | p :: _, sp :: bp :: _ =>
    let (sa, ba) := frameAddrs p.frame va
    [.read out 0 scope va p 4, .read out 1 scope sa sp 1, .read out 2 scope ba bp 4]
  | p :: ps, _ =>
    if p.peer.isSome then [.read out 0 scope va p (accessBytes f)]
    else (elemUnits f.ty.bytes f.count).zipIdx.map fun u =>
      let pg := (p :: ps).getD (u.1.1 / f.ty.bytes) p
      .read out u.2 scope (va + BitVec.ofNat 64 u.1.1) { pg with pa := pg.pa + u.1.1 % f.ty.bytes } u.1.2
  | [], _ => []

/-- The units of a scratchpad load whose result is `out` (R190, R305). -/
def loadUnitsS (f : Fields) (core off out : Nat) : List LateUnit :=
  (elemUnits f.ty.bytes f.count).zipIdx.map fun u => .readS out u.2 core (off + u.1.1) u.1.2

/-- A load none of whose n units has been read. -/
def lateLoad (f : Fields) (block : Bool) (n : Nat) : LateLoad := { f := f, block := block, got := List.replicate n none }

/-! ## Results that are written later -/

/-- An element of a scratchpad store, whose sectors are counted from the start of the core's part (R190, R305, R409). -/
def scratchUnits (f : Fields) (core off data : Nat) (own : Bool) : List LateUnit :=
  (List.range f.count).flatMap fun k => (halves (elemBytes f.ty data k)).map fun h =>
    .scratch core (off + f.ty.bytes * k + h.1) h.2 own (h.1 + h.2.length == f.ty.bytes && lastOfSector off f.ty.bytes f.count k)

/-- The values of an outstanding result are known (R63, R188). -/
def State.answer (s : State) (t id : Nat) (wb : List (Loc × Reg)) : State :=
  s.modThread t fun th => { th with out := th.out.map fun o => if o.id = id then { o with wb := some wb } else o }

/-- The registers of a vector or uniform group with their values. -/
def groupWb (uni : Bool) (first n val : Nat) (poison : Bool) : List (Loc × Reg) :=
  (List.range n).map fun k =>
    (if uni then Loc.s (first + k) else .v (first + k),
     { val := BitVec.ofNat 32 (val / 2 ^ (32 * k)), poison := poison, tags := 0 })

/-- The destination group of a load. -/
def loadWb (f : Fields) (val : Nat) (poison : Bool) : List (Loc × Reg) :=
  groupWb (f.xc.getLsbD 3) f.dst.toNat (lsRegs f) val poison

/-- The destination of an atomic. -/
def atomWb (f : Fields) (val : Nat) (poison : Bool) : List (Loc × Reg) := groupWb false f.dst.toNat f.ty.regs val poison

/-- The acquire cache action after a read with ORD acquire or acq_rel at SCOPE 3 or wider (R195, R205, R321). -/
def State.acquired (s : State) (t : Nat) (ord scope : Nat) : State :=
  if (ord = 1 || ord = 3) && scope ≥ 3 then s.acquireAction (s.coreOf t) (s.block (blockOf t)).ctx else s

/-! ## Group operations: the status register (R215, R217, R341) -/

/-- The guard tag sets of the threads of the issue group (R341). -/
def State.groupGuards (s : State) (f : Fields) : Tags :=
  match s.group with
  | some (_, _, ts) => ts.foldl (fun g u => g ||| ((s.thread u).getP f.gp.toNat).tags) 0
  | none => 0

/-- A thread joins the group operation of its issue group; the first logs the status register (R341, R356). -/
def State.joinGroupOp (s : State) (t reg : Nat) (g : Tags) : State :=
  let c := crewOf t
  if s.groupOps.any fun o => o.crew == c && o.seq == s.seq then
    { s with groupOps := s.groupOps.map fun o =>
        if o.crew == c && o.seq == s.seq then { o with waiting := o.waiting ++ [t], tags := o.tags ||| g } else o }
  else { s.logDests t [.s reg] with groupOps := s.groupOps ++ [{ crew := c, seq := s.seq, reg := reg, waiting := [t], tags := g }] }

/-- A thread's part of a group operation ends with a status. -/
def State.endGroupOp (s : State) (t seq status : Nat) : State :=
  State.addTodo { s with groupOps := s.groupOps.map fun o =>
      if o.crew == crewOf t && o.seq == seq then
        { o with waiting := o.waiting.filter (· != t), results := o.results ++ [(tidOf t, status)] } else o }
    [.groupOp (crewOf t) seq]

/-- A thread leaves a group operation without a result: its effect was discarded (R361). -/
def State.leaveGroupOp (s : State) (t seq : Nat) : State :=
  State.addTodo { s with groupOps := s.groupOps.map fun o =>
      if o.crew == crewOf t && o.seq == seq then { o with waiting := o.waiting.filter (· != t) } else o }
    [.groupOp (crewOf t) seq]

/-- The status of the lowest `sr.tid` with a non-zero one, else 0 (R215). -/
def groupStatus (rs : List (Nat × Nat)) : Nat :=
  ((rs.foldl (fun (acc : Option (Nat × Nat)) r =>
    if r.2 = 0 then acc else match acc with | some x => if r.1 < x.1 then some r else acc | none => some r) none).map (·.2)).getD 0

/-- Once the last thread has completed, the status register is written, with the guards' tag sets alone (R341); it may be one of a join's (R46). -/
def State.settleGroupOp (s : State) (crew seq : Nat) : State :=
  match s.groupOps.find? fun o => o.crew == crew && o.seq == seq with
  | none => s
  | some o =>
    if !o.waiting.isEmpty then s
    else
      let s := { s with groupOps := s.groupOps.filter fun o => !(o.crew == crew && o.seq == seq) }
      match o.results.map (·.1) with
      | [] => s
      | x :: xs =>
        let t := crew * 128 + xs.foldl min x
        State.addTodo ((s.putLoc t (.s o.reg) { val := BitVec.ofNat 32 (groupStatus o.results), poison := false, tags := o.tags }).setShadow
            t (.s o.reg) none)
          [.joins crew]

/-! ## Fabric requests (R211, R334 to R338) -/

/-- The smallest non-zero status among members, or 0 (R211). -/
def worst (st : List Nat) : Nat := st.foldl (fun acc x => if x = 0 then acc else if acc = 0 then x else min acc x) 0

/-- A thread's posted fabric write has failed (R206): recorded against the thread, and in the report ring, where its task and block stand
also once they are gone. Of several failures the first in time is the earliest (DEDUCED, log 105). -/
def State.postedFailure (s : State) (r : Request) (va : W64) (status : Nat) : State :=
  let s := s.modThread r.t fun th => { th with postFail := match th.postFail with | some a => some a | none => some va }
  s.report r.ctx { kind := 4, code := status, crew := crewIx r.t, tid := tidOf r.t, task := r.task, blk := r.index, value := va.toNat }

/-- binary32 addition to nearest, as the switches do (R215). -/
def addF32 (x y : Nat) : Nat := fmtF32.arith .add .rne false x y 0

/-- The binary32 elements a member's data stands for (R215). -/
def memberElem (ty : Ty) (data : List Byte) (k : Nat) : Nat :=
  if ty == .bf16x2 then fmtF32.round .rne false (fmtBf16.decode (ofBytes ((data.drop (2 * k)).take 2)))
  else fmtF32.round .rne false (fmtF32.decode (ofBytes ((data.drop (4 * k)).take 4)))

/-- Adds values in order; a lone value stands. -/
def sumOf : List Nat → Nat
  | [] => 0
  | x :: xs => xs.foldl addF32 x

/-- Keeps one element of each leaf number, ascending. -/
def leavesOf (as : List Answer) : List Nat := (List.range 256).filter fun l => as.any fun a => a.leaf.toNat == l

/-- One element of the sum over the members (R216): per leaf in ascending member index, then leaves in ascending number; or in
arrival order. -/
def reduceElem (ordered : Bool) (ty : Ty) (n : Nat) (as : List Answer) (k : Nat) : Nat :=
  if ordered then
    sumOf ((leavesOf as).map fun l =>
      sumOf ((List.range n).filterMap fun m =>
        (as.find? fun a => a.member == m && a.leaf.toNat == l).map fun a => memberElem ty a.data k))
  else sumOf (as.map fun a => memberElem ty a.data k)

/-- Elements of the result of `ldred.mc`. -/
def ldredElems (f : Fields) : Nat := if f.ty == .bf16x2 then 2 * f.count else f.count

/-- The predicate that receives whether the status is 0 (R215). -/
def pstat (f : Fields) : Nat := f.xc.toNat / 8 % 16

/-- A predicate result as it is written later. -/
def predWb (n : Nat) (v : Bool) : Loc × Reg := (.p n, { val := if v then 1 else 0, poison := false, tags := 0 })

/-- A unit of a load has been read; with the last of them the result has its value, and an acquire is performed (R187, R195, R305). -/
def State.gotUnit (s : State) (t out k : Nat) (g : Got) : State :=
  let s := s.modThread t fun th => { th with out := th.out.map fun o =>
    if o.id = out then { o with late := o.late.map fun l => { l with got := l.got.set k (some g) } } else o }
  match (((s.thread t).out.find? (·.id == out)).bind (·.late)).bind fun l => l.result.map fun v => (l.f, v) with
  | some (f, v, p) => (s.answer t out (loadWb f v p)).acquired t f.ord.toNat f.scope.toNat
  | none => s

/-- Changes a late unit of a thread. -/
def State.modLate (s : State) (t id : Nat) (g : LateUnit → LateUnit) : State :=
  s.modThread t fun th => { th with pend := th.pend.map fun p =>
    if p.1 = id then (p.1, match p.2 with | .late q c u => .late q c (g u) | k => k) else p }

/-- An issued access is no longer to be performed. -/
def State.dropLate (s : State) (t id : Nat) : State := s.modThread t fun th => { th with pend := th.pend.filter (·.1 != id) }

/-- The scale byte or the band record word that an encode store reads on another device has come (R192, R428); a read that failed ends the
store, recorded as its own failure with the address of the frame bytes (R206, R336). -/
def State.endEncodeRead (s : State) (r : Request) (id : Nat) (band : Bool) (va : W64) (st : Nat) (data : List Byte) : State :=
  if !((s.thread r.t).pend.any (·.1 == id)) then s
  else if st ≠ 0 && st ≠ 4 then (s.dropLate r.t id).postedFailure r va st
  else s.modLate r.t id fun u => match u with
    | .encode f pc a p sp bp d sent sc bd =>
      if band then .encode f pc a p sp bp d sent sc (some (ofBytes data)) else .encode f pc a p sp bp d sent (some (ofBytes data)) bd
    | u => u

/-- Ends a request with its answers: what its kind does with them (R206, R215, R217, R336). -/
def State.endRequest (s : State) (r : Request) (as : List Answer) : State :=
  let t := r.t
  let st := worst (as.map (·.status))
  let data := (as.head?.map (·.data)).getD []
  let outOf (s : State) (out : Nat) : Option Outstanding := (s.thread t).out.reverse.find? (·.id == out)
  let seqOf (s : State) (out : Nat) : Nat := ((outOf s out).map (·.seq)).getD 0
  match r.kind with
  | .piece out k => s.gotUnit t out k { bytes := data, poison := decide (st = 4), failed := decide (st ≠ 0 && st ≠ 4) }
  | .encodeRead id band va => s.endEncodeRead r id band va st data
  | .atom f out =>
    let v := if st = 0 || st = 4 then ofBytes data else 0
    (s.answer t out (atomWb f v (st ≠ 0))).acquired t f.ord.toNat f.scope.toNat
  | .store va | .red _ va => if st = 0 then s else s.postedFailure r va st
  | .ldred f out =>
    let n := ldredElems f
    let s := s.endGroupOp t (seqOf s out) st
    let (x, s) := s.freeWord
    let v := if st = 0 then (List.range n).foldl (fun acc k => acc + reduceElem r.ordered f.ty r.members.length as k * 2 ^ (32 * k)) 0
      else (List.range n).foldl (fun acc k => acc + x.toNat % 2 ^ 32 * 2 ^ (32 * k)) 0
    (s.answer t out (groupWb false f.dst.toNat n v (st ≠ 0) ++ [predWb (pstat f) (st = 0)])).acquired t f.ord.toNat 6
  | .stmc f out => (s.endGroupOp t (seqOf s out) st).answer t out [predWb (pstat f) (st = 0)]
  | .mail out =>
    let p := match (outOf s out).bind (·.dests.head?) with | some (.p n) => n | _ => 15
    s.answer t out [predWb p (st = 0)]
  | .cpym id => { s with copies := tmod s.copies id fun c => { c with status := worst [c.status, st] } }
  | .copyRead id dev pa n =>
    let bs := if st = 0 || st = 4 then data else List.replicate n 0
    { s with copies := tmod s.copies id fun c => { c with got := c.got ++ [(dev, pa, bs, decide (st ≠ 0))] } }

/-- The traffic class of a request (R437): multicast and reduction, or requests (DEDUCED, log 101). -/
def ReqKind.cls (k : ReqKind) : Nat :=
  match k with
  | .ldred .. | .stmc .. | .cpym _ => 2
  | _ => 0

/-- A port takes new packets of a class: it is up, and the class is not paused there (R437, R438). -/
def State.portTakes (s : State) (cls p : Nat) : Bool :=
  (tgetD s.ports p {}).state == 2 && !(tgetD s.ports p {}).paused.getLsbD cls

/-- A live port of the device that takes a new request of a class (R438): the lowest one with a free tag, none where every one is down, paused or
has 4,096 requests outstanding. -/
def State.portFor (s : State) (cls : Nat) : Option Nat :=
  (List.range 32).find? fun p => s.portTakes cls p && decide ((s.requests.filter (·.port == p)).length < 4096)

/-- Some port of the device is up (R438). -/
def State.linked (s : State) : Bool := (List.range 32).any fun p => (tgetD s.ports p {}).state == 2

/-- Answers go back to other devices while a port takes them (R437, R438). -/
def State.sendReplies (s : State) : State :=
  if (List.range 32).any (s.portTakes 1) then { s with replies := s.repliesDue.reverse ++ s.replies, repliesDue := [] } else s

/-- An answer goes back to a device. -/
def State.reply (s : State) (dev : BitVec 12) (status : Nat) (data : List Byte) : State :=
  State.sendReplies { s with repliesDue := s.repliesDue ++ [(dev, status, data)] }

/-- The lowest tag of a port that is not outstanding (R338). -/
def State.tagFor (s : State) (port : Nat) : Nat :=
  ((List.range 4096).find? fun g => !(s.requests.any fun r => r.port == port && r.tag.toNat == g)).getD 0

/-- A port takes a request under a tag (R338). -/
def State.launchRequest (s : State) (p : Nat) (r : Request) : State :=
  let g := s.tagFor p
  let x := tgetD s.ports p {}
  { s with
    requests := s.requests ++ [{ r with port := p, tag := BitVec.ofNat 12 g, gen := tgetD x.gens g 0 }],
    ports := tset s.ports p { x with last := tset x.last g (r.ctx, r.task, r.index, tidOf r.t) } }

/-- Requests that waited for a port go out in the order of their class while one takes them (R334, R437). -/
def State.sendUnsent (s : State) : State :=
  s.unsent.foldl (fun s r =>
    match s.unsent.find? (·.kind.cls == r.kind.cls), s.portFor r.kind.cls with
    | some q, some p =>
      if q.id = r.id then State.launchRequest { s with unsent := s.unsent.filter (·.id != r.id) } p r else s
    | _, _ => s) s

/-- A request is sent to its members; without a valid FABID it ends with PEER_ABSENT (R337, R432, R438). `own` is the answer of
the issuing device, where it is a member. Where no port takes it, it waits for one. -/
def State.sendRequest (s : State) (t : Nat) (ctx : BitVec 16) (kind : ReqKind) (members : List (BitVec 12)) (pa : Nat)
    (data : List Byte) (own : List Answer := []) (handle : Option Nat := none) (ordered : Bool := false) (poison : List Bool := []) :
    State :=
  let b := s.block (blockOf t)
  let r : Request :=
    { id := s.nextId, port := 0, tag := 0, gen := 0, t := t, ctx := ctx, task := b.task, index := b.index, kind := kind,
      members := members, answers := own, handle := handle, ordered := ordered, pa := pa, data := data, poison := poison,
      issued := s.cycle, timeout := max s.helm.fabTo 1024 }
  let s := { s with nextId := s.nextId + 1 }
  if !s.helm.fabValid then s.endRequest r [{ member := 0, leaf := 0, status := 1, data := [] }]
  else if own.length = members.length then s.endRequest r own
  else match (if s.unsent.any (·.kind.cls == kind.cls) then none else s.portFor kind.cls) with
    | some p => s.launchRequest p r
    | none => { s with unsent := s.unsent ++ [r] }

/-! ## Members of a group (R215, R217) -/

/-- A member's read of `ldred.mc` at its home slice, for this device's core or for another device (R215, R340): status and bytes. -/
def State.memberRead (s : State) (core : Option Nat) (ctx : BitVec 16) (va : W64) (n : Nat) : Nat × List Byte × State :=
  match s.memberPage ctx va false with
  | .error e => (e, [], s)
  | .ok p =>
    if p.fmt ≠ 0 then (5, [], s)
    else
      let (bs, x, s) := s.readThrough core p.pa n
      (if x then 4 else 0, bs, s)

/-- The page of frame bytes at a member, which has to be its own. -/
def State.memberFrame (s : State) (ctx : BitVec 16) (va : W64) : Option Page :=
  match s.frameAt 0 ctx va true with
  | .ok p => if p.peer.isSome then none else some p
  | .error _ => none

/-- A member's write of `stmc` at its home slices (R217, R334): raw bytes, or a block with its scale on an fp4bs page. `stmc.fp4x8` without
`.sc`, which R217 lists for plain pages only, writes raw bytes on an fp4bs page too, as R189 has a local store do (DESIGN CHOICE, log 80). -/
def State.memberWrite (s : State) (core : Option Nat) (ctx : BitVec 16) (va : W64) (sc : Bool) (data : List Byte)
    (poison : List Bool := []) : Nat × State :=
  match s.memberPage ctx va true with
  | .error e => (e, s)
  | .ok p =>
    if !sc then (0, s.writeThrough core p.pa data poison)
    else if p.fmt ≠ 1 then (5, s)
    else
      let (sa, ba) := frameAddrs p.frame va
      let w := ofBytes data
      match s.memberFrame ctx sa, s.memberFrame ctx ba with
      | some sp, bp =>
        if w.testBit 40 then
          match bp with
          | some bp => (0, ((s.writeThrough core p.pa (leBytes 4 0)).writeThrough core sp.pa (leBytes 1 0)).writeThrough core bp.pa
              (leBytes 4 specialBand))
          | none => (5, s)
        else (0, (s.writeThrough core p.pa (leBytes 4 w)).writeThrough core sp.pa (leBytes 1 (w / 2 ^ 32)))
      | none, _ => (5, s)

/-- A group operation of a thread on an open handle, or BAD_GROUP (R211, R215, R217). -/
def State.groupRequest (s : State) (t : Nat) (kind : ReqKind) (h : W32) (va : W64) (data : List Byte)
    (self : State → Nat × List Byte × State) (poison : List Bool := []) : State :=
  let b := s.block (blockOf t)
  match s.groupOf b.ctx h with
  | none =>
    State.endRequest { s with nextId := s.nextId + 1 }
      { id := s.nextId, port := 0, tag := 0, gen := 0, t := t, ctx := b.ctx, task := b.task, index := b.index, kind := kind, members := [0],
        pa := va.toNat, data := data, issued := s.cycle, timeout := 0 }
      [{ member := 0, leaf := 0, status := 6, data := [] }]
  | some g =>
    let (own, s) : List Answer × State := match s.ownMember g with
      | some k =>
        if s.helm.fabValid then
          let (st, bs, s) := self s
          ([{ member := k, leaf := s.helm.fabLeaf, status := st, data := bs }], s)
        else ([], s)
      | none => ([], s)
    s.sendRequest t b.ctx kind g.members va.toNat data own (some (h.toNat % 64)) g.ordered poison

/-! ## Effects -/

/-- The bytes a `stmc` sends: elements, or a block and its scale register with `.sc` (R217). -/
def stmcBytes (f : Fields) (data : Nat) : List Byte := if f.xc.getLsbD 2 then leBytes 8 data else bytesOf f.ty f.count data

/-- The read-modify-write of `atom.s`, `atom.x` and `red.s` in a scratchpad (R197, R200, R201, R203): old value, poison, state. -/
def State.sAtom (s : State) (t : Nat) (f : Fields) (core off b : Nat) (own : Bool) (g : Tags) : Nat × Bool × State :=
  let c := s.core core
  let n := f.ty.bytes
  let old := ofBytes (c.sRead off n)
  if c.sectorPoison off n then (old, true, s)
  else
    let new := atomValue f.aop f.ty f.rnd old b
    if f.aop = 7 && new = old then (old, false, s)
    else
      let c := (s.core core).sWrite (s.block (blockOf t)).ctx off (leBytes n new)
      (old, false, (s.setCore core (if own then c.tagStore off n g else c.tagClear off n)).wakeS core off n)

/-- The record of a `red` update discarded at a poisoned line (R203, R472). -/
def State.discardRecord (s : State) (t pa unit : Nat) : State :=
  let b := s.block (blockOf t)
  s.errorRecord { pa := pa, task := b.task, blk := b.index, ctx := b.ctx, unit := unit, outcome := 6, tid := tidOf t,
                  die := dieOf b.core, core := b.core }

/-- The lowest handle a context has free (R213): which INDEX a new handle takes is the model's choice, as is its GEN, a count of the
context's openings that starts at 1 (DESIGN CHOICE, log 81). -/
def Context.freeHandle (c : Context) : Option Nat := (List.range 64).find? fun k => (tget c.groups k).isNone

/-- Some switch of the tree has no free entry (R439): a free choice, log 6. -/
def State.switchesFull (s : State) : Bool × State := let (k, s) := s.choose 1; (k == 1, s)

/-- Performs an effect of a thread (R188, R293, R348). The release it may carry has been done. A store of this device, and a load, take the
units of `unitsOf`. -/
def State.performEffect (s : State) (t : Nat) (eff : Effect) : State :=
  let b := s.block (blockOf t)
  match eff with
  | .storeG f va pages _ data =>
    match pages.head?.bind (·.peer) with
    | some dev => s.sendRequest t b.ctx (.store va) [dev] ((pages.head?.map (·.pa)).getD 0) (bytesOf f.ty f.count data)
    | none => s
  | .storeX .. | .bscale .. | .loadFab .. => s
  | .atomG f _ page x out =>
    match page.peer with
    | some dev =>
      s.sendRequest t b.ctx (.atom f out) [dev] page.pa (leBytes ((if f.aop = 7 then 2 else 1) * f.ty.bytes) x)
    | none =>
      let (old, p, s) := s.gAtom b.core f page.pa x
      (s.answer t out (atomWb f old p)).acquired t f.ord.toNat f.scope.toNat
  | .atomL f core off x own g out =>
    let (old, p, s) := s.sAtom t f core off x own g
    (s.answer t out (atomWb f old p)).acquired t f.ord.toNat f.scope.toNat
  | .redG f va page x =>
    match page.peer with
    | some dev => s.sendRequest t b.ctx (.red f va) [dev] page.pa (leBytes f.ty.bytes x)
    | none =>
      if atHome f.scope.toNat page then s.gRedHome t b.core f page.pa x
      else s.gRedL1 t b.core b.ctx f va page x
  | .redS f core off x g =>
    let (_, p, s) := s.sAtom t f core off x true g
    if p then s.discardRecord t (scratchPlace core off / 32 * 32) 3 else s
  | .fence scope ord => if ord ≠ 2 && scope ≥ 3 then s.acquireAction b.core b.ctx else s
  | .ldred f va h out =>
    s.groupRequest t (.ldred f out) h va (leBytes (4 * f.count) 0) fun s =>
      s.memberRead (some b.core) b.ctx va (4 * f.count)
  | .stmc f va h data out =>
    s.groupRequest t (.stmc f out) h va (stmcBytes f data) fun s =>
      let (st, s) := s.memberWrite (some b.core) b.ctx va (f.xc.getLsbD 2) (stmcBytes f data)
      (st, [], s)
  | .mcgOpen ordered members out =>
    let give (s : State) (x : Nat) : State := s.answer t out [((((s.thread t).out.reverse.find? (·.id == out)).bind fun o =>
      o.dests.head?).getD (.s 0), { val := BitVec.ofNat 32 x, poison := false, tags := 0 })]
    match members with
    | none => give s 0xFFFFFF08
    | some ms =>
      match (s.ctx b.ctx).freeHandle with
      | none => give s 0xFFFFFF07
      | some k =>
        let (full, s) := s.switchesFull
        if full then give s 0xFFFFFF07
        else
          let gen := ((s.ctx b.ctx).groupGen + 1) % 2 ^ 20
          give (s.modCtx b.ctx fun c =>
            { c with groups := tset c.groups k { gen := gen, members := ms, ordered := ordered }, groupGen := gen })
            (gen * 64 + k)
  | .mcgClose h out =>
    let give (s : State) (x : Nat) : State := s.answer t out [((((s.thread t).out.reverse.find? (·.id == out)).bind fun o =>
      o.dests.head?).getD (.s 0), { val := BitVec.ofNat 32 x, poison := false, tags := 0 })]
    match s.groupOf b.ctx h with
    | none => give s 6
    | some _ => give (s.modCtx b.ctx fun c => { c with groups := tdel c.groups (h.toNat % 64) }) 0
  | .copy op rec_ h =>
    { s with nextId := s.nextId + 1,
             copies := tset s.copies s.nextId { blk := blockOf t, t := t, core := b.core, ctx := b.ctx, op := op, record := rec_,
                                                handle := h, asked := s.cycle } }
  | .hostTrap n pc =>
    s.report b.ctx { kind := 6, crew := crewIx t, tid := tidOf t, task := b.task, blk := b.index, n := n.toNat, value := pc.toNat }
  | .mail dest ws _ _ out =>
    s.sendRequest t b.ctx (.mail out) [BitVec.ofNat 12 (dest.toNat / 2 ^ 52)] dest.toNat
      (ws.flatMap fun w => leBytes 4 w.1.toNat) (poison := ws.map (·.2))

/-! ## What late units touch (R302, R305, R308) -/

/-- Two spans have a half-byte in common. -/
def Span.meets (a b : Span) : Bool := a.pad == b.pad && overlap a.lo a.n b.lo b.n

/-- Bytes of the context's virtual space. -/
def spanG (va : W64) (n : Nat) : Span := { lo := 2 * va.toNat, n := 2 * n }

/-- Bytes of a core's scratchpad part. -/
def spanS (core off n : Nat) : Span := { pad := some core, lo := 2 * off, n := 2 * n }

/-- What a unit touches: an encode store its block, its scale byte and its band record word. -/
def LateUnit.spans (u : LateUnit) : List Span :=
  match u with
  | .mem _ va _ bs _ => [spanG va bs.length]
  | .nibble _ va _ hi _ => [{ lo := 2 * va.toNat + (if hi then 1 else 0), n := 1 }]
  | .encode _ _ va pg _ _ _ _ _ _ => let (sa, ba) := frameAddrs pg.frame va; [spanG va 4, spanG sa 1, spanG ba 4]
  | .scratch core off bs _ _ => [spanS core off bs.length]
  | .read _ _ _ va _ n => [spanG va n]
  | .readS _ _ core off n => [spanS core off n]
  | .effect _ at_ => at_

/-- A unit touches something of some spans. -/
def LateUnit.meets (u : LateUnit) (ss : List Span) : Bool := u.spans.any fun a => ss.any a.meets

/-- It reads. -/
def LateUnit.reads (u : LateUnit) : Bool :=
  match u with
  | .read .. | .readS .. | .encode .. | .effect (.atomG ..) _ | .effect (.atomL ..) _ | .effect (.redG ..) _ | .effect (.redS ..) _
  | .effect (.ldred ..) _ => true
  | _ => false

/-- The late units of a thread in their order, with their identifiers and their issue groups. -/
def Thread.lates (th : Thread) : List (Nat × Option Nat × LateUnit) :=
  th.pend.filterMap fun p => match p.2 with | .late q _ u => some (p.1, q, u) | _ => none

/-- What is performed before a unit of a thread: earlier units of the thread that touch the same (R302, R308), and such units of the threads of
its issue group with a lower `sr.tid` (R186). -/
def State.ahead (s : State) (t id : Nat) (q : Option Nat) (u : LateUnit) : List (Nat × Nat) :=
  (((s.thread t).lates.takeWhile (·.1 != id)).filter (·.2.2.meets u.spans)).map (fun x => (t, x.1)) ++
    if q.isNone then []
    else ((s.crewThreads (crewOf t)).filter (· < t)).flatMap fun v =>
      ((s.thread v).lates.filter fun x => x.2.1 == q && x.2.2.meets u.spans).map fun x => (v, x.1)

/-! ## Performing a unit -/

/-- A unit that another device holds is sent there; any other is performed (R190, R192, R196, R197, R334). -/
def State.performUnit (s : State) (t : Nat) (u : LateUnit) : State :=
  let core := s.coreOf t
  let ctx := (s.block (blockOf t)).ctx
  match u with
  | .mem scope va pg bs whole =>
    (match pg.peer with
    | some dev => s.sendRequest t ctx (.store va) [dev] pg.pa bs
    | none => s.gWrite t core ctx scope va pg bs whole)
  | .nibble scope va pg hi v => s.gNibble t core ctx scope va pg hi v
  | .scratch k off bs own whole =>
    State.wakeS (s.modCore k fun c =>
      let c := c.sWrite ctx off bs
      let c := if own && !whole then c.tagStore off bs.length 0 else c.tagClear off bs.length
      if whole then { c with spoison := c.spoison.filter (· != off / 32) } else c) k off bs.length
  | .read out k scope va pg n =>
    (match pg.peer with
    | some dev => s.sendRequest t ctx (.piece out k) [dev] pg.pa (List.replicate n 0)
    | none =>
      let (bs, x, s) := s.gRead core ctx scope va pg n
      s.gotUnit t out k { bytes := bs, poison := x })
  | .readS out k core off n =>
    let c := s.core core
    s.gotUnit t out k { bytes := c.sRead off n, poison := c.sectorPoison off n }
  | .effect e _ => s.performEffect t e
  | .encode .. => s

/-- An encode store whose frame page does not let it write, which it has to once its band has become a NaN or an infinity (R192, R428): it is not
performed, and its thread, unless it has exited, raises PERMISSION at the store's address, wherever it has come to (DESIGN CHOICE, log 83). -/
def State.stopEncode (s : State) (t : Nat) (pc bad : W64) : State :=
  if (s.thread t).exited then s else (s.raise t pc .permission pc bad).addTodo [.joins (crewOf t)]

/-- Requests to other devices for the scale byte and the band record word of an encode store (R192, R334, R428). -/
def State.askFrame (s : State) (t id : Nat) (sa ba : W64) (sp bp : Page) : State :=
  let ctx := (s.block (blockOf t)).ctx
  let s := match sp.peer with
    | some dev => s.sendRequest t ctx (.encodeRead id false sa) [dev] sp.pa (List.replicate 1 0)
    | none => s
  match bp.peer with
  | some dev => s.sendRequest t ctx (.encodeRead id true ba) [dev] bp.pa (List.replicate 4 0)
  | none => s

/-- What an encode store comes to (R192, R304), once nothing it reads is still to come from another device: the units of its block against the
scale and band as its thread reads them now, or the address of the frame bytes that it may not write. -/
def State.encodeNow (s : State) (t : Nat) (f : Fields) (va : W64) (pg sp bp : Page) (data : Nat) (sc bd : Option Nat) :
    Except W64 (List LateUnit) × State :=
  let core := s.coreOf t
  let ctx := (s.block (blockOf t)).ctx
  let (sa, ba) := frameAddrs pg.frame va
  let (sv, s) := match sc with
    | some v => (v, s)
    | none => let (b, _, s) := s.gRead core ctx f.scope.toNat sa sp 1; (ofBytes b, s)
  let (bv, s) := match bd with
    | some v => (v, s)
    | none => let (b, _, s) := s.gRead core ctx f.scope.toNat ba bp 4; (ofBytes b, s)
  let special := (encodeBlock f.ty f.rnd data sv bv).isNone
  (if special && !sp.w then .error sa else if special && !bp.w then .error ba else .ok (encodeUnits f va pg sp bp data sv bv), s)

/-- A late encode store goes on: it asks other devices for what it reads there, waits for it, or becomes the units of its block, which take its
place in program order; with `whole` they are performed too. -/
def State.stepEncode (s : State) (t id : Nat) (q : Option Nat) (whole : Bool) (u : LateUnit) : State :=
  match u with
  | .encode f pc va pg sp bp data sent sc bd =>
    let (sa, ba) := frameAddrs pg.frame va
    if (sp.peer.isSome && sc.isNone) || (bp.peer.isSome && bd.isNone) then
      if sent then s
      else (s.modLate t id fun _ => .encode f pc va pg sp bp data true sc bd).askFrame t id sa ba sp bp
    else
      let (r, s) := s.encodeNow t f va pg sp bp data sc bd
      match r with
      | .error bad => (s.dropLate t id).stopEncode t pc bad
      | .ok us =>
        if whole then us.foldl (fun s u => s.performUnit t u) (s.dropLate t id)
        else
          let new := us.zipIdx.map fun x => (s.nextId + x.2, PendKind.late q s.cycle x.1)
          State.modThread { s with nextId := s.nextId + us.length } t fun th =>
            { th with pend := th.pend.flatMap fun p => if p.1 = id then new else [p] }
  | _ => s

/-- A late unit is performed, behind what comes before it; one that something there keeps waiting is not. With `whole` an encode store is
performed with all that it comes to. -/
def State.performLate : Nat → State → Nat → Nat → Bool → State
  | 0, s, _, _, _ => s
  | n + 1, s, t, id, whole =>
    match (s.thread t).lates.find? (·.1 == id) with
    | none => s
    | some (_, q, u) =>
      let s := (s.ahead t id q u).foldl (fun s x => State.performLate n s x.1 x.2 true) s
      if !(s.ahead t id q u).isEmpty then s
      else match u with
        | .encode .. => s.stepEncode t id q whole u
        | u => (s.dropLate t id).performUnit t u

/-- Bound on the units that come before one: all of its crew. -/
def State.lateBound (s : State) (t : Nat) : Nat := ((s.crewThreads (crewOf t)).map fun v => (s.thread v).pend.length).sum + 1

/-- The late units of a thread that satisfy a condition are performed, in program order. -/
def State.settle (s : State) (t : Nat) (p : Nat × Option Nat × LateUnit → Bool) : State :=
  ((s.thread t).lates.filter p).foldl (fun s x => State.performLate (s.lateBound t) s t x.1 true) s

/-- Every access that a thread has issued is performed. -/
def State.settleAll (s : State) (t : Nat) : State := s.settle t fun _ => true

/-- Accesses of a thread to what some spans name are performed, before it accesses it at once (R302). -/
def State.settleAt (s : State) (t : Nat) (ss : List Span) : State := s.settle t fun x => x.2.2.meets ss

/-- The units of the load of a result are performed, behind what comes before them. -/
def State.loadNow (s : State) (t out : Nat) : State :=
  s.settle t fun x => match x.2.2 with | .read o .. | .readS o .. => o == out | _ => false

/-- Accesses of any thread to a range of a core's scratchpad part are performed. -/
def State.settlePad (s : State) (core off n : Nat) (p : LateUnit → Bool := fun _ => true) : State :=
  (s.threads.map (·.1)).foldl (fun s t => s.settle t fun x => p x.2.2 && x.2.2.meets [spanS core off n]) s

/-- Reads of bytes of a scratchpad range are performed: what is written there next may have tags, which a read takes when it issues (R187,
R196). -/
def State.settleReaders (s : State) (core off n : Nat) : State := s.settlePad core off n (·.reads)

/-- Units are entered as issued and still to be performed (R308). -/
def State.enterUnits (s : State) (t : Nat) (q : Option Nat) (us : List LateUnit) : State :=
  us.foldl (fun s u => State.modThread { s with nextId := s.nextId + 1 } t fun th => { th with pend := th.pend ++ [(s.nextId, .late q s.cycle u)] }) s

/-- SCOPE and ORD with which an effect is a release, none when it is not (R195, R205, R321, R347). -/
def Effect.release : Effect → Option (Nat × Nat)
  | .storeG f .. | .storeX f .. | .redG f .. | .redS f .. =>
    if f.ord = 2 then some (f.scope.toNat, 2) else none
  | .atomG f .. | .atomL f .. => if f.ord = 2 || f.ord = 3 then some (f.scope.toNat, 2) else none
  | .stmc f .. => if f.ord = 2 then some (6, 2) else none
  | .fence scope ord => some (scope, ord)
  | .mail _ _ scope ord _ => if ord = 2 then some (scope, 2) else none
  | _ => none

/-- The SCOPE at which an effect is performed before the next of its thread begins (R348): its own; 6 where another device answers; 0 of one
that writes nothing of its thread's. -/
def Effect.scope : Effect → Nat
  | .storeG f _ ps fs _ => if (ps ++ fs).any (·.peer.isSome) then 6 else f.scope.toNat
  | .atomG f _ p _ _ | .redG f _ p _ => if p.peer.isSome then 6 else f.scope.toNat
  | .storeX f .. | .atomL f .. | .redS f .. => f.scope.toNat
  | .loadFab .. | .ldred .. | .stmc .. | .mail .. => 6
  | .bscale .. | .fence .. | .mcgOpen .. | .mcgClose .. | .copy .. | .hostTrap .. => 0

/-- The release side of an operation (R205, R321, R332, R335, R347): the cache action; at SCOPE 4 or wider the writes of the core's L1 that stand
in the die's outbound path, whoever made them, and for `fence.sc` every write there. The thread's earlier accesses may then still have to be
performed. ORD 0 is sc, 1 acquire. -/
def State.startRelease (s : State) (t scope ord : Nat) : State :=
  let b := s.block (blockOf t)
  let s := s.settleAll t
  let s := if ord ≠ 1 && scope ≥ 3 then s.releaseAction b.core [t] else s
  if ord ≠ 1 && scope ≥ 4 then
    s.modThread t fun th => { th with pend := ((s.out (dieOf b.core)).filter fun w => ord == 0 || w.core == some b.core).foldl (fun l w =>
      if l.any (fun p => p.2 == .outbound (dieOf b.core) w.id) then l else l ++ [(w.id, .outbound (dieOf b.core) w.id)]) th.pend }
  else s

/-- The thread is tainted, or has effects still held: a new effect is held behind them (R188, R348). -/
def State.holds (s : State) (t : Nat) : Bool :=
  (s.thread t).tagUnion != 0 || (s.core (s.coreOf t)).held.any (·.t == t)

/-- Enters an effect in the held-effect buffer (R359). -/
def State.hold (s : State) (t : Nat) (a : W64) (eff : Effect) : State :=
  s.modCore (s.coreOf t) fun c =>
    { c with held := c.held ++ [{ t := t, pc := a, seq := s.seq, tags := (s.thread t).tagUnion, eff := eff }] }

/-- What a `ldred.mc` or `stmc` touches of this device, where it is a member: n bytes, and with `.sc` the scale byte and the band record. -/
def State.memberSpans (s : State) (t : Nat) (h : W32) (va : W64) (n : Nat) (sc : Bool) : List Span :=
  let ctx := (s.block (blockOf t)).ctx
  if !s.memberHere ctx h then []
  else if !sc then [spanG va n]
  else match s.translate ctx va with
    | .ok p => let (sa, ba) := frameAddrs p.frame va; [spanG va 4, spanG sa 1, spanG ba 4]
    | .error _ => [spanG va n]

/-- The units of an effect at address a, which need not be performed at once (R305, R308); none of one that takes its place as it issues. -/
def State.unitsOf (s : State) (t : Nat) (a : W64) (eff : Effect) : Option (List LateUnit) :=
  match eff with
  | .storeG f va pages frames data =>
    some (if pages.any (·.peer.isSome) then [.effect eff [spanG va (accessBytes f)]] else storeUnits f a va pages frames data)
  | .storeX f core off data => some (scratchUnits f core off data false)
  | .bscale va page w => some [.mem 0 va page (leBytes 4 w) false]
  | .loadFab f va pages frames out => some (loadUnits f va pages frames out)
  | .atomG f va .. | .redG f va .. => some [.effect eff [spanG va f.ty.bytes]]
  | .atomL f core off .. | .redS f core off .. => some [.effect eff [spanS core off f.ty.bytes]]
  | .ldred f va h _ => some [.effect eff (s.memberSpans t h va (4 * f.count) false)]
  | .stmc f va h _ _ => some [.effect eff (s.memberSpans t h va (f.ty.bytes * f.count) (f.xc.getLsbD 2))]
  | .fence .. | .mcgOpen .. | .mcgClose .. | .copy .. | .hostTrap .. | .mail .. => none

/-- An effect of a thread at address a is issued: its units are entered, an acquire's performed, as far as nothing before them waits; any other
effect is performed. `q` is the place of its issue group. -/
def State.enter (s : State) (t : Nat) (a : W64) (q : Option Nat) (eff : Effect) : State :=
  match s.unitsOf t a eff with
  | some us =>
    let first := s.nextId
    let s := s.enterUnits t q us
    if eff.acquires then s.settle t fun x => decide (first ≤ x.1) else s
  | none => s.performEffect t eff

/-- A thread's effect at address a (R188): held, or issued. The release it carries is done. -/
def State.emit (s : State) (t : Nat) (a : W64) (eff : Effect) : State :=
  if s.holds t then s.hold t a eff else s.enter t a (some s.seq) eff

/-- An operation that is a release of a thread at address a: it goes on once the thread's earlier accesses are performed at its scope, and
issues again until then (R310, R317, R332). -/
def State.released (s : State) (t : Nat) (a : W64) (scope ord : Nat) (k : State → Except Stop State) : Except Stop State :=
  let s1 := s.startRelease t scope ord
  if s1.performed t scope then k s1 else .ok (s1.stayAt t a)

/-- The same for an effect whose ORD has a release side, 2 release or 3 acq_rel (R179): that of one that is held is done when the effect is
released (R188, R348). -/
def State.releasing (s : State) (t : Nat) (a : W64) (f : Fields) (k : State → Except Stop State) : Except Stop State :=
  if (f.ord = 2 || f.ord = 3) && !s.holds t then s.released t a f.scope.toNat 2 k else k s

end Sys2Proof.Machine
end

