-- ==== Sys2Proof/Machine/Tiles.lean ====
section
/-! DEFINITION. Accumulator tiles (R129 to R134, R209) and the MATRIX cause of a block (R288, R411). -/

namespace Sys2Proof.Machine

/-- A cleared tile (R129). -/
def Tile.cleared : Tile := { mode := .empty }

/-- The bits of an element; one not listed is 0. -/
def Tile.get (x : Tile) (i n : Nat) : Nat := (tgetD x.el (128 * i + n) 0).toNat

/-- Writes an element's bits. -/
def Tile.put (x : Tile) (i n v : Nat) : Tile :=
  { x with el := if v % 2 ^ 64 = 0 then tdel x.el (128 * i + n) else tset x.el (128 * i + n) (BitVec.ofNat 64 v) }

/-- The band scales of the band record that cover a row and a column; an unset one covers only elements that are 0. -/
def Tile.bands (x : Tile) (i n : Nat) : FV × FV :=
  (fmtBf16.decode (((if i < 64 then x.bandA0 else x.bandA1).getD 0x3F80).toNat),
   fmtBf16.decode (((if n < 64 then x.bandB0 else x.bandB1).getD 0x3F80).toNat))

/-- i × 2^-16 × BANDA × BANDB, exactly, of a FIX64 element (R131, R134). An element of 0 under finite scales is the real number 0; the zero of
another element under a scale of ±0 has the exclusive or of the three signs (DEDUCED, log 60). -/
def Tile.fixValue (x : Tile) (i n : Nat) : FV :=
  let v := toSigned 64 (x.get i n)
  let (a, b) := x.bands i n
  if v = 0 && !a.isSpecial && !b.isSpecial then .fin false 0 1
  else ((FV.fin (decide (v < 0)) v.natAbs (2 ^ 16)).mul a).mul b

/-- Promotion to F64 (R131, R133). -/
def Tile.promote (x : Tile) : Tile :=
  (x.el.map (·.1)).foldl (fun (y : Tile) k =>
    let i := k / 128
    let n := k % 128
    let (a, b) := x.bands i n
    y.put i n (if a.isSpecial || b.isSpecial then 0 else fmtF64.round .rne false (x.fixValue i n))) { x with mode := .f64 }

/-- Drain of one element (R134). -/
def Tile.drain (x : Tile) (m : Fmt) (rnd : Rnd) (sat : Bool) (i n : Nat) : Nat :=
  if x.rowFlags.getLsbD i || x.colFlags.getLsbD n then m.nanCode
  else
    let out := match x.mode with
      | .empty => 0
      | .fix64 => m.round rnd sat (x.fixValue i n)
      | .f64 => m.round rnd sat (fmtF64.decode (x.get i n))
    if out % 2 ^ (m.width - 1) = 0 then 0 else out

/-- `accst` of one element (R209), the tile being F64. -/
def Tile.store (x : Tile) (ty : Ty) (i n v : Nat) : Tile :=
  { x.put i n (fmtF64.round .rne false ((fmtOf ty).decode v)) with bad := x.bad.filter (· != 128 * i + n) }

/-- The tile as `accst` finds it (R209): promoted, or in F64 from empty. -/
def Tile.forStore (x : Tile) : Tile :=
  match x.mode with
  | .fix64 => x.promote
  | .empty => { x with mode := .f64 }
  | .f64 => x

/-- The on-chip map address of a tile (R430). -/
def tilePlace (core n : Nat) : Nat := onChipBase + core / 64 * 2 ^ 30 + core % 64 * 2 ^ 24 + 0x800000 + n * 0x20000

/-- The cause of a block (R288): its sequencer stops with the detail, and every thread that has not exited is owed MATRIX with
`sys.badaddr`, which it takes once it is ready to issue. Detail 6 consumes poison and writes its record (R418, R472). -/
def State.matrixFault (s : State) (blk detail : Nat) (bad : W64) (unit pa : Nat) : State :=
  let b := s.block blk
  let s := if detail = 6 then
      s.errorRecord { pa := pa, task := b.task, blk := b.index, ctx := b.ctx, unit := unit, outcome := 4,
                      cause := Cause.matrix.code, die := dieOf b.core, core := b.core }
    else s
  let s := s.modBlock blk fun b =>
    { b with sequencer := { b.sequencer with pc := b.sequencer.next, st := .stopped, detail := detail, wait := .none } }
  (s.blockThreads blk).foldl (fun s t =>
    let th := s.thread t
    if th.exited then s else s.modThread t fun th => { th with matrixOwed := some bad }) s

end Sys2Proof.Machine
end

