-- ==== Sys2Proof/Machine/MemOps.lean ====
section
/-! DEFINITION. Class 3: loads, stores, atomics, reductions, fences, prefetch, tile transfers and multicast groups (R179 to R217),
and `bscale` of class 2 (R177, R178). -/

namespace Sys2Proof.Machine

/-- The stop of a poisoned operand (R184 step 1, R472). -/
def Opd.stop (o : Opd) : Stop := .poison 0 o.unit o.place

/-- The data group of a store: vector, or uniform with UD (R180, R183). -/
def State.dataOf (s : State) (t : Nat) (f : Fields) (n : Nat) : Opd :=
  if f.xc.getLsbD 3 then s.readS t f.dst.toNat n else s.readV t f.dst.toNat n

/-- The registers an instruction writes. -/
def destsOf (i : Instr) : List Loc := match i.shape with | some (f, sh) => sh.writes f | none => []

/-- Element size and count of a `.g` load or store: a block form on an fp4bs page is one access of 4 bytes (R189, R191, R194). Where the address
does not translate, the format is unknown and the elements as they are named count in steps 2 to 4 (DESIGN CHOICE, log 94). -/
def State.geometry (s : State) (t : Nat) (f : Fields) (va : W64) (write : Bool := false) : Nat × Nat :=
  let b := s.block (blockOf t)
  match s.pageAt b.core b.ctx f.scope.toNat write va with
  | .ok p => if p.fmt = 1 && gForm f 1 ≠ .raw then (4, 1) else (f.ty.bytes, f.count)
  | .error _ => (f.ty.bytes, f.count)

/-- The pages of two pieces of a frame, the first that fails a check being the one that stops (R428). -/
def State.frameBoth (s : State) (t : Nat) (f : Fields) (sa ba : W64) (write : Bool) : Except Stop (List Page) :=
  let b := s.block (blockOf t)
  match s.frameAt b.core b.ctx sa write f.scope.toNat with
  | .error e => .error e
  | .ok sp => match s.frameAt b.core b.ctx ba write f.scope.toNat with
    | .error e => .error e
    | .ok bp => .ok [sp, bp]

/-- The data of an encode store, or the band as its thread would read it now, makes it write its scale byte and its band record (R192, R304). A
band of another device is known only once it has been read. -/
def State.encodesSpecial (s : State) (t : Nat) (f : Fields) (ba : W64) (bp : Page) (data : Nat) : Bool :=
  specialData f data ||
    (bp.peer.isNone &&
      (fmtBf16.decode (ofBytes ((s.settleAt t [spanG ba 4]).gRead (s.coreOf t) (s.block (blockOf t)).ctx f.scope.toNat ba bp 4).1 %
        2 ^ 16)).isSpecial)

/-- The frame pages of a block form, checked as it accesses them (R191, R192, R194, R428): scale byte and band record word, of an `.sc` store
that is not special the scale byte alone, of any other form none. An encode store that would be special now needs them writable; one that
becomes so before it is performed is stopped then. -/
def State.framesOf (s : State) (t : Nat) (f : Fields) (va : W64) (pages : List Page) (store : Option Nat) :
    Except Stop (List Page) :=
  match pages.head? with
  | some p =>
    if p.fmt = 1 && gForm f 1 ≠ .raw then
      let b := s.block (blockOf t)
      let (sa, ba) := frameAddrs p.frame va
      match store with
      | none => s.frameBoth t f sa ba false
      | some d =>
        if f.xc.getLsbD 2 then
          (if d.testBit 40 then s.frameBoth t f sa ba true
          else match s.frameAt b.core b.ctx sa true f.scope.toNat with | .error e => .error e | .ok sp => .ok [sp])
        else match s.frameBoth t f sa ba false with
          | .error e => .error e
          | .ok fs =>
            if (match fs with | [_, bp] => s.encodesSpecial t f ba bp d | _ => false) then s.frameBoth t f sa ba true else .ok fs
    else .ok []
  | none => .ok []

/-! ## Loads -/

/-- The part of `ld.g` in one thread (R184, R187, R190, R191, R194, R308, R334): its units are entered; an acquire is performed at once, as far
as nothing before it waits. One that names another device is held while the thread has to. -/
def State.loadGlobal (f : Fields) (t : Nat) (s : State) : Except Stop State :=
  let a := s.here t
  let (o, va) := s.addr64 t f true
  if o.poison then .error o.stop
  else
    let (size, count) := s.geometry t f va
    match s.locate t va size count .load (fmtOk f) f.scope.toNat with
    | .error e => .error e
    | .ok pages =>
      match s.framesOf t f va pages none with
      | .error e => .error e
      | .ok frames =>
        let s := s.consume t a o.tags
        let away := (pages ++ frames).any (·.peer.isSome)
        if away && s.holds t && (s.core (s.coreOf t)).held.length ≥ 512 then .error .wait
        else
          let out := s.nextId
          let us := loadUnits f va pages frames out
          let s := s.addOut t (destsOf (.ldG f)) none f.la.toNat true
            ((pages ++ frames).filterMap fun p => if p.peer.isSome then none else some (p.pa / 128)) (miss := s.missLines t f va)
            (acq := f.ord == 1) (late := some (lateLoad f (!frames.isEmpty) us.length))
          if away then .ok (s.emit t a (.loadFab f va pages frames out))
          else
            let s := s.enterUnits t (some s.seq) us
            .ok (if f.ord = 1 then s.loadNow t out else s)

/-- `ld.g` (R190). -/
def execLdG (f : Fields) (s : State) : Host.Outcome State Fault Refusal := s.perform (.ldG f) f (State.loadGlobal f)

/-- Checks of a `.s` access of n bytes with elements of a size (R182, R184): the offset in the core's scratchpad part. Every byte of the access
is held to the bound (DESIGN CHOICE, log 94). -/
def State.checkS (s : State) (t off n size : Nat) : Except Stop Nat :=
  let b := s.block (blockOf t)
  if off + n > 1024 * b.launch.spKib then .error (.trap .permission (BitVec.ofNat 64 off))
  else if off % size ≠ 0 then .error (.trap .misalign (BitVec.ofNat 64 off))
  else .ok (b.spBase + off)

/-- Checks of an `.x` access (R182, R184): the core and the offset in its scratchpad part. -/
def State.checkX (s : State) (t a n size : Nat) : Except Stop (Nat × Nat) :=
  let b := s.block (blockOf t)
  let core := peerCore b.core a
  if a ≥ 2 ^ 22 || !s.ownsScratch b.ctx core (a % 2 ^ 20) n then .error (.trap .permission (BitVec.ofNat 64 a))
  else if a % size ≠ 0 then .error (.trap .misalign (BitVec.ofNat 64 a))
  else .ok (core, a % 2 ^ 20)

/-- A scratchpad load of one thread: the sector tag sets are consumed for `.s` (R187, R196, R197). It is performed at once where it is an
acquire, and where its sectors have tags. -/
def State.loadScratch (s : State) (i : Instr) (f : Fields) (t : Nat) (o : Opd) (core off : Nat) (own : Bool) : State :=
  let g := (s.core core).sectorTags off (accessBytes f)
  let s := s.consume t (s.here t) (if own then o.tags ||| g else o.tags)
  let out := s.nextId
  let us := loadUnitsS f core off out
  let s := (s.addOut t (destsOf i) none f.la.toNat (acq := f.ord == 1) (late := some (lateLoad f false us.length))).enterUnits t (some s.seq) us
  if f.ord = 1 || g != 0 then s.loadNow t out else s

/-- `ld.s` (R190, R196). -/
def execLdS (f : Fields) (s : State) : Host.Outcome State Fault Refusal :=
  s.perform (.ldS f) f fun t s =>
    let (o, a) := s.addr32 t f true
    if o.poison then .error o.stop
    else match s.checkS t a (accessBytes f) f.ty.bytes with
      | .error e => .error e
      | .ok off => .ok (s.loadScratch (.ldS f) f t o (s.coreOf t) off true)

/-- `ld.x` (R190, R197). -/
def execLdX (f : Fields) (s : State) : Host.Outcome State Fault Refusal :=
  s.perform (.ldX f) f fun t s =>
    let (o, a) := s.addr32 t f true
    if o.poison then .error o.stop
    else match s.checkX t a (accessBytes f) f.ty.bytes with
      | .error e => .error e
      | .ok (core, off) => .ok (s.loadScratch (.ldX f) f t o core off false)

/-- The lines of this device's memory with some of the n bytes at a virtual address. -/
def State.linesAt (s : State) (ctx : BitVec 16) (va : W64) (n : Nat) : List Nat :=
  ((List.range n).filterMap fun k => match s.translate ctx (va + BitVec.ofNat 64 k) with
    | .ok p => if p.peer.isSome then none else some (p.pa / 128)
    | .error _ => none).eraseDups

/-- `ld.c` (R69, R198): the words of window WIN that the access lies in. -/
def execLdC (f : Fields) (s : State) : Host.Outcome State Fault Refusal :=
  s.perform (.ldC f) f fun t s =>
    let (o, a) := s.addr32 t f true
    let n := accessBytes f
    let w := f.xc.toNat / 16 % 8
    let (base, size) := (s.block (blockOf t)).launch.windows.getD w (0, 0)
    if o.poison then .error o.stop
    else if a + n > size then .error (.trap .permission (base + BitVec.ofNat 64 (max (a / 4 * 4) (size / 4 * 4))))
    else if a % f.ty.bytes ≠ 0 then .error (.trap .misalign (BitVec.ofNat 64 a))
    else match s.readWindow (blockOf t) w (a / 4) ((a % 4 + n + 3) / 4) with
      | .error e => .error e
      | .ok r =>
        let s := s.consume t (s.here t) o.tags
        .ok (s.addOut t (destsOf (.ldC f))
          (some (loadWb f (regsOf f.ty f.count ((leBytes (a % 4 + n) r.val).drop (a % 4))) r.poison)) f.la.toNat true
          (s.linesAt (s.block (blockOf t)).ctx (base + BitVec.ofNat 64 a) n))

/-! ## Stores -/

/-- The part of `st.g` in one thread (R184, R188, R190, R192, R194, R334). -/
def State.storeGlobal (f : Fields) (t : Nat) (s : State) : Except Stop State :=
  let a := s.here t
  let (o, va) := s.addr64 t f true
  let d := s.dataOf t f (lsRegs f)
  if o.poison then .error o.stop
  else if d.poison then .error d.stop
  else
    let (size, count) := s.geometry t f va true
    match s.locate t va size count .store (fmtOk f) f.scope.toNat with
    | .error e => .error e
    | .ok pages =>
      match s.framesOf t f va pages (some d.val) with
      | .error e => .error e
      | .ok frames =>
        let s := s.consume t a (o.tags ||| d.tags)
        s.releasing t a f fun s => .ok (s.emit t a (.storeG f va pages frames d.val))

/-- `st.g` (R190). -/
def execStG (f : Fields) (s : State) : Host.Outcome State Fault Refusal := s.perform (.stG f) f (State.storeGlobal f)

/-- The undo-log entries of the sectors a `st.s` writes (R356), at offsets relative to SPBASE. -/
def State.logSectors (s : State) (t off n : Nat) : State :=
  let b := s.block (blockOf t)
  let c := s.core b.core
  (sectorsOf off n).foldl (fun s k =>
    s.logWrite t (.sector (32 * k - b.spBase) (c.sRead (32 * k) 32) (c.spoison.contains k) (tgetD c.stags k 0))) s

/-- A write of a tainted thread to its block's scratchpad (R196, R317, R356), behind the reads of its sectors. -/
def State.storeS (s : State) (t off : Nat) (bs : List Byte) (g : Tags) : State :=
  let b := s.block (blockOf t)
  let s := s.settleReaders b.core (off / 32 * 32) ((off + bs.length + 31) / 32 * 32 - off / 32 * 32)
  ((s.logSectors t off bs.length).modCore b.core fun c =>
    (c.sWrite b.ctx off bs).tagStore off bs.length (g ||| (s.thread t).tagUnion)).wakeS b.core off bs.length

/-- A `st.s` (R190, R196, R308, R317, R356): a thread without marks enters its units; a tainted one writes at once, behind its earlier accesses
to the same sectors, which the undo log would bring back otherwise. -/
def State.storeOwn (s : State) (t : Nat) (f : Fields) (off data : Nat) (g : Tags) : State :=
  let core := s.coreOf t
  if (s.thread t).marks.isEmpty && g == 0 then
    s.enterUnits t (some s.seq) (scratchUnits f core off data true)
  else
    let n := accessBytes f
    (s.settleAt t [spanS core (off / 32 * 32) ((off + n + 31) / 32 * 32 - off / 32 * 32)]).storeS t off (bytesOf f.ty f.count data) g

/-- `st.s` (R190, R196). -/
def execStS (f : Fields) (s : State) : Host.Outcome State Fault Refusal :=
  s.perform (.stS f) f fun t s =>
    let a := s.here t
    let (o, x) := s.addr32 t f true
    let d := s.dataOf t f (lsRegs f)
    let gt := ((s.thread t).getP f.gp.toNat).tags
    if o.poison then .error o.stop
    else if d.poison then .error d.stop
    else match s.checkS t x (accessBytes f) f.ty.bytes with
      | .error e => .error e
      | .ok off =>
        let s := s.consume t a (o.tags ||| d.tags)
        let k (s : State) : Except Stop State := .ok (s.storeOwn t f off d.val (o.tags ||| d.tags ||| gt))
        if f.ord = 2 || f.ord = 3 then s.released t a f.scope.toNat 2 k else k s

/-- `st.x` (R190, R197). -/
def execStX (f : Fields) (s : State) : Host.Outcome State Fault Refusal :=
  s.perform (.stX f) f fun t s =>
    let a := s.here t
    let (o, x) := s.addr32 t f true
    let d := s.dataOf t f (lsRegs f)
    if o.poison then .error o.stop
    else if d.poison then .error d.stop
    else match s.checkX t x (accessBytes f) f.ty.bytes with
      | .error e => .error e
      | .ok (core, off) =>
        let s := s.consume t a (o.tags ||| d.tags)
        s.releasing t a f fun s => .ok (s.emit t a (.storeX f core off d.val))

/-! ## Atomics and reductions -/

/-- The operand of an atomic: two groups for `.cas` (R199). -/
def State.operand (s : State) (t : Nat) (f : Fields) : Except Stop Opd :=
  s.readSrc t (if f.aop = 7 then 2 * f.ty.regs else f.ty.regs) f.ty f.sb

/-- Address and operand of an atomic or reduction, neither poisoned (R184 step 1). -/
def State.atomSources (s : State) (t : Nat) (f : Fields) (o : Opd) : Except Stop Opd :=
  if o.poison then .error o.stop
  else match s.operand t f with
    | .error e => .error e
    | .ok b => if b.poison then .error b.stop else .ok b

/-- `atom.g` (R184, R188, R200, R334). -/
def execAtomG (f : Fields) (s : State) : Host.Outcome State Fault Refusal :=
  s.perform (.atomG f) f fun t s =>
    let a := s.here t
    let (o, va) := s.addr64 t f false
    match s.atomSources t f o with
    | .error e => .error e
    | .ok b =>
      match s.locate t va f.ty.bytes 1 .atomic (·.fmt == 0) with
      | .error e => .error e
      | .ok pages =>
        let s := s.consume t a (o.tags ||| b.tags)
        s.releasing t a f fun s =>
          match pages with
          | p :: _ =>
            .ok ((s.addOut t (destsOf (.atomG f)) none f.la.toNat true (if p.peer.isSome then [] else [p.pa / 128])
              (acq := f.ord == 1 || f.ord == 3)).emit t a (.atomG f va p b.val s.nextId))
          | [] => .ok s

/-- `atom.s` (R196, R200): it consumes the tag set of its sector, and is held while that is not empty. -/
def execAtomS (f : Fields) (s : State) : Host.Outcome State Fault Refusal :=
  s.perform (.atomS f) f fun t s =>
    let a := s.here t
    let (o, x) := s.addr32 t f false
    let gt := ((s.thread t).getP f.gp.toNat).tags
    match s.atomSources t f o with
    | .error e => .error e
    | .ok b =>
      match s.checkS t x f.ty.bytes f.ty.bytes with
      | .error e => .error e
      | .ok off =>
        let core := s.coreOf t
        let s := s.consume t a (o.tags ||| b.tags ||| (s.core core).sectorTags off f.ty.bytes)
        s.releasing t a f fun s =>
          .ok ((s.addOut t (destsOf (.atomS f)) none f.la.toNat (acq := f.ord == 1 || f.ord == 3)).emit t a
            (.atomL f core off b.val true (o.tags ||| b.tags ||| gt) s.nextId))

/-- `atom.x` (R197, R200). -/
def execAtomX (f : Fields) (s : State) : Host.Outcome State Fault Refusal :=
  s.perform (.atomX f) f fun t s =>
    let a := s.here t
    let (o, x) := s.addr32 t f false
    match s.atomSources t f o with
    | .error e => .error e
    | .ok b =>
      match s.checkX t x f.ty.bytes f.ty.bytes with
      | .error e => .error e
      | .ok (core, off) =>
        let s := s.consume t a (o.tags ||| b.tags)
        s.releasing t a f fun s =>
          .ok ((s.addOut t (destsOf (.atomX f)) none f.la.toNat (acq := f.ord == 1 || f.ord == 3)).emit t a (.atomL f core off b.val false 0 s.nextId))

/-- `red.g` (R202, R203, R334). -/
def execRedG (f : Fields) (s : State) : Host.Outcome State Fault Refusal :=
  s.perform (.redG f) f fun t s =>
    let a := s.here t
    let (o, va) := s.addr64 t f false
    match s.atomSources t f o with
    | .error e => .error e
    | .ok b =>
      match s.locate t va f.ty.bytes 1 .reduce (·.fmt == 0) f.scope.toNat with
      | .error e => .error e
      | .ok pages =>
        let s := s.consume t a (o.tags ||| b.tags)
        s.releasing t a f fun s =>
          match pages with
          | p :: _ => .ok (s.emit t a (.redG f va p b.val))
          | [] => .ok s

/-- `red.s` (R196, R203). -/
def execRedS (f : Fields) (s : State) : Host.Outcome State Fault Refusal :=
  s.perform (.redS f) f fun t s =>
    let a := s.here t
    let (o, x) := s.addr32 t f false
    let gt := ((s.thread t).getP f.gp.toNat).tags
    match s.atomSources t f o with
    | .error e => .error e
    | .ok b =>
      match s.checkS t x f.ty.bytes f.ty.bytes with
      | .error e => .error e
      | .ok off =>
        let s := s.consume t a (o.tags ||| b.tags)
        s.releasing t a f fun s => .ok (s.emit t a (.redS f (s.coreOf t) off b.val (o.tags ||| b.tags ||| gt)))

/-- `bscale` (R177, R178): the band record word, and the band scale in D at once. Its checks of a as given take the one byte at a: the
spec does not say how many bytes they cover (DESIGN CHOICE, log 82). -/
def execBscale (f : Fields) (s : State) : Host.Outcome State Fault Refusal :=
  s.perform (.bscale f) f fun t s =>
    let a := s.here t
    let (o, va) := s.addr64 t f false
    if o.poison then .error o.stop
    else match s.readSrc t 1 .f32 f.sb with
      | .error e => .error e
      | .ok x =>
        if x.poison then .error x.stop
        else match s.locate t va 1 1 .store (·.fmt == 1) 0 with
          | .error e => .error e
          | .ok pages =>
            let frame := (pages.head?.map (·.frame)).getD 0
            let (_, ba) := frameAddrs frame va
            match s.frameAt (s.coreOf t) (s.block (blockOf t)).ctx ba true 0 with
            | .error e => .error e
            | .ok bp =>
              let (n, d) := (fmtF32.decode x.val).mag
              let w := if (fmtF32.decode x.val).isSpecial then 0x17FC0
                else if n = 0 then 0x3F80 else fmtBf16.round .rup false (.fin false n (189 * d))
              let s := s.consume t a (o.tags ||| x.tags)
              let s := s.emit t a (.bscale ba bp w)
              .ok (s.writeLoc t (.v f.dst.toNat) (BitVec.ofNat 32 (w % 2 ^ 16 * 2 ^ 16)) false (o.tags ||| x.tags))

/-! ## Fences and prefetch -/

/-- A fence whose earlier accesses are performed (R204, R205, R206): at SCOPE 6 it raises FABRIC for a posted failure. -/
def State.finishFence (s : State) (t : Nat) (a : W64) (scope ord : Nat) : State :=
  let s := s.modThread t fun th => { th with wait := .none, pc := a }
  match (if scope = 6 then (s.thread t).postFail else none) with
  | some va => (s.modThread t fun th => { th with postFail := none }).raise t a .fabric a va
  | none => (s.performEffect t (.fence scope ord)).advance t a

/-- What a fence waits for (R204, R205, R342): the thread's accesses are performed at SCOPE; at SCOPE 3 or wider no line of its L1 holds dirty
bytes or a partial of the thread's. Only a release waits for the acknowledgements of a `cpym`. -/
def State.fenced (s : State) (t scope ord : Nat) : Bool :=
  s.performed t scope 0 (ord != 1) &&
    (decide (scope < 3) || (s.core (s.coreOf t)).l1.all fun l => l.by_.all fun w => w.2 != t)

/-- `fence` (R204, R205). -/
def execFence (f : Fields) (s : State) : Host.Outcome State Fault Refusal :=
  s.perform (.fence f) f fun t s =>
    let a := s.here t
    let scope := f.scope.toNat
    let ord := f.ord.toNat
    if s.holds t then
      match (if scope = 6 then (s.thread t).postFail else none) with
      | some va => .ok ((s.modThread t fun th => { th with postFail := none, pc := a }).raise t a .fabric a va)
      | none => .ok (s.hold t a (.fence scope ord))
    else
      let s := s.startRelease t scope ord
      if s.fenced t scope ord then .ok (s.finishFence t a scope ord)
      else .ok (s.modThread t fun th => { th with wait := .fence scope ord, pc := a })

/-- Lets every fence go whose accesses are performed (R204). -/
def State.settleFences (s : State) : State :=
  (s.threads.map (·.1)).foldl (fun s t =>
    match (s.thread t).wait with
    | .fence scope ord => if s.fenced t scope ord then s.finishFence t (s.thread t).pc scope ord else s
    | _ => s) s

/-- `prefetch` (R207): the line is filled where every check passes and no partial stands; an access that fails a check is dropped. The checks
take the one byte at the address, of any alignment (DESIGN CHOICE, log 94). -/
def execPrefetch (f : Fields) (s : State) : Host.Outcome State Fault Refusal :=
  s.perform (.prefetch f) f fun t s =>
    let (o, va) := s.addr64 t f true
    let b := s.block (blockOf t)
    if o.poison || f.xc.toNat % 4 = 1 then .ok s
    else match s.locate t va 1 1 .load (fun _ => true) 0 with
      | .error _ => .ok s
      | .ok pages =>
        match pages.head? with
        | some p =>
          if p.peer.isSome || p.synonym.isSome || ((s.core b.core).line b.ctx va).isSome then .ok s
          else .ok (s.fill b.core b.ctx va p).2
        | none => .ok s

/-! ## Accumulator transfers -/

/-- The tile of an `acc` source. -/
def accOf (src : Src) : Nat := match src with | .special (.acc n) => n.toNat | _ => 0

/-- `accld` (R208, R411). -/
def execAccld (f : Fields) (s : State) : Host.Outcome State Fault Refusal :=
  s.perform (.accld f) f fun t s =>
    let a := s.here t
    match s.readSrc t 1 .b32 f.sb with
    | .error e => .error e
    | .ok o =>
      if o.poison then .error o.stop
      else
        let e := if f.ty == .f32 then f.count else 2 * f.count
        let i := o.val % 128
        let n0 := o.val / 256 % 128
        if n0 % e ≠ 0 then .error (.trap .misalign (BitVec.ofNat 64 o.val))
        else
          let blk := blockOf t
          let n := accOf f.sa
          let x := tgetD (s.block blk).tiles n Tile.cleared
          if (List.range e).any fun m => x.bad.contains (128 * i + n0 + m) then
            .ok (((s.modThread t fun th => { th with pc := a })).matrixFault blk 6 a 5 (tilePlace (s.coreOf t) n))
          else
            let s := s.consume t a o.tags
            let m := fmtOf f.ty
            let v := packElems (if f.ty == .f32 then 32 else 16) e fun k => x.drain m f.rnd f.sat i (n0 + k)
            .ok (s.addOut t (destsOf (.accld f)) (some (groupWb false f.dst.toNat f.count v false)) f.la.toNat)

/-- `accst` (R209, R411). -/
def execAccst (f : Fields) (s : State) : Host.Outcome State Fault Refusal :=
  s.perform (.accst f) f fun t s =>
    let a := s.here t
    match s.readSrc t 1 .b32 f.sa with
    | .error e => .error e
    | .ok o =>
      let d := s.readV t (match f.sb with | .reg r _ _ => r.toNat | _ => 0) (f.ty.regs * f.count)
      if o.poison then .error o.stop
      else if d.poison then .error d.stop
      else
        let i := o.val % 128
        let n0 := o.val / 256 % 128
        if n0 % f.count ≠ 0 then .error (.trap .misalign (BitVec.ofNat 64 o.val))
        else
          let blk := blockOf t
          let n := f.dst.toNat
          let x := tgetD (s.block blk).tiles n Tile.cleared
          if x.mode == .fix64 && !x.bad.isEmpty then
            .ok (((s.modThread t fun th => { th with pc := a })).matrixFault blk 6 a 5 (tilePlace (s.coreOf t) n))
          else
            let w := 32 * f.ty.regs
            let y := (List.range f.count).foldl (fun (y : Tile) k => y.store f.ty i (n0 + k) (d.val / 2 ^ (w * k) % 2 ^ w))
              x.forStore
            .ok (s.modBlock blk fun b => { b with tiles := tset b.tiles n y })

/-! ## Multicast groups -/

/-- The handle register of a group operation: s(h) (R215). -/
def handleReg (src : Src) : Nat := match src with | .unif n _ _ => n.toNat | _ => 0

/-- The address checks of `ldred.mc` and `stmc` on the issuing device: steps 1 to 3 of R184 with the whole access's alignment. -/
def checkMc (va : W64) (n : Nat) : Except Stop Unit :=
  if !((List.range n).all fun k => validVa (va + BitVec.ofNat 64 k)) then .error (.trap .permission va)
  else if va.toNat % n ≠ 0 then .error (.trap .misalign va)
  else .ok ()

/-- `ldred.mc` (R215, R341). -/
def execLdredMc (f : Fields) (s : State) : Host.Outcome State Fault Refusal :=
  s.perform (.ldredMc f) f fun t s =>
    let a := s.here t
    let (o, va) := s.addr64 t f false
    let h := s.readS t (handleReg f.sb) 1
    if o.poison then .error o.stop
    else if h.poison then .error h.stop
    else match checkMc va (4 * f.count) with
      | .error e => .error e
      | .ok _ =>
        let s := s.consume t a (o.tags ||| h.tags)
        let s := s.joinGroupOp t (handleReg f.sb + 1) (s.groupGuards f)
        .ok ((s.addOut t (destsOf (.ldredMc f)) none f.la.toNat (logged := (destsOf (.ldredMc f)).filter (· != .s (handleReg f.sb + 1)))
          (acq := f.ord == 1)).emit t a
          (.ldred f va (BitVec.ofNat 32 h.val) s.nextId))

/-- The release side of a `stmc` in the threads of its issue group that perform it now and hold nothing back (R347): they write one status
register, so none of them goes on before all can (R341). -/
def State.stmcRelease (s : State) (f : Fields) : Bool × State :=
  match s.group with
  | none => (true, s)
  | some (_, a, ts) =>
    if f.ord ≠ 2 then (true, s)
    else
      let live := (s.standing a ts).filter fun t =>
        (match s.guard t f with | .ok b => b | .error _ => false) && !s.holds t && !s.issueWaits t (.stmc f)
      let s := live.foldl (fun s t => s.startRelease t 6 2) s
      if live.all fun t => s.performed t 6 then (true, s) else (false, s.stay ts)

/-- `stmc` (R217, R341, R347). -/
def execStmc (f : Fields) (s : State) : Host.Outcome State Fault Refusal :=
  let (go, s) := s.stmcRelease f
  if !go then .next s
  else s.perform (.stmc f) f fun t s =>
    let a := s.here t
    let (o, va) := s.addr64 t f false
    let h := s.readS t (handleReg f.sb) 1
    let d := s.readV t f.dst.toNat (lsRegs f)
    if o.poison then .error o.stop
    else if d.poison then .error d.stop
    else if h.poison then .error h.stop
    else match checkMc va (f.ty.bytes * f.count) with
      | .error e => .error e
      | .ok _ =>
        let s := s.consume t a (o.tags ||| h.tags ||| d.tags)
        let s := s.joinGroupOp t (handleReg f.sb + 1) (s.groupGuards f)
        .ok ((s.addOut t (destsOf (.stmc f)) none f.la.toNat false
            (logged := (destsOf (.stmc f)).filter (· != .s (handleReg f.sb + 1)))).emit t a
          (.stmc f va (BitVec.ofNat 32 h.val) d.val s.nextId))

/-- A group record (R212, R213): none for BAD_RECORD, or the stop of a byte outside the scratchpad. -/
def State.groupRecord (s : State) (t a : Nat) : Except Stop (Option (List (BitVec 12))) :=
  let c := s.core (s.coreOf t)
  match s.checkS t a 8 8 with
  | .error e => .error e
  | .ok off =>
    let h := ofBytes (c.sRead off 8)
    let n := h % 2 ^ 13
    if n = 0 || n > 4096 || h / 2 ^ 13 ≠ 0 then .ok none
    else match s.checkS t (a + 8) (2 * n) 2 with
      | .error _ => .error (.trap .permission (BitVec.ofNat 64 a))
      | .ok off =>
        let ms := (List.range n).map fun k => ofBytes (c.sRead (off + 2 * k) 2)
        if ms.any (· ≥ 2 ^ 12) || !decide ms.Nodup then .ok none
        else .ok (some (ms.map (BitVec.ofNat 12)))

/-- `mcg.open` (R213). -/
def execMcgOpen (f : Fields) (s : State) : Host.Outcome State Fault Refusal :=
  s.perform (.mcgOpen f) f fun t s =>
    let a := s.here t
    let (o, x) := s.addr32 t f false
    let s := s.settleAt t [spanS (s.coreOf t) 0 (2 ^ 20)]
    if o.poison then .error o.stop
    else match s.groupRecord t x with
      | .error e => .error e
      | .ok ms =>
        let n := 8 + 2 * (ms.map (·.length)).getD 0
        let off := (s.block (blockOf t)).spBase + x
        let s := s.consume t a (o.tags ||| (s.core (s.coreOf t)).sectorTags off n)
        .ok ((s.addOut t (destsOf (.mcgOpen f)) none f.la.toNat false).emit t a (.mcgOpen (f.xc.getLsbD 0) ms s.nextId))

/-- `mcg.close` (R214). -/
def execMcgClose (f : Fields) (s : State) : Host.Outcome State Fault Refusal :=
  s.perform (.mcgClose f) f fun t s =>
    let a := s.here t
    let h := s.readS t (handleReg f.sa) 1
    if h.poison then .error h.stop
    else
      let s := s.consume t a h.tags
      .ok ((s.addOut t (destsOf (.mcgClose f)) none f.la.toNat false).emit t a (.mcgClose (BitVec.ofNat 32 h.val) s.nextId))

end Sys2Proof.Machine
end

