-- ==== Sys2Proof/Machine/Control.lean ====
section
/-! DEFINITION. Class 4: branches, calls, exit, rejoin masks, joins and crew-wide operations (R44 to R47, R218 to R237), and the
words `ill.zero` and `trap.pool` (R77, R78). -/

namespace Sys2Proof.Machine

/-! ## Branches and calls -/

/-- The offset d of R76: payload bits [19:0] below XC[5:0], in 4-byte units, as a displacement in bytes. -/
def Fields.offset (f : Fields) : W64 :=
  let p := match f.sb with | .imm p => p.toNat | _ => 0
  (BitVec.ofNat 26 (f.xc.toNat % 64 * 2 ^ 20 + p)).signExtend 64 * 4

/-- A thread's next instruction. -/
def State.goto (s : State) (t : Nat) (pc : W64) : State := s.modThread t fun th => { th with pc := pc }

/-- The target of `brx`, `callx` and `ret`, checked in the order of R225. -/
def State.target (s : State) (t : Nat) (f : Fields) : Except Stop Opd :=
  match s.readSrc t 2 .u64 f.sa with
  | .error e => .error e
  | .ok o =>
    let x := BitVec.ofNat 64 o.val
    if o.poison then .error o.stop
    else if o.val % 4 ≠ 0 then .error (.trap .misalign x)
    else if !validVa x then .error (.trap .permission x)
    else .ok o

/-- `nop` (R228). -/
def execNop (f : Fields) (s : State) : Host.Outcome State Fault Refusal := s.perform (.nop f) f fun _ s => .ok s

/-- `yield` (R42, R228): its effect on the selection is that of Y = 1, kept by the step. -/
def execYield (f : Fields) (s : State) : Host.Outcome State Fault Refusal := s.perform (.yield f) f fun _ s => .ok s

/-- `bra` (R223). -/
def execBra (f : Fields) (s : State) : Host.Outcome State Fault Refusal :=
  s.perform (.bra f) f fun t s => .ok (s.goto t (s.here t + Fields.offset f))

/-- A jump to a register target (R224, R225). -/
def State.jump (s : State) (t : Nat) (f : Fields) : Except Stop State :=
  match s.target t f with
  | .error e => .error e
  | .ok o => .ok ((s.consume t (s.here t) o.tags).goto t (BitVec.ofNat 64 o.val))

/-- `brx` (R224). -/
def execBrx (f : Fields) (s : State) : Host.Outcome State Fault Refusal := s.perform (.brx f) f fun t s => s.jump t f

/-- `ret` (R224). -/
def execRet (f : Fields) (s : State) : Host.Outcome State Fault Refusal := s.perform (.ret f) f fun t s => s.jump t f

/-- Writes the link pair (R226). -/
def State.link (s : State) (t : Nat) (f : Fields) (a : W64) (g : Tags) : State :=
  s.writeGroup t .v f.dst.toNat (words 2 (a + 12).toNat) false g

/-- `call` (R223, R226). -/
def execCall (f : Fields) (s : State) : Host.Outcome State Fault Refusal :=
  s.perform (.call f) f fun t s =>
    let a := s.here t
    .ok ((s.link t f a 0).goto t (a + Fields.offset f))

/-- `callx` (R224 to R226): the target is read before the link is written. -/
def execCallx (f : Fields) (s : State) : Host.Outcome State Fault Refusal :=
  s.perform (.callx f) f fun t s =>
    let a := s.here t
    match s.target t f with
    | .error e => .error e
    | .ok o => .ok (((s.consume t a o.tags).link t f a o.tags).goto t (BitVec.ofNat 64 o.val))

/-- ASSUME_OVERFLOW at the instruction that a thread is held at (R252, R357, R370): a message that waits there is given up. -/
def State.overflow (s : State) (t : Nat) : State :=
  let a := (s.thread t).pc
  let s : State := { s with mail := s.mail.filter (·.sender != t) }
  (s.modThread t fun th => { th with wait := .none, holdSince := none }).raise t a .assumeOverflow a 0

/-! ## Joins and exit -/

/-- The threads begin a new PC group at their program counter (R40, R46). -/
def State.regroup (s : State) (ts : List Nat) : State :=
  ts.foldl (fun s t => s.modThread t fun th => { th with form := s.formNow, waitCnt := 0, lastQ := none, hot := false }) s

/-- JBit(N, tid) of a crew (R45). -/
def Crew.jBit (c : Crew) (n tid : Nat) : Bool := (c.getS (192 + 4 * n + tid / 32)).val.getLsbD (tid % 32)

/-- The tag sets of the four registers of a rejoin mask. -/
def Crew.jTags (c : Crew) (n : Nat) : Tags := (List.range 4).foldl (fun g k => g ||| (c.getS (192 + 4 * n + k)).tags) 0

/-- The threads of a crew that have arrived at a join naming jN at P; one that stands in its handler has not (R46, R269). -/
def State.joiners (s : State) (c n : Nat) (p : W64) : List Nat :=
  (s.crewThreads c).filter fun t =>
    let th := s.thread t; !th.handler && th.pc == p && (match th.wait with | .join m _ => m == n | _ => false)

/-- Releases the threads that wait at a join, if every thread whose bit is set has exited or arrived (R46, R231). -/
def State.settleJoin (s : State) (c n : Nat) (p : W64) : State :=
  let w := s.joiners c n p
  let cr := s.crew c
  if w.isEmpty || !((s.crewThreads c).all fun t => !cr.jBit n (tidOf t) || (s.thread t).exited || w.contains t) then s
  else
    let g := w.foldl (fun g t => match (s.thread t).wait with | .join _ x => g ||| x | _ => g) (cr.jTags n)
    (w.foldl (fun s t => ((s.modThread t fun th => { th with wait := .none }).consume t p g).goto t (p + 12)) s).regroup w

/-- Re-evaluates every join of a crew (R46). -/
def State.settleJoins (s : State) (c : Nat) : State :=
  (s.crewThreads c).foldl (fun s t =>
    match (s.thread t).wait with
    | .join n _ => s.settleJoin c n (s.thread t).pc
    | _ => s) s

/-- A thread of the crew waits at a join. -/
def State.joinsWait (s : State) (c : Nat) : Bool :=
  (s.crewThreads c).any fun t => match (s.thread t).wait with | .join .. => true | _ => false

/-- The joins of a crew are looked at again, where one of its threads waits at one (R46). -/
def State.rejoin (s : State) (c : Nat) : State := if s.joinsWait c then s.addTodo [.joins c] else s

/-- `mkj` (R45, R229). The four writes take the tag union and the undo log of the contributing thread with the lowest `sr.tid`, and
each contributing thread consumes the tags of its own guard alone: R229 does not say whose they are (DESIGN CHOICE, log 92). -/
def execMkj (f : Fields) (s : State) : Host.Outcome State Fault Refusal :=
  match s.group with
  | none => .next s
  | some (c, a, ts) =>
    let all := s.standing a ts
    let (s1, ts) := s.guardAll f a all
    match ts with
    | [] => .next (s.followAll (.mkj f) f a all [] s1)
    | t :: _ =>
      if s1.issueWaits t (.mkj f) then .next (s1.stay ts)
      else
        let g := ts.foldl (fun g u => g ||| ((s.thread u).getP f.gp.toNat).tags) 0
        let n := f.dst.toNat
        let or_ := f.xc.getLsbD 0
        let s2 := (List.range 4).foldl (fun s k =>
          let old := (s.crew c).getS (192 + 4 * n + k)
          let bits := ts.foldl (fun x u => if tidOf u / 32 = k then x ||| BitVec.ofNat 32 (2 ^ (tidOf u % 32)) else x) (0 : W32)
          if or_ then s.writeLoc t (.s (192 + 4 * n + k)) (old.val ||| bits) old.poison (old.tags ||| g)
          else s.writeLoc t (.s (192 + 4 * n + k)) bits false g) s1
        .next (s.followAll (.mkj f) f a all (formWrites (.mkj f) f) ((ts.foldl (fun s u => s.advance u a) s2).addTodo [.joins c]))

/-- `join` (R46, R230). What the thread has stored before it arrives is performed: the threads that are released with it see it (R313). -/
def execJoin (f : Fields) (s : State) : Host.Outcome State Fault Refusal :=
  s.perform (.join f) f fun t s =>
    let a := s.here t
    let n := f.dst.toNat
    let c := s.crew (crewOf t)
    if (List.range 4).any fun k => (c.getS (192 + 4 * n + k)).poison then .error (.poison 0 4 0)
    else if !c.jBit n (tidOf t) then .ok s
    else .ok (((s.settleAll t).modThread t fun th => { th with pc := a, wait := .join n th.tagUnion }).addTodo [.joins (crewOf t)])

/-- A thread leaves its containment region (R257): its mark no longer tags what it does. Once every thread of the opening group has
left, the slot is affirmed. -/
def State.closeRegion (s : State) (t : Nat) : State :=
  match (s.thread t).region with
  | none => s
  | some k =>
    let core := s.coreOf t
    let x := tgetD (s.core core).slots k {}
    let left := x.group.filter (· != t)
    let s := (s.modThread t fun th =>
      { th with region := none, marks := th.marks.map fun m => if m.slot = k then { m with closeSeq := some s.seq, againSeq := none } else m }).modCore core
        fun c => { c with slots := tset c.slots k { x with group := left } }
    if left.isEmpty then s.addTodo [.affirm x.aid] else s

/-- A thread that exits has left every opening group it was in; a region that all have left is affirmed (R257). -/
def State.leaveGroups (s : State) (t : Nat) : State :=
  let core := s.coreOf t
  (s.core core).slots.foldl (fun s p =>
    if p.2.kind == .contain && p.2.group.contains t then
      let left := p.2.group.filter (· != t)
      let s := s.modCore core fun c => { c with slots := tset c.slots p.1 { p.2 with group := left } }
      if left.isEmpty then s.addTodo [.affirm p.2.aid] else s
    else s) s

/-- A thread ends (R46, R47, R227); the order in which blocks end during a takeover is kept (R385). Its bit is cleared
in every register of s192 to s255 that is there, also where the crew has fewer than 256 uniform registers allocated (DESIGN CHOICE, log 73). -/
def State.exitThread (s : State) (t : Nat) : State :=
  let clear (r : Reg) : Reg := { r with val := r.val &&& ~~~ BitVec.ofNat 32 (2 ^ (tidOf t % 32)) }
  let s := s.modCrew (crewOf t) fun c =>
    { c with s := c.s.map fun p =>
        if 192 ≤ p.1 && p.1 < 256 && (p.1 - 192) % 4 == tidOf t / 32 then (p.1, clear p.2) else p }
  let s := s.modThread t fun th => { th with exited := true, wait := .none, marks := [], settled := [], unwinds := [] }
  let b := blockOf t
  let s := if (s.blockThreads b).all fun u => (s.thread u).exited then
      (s.modBlock b fun x => { x with stage := .ending }).modHelm fun h =>
        if h.hstat.toNat % 4 = 2 then { h with endedLate := h.endedLate ++ [b] } else h
    else s
  s.addTodo [.joins (crewOf t), .bars b]

/-- `exit` (R47, R227, R257). Its stores count at the joins that its crew goes through (R313). -/
def execExit (f : Fields) (s : State) : Host.Outcome State Fault Refusal :=
  s.perform (.exit f) f fun t s => .ok ((((s.settleAll t).closeRegion t).leaveGroups t).exitThread t)

/-- `ill.zero` (R77): ILLEGAL in every thread of the issue group, whatever its guard. -/
def execIllZero (s : State) : Host.Outcome State Fault Refusal :=
  match s.group with
  | none => .next s
  | some (_, a, ts) => .next (ts.foldl (fun s t => s.raise t a .illegal a 0) s)

/-- `trap.pool` (R78): POOL_ENTRY in every thread of the issue group. -/
def execTrapPool (s : State) : Host.Outcome State Fault Refusal :=
  match s.group with
  | none => .next s
  | some (_, a, ts) => .next (ts.foldl (fun s t => s.raise t a .poolEntry a 0) s)

/-! ## Crew-wide operations -/

/-- A participant of a crew-wide operation with its sources as read (R232). -/
structure Part where
  t : Nat
  a : Opd
  b : Opd := { val := 0 }
  deriving DecidableEq, Repr

/-- The lane of a participant. -/
def Part.lane (p : Part) : Nat := tidOf p.t % 32

/-- The mask of lanes of participants that satisfy a condition. -/
def maskWhere (ps : List Part) (c : Part → Bool) : Nat := ps.foldl (fun m p => if c p then m + 2 ^ p.lane else m) 0

/-- The participants of an operation, or the stops of those whose sources cannot be read. -/
def State.participants (s : State) (f : Fields) (na : Nat) (ta : Ty) (nb : Nat) (tb : Ty) :
    List Nat → List Part × List (Nat × Stop)
  | [] => ([], [])
  | t :: ts =>
    let (ps, es) := s.participants f na ta nb tb ts
    match s.sources t f na ta nb tb 0 with
    | .error e => (ps, (t, e) :: es)
    | .ok (a, b, _) => ({ t := t, a := a, b := b } :: ps, es)

/-- A crew-wide operation (R232): every participant's result is found from the sources of all; each consumes and carries its tags. -/
def State.crewOp (s : State) (i : Instr) (f : Fields) (na : Nat) (ta : Ty) (nb : Nat) (tb : Ty)
    (result : List Part → Part → Nat × Bool × Tags) : Host.Outcome State Fault Refusal :=
  match s.group with
  | none => .next s
  | some (_, a, ts) =>
    let all := s.standing a ts
    let (s1, live) := s.guardAll f a all
    if live.any fun t => s.issueWaits t i then .next (s.stay ts)
    else
      let (ps, es) := s1.participants f na ta nb tb live
      match es with
      | [] =>
        .next (s.followAll i f a all (formWrites i f) (ps.foldl (fun s p =>
          let (v, x, g) := result ps p
          (s.advance p.t a).writeDst p.t (formOf i) f v x g a) s1))
      | _ =>
        let s2 := es.foldl (fun s e => s.stopThread e.1 a e.2) s1
        .next (s2.reportFaults [] (es.filterMap fun e => match e.2 with
          | .park va l k => some { t := e.1, va := va, level := l, kind := k } | _ => none))

/-- Poison and tags of R233: those of every participant's SA. -/
def allParts (ps : List Part) : Bool × Tags := let j := joinOpds (ps.map (·.a)); (j.poison, j.tags)

/-- `vote` (R233). -/
def execVote (f : Fields) (s : State) : Host.Outcome State Fault Refusal :=
  s.crewOp (.vote f) f 1 .b32 0 .b32 fun ps _ =>
    let m := maskWhere ps fun _ => true
    let mask := maskWhere ps fun p => (p.a.val == 1) != f.xc.getLsbD 2
    let (x, g) := allParts ps
    let v := match f.xc.toNat % 4 with
      | 0 => if mask = m then 1 else 0
      | 1 => if mask ≠ 0 then 1 else 0
      | 2 => if mask = m || mask = 0 then 1 else 0
      | _ => mask
    (v, x, g)

/-- The source lane of `shfl` (R234). -/
def shflLane (mode w l b : Nat) : Nat :=
  let bs := l - l % w
  match mode with
  | 0 => bs + b % w
  | 1 =>
    let x : Int := (l : Int) + toSigned 32 b
    if x < bs ∨ x ≥ bs + w then l else x.toNat
  | 2 => bs + (l - bs + b) % w
  | _ => bs + (l - bs).xor (b % w)

/-- `shfl` (R234). -/
def execShfl (f : Fields) (s : State) : Host.Outcome State Fault Refusal :=
  let mode := f.xc.toNat % 4
  s.crewOp (.shfl f) f f.ty.regs f.ty 1 (if mode = 1 then .s32 else .b32) fun ps p =>
    let lane := shflLane mode (2 ^ (5 - f.xc.toNat / 4 % 8)) p.lane p.b.val
    let src := (ps.find? fun q => q.lane == lane).getD p
    (src.a.val, src.a.poison || p.b.poison, src.a.tags ||| p.b.tags)

/-- `match` (R235). -/
def execMatch_ (f : Fields) (s : State) : Host.Outcome State Fault Refusal :=
  s.crewOp (.match_ f) f f.ty.regs f.ty 0 .b32 fun ps p =>
    let m := maskWhere ps fun _ => true
    let e := maskWhere ps fun q => q.a.val == p.a.val
    let (x, g) := allParts ps
    (if f.xc.getLsbD 0 then (if e = m then m else 0) else e, x, g)

/-- Combination of two values by `redux` (R236). -/
def reduxOp (op : Nat) (ty : Ty) (x y : Nat) : Nat :=
  match op with
  | 0 => (x + y) % 2 ^ 32
  | 1 => if intOf ty y < intOf ty x then y else x
  | 2 => if intOf ty y > intOf ty x then y else x
  | 3 => x &&& y
  | 4 => x ||| y
  | _ => x ^^^ y

/-- `redux` (R236). -/
def execRedux (f : Fields) (s : State) : Host.Outcome State Fault Refusal :=
  s.crewOp (.redux f) f 1 f.ty 0 .b32 fun ps _ =>
    let (x, g) := allParts ps
    let v := match ps.map (·.a.val) with
      | [] => 0
      | y :: ys => ys.foldl (reduxOp (f.xc.toNat % 8) f.ty) y
    (v, x, g)

/-- `elect` (R237). -/
def execElect (f : Fields) (s : State) : Host.Outcome State Fault Refusal :=
  let m := f.xc.getLsbD 0
  s.crewOp (.elect f) f (if m then 1 else 0) .b32 0 .b32 fun ps p =>
    let leader := ps.foldl (fun (acc : Option Nat) q =>
      if !m || p.a.val.testBit q.lane then
        match acc with | some l => some (min l q.lane) | none => some q.lane
      else acc) none
    (if leader = some p.lane then 1 else 0, m && p.a.poison, if m then p.a.tags else 0)

end Sys2Proof.Machine
end

