-- ==== Sys2Proof/Machine/Reckon.lean ====
section
/-! DEFINITION. The reckoner: minting, affirmation, denial and containment, and the release of held effects (R249 to R261, R348,
R350 to R367). -/

namespace Sys2Proof.Machine

/-! ## Slots -/

/-- The generation after one (R249, R351): 21 bits, never 0. -/
def nextGen (g : Nat) : Nat := g % (2 ^ 21 - 1) + 1

/-- The AID of a slot of a core with a generation (R249). -/
def aidOf (core slot gen : Nat) : W32 := BitVec.ofNat 32 (core % 256 * 2 ^ 24 + slot * 2 ^ 21 + gen)

/-- A freed slot keeps its generation alone (R350). -/
def Slot.freed (x : Slot) : Slot := { gen := x.gen }

/-- Takes the lowest-numbered free slot of a core for a new AID (R351). -/
def State.mint (s : State) (core : Nat) (mk : W32 → Slot) : Option (Nat × State) :=
  match (s.core core).freeSlot with
  | none => none
  | some k =>
    let g := nextGen ((s.core core).slot k).gen
    some (k, s.modCore core fun c => { c with slots := tset c.slots k { mk (aidOf core k g) with gen := g } })

/-! ## Changing every tag set of a core (R360, R361, R368) -/

/-- A register with its tag set changed. -/
def Reg.retag (f : Tags → Tags) (r : Reg) : Reg := { r with tags := f r.tags }
/-- A predicate with its tag set changed. -/
def PReg.retag (f : Tags → Tags) (r : PReg) : PReg := { r with tags := f r.tags }
/-- A message with its tag set changed. -/
def Msg.retag (f : Tags → Tags) (m : Msg) : Msg := { m with tags := f m.tags }

/-- A wait with its tag set changed. -/
def Wait.retag (f : Tags → Tags) : Wait → Wait
  | .join n g => .join n (f g)
  | .watch w => .watch { w with tags := f w.tags }
  | w => w

/-- The slot that a one-element tag set holds, after a change. -/
def slotTo (f : Tags → Tags) (k : Nat) : Option Nat := (slotsOf (f (tagOf k))).head?

/-- A thread with every tag set changed; a mark follows its slot, and goes with it. -/
def Thread.retag (f : Tags → Tags) (th : Thread) : Thread :=
  let marks := th.marks.filterMap fun m => (slotTo f m.slot).map fun k => { m with slot := k }
  { th with
    v := th.v.map fun p => (p.1, p.2.retag f), p := th.p.map fun p => (p.1, p.2.retag f), wait := th.wait.retag f,
    marks := marks, region := th.region.bind (slotTo f),
    out := th.out.map fun o => { o with tags := f o.tags, wb := o.wb.map fun l => l.map fun p => (p.1, p.2.retag f) },
    popped := if marks.isEmpty then [] else th.popped.map fun p => (p.1, p.2.retag f) }

/-- What a log entry restores, with its tag set changed. -/
def LogOld.retag (f : Tags → Tags) : LogOld → LogOld
  | .reg l r => .reg l (r.retag f)
  | .sector o b p g => .sector o b p (f g)

/-- A crew with every tag set changed. -/
def Crew.retag (f : Tags → Tags) (c : Crew) : Crew :=
  { c with s := c.s.map fun p => (p.1, p.2.retag f), log := c.log.map fun e => { e with old := e.old.retag f } }

/-- A block with every tag set changed. -/
def Block.retag (f : Tags → Tags) (b : Block) : Block :=
  { b with bars := b.bars.map fun p => (p.1, { p.2 with rtags := f p.2.rtags }), inbox := b.inbox.map (Msg.retag f) }

/-- A held effect with every tag set changed. -/
def Held.retag (f : Tags → Tags) (h : Held) : Held :=
  { h with
    tags := f h.tags,
    eff := (match h.eff with
      | .atomL g cr o b own x out => Effect.atomL g cr o b own (f x) out
      | .redS g cr o b x => .redS g cr o b (f x)
      | e => e) }

/-- A core's sectors, held effects and PARENTS with every tag set changed. -/
def Core.retag (f : Tags → Tags) (c : Core) : Core :=
  { c with
    stags := (c.stags.map fun p => (p.1, f p.2)).filter fun p => p.2 != 0,
    held := c.held.map (Held.retag f),
    slots := c.slots.map fun p => (p.1, { p.2 with parents := f p.2.parents }) }

/-- Threads, crews, blocks and group operations of some blocks with every tag set changed. -/
def State.retagBlocks (s : State) (bs : List Nat) (f : Tags → Tags) : State :=
  { s with
    threads := s.threads.map fun p => if bs.contains (blockOf p.1) then (p.1, p.2.retag f) else p,
    crews := s.crews.map fun p => if bs.contains (p.1 / 4) then (p.1, p.2.retag f) else p,
    blocks := s.blocks.map fun p => if bs.contains p.1 then (p.1, p.2.retag f) else p,
    groupOps := s.groupOps.map fun o => if bs.contains (o.crew / 4) then { o with tags := f o.tags } else o }

/-- Removes the slots of a set from everything on a core, frees them, and gives the undo log's dead space back (R357, R360). -/
def State.strip (s : State) (core : Nat) (g : Tags) : State :=
  let k (x : Tags) : Tags := x &&& ~~~ g
  let bs := s.coreBlocks core
  let s := State.modCore (s.retagBlocks bs k) core fun c =>
    let c := c.retag k
    { c with slots := c.slots.map fun p => if g.getLsbD p.1 then (p.1, p.2.freed) else p }
  (s.crews.map (·.1)).foldl (fun s c =>
    if bs.contains (c / 4) then
      let h := s.logHead c
      s.modCrew c fun cr => { cr with log := cr.log.filter fun e => decide (h ≤ e.pos) }
    else s) s

/-- Writes a register group with a tag set and nothing else; the values pass to the thread's shadow (R414). -/
def State.putVals (s : State) (t first n val : Nat) (poison : Bool) (g : Tags) : State :=
  (List.range n).foldl (fun s k =>
    (s.putLoc t (.v (first + k)) { val := BitVec.ofNat 32 (val / 2 ^ (32 * k)), poison := poison, tags := g }).setShadow t (.v (first + k)) none) s

/-- Writes a register group with a tag set and nothing else (R250, R253, R254): logged while the thread holds a mark. -/
def State.putGroup (s : State) (t first n val : Nat) (poison : Bool) (g : Tags) : State :=
  (s.logDests t ((List.range n).map fun k => Loc.v (first + k))).putVals t first n val poison g

/-- The value group of a wait-form guess is written, untagged (R250, R467): its old values were logged at the guess. -/
def State.fillDeferred (s : State) (x : Slot) (val : W64) (poison : Bool) : State :=
  if (s.thread x.owner).deferred.any (·.1 == x.aid) then
    (s.modThread x.owner fun th => { th with deferred := th.deferred.filter (·.1 != x.aid) }).putVals x.owner x.dst x.cnt
      val.toNat poison 0
  else s

/-! ## Affirmation (R360, R363) -/

/-- An affirmation takes effect at one core. -/
def State.affirmAt (s : State) (core slot : Nat) : State :=
  let x := (s.core core).slot slot
  let s := if x.kind == .guess && x.waitForm then s.fillDeferred x x.val x.valPoison else s
  State.addTodo (s.strip core (tagOf slot)) [.release core]

/-- The slots that stand for an AID, owner and mirrors: the owning core first. -/
def State.slotsOfAid (s : State) (aid : W32) : List (Nat × Nat) :=
  let all := s.cores.flatMap fun c => (c.2.slots.filter fun p => p.2.kind != .free && p.2.aid == aid).map fun p => (c.1, p.1, p.2.kind)
  ((all.filter fun x => x.2.2 != .mirror) ++ all.filter fun x => x.2.2 == .mirror).map fun x => (x.1, x.2.1)

/-- An AID, or a region's slot, is affirmed. -/
def State.affirm (s : State) (aid : W32) : State := (s.slotsOfAid aid).foldl (fun s x => s.affirmAt x.1 x.2) s

/-! ## Denial (R361, R362) -/

/-- A slot with every slot whose PARENTS meets the closure. -/
def Core.closure (c : Core) (slot : Nat) : Tags :=
  (List.range 8).foldl (fun g _ =>
    c.slots.foldl (fun g p => if p.2.kind != .free && (p.2.parents &&& g) != 0 then g ||| tagOf p.1 else g) g) (tagOf slot)

/-- The earliest mark a thread holds in a set of slots. -/
def Thread.earliest (th : Thread) (g : Tags) : Option Mark :=
  th.marks.foldl (fun acc m =>
    if g.getLsbD m.slot then match acc with | some x => if m.seq < x.seq then some m else acc | none => some m
    else acc) none

/-- The unwind points of the threads of a core under a closure. -/
def State.points (s : State) (core : Nat) (g : Tags) : List (Nat × Mark) :=
  (s.coreThreads core).filterMap fun t =>
    if (s.thread t).exited then none else ((s.thread t).earliest g).map fun m => (t, m)

/-- Restores what one log entry holds (R356, R361), in the thread's shadow too (R416). -/
def State.restoreEntry (s : State) (crew : Nat) (e : LogEntry) : State :=
  match e.old with
  | .reg l r => (s.putLoc (crew * 128 + e.tid) l r).setShadow (crew * 128 + e.tid) l e.shadow
  | .sector off bs poison g =>
    let b := s.block (crew / 4)
    let o := b.spBase + off
    let s := s.settleReaders b.core o 32
    State.wakeS (s.modCore b.core fun c =>
      let c := (c.sWrite b.ctx o bs).setTag (o / 32) g
      if poison then { c with spoison := c.spoison ++ [o / 32] } else c) b.core o 32

/-- Undoes the log of one crew to the unwind points of its threads, newest entry first. -/
def State.undoCrew (s : State) (crew : Nat) (pts : List (Nat × Mark)) : State :=
  let hit (e : LogEntry) : Bool := pts.any fun p => crewOf p.1 == crew && tidOf p.1 == e.tid && decide (p.2.logPos ≤ e.pos) &&
    decide (p.2.seq ≤ e.seq)
  ((s.crew crew).log.filter hit |>.foldl (fun s e => s.restoreEntry crew e) s).modCrew crew fun c =>
    { c with log := c.log.filter fun e => !hit e }

/-- An unwound thread's arrivals at a barrier, in a phase that is not released, from a place on (R245). -/
def Barrier.gone (b : Barrier) (t q : Nat) : List (Nat × Nat) := b.arrivals.filter fun a => a.1 == t && decide (q ≤ a.2)

/-- They are withdrawn (R245). -/
def Barrier.withdraw (b : Barrier) (t q : Nat) : Barrier :=
  { b with arrivals := b.arrivals.filter (fun a => !(a.1 == t && decide (q ≤ a.2))), arrived := b.arrived - (b.gone t q).length }

/-- Notes one unwind to an address (R365): after the third it is settled; the list holds four. -/
def Thread.noteUnwind (th : Thread) (a : W64) : Thread :=
  let n := ((th.unwinds.find? (·.1 == a)).map (·.2)).getD 0 + 1
  { th with
    unwinds := th.unwinds.filter (·.1 != a) ++ [(a, n)],
    settled := if n ≥ 3 && !th.settled.contains a && th.settled.length < 4 then th.settled ++ [a] else th.settled }

/-- A mark as it was before a place: a region closed from there on is open again, and a consumption of its slot since is undone. -/
def Mark.before (x : Mark) (q : Nat) : Mark :=
  let early (k : Option Nat) : Option Nat := k.filter (· < q)
  { x with closeSeq := early x.closeSeq, againSeq := if (early x.closeSeq).isNone then none else early x.againSeq }

/-- An unwound thread (R361, R362): back at its mark, with HANDLER as it was there, out of every wait, and with what came after the mark
gone. Results of instructions that it issued before the mark still arrive (R62, R306). -/
def Thread.unwind (th : Thread) (m : Mark) (now : Nat) : Thread :=
  let th := th.noteUnwind m.addr
  { th with
    pc := m.addr, wait := .none, slept := none, holdSince := none, form := now, waitCnt := 0, lastQ := none, hot := false,
    marks := (th.marks.filter fun x => decide (x.seq < m.seq)).map fun x => x.before m.seq,
    out := th.out.filter fun o => decide (o.seq < m.seq),
    pend := th.pend.filter fun p => !(match p.2 with
      | .late _ _ (.read o ..) | .late _ _ (.readS o ..) => th.out.any fun x => x.id == o && decide (m.seq ≤ x.seq)
      | _ => false),
    handler := m.inHandler, pageOwed := none,
    popped := th.popped.filter fun p => decide (p.1 < m.seq) }

/-- The region that an unwound thread is in: that of a slot whose opening it still stands behind and which it has not left. -/
def State.rejoinRegion (s : State) (core t : Nat) : State :=
  let in_ := (s.thread t).marks.find? fun m =>
    let x := (s.core core).slot m.slot
    m.closeSeq.isNone && x.kind == .contain && x.opened.contains t
  match in_ with
  | some m =>
    if (s.thread t).region = some m.slot then s
    else (s.modThread t fun th => { th with region := some m.slot }).modCore core fun c =>
      let x := c.slot m.slot
      { c with slots := tset c.slots m.slot { x with group := if x.group.contains t then x.group else x.group ++ [t] } }
  | none => s.modThread t fun th => { th with region := none }

/-- A thread unwound past a `ctn.open` no longer stands behind it. The slot stays live (R361): the thread counts in its opening group
until it exits (log 74). -/
def State.leaveRegions (s : State) (core t : Nat) : State :=
  let held := (s.thread t).marks.map (·.slot)
  s.modCore core fun c => { c with slots := c.slots.map fun p =>
    if p.2.kind == .contain && p.2.opened.contains t && !held.contains p.1 then
      (p.1, { p.2 with opened := p.2.opened.filter (· != t), group := if p.2.group.contains t then p.2.group else p.2.group ++ [t] })
    else p }

/-- Messages come back and are withdrawn (R261): those the unwound threads popped return to the head of the inbox, newest first,
unless their sender is unwound too; those they sent and nobody popped are withdrawn. -/
def State.unwindMail (s : State) (pts : List (Nat × Mark)) (g : Tags) : State :=
  let back := pts.flatMap fun p => ((s.thread p.1).popped.filter fun x => decide (p.2.seq ≤ x.1) && (x.2.tags &&& g) == 0).map
    fun x => (p.1, x.1, x.2)
  let back := sortBy (fun x y => x.2.1 > y.2.1 || (x.2.1 == y.2.1 && tidOf x.1 > tidOf y.1)) back
  let s := back.foldl (fun s x => s.modBlock (blockOf x.1) fun b => { b with inbox := x.2.2 :: b.inbox }) s
  let sent (t seq : Nat) : Bool := pts.any fun p => p.1 == t && decide (p.2.seq ≤ seq)
  { s with
    blocks := s.blocks.map fun p => (p.1, { p.2 with inbox := p.2.inbox.filter fun m =>
      !(match m.sender with | some t => sent t m.seq | none => false) }),
    mail := s.mail.filter fun m => !sent m.sender m.seq }

/-- Held effects the unwound threads entered at or after their unwind points are discarded (R359, R361). -/
def State.discardHeld (s : State) (core : Nat) (pts : List (Nat × Mark)) : State :=
  let gone (h : Held) : Bool := pts.any fun p => p.1 == h.t && decide (p.2.seq ≤ h.seq)
  let dead := (s.core core).held.filter gone
  let s := s.modCore core fun c => { c with held := c.held.filter fun h => !gone h }
  dead.foldl (fun s h => match h.eff with
    | .ldred .. | .stmc .. => s.leaveGroupOp h.t h.seq
    | _ => s) s

/-- The old values of a group, logged at a place of the undo log while the thread holds a mark: the entries take the room of those that the
unwind has undone (R357). -/
def State.relogGroup (s : State) (t first n pos : Nat) : State :=
  if (s.thread t).marks.isEmpty then s
  else (List.range n).foldl (fun s k => s.modCrew (crewOf t) fun c =>
    { c with log := { tid := tidOf t, pos := pos, seq := s.seq, old := .reg (.v (first + k)) (s.getLoc t (.v (first + k))),
                      shadow := s.shadowAt t (.v (first + k)) } :: c.log }) s

/-- The guessing thread goes on after its guess (R253): the value group takes x, untagged, and the AID register stands. -/
def State.resumeGuess (s : State) (x : Slot) (pos : Nat) (val : W64) (poison : Bool) : State :=
  let t := x.owner
  let s := (s.modThread t fun th => { th with pc := x.at_ + 12 }).relogGroup t x.dst (2 * x.cnt) pos
  (s.putVals t x.dst x.cnt val.toNat poison 0).putVals t (x.dst + x.cnt) x.cnt x.aid.toNat false (s.thread t).tagUnion

/-- A denial takes effect at one core with the value x (R361). Children in the closure that other cores mirror are resolved there
after it. -/
def State.denyAt (s : State) (core slot : Nat) (val : W64) (poison : Bool) : State :=
  let c := s.core core
  let x := c.slot slot
  let g := c.closure slot
  let pts := s.points core g
  let own := if x.kind == .guess && !x.waitForm && (pts.any fun p => p.1 == x.owner) then
    (s.thread x.owner).marks.find? fun m => m.slot == slot && m.seq == x.seq else none
  let crews := (pts.map fun p => crewOf p.1).eraseDups
  let s := crews.foldl (fun s c => s.undoCrew c pts) s
  let s := s.unwindMail pts g
  let s := s.discardHeld core pts
  let s := pts.foldl (fun s p =>
    let lost := (s.thread p.1).deferred.filter fun d => c.slots.any fun k =>
      k.2.kind == .guess && k.2.aid == d.1 && decide (p.2.seq ≤ k.2.seq)
    let now := s.formNow
    let bars := (s.block (blockOf p.1)).bars
    let s := (s.rejoinShadow p.1).modThread p.1 fun th =>
      { th.unwind p.2 now with
        deferred := th.deferred.filter fun d => !lost.contains d,
        arrived := BitVec.ofNat 16 ((List.range 16).foldl (fun m k =>
          if th.arrived.getLsbD k && ((tgetD bars k {}).gone p.1 p.2.seq).isEmpty then m + 2 ^ k else m) 0) }
    let s := s.modBlock (blockOf p.1) fun b => { b with bars := b.bars.map fun k => (k.1, k.2.withdraw p.1 p.2.seq) }
    (s.leaveRegions core p.1).rejoinRegion core p.1) s
  let s := crews.foldl State.rejoin s
  let s := if x.kind == .guess && x.waitForm then s.fillDeferred x val poison else s
  let kids := (c.slots.filter fun p => g.getLsbD p.1 && p.1 != slot && p.2.kind == .guess).map fun p => Todo.deny p.2.aid 0 false
  let s := s.strip core g
  let s := match own with | some m => s.resumeGuess x m.logPos val poison | none => s
  s.addTodo (kids ++ [.release core])

/-- An AID is denied with a value. -/
def State.deny (s : State) (aid : W32) (val : W64) (poison : Bool) : State :=
  (s.slotsOfAid aid).foldl (fun s x => s.denyAt x.1 x.2 val poison) s

/-- A region's slot is denied by a use of poison or a shadow mismatch (R258, R412): its group continues at the handler, and s0 of
the crew receives the cause. The one error record names the thread whose cause denied it, and the place (R412, R472). -/
def State.contain (s : State) (core slot cause t unit pa : Nat) : State :=
  let x := (s.core core).slot slot
  if x.kind != .contain then s
  else
    let s := s.threadRecord t 3 cause unit pa
    let group := x.opened.filter fun t => !(s.thread t).exited
    let s := s.deny x.aid 0 false
    let s := group.foldl (fun s t => (s.rejoinShadow t).modThread t fun th => { th with pc := x.handler, region := none }) s
    match group with
    | [] => s
    | t :: _ => ((s.logWrite t (.reg (.s 0) (s.getLoc t (.s 0)))).putLoc t (.s 0)
        { val := BitVec.ofNat 32 cause, poison := false, tags := 0 }).setShadow t (.s 0) none

/-! ## Release (R348, R360) -/

/-- A held effect may be released: its tag set is empty, and its context is active on the core (R58, R348). -/
def State.mayRelease (s : State) (core : Nat) (h : Held) : Bool :=
  h.tags == 0 && (s.core core).active == some (s.block (blockOf h.t)).ctx

/-- What a released effect still waits for: the effect before it (R348); of an atomic, the tag sets of the sector that it reads (R187, R197);
of `mcg.close`, the group operations on the handle before it (R214); of a copy, a place among the core's commands (R293). -/
def State.effectWaits (s : State) (core : Nat) (h : Held) : Bool :=
  let ctx := (s.block (blockOf h.t)).ctx
  (match (s.thread h.t).relScope with | some (scope, id) => !s.performed h.t scope id | none => false) ||
  match h.eff with
  | .atomL f k off _ _ _ _ => (s.core k).sectorTags off f.ty.bytes != 0
  | .mcgClose k _ =>
    s.handleSent ctx k ||
      s.cores.any fun c => c.2.held.any fun e => (s.block (blockOf e.t)).ctx == ctx && decide (e.seq < h.seq) &&
        (match e.eff with | .ldred _ _ j _ | .stmc _ _ j _ _ => j == k | _ => false)
  | .copy .. => decide (s.coreCopies core ≥ 1024)
  | _ => false

/-- What stops an effect at its release (R182, R206): an `.x` access whose bytes no longer lie in a block of the context that is resident
there, or a posted failure at a fence of SCOPE 6. -/
def State.effectStop (s : State) (h : Held) : Option (Cause × W64) :=
  let ctx := (s.block (blockOf h.t)).ctx
  let x (core off n : Nat) : Option (Cause × W64) :=
    if s.ownsScratch ctx core off n then none else some (.permission, BitVec.ofNat 64 (core % 4 * 2 ^ 20 + off))
  match h.eff with
  | .storeX f core off _ => x core off (f.ty.bytes * f.count)
  | .atomL f core off _ false _ _ => x core off f.ty.bytes
  | .fence 6 _ => (s.thread h.t).postFail.map fun a => (.fabric, a)
  | _ => none

/-- A released effect that is stopped is not performed; its thread, unless it has exited, raises the cause at the effect's address, wherever it
has come to (DESIGN CHOICE, log 83). A result it would have written is not written. -/
def State.stopEffect (s : State) (h : Held) (c : Cause) (bad : W64) : State :=
  let s := s.modThread h.t fun th =>
    { th with postFail := if c == .fabric then none else th.postFail, out := th.out.filter fun o => some o.id != h.eff.out }
  if (s.thread h.t).exited then s else (s.raise h.t h.pc c h.pc bad).rejoin (crewOf h.t)

/-- A held effect is issued, or stopped; the next of its thread waits until it is performed at its SCOPE (R348). -/
def State.releaseHeld (s : State) (h : Held) : State :=
  match s.effectStop h with
  | some (c, bad) => s.stopEffect h c bad
  | none => (s.modThread h.t fun th => { th with relScope := some (h.eff.scope, s.nextId) }).enter h.t h.pc none h.eff

/-- Releases a thread's held effects in program order while their tag sets are empty: each is performed once the accesses that its
release side waits for are performed. -/
def State.releaseThread (s : State) (core t : Nat) : Nat → State
  | 0 => s
  | n + 1 =>
    match (s.core core).held.find? (·.t == t) with
    | none => s
    | some h =>
      if !s.mayRelease core h || s.effectWaits core h then s
      else
        let s := match h.eff.release with
          | some (scope, ord) => s.startRelease t scope ord
          | none => s
        if (match h.eff.release with | some (scope, _) => s.performed t scope | none => true) then
          let s := s.modCore core fun c =>
            { c with held := c.held.filter fun x => !(x.t == t && x.seq == h.seq && x.pc == h.pc) }
          (s.releaseHeld h).releaseThread core t n
        else s

/-- Releases the held effects of a core; those of a saved block wait for its restore (R394). -/
def State.releaseCore (s : State) (core : Nat) : State :=
  if core ≥ 256 then s
  else ((s.core core).held.map (·.t)).eraseDups.foldl (fun s t => s.releaseThread core t (s.core core).held.length) s

/-- The cores with an effect that may be released. -/
def State.releasable (s : State) : List Nat := (s.cores.filter fun c => decide (c.1 < 256) && c.2.held.any (s.mayRelease c.1)).map (·.1)

/-! ## Monitors of memory (R246, R251) -/

/-- The value of a watched word, as an integer of its type. -/
def Watch.value (w : Watch) (x : Nat) : Int := if w.signed then toSigned (8 * w.bytes) x else (x : Int)

/-- The condition of a monitor (R246). -/
def Watch.holds (w : Watch) (x : Nat) (poison : Bool) : Bool :=
  poison || condHolds w.cond (w.value x) (w.value w.cmp.toNat)

/-- A satisfied wait ends: d receives the value read (R246, R247). -/
def State.endWatch (s : State) (t : Nat) (w : Watch) (x : Nat) (poison : Bool) (g : Tags) : State :=
  let a := (s.thread t).pc
  let s := (s.modThread t fun th => { th with wait := .none }).consume t a (w.tags ||| g)
  let s := s.writeGroup t .v w.dst (words (w.bytes / 4) x) poison (w.tags ||| g)
  let s := s.modThread t fun th => { th with pc := a + 12 }
  (if w.acq && w.global then s.acquired t 1 w.scope else s).regroup [t]

/-- A wait whose condition is met: that of a swapped block marks the block woken (R403); where there is no log space for d, the
instruction is issued again, and waits for it there (R357); otherwise it ends. -/
def State.meetWatch (s : State) (t : Nat) (w : Watch) (x : Nat) (poison : Bool) (g : Tags) : State :=
  if (s.block (blockOf t)).stage == .swapped then s.modBlock (blockOf t) fun b => { b with woken := true }
  else if ((s.thread t).marks != [] || w.tags ||| g != 0) && !s.logRoom t (4 * w.bytes) then
    (s.modThread t fun th => { th with wait := .none }).regroup [t]
  else s.endWatch t w x poison g

/-- A guess of a core whose watched word holds a value: one other than the pending value resolves it (R251). A denial that comes while sub-cores
have had their turn in the cycle reaches the reckoner as the next one begins, before what that affirms (R364 row 2; DESIGN CHOICE, log 99). -/
def State.resolveWatch (s : State) (core : Nat) (y : Slot) (g : GuessWatch) : State :=
  let x := ofBytes (s.homeRead (dieOf core) g.pa g.bytes)
  let poison := s.homePoisoned (dieOf core) g.pa g.bytes
  let acquire (s : State) : State := if g.acq then s.acquireAction core y.ctx else s
  if x = g.pending.toNat || !s.live y.aid then s
  else if x = g.presumed.toNat then (acquire s).affirm y.aid
  else if s.subsDone.isEmpty then (acquire s).deny y.aid (BitVec.ofNat 64 x) poison
  else { s with fired := s.fired ++ [{ aid := y.aid, val := BitVec.ofNat 64 x, poison := poison, core := core, ctx := y.ctx, acq := g.acq }] }

/-- The denials of monitors that wait for the cycle to begin take effect (R364). -/
def State.fire (s : State) : State :=
  s.fired.foldl (fun s x =>
    if s.live x.aid then (if x.acq then s.acquireAction x.core x.ctx else s).deny x.aid x.val x.poison else s) { s with fired := [] }

/-- Re-evaluates the monitors that watch bytes of memory: waits, then guesses (R246, R251). Each reads the word at its home slice as its die
does (R331). One that found no free monitor of the slice is evaluated like the others: its retries change no outcome (R248). -/
def State.reval (s : State) (pa n : Nat) : State :=
  let s := (s.threads.map (·.1)).foldl (fun s t =>
    match (s.thread t).wait with
    | .watch w =>
      if w.global && overlap w.pa w.bytes pa n then
        let die := dieOf (s.coreOf t)
        let x := ofBytes (s.homeRead die w.pa w.bytes)
        let p := s.homePoisoned die w.pa w.bytes
        if w.holds x p then s.meetWatch t w x p 0 else s
      else s
    | _ => s) s
  let hits := s.cores.flatMap fun c => c.2.slots.filterMap fun k => match k.2.watch with
    | some g => if overlap g.pa g.bytes pa n then some (c.1, k.2, g) else none
    | none => none
  hits.foldl (fun s h => s.resolveWatch h.1 h.2.1 h.2.2) s

/-- Re-evaluates the monitors that watch bytes of a core's scratchpad part (R246). -/
def State.revalS (s : State) (core off n : Nat) : State :=
  (s.threads.map (·.1)).foldl (fun s t =>
    match (s.thread t).wait with
    | .watch w =>
      if !w.global && s.coreOf t == core && overlap w.pa w.bytes off n then
        let c := s.core core
        let x := ofBytes (c.sRead w.pa w.bytes)
        let p := c.sectorPoison w.pa w.bytes
        if w.holds x p then s.meetWatch t w x p (c.sectorTags w.pa w.bytes) else s
      else s
    | _ => s) s

end Sys2Proof.Machine
end

