-- ==== Sys2Proof/Machine/Sched.lean ====
section
/-! DEFINITION. Fetching a word, the threads that are ready, the choice of an issue group, and what the issue of one leaves behind
(R18, R39 to R44, R57, R60, R63, R64, R79, R80, R410, R461). -/

namespace Sys2Proof

/-- The group yields after the instruction (R42, R64, R228). -/
def Instr.yields (i : Instr) : Bool :=
  match i with
  | .yield _ => true
  | i => match i.opcode with | some (_, f) => f.y | none => false

end Sys2Proof

namespace Sys2Proof.Machine

/-! ## Fetch (R60, R79 step 1) -/

/-- A page of code. -/
def State.codePage (s : State) (ctx : BitVec 16) (va : W64) : Except Stop Page :=
  if !validVa va then .error (.trap .permission va)
  else match s.translate ctx va with
    | .error l => .error (.park va l 4)
    | .ok p => if p.x then .ok p else .error (.trap .permission va)

/-- The twelve bytes of a word, and for a part with an uncorrectable error its UNIT and physical address (R410, R472). -/
def State.fetch (s : State) (ctx : BitVec 16) (pc : W64) : Except Stop (List Byte × Option (Nat × Nat)) :=
  match s.codePage ctx pc with
  | .error e => .error e
  | .ok p =>
    let off := pc.toNat % p.size
    let n := min 12 (p.size - off)
    let bad1 := if s.poisoned p.pa n then some (unitOf p.pa, p.pa) else none
    if n = 12 then .ok (s.keptRead p.pa 12, bad1)
    else match s.codePage ctx (pc + BitVec.ofNat 64 n) with
      | .error e => .error e
      | .ok q =>
        .ok (s.keptRead p.pa n ++ s.keptRead q.pa (12 - n),
          match bad1 with
          | some x => some x
          | none => if s.poisoned q.pa (12 - n) then some (unitOf q.pa, q.pa) else none)

/-- The instruction at an address for a thread, where it is fetched and decodes (R79 steps 1 to 5). -/
def State.peek (s : State) (blk : Nat) (pc : W64) : Option Instr :=
  match s.fetch (s.block blk).ctx pc with
  | .ok (bs, none) => match decodeBytes bs with | .ok i => some i | .error _ => none
  | _ => none

/-- Step 5 of R79: what the word names lies in the block's allocation. -/
def Launch.holds (l : Launch) (i : Instr) : Bool :=
  match i.shape with
  | some (f, sh) => sh.inRange f l.regs l.uregs l.tiles
  | none => true

/-! ## Readiness (R39, R63) -/

/-- The checks of a word at a home slice (R184, R247, R251): a plain page of this device, readable. -/
def State.locateWord (s : State) (t : Nat) (va : W64) (n : Nat) : Except Stop Nat :=
  match s.locate t va n 1 .load (fun p => p.fmt == 0 && p.peer.isNone) with
  | .error e => .error e
  | .ok ps => .ok ((ps.head?.map (·.pa)).getD 0)

/-- A `guess.w` whose word holds the pending value, so that it would mint, finds no free slot, or no log space for the value group that a guess
not in its wait form logs under its own mark (R39, R251, R252, R357). -/
def State.guessWaits (s : State) (t : Nat) (f : Fields) : Bool :=
  let full := (s.core (s.coreOf t)).freeSlot.isNone
  let log := (s.thread t).marks.isEmpty && !s.waitForm t (s.thread t).pc 0 && !s.logRoom t (16 * f.ty.regs)
  (full || log) && !(s.addr64 t f false).1.poison &&
    match s.locateWord t (s.addr64 t f false).2 f.ty.bytes with
    | .error _ => false
    | .ok pa => ofBytes (((s.settleAt t [spanG (s.addr64 t f false).2 f.ty.bytes]).recall pa).homeRead (dieOf (s.coreOf t)) pa f.ty.bytes) ==
        (s.readXc t f.ty.regs f).val

/-- A thread may issue its next instruction (R39): it waits for nothing, and its instruction neither stalls nor waits at issue. -/
def State.ready (s : State) (t : Nat) : Bool :=
  let th := s.thread t
  if th.exited || th.wait != .none || th.windowSpent then false
  else match s.peek (blockOf t) th.pc with
    | none => true
    | some i =>
      match i.shape with
      | none => true
      | some (f, _) =>
        if s.stalled t i || s.crewWaits t i then false
        else match s.guard t f with
          | .ok true => !s.ownWaits t i && !(match i with | .guessW f => s.guessWaits t f | _ => false)
          | _ => true

/-- The crew may issue: its block is resident in the active context of its core, and nothing has stopped it (R57, R277, R391). A
crew that is to stop goes on to its first boundary at which none of its long-latency instructions is outstanding. -/
def State.crewLive (s : State) (c : Nat) : Bool :=
  let b := s.block (c / 4)
  let cr := s.crew c
  (b.stage == .resident || (b.stage == .saving && s.longDue c)) && (s.core b.core).active == some b.ctx && cr.halted.isNone &&
    !cr.stepped && !((cr.haltReq || cr.brkReq) && !s.longDue c)

/-- The crews of a sub-core. -/
def State.subCrews (s : State) (core sub : Nat) : List Nat :=
  (s.crews.map (·.1)).filter fun c => (s.block (c / 4)).core == core && (s.crew c).sub == sub

/-- A PC group with the data that R41 chooses by. -/
structure PcGroup where
  crew : Nat
  pc : W64
  threads : List Nat
  form : Nat
  waitCnt : Nat
  hot : Bool
  lastQ : Option (Nat × Nat)
  fair : Nat
  /-- cycle and order of the block's placement (R461) -/
  placed : Nat × Nat × Nat × Nat
  deriving DecidableEq, Repr

/-- Lexicographic order of four numbers. -/
def before4 (x y : Nat × Nat × Nat × Nat) : Bool :=
  let (a, b, c, d) := x
  let (e, f, g, h) := y
  a < e || (a == e && (b < f || (b == f && (c < g || (c == g && d < h)))))

/-- The last-issued quarter of the part of a merged group that issued more recently, with the place of that issue (R39). -/
def lastIssue (ths : List Thread) : Option (Nat × Nat) :=
  ths.foldl (fun m th => match th.lastQ, m with
    | some q, some x => if x.2 < q.2 then some q else m
    | some q, none => some q
    | none, m => m) none

/-- The ready threads of a crew at an address as one PC group (R39). The merged group keeps the earlier formation cycle, the larger
wait count, and the last-issued quarter of the part that issued more recently. -/
def State.pcGroup (s : State) (c : Nat) (pc : W64) (ts : List Nat) : PcGroup :=
  let b := s.block (c / 4)
  let ths := ts.map s.thread
  let seq := match tget s.nodes b.node with | some n => n.seq | none => 0
  { crew := c, pc := pc, threads := ts,
    form := match ths with | [] => 0 | x :: r => r.foldl (fun m th => min m th.form) x.form,
    waitCnt := ths.foldl (fun m th => max m th.waitCnt) 0,
    hot := ths.any (·.hot),
    lastQ := lastIssue ths,
    fair := b.launch.fair, placed := (b.placedAt, seq, b.index, c % 4) }

/-- The ready PC groups of a crew: of the threads that were ready as the cycle began, since every sub-core selects in each cycle on what it
began with (R18, R41, R290). -/
def State.crewGroups (s : State) (c : Nat) : List PcGroup :=
  if !s.crewLive c then []
  else
    let ts := (s.crewThreads c).filter fun t => s.up.contains t && s.ready t
    let pcs := ts.foldl (fun l t => let pc := (s.thread t).pc; if l.contains pc then l else l ++ [pc]) ([] : List W64)
    pcs.map fun pc => s.pcGroup c pc (ts.filter fun t => (s.thread t).pc == pc)

/-- Step 1 of R41: the group is owed an issue (R461). -/
def PcGroup.owed (g : PcGroup) : Bool := g.fair != 0 && g.waitCnt ≥ g.fair

/-- A group goes before another among those owed an issue: the larger wait count, then the earlier formation cycle. Of groups equal in
both, the spec names no order: the first by crew number, then by its lowest thread, is taken (DESIGN CHOICE, log 72). -/
def PcGroup.beforeOwed (g h : PcGroup) : Bool := g.waitCnt > h.waitCnt || (g.waitCnt == h.waitCnt && g.form < h.form)

/-- Step 3 of R41. -/
def PcGroup.beforeAge (g h : PcGroup) : Bool :=
  g.form < h.form || (g.form == h.form &&
    (before4 g.placed h.placed || (g.placed == h.placed && g.pc.toNat < h.pc.toNat)))

/-- The first group under an order. -/
def firstBy (lt : PcGroup → PcGroup → Bool) : List PcGroup → Option PcGroup
  | [] => none
  | g :: gs => some (gs.foldl (fun m h => if lt h m then h else m) g)

/-- The choice of R41. -/
def chooseGroup (gs : List PcGroup) : Option PcGroup :=
  match firstBy PcGroup.beforeOwed (gs.filter PcGroup.owed) with
  | some g => some g
  | none =>
    match gs.find? (·.hot) with
    | some g => some g
    | none => firstBy PcGroup.beforeAge gs

/-- The quarter a group issues: the next one after its last that holds a thread, in ascending order with wrap (R39). -/
def PcGroup.quarter (g : PcGroup) : Nat :=
  let qs := (List.range 4).filter fun q => g.threads.any fun t => tidOf t / 32 == q
  match g.lastQ with
  | none => qs.headD 0
  | some l => (qs.find? (· > l.1)).getD (qs.headD 0)

/-- The threads a group issues together: one quarter, or all of them where the instruction issues once (R66). -/
def State.issueThreads (s : State) (g : PcGroup) : List Nat :=
  let once := match s.peek (g.crew / 4) g.pc with | some i => i.once | none => false
  if once then g.threads else g.threads.filter fun t => tidOf t / 32 == g.quarter

/-- A thread whose wait is one for a slot, log space or a ninth tag: how long it has waited counts (R252, R357, R370). -/
def State.reckonHold (s : State) (t : Nat) : Bool :=
  let th := s.thread t
  if th.exited then false
  else if th.wait == .send then s.sendNeedsSlots t
  else if th.wait != .none then false
  else match s.peek (blockOf t) th.pc with
    | none => false
    | some i =>
      match i.shape with
      | none => false
      | some (f, sh) =>
        let c := s.core (s.coreOf t)
        (match s.guard t f with | .ok b => b | .error _ => false) && !s.stalled t i &&
        (s.logWaits t i sh f ||
          match i with
          | .guess _ => c.freeSlot.isNone
          | .guessW f => s.guessWaits t f
          | .ctnOpen _ => th.region.isNone && c.freeSlot.isNone
          | _ => false)

/-- Starts or ends the count of a thread's hold (R252); with a `sys.reckon` of 0 the hold ends in ASSUME_OVERFLOW at once (R358). -/
def State.countHold (s : State) (t : Nat) : State :=
  let th := s.thread t
  if s.reckonHold t then
    if (s.block (blockOf t)).reckon = 0 then (if s.crewLive (crewOf t) then s.overflow t else s)
    else if th.holdSince.isNone then s.modThread t fun th => { th with holdSince := some s.cycle } else s
  else if th.holdSince.isSome then s.modThread t fun th => { th with holdSince := none } else s

/-- What a PC group is known by, noted in each of its threads (R39, R44): a part that splits off keeps it. A group that is not chosen
waits one cycle more (R40). -/
def State.noteGroup (s : State) (h : PcGroup) (chosen : Bool) : State :=
  h.threads.foldl (fun s t => s.modThread t fun th =>
    { th with form := h.form, lastQ := h.lastQ, hot := chosen, waitCnt := if chosen then h.waitCnt else h.waitCnt + 1 }) s

/-- The threads of a sub-core's crews are in no group that issued last. -/
def State.cool (s : State) (crews : List Nat) : State :=
  (crews.flatMap s.crewThreads).foldl (fun s t => s.modThread t fun th => { th with hot := false }) s

/-- Of the ready groups of a sub-core one issues, and the others are passed over (R40, R41). -/
def State.passOver (s : State) (crews : List Nat) (gs : List PcGroup) (g : PcGroup) : State :=
  gs.foldl (fun s h => s.noteGroup h (h.crew == g.crew && h.pc == g.pc)) (s.cool crews)

/-- ISSUE_SELECTION (R18, R41): a sub-core chooses a ready group of its active context, which then issues. -/
def execIssueSelection (core sub : Nat) (s : State) : Host.Outcome State Fault Refusal :=
  let crews := s.subCrews core sub
  let s := (crews.flatMap s.crewThreads).foldl State.countHold s
  let gs := crews.flatMap s.crewGroups
  match chooseGroup gs with
  | none => .next s
  | some g => .next { (s.passOver crews gs g) with cur := some (.group g.crew g.pc (s.issueThreads g)) }

/-! ## Issue -/

/-- What the threads of a group are told of a word that cannot be issued for them (R79 steps 1 to 5). -/
def State.refuseWord (s : State) (pc : W64) (ts : List Nat) (x : Stop) : State :=
  match x with
  | .park va l k =>
    (ts.foldl (fun s t => s.park t pc va) s).reportFaults [] (ts.map fun t => { t := t, va := va, level := l, kind := k })
  | x => ts.foldl (fun s t => s.stopThread t pc x) s

/-- The instruction that a chosen group issues, after steps 1 to 5 of R79 and R80, or what its failure leaves. A fetch that fails
concerns every thread at the address; the other steps the issue group. -/
def State.fetched (s : State) (c : Nat) (pc : W64) (ts : List Nat) : Except State Instr :=
  match s.fetch (s.block (c / 4)).ctx pc with
  | .error e => .error (s.refuseWord pc (s.standing pc (s.crewThreads c)) e)
  | .ok (_, some (unit, pa)) => .error (s.refuseWord pc ts (.poison pc unit pa))
  | .ok (bs, none) =>
    match decodeBytes bs with
    | .error _ => .error (s.refuseWord pc ts (.trap .illegal 0))
    | .ok i =>
      if !i.isThreadWord then .error (s.refuseWord pc ts (.trap .illegal 0))
      else if !(s.block (c / 4)).launch.holds i then .error (s.refuseWord pc ts (.trap .regRange 0))
      else .ok i

/-- The threads that are all at one address, where they are. -/
def State.together (s : State) (ts : List Nat) : Bool :=
  match ts.map fun t => (s.thread t).pc with
  | [] => false
  | p :: ps => ps.all (· == p)

/-- One issue spends one place of the lookahead windows of a thread that has moved on (R63). -/
def Thread.spend (th : Thread) (seq : Nat) (pc : W64) : Thread :=
  if th.pc = pc ∧ th.wait = .none then th
  else { th with out := th.out.map fun o => if o.long && o.seq != seq then { o with since := o.since + 1 } else o }

/-- What the issue of a group leaves (R39, R40, R42, R44): the wait count of the group returns to 0, its last-issued quarter is
noted, the group that issued last is found again among what remains of it, STEP is spent (R277), and joins are looked at again, since
the issue may have written their masks (R46). Threads that it leaves waiting at the word have not issued. Where one quarter of a group over
several has issued, the threads that are left at the address count as the group that issued, and an instruction that issues once across all
quarters leaves the quarter of its lowest thread as the last issued: R39 and R41 name neither (DESIGN CHOICE, log 96). -/
def State.issued (s : State) (c : Nat) (pc : W64) (ts : List Nat) (y : Bool) : State :=
  let rest := (s.standing pc (s.crewThreads c)).filter fun t => (s.thread t).hot && !ts.contains t
  let ts := ts.filter fun t => !s.stayed.contains t
  let q := (ts.head?.map fun t => tidOf t / 32).getD 0
  let s := s.cool (s.subCrews (s.block (c / 4)).core (s.crew c).sub)
  let seq := s.seq
  let s := (if ts.isEmpty then [] else ts ++ rest).foldl (fun s t => s.modThread t fun th =>
    let th := th.spend seq pc
    { th with waitCnt := 0, lastQ := some (q, seq), form := if y then s.formNow else th.form, holdSince := none }) s
  let moved := ts.filter fun t => !(s.thread t).exited && (s.thread t).wait == .none
  let next := if y then [] else if !rest.isEmpty then rest else if s.together moved then moved else []
  let s := next.foldl (fun s t => s.modThread t fun th => { th with hot := true }) s
  let s := State.modCrew { s with cur := none, seq := seq + 1, stayed := [] } c fun cr =>
    if cr.stepReq && !ts.isEmpty then { cr with stepReq := false, stepped := true } else cr
  s.rejoin c

end Sys2Proof.Machine
end

