-- ==== Sys2Proof/Machine/Sync.lean ====
section
/-! DEFINITION. Class 5: barriers, monitors, assumptions, containment regions and messages (R238 to R261, R370, R466, R467). -/

namespace Sys2Proof.Machine

/-- The register number of a source that names a vector register group. -/
def vregOf (src : Src) : Nat := match src with | .reg r _ _ => r.toNat | _ => 0

/-- The payload of an immediate source. -/
def payloadOf (src : Src) : Nat := match src with | .imm p => p.toNat | _ => 0

/-! ## Barriers (R242 to R245, R466) -/

/-- A barrier of a block. -/
def Block.bar (b : Block) (k : Nat) : Barrier := tgetD b.bars k {}

/-- Changes a barrier of a block. -/
def State.modBar (s : State) (blk k : Nat) (f : Barrier → Barrier) : State :=
  s.modBlock blk fun b => { b with bars := tset b.bars k (f (b.bar k)) }

/-- Complete() (R243): EXPECT 0 stands for ALL. -/
def State.barComplete (s : State) (blk k : Nat) : Bool :=
  let b := (s.block blk).bar k
  match b.expect with
  | none => false
  | some 0 => (s.blockThreads blk).all fun t => (s.thread t).exited || (s.thread t).arrived.getLsbD k
  | some n => decide (b.arrived ≥ n)

/-- Release() (R466): the waiters go on, with the acquire of R244 that needs no cache action, and the phase begins anew. -/
def State.releaseBar (s : State) (blk k : Nat) : State :=
  let g := ((s.block blk).bar k).rtags
  let ts := s.blockThreads blk
  let s := s.modBar blk k fun b => { phase := !b.phase }
  let s := s.modBlock blk fun b =>
    if b.sequencer.wait == .bar k && b.sequencer.st == .waiting then
      { b with sequencer := { b.sequencer with pc := b.sequencer.pc + 12, st := .running, wait := .none } }
    else b
  let s := ts.foldl (fun s t => s.modThread t fun th => { th with arrived := th.arrived &&& ~~~ BitVec.ofNat 16 (2 ^ k) }) s
  ts.foldl (fun s t =>
    let a := (s.thread t).pc
    if (s.thread t).wait == .bar k then
      (((s.modThread t fun th => { th with wait := .none }).consume t a g).goto t (a + 12)).regroup [t]
    else s) s

/-- Releases a barrier whose phase is complete. -/
def State.settleBar (s : State) (blk k : Nat) : State := if s.barComplete blk k then s.releaseBar blk k else s

/-- Evaluates every barrier of a block again (R243: each time a thread of it exits). -/
def State.settleBars (s : State) (blk : Nat) : State := (List.range 16).foldl (fun s k => s.settleBar blk k) s

/-- One arrival at a barrier with count n: by a thread, or by the sequencer (R243). -/
def State.arriveBar (s : State) (blk k n : Nat) (t : Option Nat) : State :=
  let s := s.modBar blk k fun b =>
    { b with
      expect := match b.expect with | none => some n | x => x,
      arrived := b.arrived + 1,
      rtags := match t with | some t => b.rtags ||| (s.thread t).tagUnion | none => b.rtags,
      arrivals := match t with | some t => b.arrivals ++ [(t, s.seq)] | none => b.arrivals }
  let s := match t with
    | some t => s.modThread t fun th => { th with arrived := th.arrived ||| BitVec.ofNat 16 (2 ^ k) }
    | none => s
  s.settleBar blk k

/-- `bar` (R243, R244). -/
def execBar (f : Fields) (s : State) : Host.Outcome State Fault Refusal :=
  s.perform (.bar f) f fun t s =>
    let a := s.here t
    let arrive (s : State) : Except Stop State :=
      let s := if f.xc.getLsbD 0 then s else s.modThread t fun th => { th with pc := a, wait := .bar f.dst.toNat }
      .ok (s.arriveBar (blockOf t) f.dst.toNat (payloadOf f.sb) (some t))
    if f.ord = 3 then s.released t a f.scope.toNat 2 arrive else arrive s

/-! ## Monitors (R246 to R248) -/

/-- Monitors armed at the home slice of an address: waits and guesses (R248). -/
def State.monitorsAt (s : State) (pa : Nat) : Nat :=
  let same (x : Nat) : Bool := homeDie x == homeDie pa && Config.homeSlice (x / 128) % 16 == Config.homeSlice (pa / 128) % 16
  (s.threads.filter fun p => match p.2.wait with | .watch w => w.global && w.armed && same w.pa | _ => false).length +
  (s.cores.map fun c => (c.2.slots.filter fun k => match k.2.watch with | some g => g.armed && same g.pa | none => false).length).sum

/-- A home slice has a free monitor for an address (R248). -/
def State.monitorFree (s : State) (pa : Nat) : Bool := decide (s.monitorsAt pa < 1024)

/-- The compare and the arming of a `waitc` at its home slice, as one step (R246). -/
def State.armG (s : State) (t : Nat) (w : Watch) : State :=
  if !s.monitorFree w.pa then s.modThread t fun th => { th with wait := .watch { w with armed := false } }
  else
    let s := s.recall w.pa
    let x := ofBytes (s.homeRead (dieOf (s.coreOf t)) w.pa w.bytes)
    let p := s.homePoisoned (dieOf (s.coreOf t)) w.pa w.bytes
    let s := s.modThread t fun th => { th with wait := .watch { w with armed := true } }
    if w.holds x p then s.meetWatch t w x p 0 else s

/-- `waitc` (R246, R247). -/
def execWaitc (f : Fields) (s : State) : Host.Outcome State Fault Refusal :=
  s.perform (.waitc f) f fun t s =>
    let a := s.here t
    let (o, va) := s.addr64 t f false
    if o.poison then .error o.stop
    else match s.readSrc t f.ty.regs f.ty f.sb with
      | .error e => .error e
      | .ok b =>
        match s.locateWord t va f.ty.bytes with
        | .error e => .error e
        | .ok pa =>
          .ok (((s.settleAt t [spanG va f.ty.bytes]).modThread t fun th => { th with pc := a }).armG t
            { global := true, pa := pa, va := va, bytes := f.ty.bytes, signed := f.ty == .s32 || f.ty == .s64,
              cond := f.xc.toNat % 8, cmp := BitVec.ofNat 64 b.val, dst := f.dst.toNat, acq := f.ord == 1,
              scope := f.scope.toNat, tags := o.tags ||| b.tags })

/-- `waitw` (R246): the compare and the arming at the scratchpad. -/
def execWaitw (f : Fields) (s : State) : Host.Outcome State Fault Refusal :=
  s.perform (.waitw f) f fun t s =>
    let a := s.here t
    let (o, x) := s.addr32 t f false
    if o.poison then .error o.stop
    else match s.readSrc t 1 f.ty f.sb with
      | .error e => .error e
      | .ok b =>
        match s.checkS t x 4 4 with
        | .error e => .error e
        | .ok off =>
          let s := s.settleAt t [spanS (s.coreOf t) off 4]
          let c := s.core (s.coreOf t)
          let w : Watch :=
            { global := false, pa := off, va := BitVec.ofNat 64 x, bytes := 4, signed := f.ty == .s32, cond := f.xc.toNat % 8,
              cmp := BitVec.ofNat 64 b.val, dst := f.dst.toNat, acq := f.ord == 1, scope := f.scope.toNat,
              tags := o.tags ||| b.tags }
          let v := ofBytes (c.sRead off 4)
          let p := c.sectorPoison off 4
          let s := s.modThread t fun th => { th with pc := a, wait := .watch w }
          .ok (if w.holds v p then s.meetWatch t w v p (c.sectorTags off 4) else s)

/-- The armings of a thread's `guess.w` that found no free monitor are tried again (R248, R251): a word that no longer holds the pending
value resolves the guess. -/
def State.retryGuess (s : State) (core : Nat) (x : Slot) : State :=
  match x.watch with
  | some g =>
    if g.armed then s
    else
      let s := s.recall g.pa
      let s := if s.monitorFree g.pa then s.modCore core fun c =>
          { c with slots := c.slots.map fun p => if p.2.kind == .guess && p.2.aid == x.aid then
            (p.1, { p.2 with watch := some { g with armed := true } }) else p }
        else s
      s.resolveWatch core x g
  | none => s

/-- MONITOR_RETRY (R248): an arming that found no free monitor is tried again; it changes no outcome. -/
def execMonitorRetry (t : Nat) (s : State) : Host.Outcome State Fault Refusal :=
  let core := s.coreOf t
  let mine := ((s.core core).slots.map (·.2)).filter fun x => x.kind == .guess && x.owner == t
  let s := mine.foldl (fun s x => s.retryGuess core x) s
  match (s.thread t).wait with
  | .watch w => .next (if w.global && !w.armed then s.armG t w else s)
  | _ => .next s

/-! ## Assumptions (R249 to R254) -/

/-- A guess on the presumption b (R250, R252, R467). The tag set of b, which the guess itself consumes, counts in PARENTS and in the depth
(DESIGN CHOICE, log 75). The AID register is written before the guess's own mark, so that a denial of it leaves the AID register as the
guess wrote it (log 26). -/
def State.guess (s : State) (t : Nat) (a : W64) (f : Fields) (b : Opd) (watch : Option GuessWatch) : Except Stop State :=
  let core := s.coreOf t
  let n := f.ty.regs
  let w := s.waitForm t a ((s.thread t).tagUnion ||| b.tags)
  let s := if w then s else s.consume t a b.tags
  let parents := (s.core core).parentsOf (s.thread t).tagUnion
  if !w && (s.thread t).marks.isEmpty && !s.logRoom t (16 * n) then .error .wait
  else match s.mint core fun aid =>
      { kind := .guess, aid := aid, ctx := (s.block (blockOf t)).ctx, owner := t, parents := parents, watch := watch, at_ := a,
        dst := f.dst.toNat, cnt := n, waitForm := w, val := BitVec.ofNat 64 b.val, valPoison := b.poison, seq := s.seq } with
  | none => .error .wait
  | some (k, s) =>
    let aid := ((s.core core).slot k).aid
    let s := s.writeGroup t .v (f.dst.toNat + n) (words n aid.toNat) false 0
    if w then .ok ((s.logDests t ((List.range n).map fun k => Loc.v (f.dst.toNat + k))).modThread t fun th =>
      { th with deferred := th.deferred ++ [(aid, f.dst.toNat, n)] })
    else .ok ((s.consume t a (tagOf k)).writeGroup t .v f.dst.toNat (words n b.val) b.poison b.tags)

/-- `guess` (R250). -/
def execGuess (f : Fields) (s : State) : Host.Outcome State Fault Refusal :=
  s.perform (.guess f) f fun t s =>
    match s.readSrc t f.ty.regs f.ty f.sb with
    | .error e => .error e
    | .ok b => s.guess t (s.here t) f b none

/-- `guess.w` (R251): the compare, the mint and the binding of the monitor are one step at the home slice. -/
def execGuessW (f : Fields) (s : State) : Host.Outcome State Fault Refusal :=
  s.perform (.guessW f) f fun t s =>
    let a := s.here t
    let n := f.ty.regs
    let (o, va) := s.addr64 t f false
    if o.poison then .error o.stop
    else match s.readSrc t n f.ty f.sb with
      | .error e => .error e
      | .ok b =>
        let u := s.readXc t n f
        match s.locateWord t va f.ty.bytes with
        | .error e => .error e
        | .ok pa =>
          let s := (s.settleAt t [spanG va f.ty.bytes]).recall pa
          let v := ofBytes (s.homeRead (dieOf (s.coreOf t)) pa f.ty.bytes)
          if v ≠ u.val then
            let p := s.homePoisoned (dieOf (s.coreOf t)) pa f.ty.bytes
            let s := s.consume t a o.tags
            let s := s.writeGroup t .v f.dst.toNat (words n v) p o.tags
            let s := s.writeGroup t .v (f.dst.toNat + n) (words n 0) false 0
            .ok (s.acquired t f.ord.toNat f.scope.toNat)
          else
            s.guess t a f b (some { pa := pa, bytes := f.ty.bytes, pending := BitVec.ofNat 64 u.val,
                                    presumed := BitVec.ofNat 64 b.val, acq := f.ord == 1, scope := f.scope.toNat,
                                    armed := s.monitorFree pa })

/-- A live AID whose slot belongs to the thread's context (R253). -/
def State.resolvable (s : State) (t : Nat) (aid : W32) : Bool :=
  match s.guessOf aid with
  | some (core, k) => ((s.core core).slot k).ctx == (s.block (blockOf t)).ctx
  | none => false

/-- `affirm` (R253, R360): pd is written, and the AID affirmed. -/
def execAffirm (f : Fields) (s : State) : Host.Outcome State Fault Refusal :=
  s.perform (.affirm f) f fun t s =>
    match s.readSrc t 1 .b32 f.sa with
    | .error e => .error e
    | .ok o =>
      if o.poison then .error o.stop
      else
        let aid := BitVec.ofNat 32 o.val
        let ok := s.resolvable t aid
        let s := s.writeLoc t (.p f.dst.toNat) (if ok then 1 else 0) false 0
        .ok (if ok then s.affirm aid else s)

/-- `deny` (R253, R361): pd is written, and the AID denied with x; a thread that is unwound by it writes no pd. -/
def execDeny (f : Fields) (s : State) : Host.Outcome State Fault Refusal :=
  s.perform (.deny f) f fun t s =>
    match s.readSrc t 1 .b32 f.sa with
    | .error e => .error e
    | .ok o =>
      if o.poison then .error o.stop
      else match s.readSrc t f.ty.regs f.ty f.sb with
        | .error e => .error e
        | .ok x =>
          let aid := BitVec.ofNat 32 o.val
          let ok := s.resolvable t aid
          let s := s.writeLoc t (.p f.dst.toNat) (if ok then 1 else 0) false 0
          .ok (if ok then s.deny aid (BitVec.ofNat 64 x.val) x.poison else s)

/-- `tags` (R241, R254): the result has a clear poison bit and the guard's tag set, and no tag but the guard's is consumed. -/
def execTags (f : Fields) (s : State) : Host.Outcome State Fault Refusal :=
  s.perform (.tags f) f fun t s =>
    let write (s : State) (v : Nat) : State := s.putGroup t f.dst.toNat 1 v false ((s.thread t).getP f.gp.toNat).tags
    match f.xc.toNat % 4 with
    | 0 =>
      match s.readSrc t 1 .b32 f.sa with
      | .error e => .error e
      | .ok o => .ok (write s (o.tags.toNat + if o.poison then 256 else 0))
    | 1 => .ok (write s (s.thread t).tagUnion.toNat)
    | _ =>
      let x := (s.core (s.coreOf t)).slot (payloadOf f.sa)
      .ok (write s (if x.kind == .free then 0 else x.aid.toNat))

/-! ## Containment (R256 to R258) -/

/-- `ctn.open` (R256, R258): once for the PC group; a thread already in a region raises ILLEGAL. -/
def execCtnOpen (f : Fields) (s : State) : Host.Outcome State Fault Refusal :=
  match s.group with
  | none => .next s
  | some (_, a, ts) =>
    let all := s.standing a ts
    let (s1, ts) := s.guardAll f a all
    let s2 := (ts.filter fun t => (s1.thread t).region.isSome).foldl (fun s t => s.raise t a .illegal a 0) s1
    match ts.filter fun t => (s1.thread t).region.isNone with
    | [] => .next s2
    | t :: r =>
      let g := t :: r
      let core := s2.coreOf t
      match s2.mint core fun aid =>
          { kind := .contain, aid := aid, ctx := (s2.block (blockOf t)).ctx, owner := t, group := g, opened := g, at_ := a,
            handler := a + Fields.offset f, seq := s2.seq } with
      | none => .next (s2.stay g)
      | some (k, s3) =>
        .next (s.followAll (.ctnOpen f) f a all [] (g.foldl (fun s u =>
          ((s.consume u a (tagOf k)).modThread u fun th => { th with region := some k }).advance u a) s3))

/-- `ctn.close` (R257, R258). -/
def execCtnClose (f : Fields) (s : State) : Host.Outcome State Fault Refusal :=
  s.perform (.ctnClose f) f fun t s =>
    if (s.thread t).region.isNone then .error (.trap .illegal 0) else .ok (s.closeRegion t)

/-! ## Messages (R259 to R261, R370) -/

/-- A slot of a core for an AID: its own, a mirror it holds, or a new mirror (R259). -/
def State.importAid (s : State) (core : Nat) (ctx : BitVec 16) (g : Tags) (aid : W32) : Tags × State :=
  match (s.core core).slotOfAid aid with
  | some k => (g ||| tagOf k, s)
  | none =>
    match (s.core core).freeSlot with
    | some k => (g ||| tagOf k, s.modCore core fun c =>
        { c with slots := tset c.slots k { kind := .mirror, aid := aid, ctx := ctx, gen := (c.slot k).gen } })
    | none => (g, s)

/-- Maps the live AIDs of a message to slots of the receiving core (R259, R370). -/
def State.importAids (s : State) (core : Nat) (ctx : BitVec 16) (aids : List W32) : Tags × State :=
  aids.foldl (fun x aid => x.2.importAid core ctx x.1 aid) (0, s)

/-- The thread's `msend` ends with pd. -/
def State.endSend (s : State) (t pd : Nat) (ok : Bool) : State :=
  let s := State.modThread { s with mail := s.mail.filter (·.sender != t) } t fun th => { th with wait := .none, pc := th.pc + 12 }
  (s.writeLoc t (.p pd) (if ok then 1 else 0) false 0).regroup [t]

/-- The message a thread has waiting enters the receiver's inbox once it can, or its `msend` ends with 0 (R260, R370). With ORD release the
sender's earlier accesses, held ones among them, are performed first. -/
def State.deliverMail (s : State) (t : Nat) : State :=
  match s.mailOf t with
  | none => s
  | some m =>
    match s.receiver t m.idx with
    | .waiting _ => s
    | .published => if s.noSendRoom t m then s else s.endSend t m.pd false
    | .placed uid =>
      let s := match m.rel with
        | some scope => if (s.core (s.coreOf t)).held.any (·.t == t) then s else s.startRelease t scope 2
        | none => s
      let r := s.block uid
      let aids := m.aids.filter s.live
      if r.inbox.length ≥ 64 || (s.core r.core).importNeed aids > (s.core r.core).freeSlots || s.noSendRoom t m || s.sendOrdered m then s
      else
        let (g, s) := s.importAids r.core r.ctx aids
        (s.modBlock uid fun b => { b with inbox := b.inbox ++ [{ words := m.words, tags := g, sender := some t, seq := m.seq }] }).endSend
          t m.pd true

/-- With `sys.reckon` 0 a message that would wait for a slot or for log space raises ASSUME_OVERFLOW at once (R358, R370). -/
def State.sendOverflow (s : State) (t : Nat) : State :=
  if (s.block (blockOf t)).reckon = 0 && (s.thread t).wait == .send && s.sendNeedsSlots t then s.overflow t else s

/-- `msend` (R259, R260). -/
def execMsend (f : Fields) (s : State) : Host.Outcome State Fault Refusal :=
  s.perform (.msend f) f fun t s =>
    let a := s.here t
    let b := s.block (blockOf t)
    let (o, dest) := s.addr64 t f false
    let (dev, ok, k) := msendDest dest.toNat
    let no (s : State) : Except Stop State := .ok (s.writeLoc t (.p f.dst.toNat) 0 false 0)
    if o.poison then .error o.stop
    else if !ok then no s
    else
      let rs := (List.range f.count).map fun j => (s.thread t).getV (vregOf f.sb + j)
      let s := s.consume t a (rs.foldl (fun g r => g ||| r.tags) o.tags)
      let ws := rs.map fun r => (r.val, r.poison)
      let scope := f.scope.toNat
      let send (s : State) : Except Stop State :=
        if dev ≠ s.helm.fabDev.toNat then
          .ok ((s.addOut t [.p f.dst.toNat] none 0 false).emit t a (.mail dest ws scope f.ord.toNat s.nextId))
        else if k ≥ b.launch.blocks then no s
        else
          let aids := (s.core b.core).aidsOf (s.thread t).tagUnion
          let s : State := { s with mail := s.mail.filter (·.sender != t) ++
            [{ sender := t, idx := k, words := ws, aids := aids, pd := f.dst.toNat, seq := s.seq,
               rel := if f.ord = 2 then some scope else none }] }
          .ok (((s.modThread t fun th => { th with pc := a, wait := .send }).deliverMail t).sendOverflow t)
      if f.ord = 2 && dev ≠ s.helm.fabDev.toNat && !s.holds t then s.released t a scope 2 send else send s

/-- MESSAGE_DELIVERY (R370): the message of a thread that waits in `msend` enters the receiver's inbox, if it can. -/
def execMessageDelivery (t : Nat) (s : State) : Host.Outcome State Fault Refusal := .next (s.deliverMail t)

/-- `mrecv` (R261). -/
def execMrecv (f : Fields) (s : State) : Host.Outcome State Fault Refusal :=
  s.perform (.mrecv f) f fun t s =>
    let a := s.here t
    match (s.block (blockOf t)).inbox with
    | [] => .error .wait
    | m :: rest =>
      let s := (s.modBlock (blockOf t) fun b => { b with inbox := rest }).consume t a m.tags
      let s := s.modThread t fun th => if th.marks.isEmpty then th else { th with popped := th.popped ++ [(s.seq, m)] }
      let wb := (List.range f.count).map fun k =>
        let w := m.words.getD k (0, false)
        (Loc.v (f.dst.toNat + k), ({ val := w.1, poison := w.2, tags := 0 } : Reg))
      .ok ((s.addOut t (destsOf (.mrecv f)) (some wb) f.la.toNat).acquired t f.ord.toNat f.scope.toNat)

end Sys2Proof.Machine
end

