-- ==== Sys2Proof/Machine/Matrix.lean ====
section
/-! DEFINITION. The matrix sequencer and its words, the matrix engine, and the queue registers (R278 to R292, R468). -/

namespace Sys2Proof

/-- A word of the matrix sequencer (R80). -/
def Instr.isSeqWord (i : Instr) : Bool := match i.shape with | some (_, sh) => sh.seq | none => false

end Sys2Proof

namespace Sys2Proof.Machine

/-! ## Issue of stream words -/

/-- Changes a block's sequencer. -/
def State.modSeq (s : State) (blk : Nat) (f : Sequencer → Sequencer) : State :=
  s.modBlock blk fun b => { b with sequencer := f b.sequencer }

/-- The sequencer waits at its word (R292). -/
def State.seqWait (s : State) (blk : Nat) (w : SeqWait) : State := s.modSeq blk fun q => { q with st := .waiting, wait := w }

/-- The sequencer may issue its next word: its block is resident in the active context, and what it waits for may be over (R57,
R278, R289). -/
def State.streamReady (s : State) (blk : Nat) : Bool :=
  let b := s.block blk
  b.stage == .resident && (s.core b.core).active == some b.ctx &&
  match b.sequencer.st, b.sequencer.wait with
  | .running, _ => true
  | .waiting, .queue q => !(tgetD b.queues q []).isEmpty
  | .waiting, .engine => (s.core b.core).engine.isNone
  | .waiting, .tile n => (tgetD b.tiles n {}).absent.isNone
  | _, _ => false

/-- The word a sequencer issues, after the fetch and the checks of R79 and R80; otherwise what their failure leaves (R288, R410,
R468). -/
def State.streamFetched (s : State) (blk : Nat) : Except State Instr :=
  let b := s.block blk
  let pc := b.sequencer.pc
  match s.fetch b.ctx pc with
  | .error (.park ..) => .error (s.seqWait blk .fault)
  | .error _ => .error (s.matrixFault blk 7 pc 0 0)
  | .ok (_, some (unit, pa)) => .error (s.matrixFault blk 6 pc unit pa)
  | .ok (bs, none) =>
    match decodeBytes bs with
    | .error _ => .error (s.matrixFault blk 1 pc 0 0)
    | .ok i => if i.isSeqWord then .ok i else .error (s.matrixFault blk 1 pc 0 0)

/-- What a word's own part ends in. -/
inductive SeqStop where
  /-- MATRIX with a detail, and for detail 6 the UNIT and PADDR of the poison -/
  | fault (detail unit pa : Nat)
  | wait (w : SeqWait)
  deriving DecidableEq, Repr

/-- A stream word: its own part runs in a state whose sequencer stands at the next word. A thread that issues one raises ILLEGAL
(R80). -/
def State.streamOp (s : State) (body : Nat → State → Except SeqStop State) : Host.Outcome State Fault Refusal :=
  match s.cur with
  | none => .next s
  | some (.group _ a ts) => .next (ts.foldl (fun s t => s.raise t a .illegal a 0) s)
  | some (.stream blk) =>
    let a := (s.block blk).sequencer.pc
    match body blk (s.modSeq blk fun q => { q with pc := a + 12, st := .running, wait := .none }) with
    | .ok s' => .next s'
    | .error (.wait w) => .next (s.seqWait blk w)
    | .error (.fault d unit pa) => .next (s.matrixFault blk d a unit pa)

/-- A stream register. -/
def Sequencer.getX (q : Sequencer) (n : Nat) : W64 := tgetD q.x n 0
/-- Writes a stream register. -/
def Sequencer.setX (q : Sequencer) (n : Nat) (v : W64) : Sequencer := { q with x := tset q.x n v }

/-- The stream register a source names. -/
def xOf (src : Src) : Nat := match src with | .special (.stream n) => n.toNat | _ => 0

/-- A source of `mset` or `madd` (R281, R282): a popped entry or a constant word with poison gives detail 6, a word beyond its
window detail 2. R288's list names no event for a word on a page without `R`: the model raises MATRIX detail 2 there as well
(DESIGN CHOICE, log 90). -/
def State.seqSource (s : State) (blk : Nat) (ty : Ty) (src : Src) : Except SeqStop (W64 × State) :=
  match src with
  | .cwin w off =>
    (match s.readWindow blk w.toNat off.toNat 2 with
    | .ok o => if o.poison then .error (.fault 6 o.unit o.place) else .ok (BitVec.ofNat 64 o.val, s)
    | .error (.park ..) => .error (.wait .fault)
    | .error _ => .error (.fault 2 0 0))
  | .imm p => .ok (BitVec.ofNat 64 (immVal ty p), s)
  | .special (.queue q) =>
    (match tgetD (s.block blk).queues q.toNat [] with
    | [] => .error (.wait (.queue q.toNat))
    | e :: r =>
      if e.poison then .error (.fault 6 8 0)
      else .ok (e.val, s.modBlock blk fun b => { b with queues := tset b.queues q.toNat r }))
  | .special (.sr r) => .ok (BitVec.ofNat 64 (s.readSr (threadKey blk 0 0) r), s)
  | .special (.stream n) => .ok ((s.block blk).sequencer.getX n.toNat, s)
  | _ => .ok (0, s)

/-- `mset` (R282). -/
def execMset (f : Fields) (s : State) : Host.Outcome State Fault Refusal :=
  s.streamOp fun blk s =>
    match s.seqSource blk f.ty f.sa with
    | .error e => .error e
    | .ok (v, s) => .ok (s.modSeq blk fun q => q.setX f.dst.toNat v)

/-- `madd` (R282). -/
def execMadd (f : Fields) (s : State) : Host.Outcome State Fault Refusal :=
  s.streamOp fun blk s =>
    let a := (s.block blk).sequencer.getX (xOf f.sa)
    match s.seqSource blk f.ty f.sb with
    | .error e => .error e
    | .ok (v, s) => .ok (s.modSeq blk fun q => q.setX f.dst.toNat (a + v))

/-- A jump of the sequencer from a word by the word's offset (R76). -/
def Sequencer.jump (q : Sequencer) (f : Fields) : Sequencer := { q with pc := q.pc - 12 + Fields.offset f }

/-- `mloop` (R282). -/
def execMloop (f : Fields) (s : State) : Host.Outcome State Fault Refusal :=
  s.streamOp fun blk s =>
    .ok (s.modSeq blk fun q =>
      let x := q.getX f.dst.toNat
      if x = 0 then q
      else
        let q := q.setX f.dst.toNat (x - 1)
        if x - 1 = 0 then q else q.jump f)

/-- `mjmp` (R282). -/
def execMjmp (f : Fields) (s : State) : Host.Outcome State Fault Refusal :=
  s.streamOp fun blk s => .ok (s.modSeq blk fun q => q.jump f)

/-- `mend` (R282). -/
def execMend (_f : Fields) (s : State) : Host.Outcome State Fault Refusal :=
  s.streamOp fun blk s => .ok (s.modSeq blk fun q => { q with st := .ended })

/-- `mbar` (R243, R282): after every earlier word of the stream completes. -/
def execMbar (f : Fields) (s : State) : Host.Outcome State Fault Refusal :=
  s.streamOp fun blk s =>
    let k := f.dst.toNat
    if (match (s.core (s.block blk).core).engine with | some e => e.1 == blk | none => false) then .error (.wait .engine)
    else
      let s := if f.xc.getLsbD 0 then s
        else s.modSeq blk fun q => { q with pc := q.pc - 12, st := .waiting, wait := .bar k }
      .ok (s.arriveBar blk k (payloadOf f.sb) none)

/-- A tile of a block; one that nothing has written is clear. -/
def Block.tile (b : Block) (n : Nat) : Tile := tgetD b.tiles n Tile.cleared

/-- Replaces a tile of a block. -/
def State.setTile (s : State) (blk n : Nat) (x : Tile) : State := s.modBlock blk fun b => { b with tiles := tset b.tiles n x }

/-- `mclr` (R129, R282): after every earlier `mma` and `mclr` completes; an absent tile is present and cleared (R402). -/
def execMclr (f : Fields) (s : State) : Host.Outcome State Fault Refusal :=
  s.streamOp fun blk s =>
    if f.dst.toNat ≥ (s.block blk).launch.tiles then .error (.fault 5 0 0)
    else if (s.core (s.block blk).core).engine.isSome then .error (.wait .engine)
    else .ok (s.setTile blk f.dst.toNat Tile.cleared)

/-! ## The mma word (R283 to R286) -/

/-- An operand descriptor (R283). -/
structure Operand where
  data : Nat
  peer : Nat
  remote : Bool
  stride : Nat
  scales : Nat
  sstride : Nat
  band0 : Nat
  band1 : Nat
  deriving DecidableEq, Repr

/-- The fields of a descriptor pair. -/
def operandOf (lo hi : Nat) : Operand :=
  { data := lo % 2 ^ 20, peer := lo / 2 ^ 20 % 4, remote := lo.testBit 22, stride := lo / 2 ^ 24 % 2 ^ 16,
    scales := lo / 2 ^ 40 % 2 ^ 20, sstride := hi / 2 ^ 32 % 2 ^ 16, band0 := hi % 2 ^ 16, band1 := hi / 2 ^ 16 % 2 ^ 16 }

/-- Reserved bits and alignment of a descriptor (R283); the high register counts for fp4x8 alone. -/
def operandOk (fp4 : Bool) (lo hi : Nat) : Bool :=
  let o := operandOf lo hi
  lo / 2 ^ 60 == 0 && !lo.testBit 23 && (o.remote || o.peer == 0) && o.data % 16 == 0 && o.stride % 16 == 0 &&
    (!fp4 || (o.scales % 4 == 0 && hi / 2 ^ 48 == 0 && o.sstride % 4 == 0))

/-- The band scale of a row (R286). -/
def Operand.band (o : Operand) (row : Nat) : Nat := if row < 64 then o.band0 else o.band1

/-- Bytes of a row of K elements (R285). -/
def rowBytes (ty : Ty) (k : Nat) : Nat := match ty with | .fp4x8 => k / 2 | .bf16x2 => 2 * k | _ => k

/-- The ranges of bytes an operand of n rows reads, as offsets from its origin (R285). -/
def Operand.ranges (o : Operand) (ty : Ty) (n k : Nat) : List (Nat × Nat) :=
  ((List.range n).map fun i => (o.data + i * o.stride, rowBytes ty k)) ++
    (if ty == .fp4x8 then (List.range n).map fun i => (o.scales + i * o.sstride, k / 8) else [])

/-- The core an operand lies on, and what is added to its offsets there (R285). -/
def State.operandHome (s : State) (blk : Nat) (o : Operand) : Nat × Nat :=
  let b := s.block blk
  if o.remote then (b.core / 4 * 4 + o.peer, 0) else (b.core, b.spBase)

/-- The detail of an operand's bytes out of bounds: 2 own, 3 peer (R288, R468). -/
def State.operandBounds (s : State) (blk : Nat) (o : Operand) (rs : List (Nat × Nat)) : Option Nat :=
  let b := s.block blk
  let (core, _) := s.operandHome blk o
  if rs.all fun r => r.2 == 0 ||
      (if o.remote then s.ownsScratch b.ctx core r.1 r.2 else decide (r.1 + r.2 ≤ 1024 * b.launch.spKib)) then none
  else some (if o.remote then 3 else 2)

/-- The code of an element of a row, and the code of its scale. -/
def Core.operandElem (c : Core) (ty : Ty) (o : Operand) (add i k : Nat) : Nat × Nat :=
  let row := add + o.data + i * o.stride
  match ty with
  | .fp4x8 => ((c.sByte (row + k / 2)).toNat / 16 ^ (k % 2) % 16, (c.sByte (add + o.scales + i * o.sstride + k / 8)).toNat)
  | .bf16x2 => ((c.sByte (row + 2 * k)).toNat + 256 * (c.sByte (row + 2 * k + 1)).toNat, 0)
  | _ => ((c.sByte (row + k)).toNat, 0)

/-- The value of an element without its band scale (R124, R130). -/
def elemValue (ty : Ty) (x : Nat × Nat) : FV :=
  if ty == .fp4x8 then (fmtFp4.decode x.1).mul (fmtE3m5.decode x.2) else (fmtOf ty).decode x.1

/-- A finite value in units of 2^-16. -/
def FV.units16 (v : FV) : Int := let (n, d) := v.mag; let m : Int := (n * 2 ^ 16 / d : Nat); if v.isNeg then -m else m

/-- The exact sum of a group's terms; a term with an infinite or NaN factor counts as zero, and a zero sum is +0 (R132, R133). -/
def groupSum (ts : List FV) : FV :=
  let x := ts.foldl (fun acc t => if t.isSpecial then acc else acc.add .rne t) (.fin false 0 1)
  if x.isZero then .fin false 0 1 else x

/-- An `mma` as it is carried out: operand values by row and k, and their band scales by row. -/
structure MmaIn where
  ty : Ty
  m : Nat
  n : Nat
  k : Nat
  a : Nat → Nat → FV
  b : Nat → Nat → FV
  bandA : Nat → FV
  bandB : Nat → FV

/-- One element of a FIX64 tile after the `mma` (R130, R286). -/
def MmaIn.fix (x : MmaIn) (i n old : Nat) : Nat :=
  ofSigned 64 ((List.range x.k).foldl (fun acc k => acc + ((x.a i k).mul (x.b n k)).units16) (toSigned 64 old))

/-- One element of an F64 tile after the `mma` (R132, R133). -/
def MmaIn.f64 (x : MmaIn) (i n old : Nat) : Nat :=
  (List.range ((x.k + 7) / 8)).foldl (fun acc g =>
    let ts := ((List.range 8).filter fun j => 8 * g + j < x.k).map fun j =>
      let t := ((x.a i (8 * g + j)).mul (x.b n (8 * g + j)))
      if (x.a i (8 * g + j)).isSpecial || (x.b n (8 * g + j)).isSpecial then .nan
      else if x.ty == .fp4x8 then (t.mul (x.bandA i)).mul (x.bandB n) else t
    fmtF64.round .rne false ((fmtF64.decode acc).add .rne (groupSum ts))) old

/-- Rows or columns that hold an infinity or a NaN, or whose band scale is one (R133). -/
def specialRows (rows k : Nat) (v : Nat → Nat → FV) (band : Option (Nat → FV)) : BitVec 128 :=
  BitVec.ofNat 128 ((List.range rows).foldl (fun m i =>
    if (List.range k).any (fun j => (v i j).isSpecial) || (match band with | some g => (g i).isSpecial | none => false) then m + 2 ^ i
    else m) 0)

/-- The band entries a tile records: those set stand; an unset one that the `mma` touches takes its value (R286). -/
def Tile.recordBands (x : Tile) (m n : Nat) (a b : Operand) : Tile :=
  let put (old : Option (BitVec 16)) (touched : Bool) (v : Nat) : Option (BitVec 16) :=
    match old with | some w => some w | none => if touched then some (BitVec.ofNat 16 v) else none
  { x with bandA0 := put x.bandA0 (m > 0) a.band0, bandA1 := put x.bandA1 (m > 64) a.band1,
           bandB0 := put x.bandB0 (n > 0) b.band0, bandB1 := put x.bandB1 (n > 64) b.band1 }

/-- A band scale that the `mma` touches differs from a set entry of the record (R131). -/
def Tile.bandsDiffer (x : Tile) (m n : Nat) (a b : Operand) : Bool :=
  let ne (old : Option (BitVec 16)) (touched : Bool) (v : Nat) : Bool := touched && (match old with | some w => w.toNat != v | none => false)
  ne x.bandA0 (m > 0) a.band0 || ne x.bandA1 (m > 64) a.band1 || ne x.bandB0 (n > 0) b.band0 || ne x.bandB1 (n > 64) b.band1

/-- The `mma` promotes the tile first (R131). -/
def Tile.promotes (x : Tile) (ty : Ty) (m n k : Nat) (a b : Operand) : Bool :=
  x.mode == .fix64 && (ty != .fp4x8 || x.bandsDiffer m n a b || decide (x.kcount + k > 2 ^ 20))

/-- The tile after an `mma` with K > 0 on rows and columns (R286). -/
def Tile.multiply (x : Tile) (u : MmaIn) (a b : Operand) : Tile :=
  let fp4 := u.ty == .fp4x8
  let x := if x.promotes u.ty u.m u.n u.k a b then x.promote else x
  let x := if x.mode == .empty then { x with mode := if fp4 then .fix64 else .f64 } else x
  let x := if fp4 then x.recordBands u.m u.n a b else x
  let x := { x with rowFlags := x.rowFlags ||| specialRows u.m u.k u.a (if fp4 then some u.bandA else none),
                    colFlags := x.colFlags ||| specialRows u.n u.k u.b (if fp4 then some u.bandB else none) }
  let fix := x.mode == .fix64
  let y := (List.range u.m).foldl (fun (y : Tile) i => (List.range u.n).foldl (fun (y : Tile) n =>
    y.put i n (if fix then u.fix i n (y.get i n) else u.f64 i n (y.get i n))) y) x
  if fix then { y with kcount := y.kcount + u.k } else y

/-- Some element that the `mma` reads has an uncorrectable error (R411): one it sums into, or any when it promotes. -/
def Tile.badFor (x : Tile) (ty : Ty) (m n k : Nat) (a b : Operand) : Bool :=
  x.bad.any fun e => x.promotes ty m n k a b || (decide (e / 128 < m) && decide (e % 128 < n))

/-- `mma` (R283 to R286, R468). Its arithmetic is done here, and the engine stays busy until MMA_COMPLETE. -/
def execMma (f : Fields) (s : State) : Host.Outcome State Fault Refusal :=
  s.streamOp fun blk s =>
    let bl := s.block blk
    let q := bl.sequencer
    let fp4 := f.ty == .fp4x8
    let t := f.dst.toNat
    let pair (src : Src) : Nat × Nat := ((q.getX (xOf src)).toNat, (q.getX (xOf src + 1)).toNat)
    let (la, ha) := pair f.sa
    let (lb, hb) := pair f.sb
    let sh := (q.getX (f.xc.toNat % 32)).toNat
    let (m, n, k) := (sh % 2 ^ 8, sh / 2 ^ 8 % 2 ^ 8, sh / 2 ^ 16 % 2 ^ 16)
    if t ≥ bl.launch.tiles then .error (.fault 5 0 0)
    else if !operandOk fp4 la ha || !operandOk fp4 lb hb then .error (.fault 2 0 0)
    else if sh / 2 ^ 32 ≠ 0 || m > 128 || n > 128 || k > 16384 || k % 8 ≠ 0 then .error (.fault 4 0 0)
    else
      let a := operandOf la ha
      let b := operandOf lb hb
      let none' := m = 0 || n = 0
      let ra := a.ranges f.ty m k
      let rb := b.ranges f.ty n k
      match s.operandBounds blk a ra, s.operandBounds blk b rb with
      | some d, _ => .error (.fault d 0 0)
      | none, some d => .error (.fault d 0 0)
      | none, none =>
        let (ca, oa) := s.operandHome blk a
        let (cb, ob) := s.operandHome blk b
        let secs := if none' then [] else (ra.filter (·.2 ≠ 0)).map (fun r => (ca, oa + r.1, r.2)) ++
          (rb.filter (·.2 ≠ 0)).map fun r => (cb, ob + r.1, r.2)
        let clear := f.xc.getLsbD 5
        let x := bl.tile t
        if (s.core bl.core).engine.isSome then .error (.wait .engine)
        else if secs.any fun r => (s.core r.1).sectorTags r.2.1 r.2.2 != 0 then .error (.wait .engine)
        else match secs.findSome? fun r => (sectorsOf r.2.1 r.2.2).findSome? fun e =>
            if (s.core r.1).spoison.contains e then some (r.1, e) else none with
          | some (c, e) => .error (.fault 6 3 (scratchPlace c (32 * e)))
          | none =>
            if x.absent.isSome && !clear && !none' then .error (.wait (.tile t))
            else
              let x := if clear then Tile.cleared else x
              let s' := s.modCore bl.core fun c => { c with engine := some (blk, t) }
              if none' then .ok s'
              else if k = 0 then .ok (s'.setTile blk t x)
              else if x.badFor f.ty m n k a b then .error (.fault 6 5 (tilePlace bl.core t))
              else
                let u : MmaIn :=
                  { ty := f.ty, m := m, n := n, k := k,
                    a := fun i k => elemValue f.ty ((s.core ca).operandElem f.ty a oa i k),
                    b := fun i k => elemValue f.ty ((s.core cb).operandElem f.ty b ob i k),
                    bandA := fun i => fmtBf16.decode (a.band i), bandB := fun i => fmtBf16.decode (b.band i) }
                .ok (s'.setTile blk t (x.multiply u a b))

/-- MMA_COMPLETE (R286): the engine of a core is free for the words that wait. -/
def execMmaComplete (core : Nat) (s : State) : Host.Outcome State Fault Refusal :=
  .next (if (s.core core).engine.isSome then s.modCore core fun c => { c with engine := none } else s)

/-! ## Queues (R290 to R292) -/

/-- A queue of a block, oldest entry first. -/
def Block.queue (b : Block) (q : Nat) : List QEntry := tgetD b.queues q []

/-- Pushes an entry. -/
def State.pushQueue (s : State) (blk q : Nat) (e : QEntry) : State :=
  s.modBlock blk fun b => { b with queues := tset b.queues q (b.queue q ++ [e]) }

/-- `qpush` (R291). -/
def execQpush (f : Fields) (s : State) : Host.Outcome State Fault Refusal :=
  s.perform (.qpush f) f fun t s =>
    match s.readSrc t f.ty.regs f.ty f.sa with
    | .error e => .error e
    | .ok o => .ok (s.pushQueue (blockOf t) f.dst.toNat { val := BitVec.ofNat 64 o.val, poison := o.poison })

/-- `qpop` (R291). -/
def execQpop (f : Fields) (s : State) : Host.Outcome State Fault Refusal :=
  s.perform (.qpop f) f fun t s =>
    let q := match f.sa with | .special (.queue q) => q.toNat | _ => 0
    match (s.block (blockOf t)).queue q with
    | [] => .error .wait
    | e :: r =>
      let s := s.modBlock (blockOf t) fun b => { b with queues := tset b.queues q r }
      .ok (s.writeGroup t .v f.dst.toNat (words f.ty.regs e.val.toNat) e.poison 0)

/-- The code of a sequencer's state (R292). -/
def SeqState.code : SeqState → Nat
  | .running => 0 | .waiting => 1 | .ended => 2 | .stopped => 3

/-- `qstat` (R292). -/
def execQstat (f : Fields) (s : State) : Host.Outcome State Fault Refusal :=
  s.perform (.qstat f) f fun t s =>
    let b := s.block (blockOf t)
    let v := match f.xc.toNat % 4 with
      | 0 => let n := (b.queue (f.xc.toNat / 4 % 16)).length; n % 32 + if n ≥ 16 then 32 else 0
      | 1 => b.sequencer.st.code + (if b.sequencer.st == .stopped then b.sequencer.detail else 0) * 256
      | _ => b.sequencer.next.toNat
    .ok (s.writeLoc t (.v f.dst.toNat) (BitVec.ofNat 32 v) false 0)

end Sys2Proof.Machine
end

