-- ==== Sys2Proof/Machine/Copy.lean ====
section
/-! DEFINITION. Copy commands: their records, the checks and the movement of their bytes, and their completion (R293 to R298, R342
to R345, R354, R409, R430). -/

namespace Sys2Proof.Machine

/-! ## Issue (R293) -/

/-- The part of `cpyt`, `cpyg` and `cpym` in one thread: the record is captured and the command emitted. Earlier stores of the thread to its
scratchpad are performed first, and with ACQ all of its stores (R298, R343). -/
def State.copyIssue (op : Nat) (f : Fields) (t : Nat) (s : State) : Except Stop State :=
  let a := s.here t
  let (o, x) := s.addr32 t f false
  let s := s.settleAt t [spanS (s.coreOf t) 0 (2 ^ 20)]
  let h := if op = 2 then s.readS t (handleReg f.sb) 1 else { val := 0 }
  let c := s.core (s.coreOf t)
  let b := s.block (blockOf t)
  if o.poison then .error o.stop
  else if h.poison then .error h.stop
  else match s.checkS t x 32 8 with
    | .error e => .error e
    | .ok off =>
      let ndim := c.sRead (off + 17) 1 |> ofBytes
      let n := if op = 1 then 56 else 32 + (if ndim % 16 ≤ 12 then 24 * (ndim % 16) else 0)
      match s.checkS t x n 8 with
      | .error e => .error e
      | .ok _ =>
        let cmd : Copy := { blk := blockOf t, t := t, core := s.coreOf t, ctx := b.ctx, op := op, record := c.sRead off n }
        match (sectorsOf off n).find? fun k => c.spoison.contains k with
        | some k => .error (.poison (BitVec.ofNat 64 x) 3 (scratchPlace (s.coreOf t) (32 * k)))
        | none =>
          if cmd.ctrl 22 1 = 1 && cmd.cwoff + 4 > 1024 * b.launch.spKib then
            .error (.trap .permission (BitVec.ofNat 64 cmd.cwoff))
          else
            let s := s.consume t a (o.tags ||| h.tags ||| c.sectorTags off n)
            let s := if cmd.ctrl 17 1 = 1 then s.settleAll t else s.settle t fun x => x.2.2.reads
            .ok (s.emit t a (.copy op cmd.record (BitVec.ofNat 32 h.val)))

/-- `cpyt` (R293). -/
def execCpyt (f : Fields) (s : State) : Host.Outcome State Fault Refusal := s.perform (.cpyt f) f (State.copyIssue 0 f)
/-- `cpyg` (R293). -/
def execCpyg (f : Fields) (s : State) : Host.Outcome State Fault Refusal := s.perform (.cpyg f) f (State.copyIssue 1 f)
/-- `cpym` (R293). -/
def execCpym (f : Fields) (s : State) : Host.Outcome State Fault Refusal := s.perform (.cpym f) f (State.copyIssue 2 f)

/-! ## Where a byte lies (R294, R296, R430) -/

/-- The place of a byte that a command reads or writes. -/
inductive Place where
  | mem (pa : Nat)
  | peer (dev : BitVec 12) (pa : Nat)
  | scratch (core off : Nat)
  | vreg (t n byte : Nat)
  | member (va : W64)
  | void            -- in a register of a block that its context's end has taken
  deriving DecidableEq, Repr

/-- Why a command cannot go on: a status that ends it, a translation fault, or a wait. -/
inductive CopyStop where
  | status (n : Nat)
  | fault
  | wait
  deriving DecidableEq, Repr

/-- A global byte (R296): the region check, then the translation and the page. -/
def State.copyGlobal (s : State) (c : Copy) (va : W64) (write : Bool) : Except CopyStop Place :=
  let b := s.block c.blk
  if !validVa va then .error (.status 0x10)
  else if !(match b.accessAt va.toNat with | some a => (if write then Need.store else .load).coveredBy a | none => false) then
    .error (.status 0x11)
  else match s.translate c.ctx va with
    | .error _ => .error .fault
    | .ok p =>
      if !(if write then p.w else p.r) then .error (.status 0x10)
      else match p.peer with
        | some dev => .ok (.peer dev p.pa)
        | none => .ok (.mem p.pa)

/-- Where a byte of a block that has left its core stands now: the command runs on independently of the save or the end (R392, R393). -/
def State.departed (s : State) (c : Copy) (core off : Nat) : Option (Nat × Nat) :=
  (c.left.find? fun d => d.core == core && decide (d.base ≤ off) && decide (off < d.base + d.bytes) && (tget s.blocks d.uid).isSome).map
    fun d => ((s.block d.uid).core, (s.block d.uid).spBase + (off - d.base))

/-- A byte of a scratchpad part, in the scratchpad of a block of the context. -/
def State.copyScratch (s : State) (c : Copy) (core off : Nat) : Except CopyStop Place :=
  match s.departed c core off with
  | some (k, o) => .ok (.scratch k o)
  | none => if s.ownsScratch c.ctx core off 1 then .ok (.scratch core off) else .error (.status 0x10)

/-- The vector register word of a block of the context at a word of a sub-core's register file (R430). -/
def State.regWord (s : State) (ctx : BitVec 16) (core sub w : Nat) : Option (Nat × Nat) :=
  (s.subCrews core sub).findSome? fun k =>
    let b := s.block (k / 4)
    let base := (s.crew k).regBase
    if b.ctx == ctx && base ≤ w && w < base + b.launch.regs * b.launch.threads then
      some (k * 128 + (w - base) % b.launch.threads, (w - base) / b.launch.threads)
    else none

/-- A byte of the on-chip map (R430): a register or a scratchpad byte of a block of the context. -/
def State.copyOnChip (s : State) (c : Copy) (a : Nat) : Except CopyStop Place :=
  let off := a % 2 ^ 24
  let core := a / 2 ^ 30 % 4 * 64 + a / 2 ^ 24 % 64
  if a < onChipBase || a ≥ onChipBase + 2 ^ 32 then .error (.status 0x10)
  else if off < 0x400000 then
    (if off / 0x40000 ≥ 4 then .error (.status 0x10)
    else match s.regWord c.ctx core (off / 0x40000) (off % 0x40000 / 4) with
      | some (t, n) => .ok (.vreg t n (off % 4))
      | none =>
        if c.left.any fun d => d.core == core && (s.block d.uid).stage == .gone && d.regs.any fun r =>
            r.1 == off / 0x40000 && decide (r.2.1 ≤ off % 0x40000 / 4) && decide (off % 0x40000 / 4 < r.2.1 + r.2.2) then .ok .void
        else .error (.status 0x10))
  else if off < 0x800000 then s.copyScratch c core (off - 0x400000)
  else .error (.status 0x10)

/-- A byte that a command reads from the scratchpad of its own block waits for its sector's tags (R354). -/
def State.copyTagged (s : State) (c : Copy) (k off : Nat) : Bool :=
  let b := s.block c.blk
  k == b.core && decide (b.spBase ≤ off) && decide (off < b.spBase + 1024 * b.launch.spKib) && (s.core k).sectorTags off 1 != 0

/-- A byte of the block's own scratchpad. -/
def State.copyOwn (s : State) (c : Copy) (a : W64) : Except CopyStop Place :=
  let b := s.block c.blk
  if a.toNat ≥ 1024 * b.launch.spKib then .error (.status 0x10) else .ok (.scratch b.core (b.spBase + a.toNat))

/-- A byte at an address of a kind, its checks done. -/
def State.copyAt (s : State) (c : Copy) (kind : Nat) (a : W64) (write : Bool) : Except CopyStop Place :=
  match kind with
  | 0 => if write && c.op == 2 then (if validVa a then .ok (.member a) else .error (.status 0x10)) else s.copyGlobal c a write
  | 1 => s.copyOwn c a
  | 2 =>
    if a.toNat ≥ 2 ^ 22 then .error (.status 0x14)
    else s.copyScratch c (peerCore c.core a.toNat) (a.toNat % 2 ^ 20)
  | _ => s.copyOnChip c a.toNat

/-- A byte at an address of a kind; a source in the own scratchpad waits for its sector's tags (R354). -/
def State.copyPlace (s : State) (c : Copy) (kind : Nat) (a : W64) (write : Bool) : Except CopyStop Place :=
  match s.copyAt c kind a write with
  | .ok (.scratch k off) => if !write && s.copyTagged c k off then .error .wait else .ok (.scratch k off)
  | x => x

/-- The places of n bytes, or the first stop. -/
def State.copyPlaces (s : State) (c : Copy) (kind : Nat) (a : W64) (write : Bool) : Nat → Except CopyStop (List Place)
  | 0 => .ok []
  | n + 1 =>
    match s.copyPlaces c kind a write n with
    | .error e => .error e
    | .ok ps =>
      match s.copyPlace c kind (a + BitVec.ofNat 64 n) write with
      | .error e => .error e
      | .ok p => .ok (ps ++ [p])

/-- The places of one multicast copy on core i of the cluster (R296): the same offset of its scratchpad part. -/
def State.mcastPlaces (s : State) (c : Copy) (i : Nat) : List Place → Except CopyStop (List Place)
  | [] => .ok []
  | p :: ps =>
    match p with
    | .scratch _ off =>
      (match s.copyScratch c (c.core / 4 * 4 + i) off with
      | .error e => .error e
      | .ok q => match s.mcastPlaces c i ps with | .error e => .error e | .ok qs => .ok (q :: qs))
    | _ => s.mcastPlaces c i ps

/-- Every destination of a run: one list of places, or one for each core of MCAST. -/
def State.copyTargets (s : State) (c : Copy) (a : W64) (n : Nat) : Except CopyStop (List (List Place)) :=
  match s.copyPlaces c c.dstKind a true n with
  | .error e => .error e
  | .ok ps =>
    if c.ctrl 28 4 = 0 then .ok [ps]
    else ((List.range 4).filter fun i => (c.ctrl 28 4).testBit i).foldr (fun i acc =>
      match acc, s.mcastPlaces c i ps with
      | .ok l, .ok q => .ok (q :: l)
      | .error e, _ => .error e
      | _, .error e => .error e) (.ok [])

/-! ## Reading and writing -/

/-- A byte of memory of another device that has been answered. -/
def Copy.gotByte (c : Copy) (dev : BitVec 12) (pa : Nat) : Option (Byte × Bool) :=
  c.got.findSome? fun g => if g.1 == dev && g.2.1 ≤ pa && pa < g.2.1 + g.2.2.1.length then
    some (g.2.2.1.getD (pa - g.2.1) 0, g.2.2.2) else none

/-- A source byte with its poison (R296, R298, R443): global bytes come from their home slices. -/
def State.copyRead (s : State) (c : Copy) : Place → Byte × Bool
  | .mem pa => (s.homeByte (dieOf c.core) pa, s.homePoisoned (dieOf c.core) pa 1 || c.lost.contains (pa / 128))
  | .peer dev pa => (c.gotByte dev pa).getD (0, true)
  | .scratch k off => ((s.core k).sByte off, (s.core k).sectorPoison off 1)
  | _ => (0, false)

/-- A source byte of a run: what was read ahead of the run, else what stands there now. -/
def State.copyByte (s : State) (c : Copy) (run byte : Nat) (p : Place) : Byte × Bool :=
  match c.ahead.find? fun a => a.run == run && a.byte == byte with
  | some a => (a.val, a.poison)
  | none => s.copyRead c p

/-- Bytes that are next to each other in one place, within a line where they go to memory. -/
def Place.follows (p q : Place) : Bool :=
  match p, q with
  | .mem a, .mem b => b == a + 1 && b % 128 != 0
  | .peer d a, .peer e b => d == e && b == a + 1 && b % 128 != 0
  | .scratch k a, .scratch l b => k == l && b == a + 1
  | .vreg t n x, .vreg u m y => t == u && n == m && y == x + 1
  | .member a, .member b => b == a + 1 && b.toNat % 128 != 0
  | .void, .void => true
  | _, _ => false

/-- A piece of a run: its first place, its bytes with their poison. -/
structure Piece where
  at_ : Place
  data : List (Byte × Bool)
  deriving DecidableEq, Repr

/-- Cuts bytes into pieces. -/
def pieces (l : List (Place × Byte × Bool)) : List Piece :=
  l.foldr (fun x acc =>
    match acc with
    | p :: r => if x.1.follows p.at_ then { at_ := x.1, data := x.2 :: p.data } :: r else { at_ := x.1, data := [x.2] } :: acc
    | [] => [{ at_ := x.1, data := [x.2] }]) []

/-- What a piece of a command writes on this device, as the command notes it: memory or a core's scratchpad, the start, and the poison of
each byte. A piece for the members of a group writes here where this device is one (R217, R409). -/
def State.pieceWritten (s : State) (c : Copy) (p : Piece) : List (Option Nat × Nat × List Bool) :=
  match p.at_ with
  | .mem pa => [(none, pa, p.data.map (·.2))]
  | .scratch k off => [(some k, off, p.data.map (·.2))]
  | .member va =>
    (match s.memberHere c.ctx c.handle, s.memberPage c.ctx va true with
    | true, .ok pg => [(none, pg.pa, p.data.map (·.2))]
    | _, _ => [])
  | _ => []

/-- The latest poison with which a command wrote a byte, if it wrote it. -/
def wroteAt (ws : List (Option Nat × Nat × List Bool)) (core : Option Nat) (a : Nat) : Option Bool :=
  ws.findSome? fun w => if w.1 == core && decide (w.2.1 ≤ a) then w.2.2[a - w.2.1]? else none

/-- The sectors of a range all 32 bytes of which the command has written from unpoisoned bytes: they lose their marks (R409). -/
def wroteClean (ws : List (Option Nat × Nat × List Bool)) (core : Option Nat) (a n : Nat) : List Nat :=
  (sectorsOf a n).filter fun k => (List.range 32).all fun i => wroteAt ws core (32 * k + i) == some false

/-- A write at home by the command of an identifier (R296, R298, R344, R409): it may stand in the outbound path of its die, and poisoned
source bytes mark the sectors they are written to. -/
def State.copyHome (s : State) (id : Nat) (c : Copy) (pa : Nat) (data : List (Byte × Bool)) (cleans : List Nat) : State :=
  let die := dieOf c.core
  let s' := s.storeHome die [] pa (data.map (·.1)) cleans (markedBy pa (data.map (·.2)))
  if homeDie pa = die then s' else { s' with copies := tmod s'.copies id fun c => { c with outIds := s.nextId :: c.outIds } }

/-- A write into a scratchpad part by a copy: the sectors get empty tag sets (R296). -/
def State.copyToScratch (s : State) (ctx : BitVec 16) (core off : Nat) (data : List (Byte × Bool)) (cleans : List Nat := []) : State :=
  State.wakeS (s.modCore core fun c =>
    let c := (c.sWrite ctx off (data.map (·.1))).tagClear off data.length
    { c with spoison := addMarks (c.spoison.filter fun k => !cleans.contains k) (markedBy off (data.map (·.2))) }) core off data.length

/-- A write into a register through the on-chip window (R296): an empty tag set, and poison where a byte is poisoned. -/
def State.copyToReg (s : State) (t n byte : Nat) (data : List (Byte × Bool)) : State :=
  let r := (s.thread t).getV n
  let bs := leBytes 4 r.val.toNat
  let new := bs.take byte ++ data.map (·.1) ++ bs.drop (byte + data.length)
  let poison := data.any (·.2) || (r.poison && data.length < 4)
  (s.putLoc t (.v n) { val := BitVec.ofNat 32 (ofBytes new), poison := poison, tags := 0 }).setShadow t (.v n) none

/-- The issuing device's share of a member write: as `stmc` writes (R217), with the poison of the bytes; `ws` is what the command has written. -/
def State.copyMember (s : State) (c : Copy) (va : W64) (data : List (Byte × Bool)) (ws : List (Option Nat × Nat × List Bool)) :
    Nat × List Byte × State :=
  match s.memberPage c.ctx va true with
  | .error e => (e, [], s)
  | .ok p => (0, [], s.writeThrough (some c.core) p.pa (data.map (·.1)) (data.map (·.2)) (wroteClean ws none p.pa data.length))

/-- Writes one piece of the command of an identifier, which notes it. -/
def State.copyWrite (s : State) (id : Nat) (p : Piece) : State :=
  match tget s.copies id with
  | none => s
  | some c =>
    let ws := s.pieceWritten c p ++ c.wrote
    let bytes := p.data.map (·.1)
    let poison := p.data.map (·.2)
    let s : State := { s with copies := tmod s.copies id fun c => { c with wrote := ws } }
    match p.at_ with
    | .mem pa => s.copyHome id c pa p.data (wroteClean ws none pa p.data.length)
    | .peer dev pa => s.sendRequest c.t c.ctx (.cpym id) [dev] pa bytes (poison := poison)
    | .scratch k off => s.copyToScratch c.ctx k off p.data (wroteClean ws (some k) off p.data.length)
    | .vreg t n byte => s.copyToReg t n byte p.data
    | .member va => s.groupRequest c.t (.cpym id) c.handle va bytes (fun s => s.copyMember c va p.data ws) poison
    | .void => s

/-- The home slices' partials of the lines read are recalled first (R202). -/
def State.copyRecall (s : State) (ps : List Place) : State :=
  ps.foldl (fun s p => match p with | .mem pa => s.recall pa | _ => s) s

/-- Bytes of other devices that a run reads and has no answer for, as pieces to request. -/
def Copy.missing (c : Copy) (ps : List Place) : List Piece :=
  pieces ((ps.filter fun p => match p with | .peer dev pa => (c.gotByte dev pa).isNone | _ => false).map fun p => (p, 0, false))

/-! ## Moving a run (R295, R296, R305) -/

/-- The offset in a row of the index table, in the block's scratchpad where it stands now (R295, R354). -/
def State.copyIndex (s : State) (c : Copy) (r : Nat) : Except CopyStop W64 :=
  let b := s.block c.blk
  let off := c.word 32 % 2 ^ 20 + 8 * r
  let k := s.core b.core
  if off + 8 > 1024 * b.launch.spKib then .error (.status 0x10)
  else if k.sectorTags (b.spBase + off) 8 != 0 then .error .wait
  else if k.sectorPoison (b.spBase + off) 8 then .error (.status 0x15)
  else .ok (BitVec.ofNat 64 (ofBytes (k.sRead (b.spBase + off) 8)))

/-- The source displacement of a run: a row's offset is read once (R295). -/
def State.copyStart (s : State) (c : Copy) (run : Nat) (r : Run) : Except CopyStop W64 :=
  match r.row, c.rows.find? (·.1 == run) with
  | none, _ => .ok r.src
  | some _, some x => .ok x.2
  | some k, none => s.copyIndex c k

/-- What moving bytes of a run comes to: the source displacement, the bytes read and the state; or the command stops; or bytes of other
devices are needed first. -/
inductive RunEnd where
  | ok (from_ : W64) (bytes : List (Byte × Bool)) (s : State)
  | stop (e : CopyStop)
  | need (ps : List Piece)
  deriving DecidableEq, Repr

/-- Moves n bytes of a run from its byte b on, to those destinations that `want` names by byte and target. -/
def State.moveBytes (s : State) (id : Nat) (c : Copy) (run : Nat) (r : Run) (b n : Nat) (want : Nat → Nat → Bool) : RunEnd :=
  match s.copyStart c run r with
  | .error e => .stop e
  | .ok d =>
    match s.copyPlaces c c.srcKind (BitVec.ofNat 64 (c.word 0) + d + BitVec.ofNat 64 b) false n with
    | .error e => .stop e
    | .ok src =>
      match s.copyTargets c (BitVec.ofNat 64 (c.word 8) + r.dst + BitVec.ofNat 64 b) n with
      | .error e => .stop e
      | .ok dst =>
        match c.missing src with
        | [] =>
          let s := s.copyRecall src
          let bytes := src.zipIdx.map fun p => s.copyByte c run (b + p.2) p.1
          let ps := dst.zipIdx.flatMap fun q =>
            pieces (((q.1.zip bytes).zipIdx.filter fun x => want (b + x.2) q.2).map (·.1))
          .ok d bytes (ps.foldl (fun s p => s.copyWrite id p) s)
        | ps => .need ps

/-- Changes a copy command. -/
def State.modCopy (s : State) (id : Nat) (f : Copy → Copy) : State := { s with copies := tmod s.copies id f }

/-- A byte of a run has reached a destination ahead of the run. -/
def Copy.isAhead (c : Copy) (run byte target : Nat) : Bool :=
  c.ahead.any fun a => a.run == run && a.byte == byte && a.target == target

/-- A run has been moved. -/
def Copy.endRun (c : Copy) (run : Nat) (bytes : List (Byte × Bool)) : Copy :=
  { c with runsDone := run + 1, ahead := c.ahead.filter (·.run != run), rows := c.rows.filter (·.1 != run),
           poisoned := c.poisoned || bytes.any (·.2) }

/-- Moves the runs that are left, each in its order; what is moved stays so when a fault or a wait keeps the next one back. -/
def State.copyMove (s : State) (id : Nat) : List (Run × Nat) → State
  | [] => s.modCopy id fun c => { c with moved := true, result := if c.poisoned then 0x13 else 0 }
  | (r, k) :: rs =>
    match tget s.copies id with
    | none => s
    | some c =>
      match s.moveBytes id c k r 0 r.n fun b j => !c.isAhead k b j with
      | .ok _ bytes s => State.copyMove (s.modCopy id fun c => c.endRun k bytes) id rs
      | .stop (.status n) => s.modCopy id fun c => { c with moved := true, result := n }
      | .stop .fault => s.modCopy id fun c => { c with faulted := true }
      | .stop .wait => s
      | .need ps => ps.foldl (fun s p => match p.at_ with
          | .peer dev pa =>
            if s.allRequests.any fun q => q.kind == .copyRead id dev pa p.data.length then s
            else s.sendRequest c.t c.ctx (.copyRead id dev pa p.data.length) [dev] pa (leBytes p.data.length 0)
          | _ => s) s

/-- A command with ACQ waits for the accesses of its thread before it (R343). -/
def State.copyAcquires (s : State) (id : Nat) (c : Copy) : Bool :=
  c.ctrl 17 1 == 1 && s.allRequests.any fun r => r.t == c.t && !r.kind.ofCopy && decide (r.id < id)

/-- What earlier runs of a command write to a destination is there: the last run that writes a byte leaves its value (R296). -/
def Copy.earlierThere (c : Copy) (run target : Nat) (a : W64) : Bool :=
  c.runs.zipIdx.all fun x =>
    decide (run ≤ x.2 ∨ x.2 < c.runsDone ∨ x.1.n ≤ (a - x.1.dst).toNat) || c.isAhead x.2 (a - x.1.dst).toNat target

/-- The bytes of a run that move together with one of it: those of the same register (R345), as first and count. -/
def State.regBytes (s : State) (c : Copy) (r : Run) (b : Nat) : Nat × Nat :=
  let a := BitVec.ofNat 64 (c.word 8) + r.dst + BitVec.ofNat 64 b
  match s.copyAt c c.dstKind a true with
  | .ok (.vreg _ _ k) => (b - min b k, min (b + 4 - k) r.n - (b - min b k))
  | _ => (b, 1)

/-- A command may move a byte to a destination ahead of its run: which, and whether, is free (R298, R302, R305, R345). One that the byte
cannot reach yet, or that an earlier run is still to write, is left to its run. -/
def State.copyAhead (s : State) (id : Nat) : State :=
  match tget s.copies id with
  | none => s
  | some c =>
    if c.moved || c.faulted || c.killed || c.badCommand || s.copyAcquires id c then s
    else
      let (i, s) := s.choose (c.runs.length - c.runsDone - 1)
      let k := c.runsDone + i
      match c.runs[k]? with
      | none => s
      | some r =>
        let (b, s) := s.choose (r.n - 1)
        let (j, s) := s.choose 3
        let (b, n) := s.regBytes c r b
        let free := (List.range n).all fun x => !c.isAhead k (b + x) j && c.earlierThere k j (r.dst + BitVec.ofNat 64 (b + x))
        if r.n = 0 || !free then s
        else match s.moveBytes id c k r b n fun _ q => q == j with
          | .ok d bytes s' =>
            s'.modCopy id fun c =>
              { c with ahead := (bytes.zipIdx.map fun x => ({ run := k, byte := b + x.2, target := j, val := x.1.1, poison := x.1.2 } : AheadByte)) ++ c.ahead,
                       rows := if r.row.isSome && !c.rows.any (·.1 == k) then (k, d) :: c.rows else c.rows }
          | _ => s

/-! ## Completion (R297, R344) -/

/-- The status of a command whose payload has moved: what stopped it, else what its writes elsewhere report, else its poison. -/
def Copy.final (c : Copy) : Nat := if c.result ≠ 0 && c.result ≠ 0x13 then c.result else if c.status ≠ 0 then c.status else c.result

/-- The completion word and the fault record (R297, R384). -/
def State.copyWord (s : State) (id : Nat) (c : Copy) : State :=
  let b := s.block c.blk
  let st := c.final
  let v := if st = 0 then c.value else 0xFFFFFF00 + st
  let s := if c.ctrl 22 1 = 1 && b.stage != .gone then
      (s.copyToScratch c.ctx b.core (b.spBase + c.cwoff) ((leBytes 4 v).map fun x => (x, false))).modBlock c.blk fun b =>
        { b with copyWords := b.copyWords ++ [(c.t, c.cwoff, BitVec.ofNat 32 v)] }
    else s
  let s := if st = 0 then s
    else s.report c.ctx { kind := 3, code := st, crew := crewIx c.t, tid := tidOf c.t, task := b.task, blk := b.index,
                          value := c.cwoff, value2 := 0xFFFFFF00 + st }
  s.modCopy id fun c => { c with worded := true }

/-- What the end of a context has left of its blocks goes with the last of its commands (R393). -/
def State.dropGone (s : State) (ctx : BitVec 16) : State :=
  let gone (b : Nat) : Bool := (s.block b).stage == .gone && (s.block b).ctx == ctx
  if s.copies.any fun p => gone p.2.blk then s
  else { s with blocks := s.blocks.filter fun p => !gone p.1,
                cores := s.cores.filter fun p => decide (p.1 < 256) || !gone (p.1 - 256) }

/-- The queue entry, and the end of the command; the engine waits while the queue is full (R297). -/
def State.copyEnd (s : State) (id : Nat) (c : Copy) : State :=
  let q := c.ctrl 24 4
  if (s.block c.blk).stage == .gone then
    State.addTodo (State.dropGone { s with copies := tdel s.copies id } c.ctx) [.fences]
  else if c.ctrl 23 1 = 1 && ((s.block c.blk).queue q).length ≥ 16 then s
  else
    let s := if c.ctrl 23 1 = 1 then
        s.pushQueue c.blk q { val := BitVec.ofNat 64 (c.value + c.final * 2 ^ 32), poison := false }
      else s
    State.addTodo { s with copies := tdel s.copies id } [.fences]

/-- A command whose payload has moved waits for the answers to its writes elsewhere; with REL at SCOPE 4 or wider, for those of its writes
that stand in an outbound path (R344). -/
def State.copyWaits (s : State) (id : Nat) (c : Copy) : Bool :=
  (s.allRequests.any fun r => r.kind == .cpym id) ||
    (c.ctrl 18 1 == 1 && decide (4 ≤ c.ctrl 19 3) && (s.out (dieOf c.core)).any fun w => c.outIds.contains w.id)

/-- COPY_COMPLETION (R297): a command moves what is left of its payload, and completes once its writes are acknowledged. -/
def execCopyCompletion (id : Nat) (s : State) : Host.Outcome State Fault Refusal :=
  match tget s.copies id with
  | none => .next s
  | some c =>
    if c.faulted then .next s
    else
      let s := if c.moved then s
        else if c.killed || c.badCommand then s.modCopy id fun x => { x with moved := true, result := if c.killed then 0x12 else 0x14 }
        else if s.copyAcquires id c then s
        else s.copyMove id (c.runs.zipIdx.drop c.runsDone)
      match tget s.copies id with
      | none => .next s
      | some c =>
        if !c.moved || s.copyWaits id c then .next s
        else .next ((if c.worded then s else s.copyWord id c).copyEnd id c)

end Sys2Proof.Machine
end

