-- ==== Sys2Proof/Machine/System.lean ====
section
/-! DEFINITION. Class 7: causes raised on purpose, the host trap, sleep, the return from the handler, and the system registers (R262
to R276, R475). -/

namespace Sys2Proof.Machine

/-! ## Causes raised on purpose (R274) -/

/-- `trap` (R270, R274): `sys.epc` is the next instruction. -/
def execTrap (f : Fields) (s : State) : Host.Outcome State Fault Refusal :=
  s.perform (.trap f) f fun _ _ => .error (.trap .trap (BitVec.ofNat 64 (payloadOf f.sb)) true)

/-- `ill` (R270, R274). -/
def execIll (f : Fields) (s : State) : Host.Outcome State Fault Refusal :=
  s.perform (.ill f) f fun _ _ => .error (.trap .illegal (BitVec.ofNat 64 (payloadOf f.sb)))

/-- A HALT entry of a crew (R277, R384): its thread is the one given. -/
def State.reportHalt (s : State) (t : Nat) (a : W64) : State :=
  let b := s.block (blockOf t)
  s.report b.ctx { kind := 9, code := 0x0B, crew := crewIx t, tid := tidOf t, task := b.task, blk := b.index, value := a.toNat }

/-! ## Stopping (R231, R248, R274, R276, R277, R289, R391) -/

/-- A thread that a debugger halt or a switch stops: a sleep ends at A + 12 (R276), and joins, monitors, fences and `msend` are issued
again; a `bar` stays arrived. -/
def Thread.stopped (th : Thread) : Thread :=
  match th.wait with
  | .asleep _ => { th with wait := .none, pc := th.pc + 12 }
  | .join .. | .watch _ | .fence .. | .send => { th with wait := .none }
  | _ => th

/-- A thread that a save stops: one in `sleep` stands at it and issues it again on resume (R391), and since the save has ended the sleep it
then goes on at A + 12 at once (R276; DEDUCED, log 46). -/
def Thread.saved (th : Thread) : Thread :=
  match th.wait with
  | .asleep _ => { th with wait := .none, slept := some th.pc }
  | _ => th.stopped

/-- Stops threads. -/
def State.stopThreads (s : State) (ts : List Nat) : State :=
  { ts.foldl (fun s t => s.modThread t Thread.stopped) s with mail := s.mail.filter fun m => !ts.contains m.sender }

/-- A crew stands halted (R231, R248, R276, R277): its threads stop, and a HALT entry names the lowest thread at a `brk`, else the lowest
one that has not exited, else the lowest (log 76). -/
def State.haltCrew (s : State) (c : Nat) : State :=
  let ts := s.crewThreads c
  let brk := ts.filter fun t => (s.thread t).wait == .brk
  let s := (s.stopThreads ts).modCrew c fun x =>
    { x with halted := some (if brk.isEmpty then .boundary else .brk), haltReq := false, brkReq := false, stepReq := false, stepped := false }
  match brk ++ (ts.filter fun t => !(s.thread t).exited) ++ ts with
  | [] => s
  | t :: _ => s.reportHalt t (s.thread t).pc

/-- `brk` (R270, R274): DEBUG, or with a debugger attached a halt of the crew with the thread at A, at a boundary where none of its
long-latency instructions is outstanding (R63). -/
def execBrk (f : Fields) (s : State) : Host.Outcome State Fault Refusal :=
  s.perform (.brk f) f fun t s =>
    let a := s.here t
    if !s.helm.attached.contains (s.block (blockOf t)).ctx then .error (.trap .debug (BitVec.ofNat 64 (payloadOf f.sb)) true)
    else
      let s := s.modThread t fun th => { th with pc := a, wait := .brk }
      .ok (if (s.crew (crewOf t)).halted.isSome then s
        else if s.longDue (crewOf t) then s.modCrew (crewOf t) fun c => { c with brkReq := true }
        else s.haltCrew (crewOf t))

/-- `trap.host` (R275): the posting is an irrevocable effect, and the thread waits at A. -/
def execTrapHost (f : Fields) (s : State) : Host.Outcome State Fault Refusal :=
  s.perform (.trapHost f) f fun t s =>
    let a := s.here t
    let n := BitVec.ofNat 32 (payloadOf f.sb)
    .ok ((s.modThread t fun th => { th with pc := a, wait := .host n }).emit t a (.hostTrap n a))

/-! ## Sleep (R276) -/

/-- `sleep` (R265, R276): the number of cycles beyond n is a free choice. -/
def execSleep (f : Fields) (s : State) : Host.Outcome State Fault Refusal :=
  s.perform (.sleep f) f fun t s =>
    let a := s.here t
    match s.readSrc t 1 .b32 f.sb with
    | .error e => .error e
    | .ok o =>
      if o.poison then .error o.stop
      else if o.val = 0 || (s.thread t).slept == some a then .ok (s.modThread t fun th => { th with slept := none })
      else
        let (k, s) := s.choose 256
        .ok (s.modThread t fun th => { th with pc := a, wait := .asleep (o.val + k) })

/-- A sleeping thread goes on at A + 12 (R276). -/
def State.wakeSleeper (s : State) (t : Nat) : State :=
  match (s.thread t).wait with
  | .asleep _ => (s.modThread t fun th => { th with wait := .none, pc := th.pc + 12 }).regroup [t]
  | _ => s

/-- SLEEP_EXPIRY (R276). -/
def execSleepExpiry (t : Nat) (s : State) : Host.Outcome State Fault Refusal :=
  .next (if (s.thread t).wait == .asleep 0 then s.wakeSleeper t else s)

/-! ## Return and system registers (R266 to R268, R273) -/

/-- `rtt` (R273). -/
def execRtt (f : Fields) (s : State) : Host.Outcome State Fault Refusal :=
  s.perform (.rtt f) f fun t s =>
    if (s.thread t).handler then .ok ((s.returnTrap t).addTodo [.joins (crewOf t)]) else .error (.trap .illegal 0)

/-- `sys.status` of a thread (R268). -/
def State.status (s : State) (t : Nat) : Nat :=
  let th := s.thread t
  (if th.handler then 1 else 0) + (if th.region.isSome then 2 else 0) + if s.helm.attached.contains (s.block (blockOf t)).ctx then 4 else 0

/-- The value of a system register (R267). -/
def State.readSys (s : State) (t n : Nat) : Nat :=
  let th := s.thread t
  let b := s.block (blockOf t)
  match n with
  | 0 => s.status t
  | 1 => th.cause.toNat
  | 2 => th.epc.toNat
  | 3 => th.badaddr.toNat
  | 4 => b.tba.toNat
  | 5 => b.launch.fair
  | 6 => b.reckon
  | 7 => b.spBase
  | _ => (tgetD th.scratch (n - 8) 0).toNat

/-- `csrr` (R266, R267). -/
def execCsrr (f : Fields) (s : State) : Host.Outcome State Fault Refusal :=
  s.perform (.csrr f) f fun t s =>
    .ok (s.writeGroup t .v f.dst.toNat (words f.ty.regs (s.readSys t f.xc.toNat)) false 0)

/-- Writes a system register (R267). -/
def State.writeSys (s : State) (t n : Nat) (v : W64) : State :=
  match n with
  | 2 => s.modThread t fun th => { th with epc := v }
  | 4 => s.modBlock (blockOf t) fun b => { b with tba := v }
  | _ => s.modThread t fun th => { th with scratch := tset th.scratch (n - 8) (v.setWidth 32) }

/-- `csrw` (R266, R267): the mode, and for the addresses steps 2 and 3 of R225, are checked before the write. -/
def execCsrw (f : Fields) (s : State) : Host.Outcome State Fault Refusal :=
  s.perform (.csrw f) f fun t s =>
    match s.readSrc t f.ty.regs f.ty f.sa with
    | .error e => .error e
    | .ok o =>
      let n := f.xc.toNat
      let v := BitVec.ofNat 64 o.val
      if o.poison then .error o.stop
      else if n = 2 && !(s.thread t).handler then .error (.trap .permission 0)
      else if (n = 2 || n = 4) && o.val % 4 ≠ 0 then .error (.trap .misalign v)
      else if (n = 2 || n = 4) && !validVa v then .error (.trap .permission v)
      else .ok (s.writeSys t n v)

end Sys2Proof.Machine
end

