-- ==== Sys2Proof/Machine/Events.lean ====
section
/-! DEFINITION. Events of the cores and of the memory system: held trap entries, results that arrive, timeouts of a hold, writes that
are performed, evictions, and errors (R63, R204, R252, R271, R272, R319, R331, R357, R370, R408 to R411, R417, R418, R471). -/

namespace Sys2Proof.Machine

/-! ## Threads -/

/-- TRAP_ENTRY (R269, R271, R272): a held entry is taken once the thread's tag union, with the containment slot left out, is empty. -/
def execTrapEntry (t : Nat) (s : State) : Host.Outcome State Fault Refusal :=
  match (s.thread t).wait with
  | .trapHeld code epc bad =>
    .next (if s.plainUnion t ≠ 0 then s
      else (State.deliver (s.modThread t fun th => { th with wait := .none }) t (s.thread t).pc (Cause.ofCode code) epc bad))
  | _ => .next s

/-- Writes one register of a result that arrives (R63, R187, R353): its old value was logged at issue. The shadow takes its own value, or the
one passed to it (R414). -/
def State.arrive (s : State) (t : Nat) (o : Outstanding) (l : Loc) (r : Reg) : State :=
  (s.putLoc t l { r with tags := r.tags ||| o.tags }).setShadow t l ((o.shadow.find? fun x => x.1 == l).map (·.2))

/-- LONG_LATENCY_COMPLETE (R63, R308): the result of an identifier arrives and its registers are written, once its values are known; a load
whose units are still to be read is performed now. Joins are looked at again where it may have written their masks (R46). -/
def execLongLatencyComplete (t k : Nat) (s : State) : Host.Outcome State Fault Refusal :=
  let s := s.loadNow t k
  match (s.thread t).out.find? (·.id == k) with
  | none => .next s
  | some o =>
    match o.wb with
    | none => .next s
    | some wb =>
      let s := wb.foldl (fun s x => s.arrive t o x.1 x.2) s
      .next ((s.modThread t fun th => { th with out := th.out.filter (·.id != k) }).rejoin (crewOf t))

/-- A hold for a slot or for log space that has lasted longer than `sys.reckon` cycles ends in ASSUME_OVERFLOW. -/
def State.reckonExpired (s : State) (t : Nat) : State :=
  match (s.thread t).holdSince with
  | none => s
  | some c => if s.cycle - c ≤ (s.block (blockOf t)).reckon then s else s.overflow t

/-- RECKON_TIMEOUT (R252, R357, R370). -/
def execReckonTimeout (t : Nat) (s : State) : Host.Outcome State Fault Refusal := .next (s.reckonExpired t)

/-- ACCESS_PERFORMED (R204, R308): a unit of an access that the thread has issued is performed, or an access that was performed at its home
slice is acknowledged. -/
def execAccessPerformed (t k : Nat) (s : State) : Host.Outcome State Fault Refusal :=
  .next (((s.performLate (s.lateBound t) t k false).modThread t fun th => { th with pend := th.pend.filter fun p => !(p.1 == k && p.2 == .home) }).addTodo
    [.fences])

/-! ## Memory -/

/-- OUTBOUND_WRITE_PERFORMED (R331): a write in a die's outbound path is performed at its home slice; writes to one byte keep their
order. -/
def execOutboundWritePerformed (die k : Nat) (s : State) : Host.Outcome State Fault Refusal :=
  let l := s.out die
  match l.find? (·.id == k) with
  | none => .next s
  | some w =>
    if (l.takeWhile (·.id != k)).any fun x => overlap x.pa x.data.length w.pa w.data.length then .next s
    else .next (State.performOut { s with outbound := tset s.outbound die (l.filter (·.id != k)) } die w)

/-- EVICTION (R202, R319): a line of a core's L1, the k-th, leaves it. -/
def execEviction (core k : Nat) (s : State) : Host.Outcome State Fault Refusal :=
  match (s.core core).l1[k]? with
  | none => .next s
  | some l => .next (s.evict core l)

/-! ## Errors -/

/-- The OUTCOME 1 record of a marking (R471). -/
def State.markRecord (s : State) (die unit pa : Nat) (own : Option Nat) (tid core : Nat) : State :=
  match own with
  | some blk =>
    let b := s.block blk
    s.errorRecord { pa := pa, task := b.task, blk := b.index, ctx := b.ctx, unit := unit, outcome := 1, tid := tid, die := die,
                    core := core }
  | none => s.errorRecord { pa := pa, unit := unit, outcome := 1, tid := tid, die := die, core := core }

/-- Marks a sector of physical memory and the copies of it (R408). Where the damage is in an L1, a copy that is dirty there marks the home again
when it is written back. -/
def State.markSector (s : State) (k : Nat) (inL1 : Bool := false) : State :=
  { s with
    marked := if s.marked.contains k then s.marked else s.marked ++ [k],
    cores := s.cores.map fun c => (c.1, { c.2 with l1 := c.2.l1.map fun l =>
      if l.pa / 32 ≤ k && k < l.pa / 32 + 4 then
        let bit := BitVec.ofNat 4 (2 ^ (k - l.pa / 32))
        if inL1 && (l.dirty &&& maskOf (32 * (k - l.pa / 32)) 32) != 0 then { l with hurt := l.hurt ||| bit }
        else { l with poison := l.poison ||| bit }
      else l }) }

/-- The thread whose access meets damage in memory, on which the context of its record rests (R448, R471): one of the die, or none of the
device's threads. Which is a free choice (log 59). -/
def State.detectedBy (s : State) (die : Nat) : Option Nat × State :=
  match (s.threads.map (·.1)).filter fun t => dieOf (s.coreOf t) == die && decide (s.coreOf t < 256) with
  | [] => (none, s)
  | ts => let (k, s) := s.choose ts.length; (ts[k]?, s)

/-- The block whose allotment holds a sector of a core's scratchpad part. -/
def State.holderOf (s : State) (core k : Nat) : Option Nat :=
  (s.coreBlocks core).find? fun b => overlap (s.block b).spBase (1024 * (s.block b).launch.spKib) (32 * k) 32

/-- Threads and sequencers of a die whose next word holds a byte that a fetch cannot correct (R410). -/
def State.badFetch (s : State) (die pa : Nat) : State :=
  let meets (ctx : BitVec 16) (pc : W64) : Bool := (List.range 12).any fun k =>
    match s.codePage ctx (pc + BitVec.ofNat 64 k) with | .ok p => p.pa == pa | .error _ => false
  let ts := (s.threads.map (·.1)).filter fun t =>
    let b := s.block (blockOf t)
    dieOf b.core == die && s.crewLive (crewOf t) && s.ready t && meets b.ctx (s.thread t).pc
  let bs := (s.blocks.map (·.1)).filter fun k =>
    let b := s.block k
    dieOf b.core == die && s.streamReady k && meets b.ctx b.sequencer.pc
  let word (ctx : BitVec 16) (pc : W64) : Nat := match s.codePage ctx pc with | .ok p => p.pa | .error _ => pa
  let s := ts.foldl (fun s t =>
    let pc := (s.thread t).pc
    let w := word (s.block (blockOf t)).ctx pc
    s.refuseWord pc [t] (.poison pc (unitOf w) w)) s
  bs.foldl (fun s k =>
    let pc := (s.block k).sequencer.pc
    let w := word (s.block k).ctx pc
    s.matrixFault k 6 pc (unitOf w) w) s

/-- A register of a thread is struck (R408): the poison bit there is set, and that of its shadow stays as it was (R415). -/
def State.hurtReg (s : State) (t : Nat) (l : Loc) : State :=
  let r := s.getLoc t l
  (s.putLoc t l { r with poison := true }).setShadow t l (if (s.block (blockOf t)).launch.shadow then
    some ((s.shadowAt t l).getD (r.val, r.poison)) else none)

/-- A register of a thread's shadow is struck: which, and what it then holds, are free (log 14). -/
def State.hurtShadow (s : State) (t : Nat) : State :=
  let l := (s.block (blockOf t)).launch
  let (k, s) := s.choose (l.regs + l.uregs + 14)
  let (v, s) := s.freeWord
  let (p, s) := s.choose 1
  s.setShadow t (if k < l.regs then .v k else if k < l.regs + l.uregs then .s (k - l.regs) else .p (k - l.regs - l.uregs))
    (some (if k < l.regs + l.uregs then v.setWidth 32 else v.setWidth 32 &&& 1, p == 1))

/-- UNCORRECTABLE_ERROR (R408, R410, R411, R415, R471): the detection of an error. A sector still marked writes no further record. -/
def execUncorrectableError (die : Nat) (e : ErrTarget) (s : State) : Host.Outcome State Fault Refusal :=
  match e with
  | .sector pa unit =>
    .next (if s.marked.contains (pa / 32) then s.markSector (pa / 32) (unit == 3)
      else
        let (t, s) := s.detectedBy die
        (s.markSector (pa / 32) (unit == 3)).markRecord die unit.toNat (pa / 32 * 32) (t.map blockOf) ((t.map tidOf).getD 0xFF) ((t.map s.coreOf).getD 0))
  | .scratch core k =>
    .next (if (s.core core).spoison.contains k then s
      else (s.modCore core fun c => { c with spoison := c.spoison ++ [k] }).markRecord die 3 (scratchPlace core (32 * k))
        (s.holderOf core k) 0xFF core)
  | .vreg t n =>
    .next ((s.hurtReg t (.v n)).markRecord die 4 (s.regPlace t n) (some (blockOf t))
      (tidOf t) (s.coreOf t))
  | .ureg c n =>
    .next ((s.hurtReg (128 * c) (.s n)).markRecord die 4 0 (some (c / 4)) 0xFF
      (s.block (c / 4)).core)
  | .pred t n =>
    .next ((s.hurtReg t (.p n)).markRecord die 4 0 (some (blockOf t)) (tidOf t)
      (s.coreOf t))
  | .queue b q k =>
    .next (if k < ((s.block b).queue q).length then
        (s.modBlock b fun x => { x with queues := tset x.queues q ((x.queue q).zipIdx.map fun p =>
          if p.2 = k then { p.1 with poison := true } else p.1) }).markRecord die 8 0 (some b) 0xFF (s.block b).core
      else s)
  | .tile b acc =>
    let (k, s) := s.choose 16383
    .next (s.setTile b acc { (s.block b).tile acc with bad := k :: ((s.block b).tile acc).bad })
  | .fetch pa => .next (s.badFetch die pa)
  | .shadow t =>
    .next (if (s.block (blockOf t)).launch.shadow then
        (s.hurtShadow t).markRecord die 4 0 (some (blockOf t)) (tidOf t) (s.coreOf t)
      else s)

/-- CORRECTED_ERROR (R417): the die's count in ERRCORR, which saturates. -/
def execCorrectedError (die : Nat) (s : State) : Host.Outcome State Fault Refusal :=
  let n := s.helm.errCorr.toNat / 2 ^ (16 * die) % 2 ^ 16
  .next (if die < 4 && n < 0xFFFF then s.modHelm fun h => { h with errCorr := h.errCorr + BitVec.ofNat 64 (2 ^ (16 * die)) } else s)

end Sys2Proof.Machine
end

