-- ==== Sys2Proof/Machine/Place.lean ====
section
/-! DEFINITION. Edges between the blocks of nodes, the logbook, the fit of a block on a core, its placement, and the edge actions
(R15 to R17, R31 to R38, R52, R57, R322 to R325, R379 to R382, R404, R405, R430, R462). -/

namespace Sys2Proof.Machine

/-! ## Memory as the helm reaches it -/

/-- A write by the helm, performed at the home slice (R378). -/
def State.helmWrite (s : State) (pa : Nat) (bs : List Byte) : State :=
  ((s.helmTouch pa bs.length).flush 0 pa bs.length).writeHome pa bs

/-- The lines of a range of physical memory that a partial stands for are combined. -/
def State.recallRange (s : State) (pa n : Nat) : State :=
  (List.range ((pa + n + 127) / 128 - pa / 128)).foldl (fun s k => s.recall (pa + 128 * k)) s

/-- A read by the helm at the home slices. -/
def State.helmRead (s : State) (pa n : Nat) : List Byte × State :=
  let s := (s.helmTouch pa n).recallRange pa n
  (s.homeRead 0 pa n, s)

/-- Bytes the helm reads under a context (R377), or none where one cannot be read. A page of another device is one that it cannot (DESIGN CHOICE,
log 104). -/
def State.readVirtual (s : State) (ctx : BitVec 16) (va : W64) : Nat → Option (List Byte)
  | 0 => some []
  | n + 1 =>
    match s.readVirtual ctx va n with
    | none => none
    | some bs =>
      let a := va + BitVec.ofNat 64 n
      if !validVa a then none
      else match s.translate ctx a with
        | .ok p => if p.r && p.peer.isNone then some (bs ++ [s.homeByte 0 p.pa]) else none
        | .error _ => none

/-- A context is live (R447). -/
def State.ctxLive (s : State) (c : BitVec 16) : Bool :=
  match tget s.ctxs c.toNat with | some x => !x.ended | none => false

/-- The helm runs: HSTAT.STATE is 1 (R372, R385). -/
def Helm.running (h : Helm) : Bool := h.hstat.toNat % 4 == 1

/-! ## Regions and edges (R322, R379) -/

/-- The byte ranges of one block: lowest byte, byte after the highest, access. -/
def Launch.ranges (l : Launch) (k : Nat) : List (Int × Int × Access) :=
  (l.regions.filter fun r => r.extent != 0).map fun r =>
    let lo := r.base + (k : Int) * r.stride
    (lo, lo + r.extent, r.acc)

/-- The parts of a list of ranges between the ends of all of them, each with the merged access of those that cover it (R379). -/
def mergeRanges (rs : List (Int × Int × Access)) : List (Int × Int × Access) :=
  let cuts := sortBy (fun a b => decide (a < b)) (rs.flatMap fun r => [r.1, r.2.1]).eraseDups
  (cuts.zip (cuts.drop 1)).filterMap fun c =>
    let over_ := (rs.filter fun r => decide (r.1 ≤ c.1) && decide (c.2 ≤ r.2.1)).map (·.2.2)
    match over_ with
    | [] => none
    | a :: l => some (c.1, c.2, if l.all (· == a) then a else .rw)

/-- The byte ranges of one block with their merged accesses (R379). -/
def Launch.merged (l : Launch) (k : Nat) : List (Int × Int × Access) := mergeRanges (l.ranges k)

/-- A pair of accesses that makes an edge (R322). -/
def Access.edge (p q : Access) : Bool := p != q || (p != .r && p != .red)

/-- Two ranges share a byte. -/
def meets (a b : Int × Int) : Bool := decide (a.1 < b.2) && decide (b.1 < a.2)

/-- An edge runs from block i of one node to block k of a later one. -/
def Launch.edgeTo (p : Launch) (i : Nat) (q : Launch) (k : Nat) : Bool :=
  (p.ranges i).any fun x => (q.ranges k).any fun y => meets (x.1, x.2.1) (y.1, y.2.1) && x.2.2.edge y.2.2

/-- The hulls of a node's regions over all its blocks (R380). -/
def Launch.hulls (l : Launch) : List (Int × Int × Access) :=
  (l.regions.filter fun r => r.extent != 0).map fun r =>
    let last := ((l.blocks : Int) - 1) * r.stride
    (r.base + min 0 last, r.base + max 0 last + r.extent, r.acc)

/-- A block of a node has published. -/
def Node.published (n : Node) (k : Nat) : Bool := tgetD n.blks k (.waiting 0) == .published

/-- Blocks of a node that have published. -/
def Node.publishedCount (n : Node) : Nat := (n.blks.filter fun p => p.2 == .published).length

/-- Every block of a node has published. -/
def Node.allPublished (n : Node) : Bool := n.publishedCount == n.launch.blocks

/-- The nodes of a context that have not completed, in submission order. -/
def State.nodesOf (s : State) (ctx : BitVec 16) : List Node := (s.nodes.map (·.2)).filter (·.ctx == ctx)

/-- A block is ready (R381, R382): every block with an edge to it has published, and so has every node that a barrier entry it meets
stands for. -/
def State.blockReady (s : State) (n : Node) (k : Nat) : Bool :=
  ((s.nodesOf n.ctx).all fun p => p.seq ≥ n.seq || p.allPublished ||
    (List.range p.launch.blocks).all fun i => p.published i || !p.launch.edgeTo i n.launch k) &&
  n.marks.all fun m =>
    !((n.launch.ranges k).any fun y => meets (m.1, m.2.1) (y.1, y.2.1)) ||
      (s.nodesOf n.ctx).all fun p => p.seq > m.2.2 || p.allPublished ||
        !(p.launch.hulls.any fun h => meets (h.1, h.2.1) (m.1, m.2.1))

/-! ## The logbook (R380, R381) -/

/-- The nodes an entry records. -/
def LogbookEntry.nodes (e : LogbookEntry) : List Nat := e.writer.toList ++ e.readers

/-- An entry after a node with an access enters it: a writer starts it afresh; the ninth reader makes it a barrier. -/
def LogbookEntry.enter (e : LogbookEntry) (seq : Nat) (acc : Access) : LogbookEntry :=
  if acc ≠ .r then { e with writer := some seq, readers := [] }
  else if e.readers.contains seq || e.writer == some seq then e
  else
    let e := { e with readers := e.readers ++ [seq] }
    if e.readers.length ≥ 9 then { e with mark := some (e.nodes.foldl max 0) } else e

/-- Splits an entry at the ends of a range and enters the part inside it. -/
def LogbookEntry.split (e : LogbookEntry) (lo hi : Int) (seq : Nat) (acc : Access) : List LogbookEntry :=
  (if e.lo < lo then [{ e with hi := lo }] else []) ++
    [({ e with lo := max e.lo lo, hi := min e.hi hi } : LogbookEntry).enter seq acc] ++
    if hi < e.hi then [{ e with lo := hi }] else []

/-- Enters one hull of a node of a context. Entries are kept in ascending order of their intervals. -/
def enterHull (ctx : BitVec 16) (seq : Nat) (l : List LogbookEntry) (h : Int × Int × Access) : List LogbookEntry :=
  let (lo, hi, acc) := h
  let mine := sortBy (fun a b => decide (a.lo < b.lo)) (l.filter fun e => e.ctx == ctx && meets (e.lo, e.hi) (lo, hi))
  let rest := l.filter fun e => !(e.ctx == ctx && meets (e.lo, e.hi) (lo, hi))
  let fresh (a b : Int) : List LogbookEntry :=
    if a < b then [({ lo := a, hi := b, ctx := ctx } : LogbookEntry).enter seq acc] else []
  let (out, pos) := mine.foldl (fun (x : List LogbookEntry × Int) e =>
    (x.1 ++ fresh x.2 (max e.lo lo) ++ e.split lo hi seq acc, max x.2 (min e.hi hi))) ([], lo)
  rest ++ out ++ fresh pos hi

/-- A node enters the logbook; it notes the barrier entries that it meets. -/
def State.enterLogbook (s : State) (n : Node) : State :=
  let hs := n.launch.hulls
  let met := s.helm.logbook.filterMap fun e =>
    if e.ctx == n.ctx && hs.any fun h => meets (h.1, h.2.1) (e.lo, e.hi) then e.mark.map fun m => (e.lo, e.hi, m) else none
  let s := s.modHelm fun h => { h with logbook := hs.foldl (enterHull n.ctx n.seq) h.logbook }
  { s with nodes := tset s.nodes n.seq { n with marks := met } }

/-- Entries leave the logbook once every node they record has completed or their context has ended (R380). -/
def State.trimLogbook (s : State) : State :=
  let keep (e : LogbookEntry) : Bool := s.ctxLive e.ctx && (e.nodes ++ e.mark.toList).any fun q => (tget s.nodes q).isSome
  s.modHelm fun h => { h with logbook := h.logbook.filter keep }

/-! ## The fit of a block (R15 to R17, R31, R37, R57, R462) -/

/-- The lowest start of a free range of a size below a limit, given the ranges used. -/
def firstGap (used : List (Nat × Nat)) (size limit : Nat) : Option Nat :=
  let starts := sortBy (fun a b => decide (a < b)) (0 :: used.map fun u => u.1 + u.2)
  starts.find? fun a => decide (a + size ≤ limit) && used.all fun u => u.2 == 0 || size == 0 || !overlap u.1 u.2 a size

/-- A block in shadow mode counts twice (R37). -/
def Launch.weight (l : Launch) : Nat := if l.shadow then 2 else 1

/-- Vector register words and threads in use on a sub-core. -/
def State.subLoad (s : State) (core sub : Nat) : Nat × Nat :=
  (s.subCrews core sub).foldl (fun x c =>
    let l := (s.block (c / 4)).launch
    (x.1 + l.weight * l.threads * l.regs, x.2 + l.weight * l.threads)) (0, 0)

/-- The register base of a crew of a launch on a sub-core (R430): the registers of a crew, and those of its shadow behind them (R413), are
words in a row. -/
def State.regBase (s : State) (core sub : Nat) (l : Launch) : Option Nat :=
  let used := (s.subCrews core sub).map fun c =>
    let m := (s.block (c / 4)).launch
    ((s.crew c).regBase, m.weight * m.threads * m.regs)
  firstGap used (l.weight * l.threads * l.regs) 65536

/-- The sub-cores for the crews of a block, the least loaded first: which is not architectural (log 7). One that has the words of R15 but
not in a row takes no crew (R430; DEDUCED, log 97). -/
def State.pickSubs (s : State) (core : Nat) (l : Launch) : Option (List Nat) :=
  let ok := (List.range 4).filter fun k =>
    let (r, n) := s.subLoad core k
    decide (r + l.weight * l.threads * l.regs ≤ 65536) && decide (n + l.weight * l.threads ≤ 512) && (s.regBase core k l).isSome
  let sorted := sortBy (fun a b => decide ((s.subLoad core a).1 < (s.subLoad core b).1)) ok
  if sorted.length < l.crews then none else some (sorted.take l.crews)

/-- Two contexts may be resident on one core (R57, R404); a PAIR of 0xFFFF names none (R388). -/
def State.paired (s : State) (a b : BitVec 16) : Bool :=
  a != b && a != 0xFFFF && b != 0xFFFF && (s.ctx a).pair == b && (s.ctx b).pair == a

/-- A node of class 2 holds the core until its last block ends (R462): no block of another node is placed there meanwhile, which is how the
model reads the hold (DESIGN CHOICE, log 88). -/
def State.heldFor (s : State) (core : Nat) (seq : Nat) : Bool :=
  s.nodes.any fun p => p.2.launch.progress == 2 && p.2.seq != seq && !p.2.allPublished &&
    (p.2.ranOn.any (·.2 == core) || p.2.blks.any fun b => match b.2 with | .placed u => (s.block u).core == core | _ => false)

/-- The core is one of the context's that placement may use (R374, R456). -/
def State.mayUse (s : State) (ctx : BitVec 16) (core : Nat) : Bool :=
  decide (core < 256) && (s.ctx ctx).cores.getLsbD core && !s.helm.dieFail.getLsbD (dieOf core)

/-- The undo logs of the crews of a block. -/
def Launch.undoBytes (l : Launch) : Nat := l.crews * l.undolog

/-- The memory of a die has room for the undo logs of a block (R355, log 87). A saved block's log stays in its memory (R368). -/
def State.undoFits (s : State) (die : Nat) (l : Launch) : Bool :=
  l.undolog == 0 || decide (((s.blocks.filter fun p => p.2.stage != .gone && p.2.logDie == die).map fun p => p.2.launch.undoBytes).sum +
    l.undoBytes ≤ Config.undoRoom die)

/-- SPBASE and sub-cores for a block of a node on a core, where it fits (R37, R355); one that comes `back` has its undo logs. -/
def State.fit (s : State) (ctx : BitVec 16) (seq : Nat) (l : Launch) (core : Nat) (back : Bool := false) : Option (Nat × List Nat) :=
  let bs := (s.coreBlocks core).map s.block
  if !s.mayUse ctx core || s.heldFor core seq || (!back && !s.undoFits (dieOf core) l) then none
  else if bs.length ≥ 16 || (bs.map (·.launch.tiles)).sum + l.tiles > 8 then none
  else if !(bs.isEmpty || (s.core core).carve == some l.carveout) then none
  else if !(bs.all fun b => b.ctx == ctx || s.paired b.ctx ctx) then none
  else match firstGap (bs.map fun b => (b.spBase, 1024 * b.launch.spKib)) (1024 * l.spKib) (1024 * partKib l.carveout),
      s.pickSubs core l with
    | some sp, some subs => some (sp, subs)
    | _, _ => none

/-- A block of a node fits on some core. -/
def State.fitsSomewhere (s : State) (ctx : BitVec 16) (seq : Nat) (l : Launch) : Bool :=
  (List.range 256).any fun c => (s.fit ctx seq l c).isSome

/-! ## Placement (R35, R36, R278) -/

/-- The allotment of a block placed on a core (R36): sector tags are empty; a byte another context wrote last reads 0 and its sector is
unpoisoned, as is one that no block has held since the last start; a byte and a mark the same context left there are found again, unless
another context wrote there since. -/
def Core.allot (c : Core) (ctx : BitVec 16) (off n : Nat) : Core :=
  let inside (k : Nat) : Bool := decide (off ≤ k) && decide (k < off + n)
  let full := (c.shade.filter fun p => inside p.1).foldl (fun m p => if (tget m p.1).isSome then m else tset m p.1 p.2) c.scratch
  let alien (p : Nat × SByte) : Bool := inside p.1 && p.2.ctx != ctx
  let foreign (k : Nat) : Bool := full.any fun p => p.1 / 32 == k && alien p
  let holder (k : Nat) : Option (BitVec 16) := (c.scratch.find? fun p => p.1 / 32 == k).map (·.2.ctx)
  let found (m : Nat × BitVec 16) : Bool := inside (32 * m.1) && m.2 == ctx
  let fresh (k : Nat) : Bool := inside (32 * k) && !(c.worn.any fun w => decide (w.1 ≤ 32 * k) && decide (32 * k < w.1 + w.2))
  { c with
    worn := if n = 0 || c.worn.contains (off, n) then c.worn else c.worn ++ [(off, n)],
    scratch := full.filter fun p => !alien p,
    shade := (full.filter alien).foldl (fun m p => tset m p.1 p.2) (c.shade.filter fun p => !inside p.1),
    stags := c.stags.filter fun p => !inside (32 * p.1),
    spoison := (c.spoison.filter fun k => !foreign k && !fresh k) ++
      ((c.shadeMarks.filter fun m => found m && !foreign m.1 && !c.spoison.contains m.1).map (·.1)),
    shadeMarks := (c.shadeMarks.filter fun m => !found m) ++
      (c.spoison.filter foreign).filterMap fun k =>
        match holder k with
        | some o => if o == ctx then none else some (k, o)
        | none => none }

/-- Which context is active on a core that receives a block (R57, R404): the one that is there; on an empty core, the member of the
block's pair that is active elsewhere. -/
def State.activeFor (s : State) (ctx : BitVec 16) (core : Nat) : BitVec 16 :=
  match (s.core core).active with
  | some a => a
  | none =>
    match s.blocks.find? fun p => s.paired p.2.ctx ctx && decide (p.2.core < 256) with
    | some p => ((s.core p.2.core).active).getD ctx
    | none => ctx

/-- The core as it is after a block is placed on it. -/
def State.takeCore (s : State) (ctx : BitVec 16) (l : Launch) (core sp : Nat) : State :=
  let a := s.activeFor ctx core
  let s := s.modCore core fun c =>
    { c.allot ctx sp (1024 * l.spKib) with
      carve := some l.carveout, active := some a, lastPlaced := tset c.lastPlaced ctx.toNat s.nextUid }
  s.shrinkL1 core (s.core core).l1Lines (s.core core).l1.length

/-- The count of SLICE starts on a die where none runs (R405): at the context's first block on the device, and at the next one after a
pre-emption in which nothing was saved, the helm reads SLICE, DRAIN and FORCE, and the context is running. -/
def State.startSlice (s : State) (ctx : BitVec 16) (die : Nat) : State :=
  let first := (s.ctx ctx).stage == 0
  let r := s.ctxRecord ctx
  let w (off : Nat) : Nat := ofBytes (memRead s.mem (r + off) 4)
  s.modCtx ctx fun c =>
    let c := if first then { c with slice := w 0x70, drain := w 0x74, force := w 0x78, sliceLeft := [], stage := 5, dies := [], begun := true } else c
    if (tget c.sliceLeft die).isSome then c else { c with sliceLeft := tset c.sliceLeft die c.slice }

/-- A line of a context lies in a range of virtual addresses, or holds frame bytes of an fp4bs page in it (R428). -/
def State.lineMeets (s : State) (ctx : BitVec 16) (line : Nat) (r : Int × Int) : Bool :=
  let a : Int := toSigned 64 (128 * line)
  meets (a, a + 128) r ||
    (List.range ((r.2 - r.1 + 0xFFFF) / 0x10000 + 1).toNat).any fun k =>
      let va := BitVec.ofInt 64 (r.1 / 0x10000 * 0x10000 + 0x10000 * (k : Int))
      match s.translate ctx va with
      | .ok p => p.fmt == 1 && decide (p.frame ≤ 128 * line) && decide (128 * line < p.frame + 0x8000)
      | .error _ => false

/-- Every write in a die's outbound path is performed. -/
def State.drainOut (s : State) (die : Nat) : State :=
  (s.out die).foldl (State.performOut · die) { s with outbound := tset s.outbound die [] }

/-- The action of the first row of R323 for block k of a node that publishes on a core: dirty bytes in its W and RW regions are written back,
partials in its RED and RW regions combined, up to the home slices. -/
def State.edgeWriteback (s : State) (ctx : BitVec 16) (core : Nat) (l : Launch) (k : Nat) : State :=
  let rs := (l.merged k).filter fun r => r.2.2 != .r
  let s := (s.core core).l1.foldl (fun s x =>
    let hit (red : Bool) : Bool := x.ctx == ctx && rs.any fun r => (r.2.2 == .rw || (r.2.2 == .red) == red) && s.lineMeets ctx x.line (r.1, r.2.1)
    if hit x.red.isSome then s.cleanLine core [] x else s) s
  s.drainOut (dieOf core)

/-- The action of the second row of R323 for block k of a node that is placed on a core: lines that meet its R and RW regions are written
back or combined, and dropped. -/
def State.edgeInvalidate (s : State) (ctx : BitVec 16) (core : Nat) (l : Launch) (k : Nat) : State :=
  let rs := (l.merged k).filter fun r => r.2.2 == .r || r.2.2 == .rw
  let s := (s.core core).l1.foldl (fun s x =>
    if x.ctx == ctx && rs.any fun r => s.lineMeets ctx x.line (r.1, r.2.1) then s.evict core x else s) s
  s.drainOut (dieOf core)

/-- A block that has published has an edge to block k of a node that is placed on a core, and asks for the action there (R323): it ran
elsewhere, or a block of another context has been placed there since. -/
def State.edgeAsks (s : State) (n : Node) (k core : Nat) : Bool :=
  let guests := (s.core core).lastPlaced.filter (·.1 != n.ctx.toNat)
  (s.ctx n.ctx).ran.any fun p => decide (p.seq < n.seq) && p.launch.edgeTo p.idx n.launch k &&
    !(p.core == core && guests.all fun g => decide (g.2 ≤ p.uid))

/-- A block's threads and crews at its start (R35). -/
def State.startThreads (s : State) (uid core : Nat) (l : Launch) (subs : List Nat) : State :=
  subs.zipIdx.foldl (fun s p =>
    let c := 4 * uid + p.2
    let s := s.setCrew c { sub := p.1, regBase := (s.regBase core p.1 l).getD 0 }
    (List.range l.threads).foldl (fun s t =>
      s.setThread (c * 128 + t) { pc := l.entry, form := s.formNow }) s) s

/-- Places block k of a node on a core (R35, R36, R278, R323, R382). -/
def State.place (s : State) (n : Node) (k core sp : Nat) (subs : List Nat) : State :=
  let uid := s.nextUid
  let l := n.launch
  let x := s.ctx n.ctx
  let s := s.startSlice n.ctx (dieOf core)
  let s := s.takeCore n.ctx l core sp
  let s := if s.edgeAsks n k core then
      (s.edgeInvalidate n.ctx core l k).modHelm fun h => { h with journal := h.journal ++ [.edgeIn n.ctx core l k] }
    else s
  let b : Block :=
    { ctx := n.ctx, task := n.task, index := k, node := n.seq, core := core, spBase := sp, tba := x.tba, reckon := x.reckon,
      launch := l, placedAt := s.cycle, logDie := dieOf core,
      sequencer := (match l.stream with | some a => { pc := a, st := .running } | none => {}) }
  let s := (State.setBlock { s with nextUid := uid + 1 } uid b).startThreads uid core l subs
  { s with nodes := tmod s.nodes n.seq fun m =>
      { m with blks := tset m.blks k (.placed uid), starved := m.starved.filter (· != k) } }

/-! ## Release and publication (R38, R323, R383) -/

/-- Cores without blocks are empty again (R17); a context that stands alone on the device is the active one (R57). -/
def State.settleCores (s : State) : State :=
  { s with cores := s.cores.map fun p =>
      if p.1 ≥ 256 then p
      else match (s.coreBlocks p.1).map s.block with
        | [] => (p.1, { p.2 with carve := none, active := none })
        | b :: _ =>
          let stands (a : BitVec 16) : Bool := s.blocks.any fun q => q.2.ctx == a && decide (q.2.core < 256)
          (match p.2.active with
          | some a => if stands a then p else (p.1, { p.2 with active := some b.ctx })
          | none => (p.1, { p.2 with active := some b.ctx })) }

/-- The gang slice of a context waits for another context (R386): one that is no partner of it has blocks on cores that it may use, or is
being pre-empted there. -/
def State.behind (s : State) (ctx : BitVec 16) : Bool :=
  let mine := (s.ctx ctx).cores
  (s.blocks.any fun p => decide (p.2.core < 256) && p.2.ctx != ctx && !s.paired p.2.ctx ctx && mine.getLsbD p.2.core) ||
    s.ctxs.any fun c => c.1 != ctx.toNat && (c.2.stage == 1 || c.2.stage == 2) && !s.paired (BitVec.ofNat 16 c.1) ctx && (c.2.cores &&& mine) != 0

/-- The slices of contexts that have been placed nowhere yet, and wait for no other, begin (R386). -/
def State.beginSlices (s : State) : State :=
  { s with ctxs := s.ctxs.map fun c =>
      if c.2.begun || c.2.ended || c.2.stage != 0 || c.2.saveUsed != 0 || s.behind (BitVec.ofNat 16 c.1) then c
      else (c.1, { c.2 with begun := true }) }

/-- Removes a block with its crews and threads. -/
def State.removeBlock (s : State) (uid : Nat) : State :=
  State.settleCores { (s.foldBlockTallies uid).dropShadow uid with
    threads := s.threads.filter fun p => blockOf p.1 != uid,
    crews := s.crews.filter fun p => p.1 / 4 != uid,
    blocks := tdel s.blocks uid }

/-- A block that has ended may publish (R38, R292, R348): its held effects have drained, and what it has issued is done. Blocks that ended
during a takeover publish in that order (R385). -/
def State.mayPublish (s : State) (uid : Nat) : Bool :=
  let b := s.block uid
  let c := s.core b.core
  b.stage == .ending && (!s.helm.endedLate.contains uid || s.helm.endedLate.head? == some uid) && !(c.held.any fun h => blockOf h.t == uid) &&
    (match c.engine with | some e => e.1 != uid | none => true) &&
    !(s.copies.any fun p => p.2.blk == uid) && !(s.allRequests.any fun r => blockOf r.t == uid) &&
    (s.blockThreads uid).all fun t => (s.thread t).pend.isEmpty && (s.thread t).out.isEmpty

/-- Accesses that threads have issued to the scratchpad of a block are performed: it is about to leave the core (R182). -/
def State.settleInto (s : State) (uid : Nat) : State :=
  let b := s.block uid
  s.settlePad b.core b.spBase (1024 * b.launch.spKib)

/-- A block publishes its completion event (R38, R323, R383). -/
def State.publish (s : State) (uid : Nat) : State :=
  let b := s.block uid
  let s := s.settleInto uid
  let s := (s.edgeWriteback b.ctx b.core b.launch b.index).modHelm fun h =>
    { h with journal := h.journal ++ [.edgeOut b.ctx b.core b.launch b.index], endedLate := h.endedLate.filter (· != uid) }
  let s := s.modCtx b.ctx fun c => { c with ran := c.ran ++ [{ seq := b.node, idx := b.index, core := b.core, uid := uid, launch := b.launch }] }
  let s : State := { s with
    mail := s.mail.filter fun m => blockOf m.sender != uid,
    nodes := tmod s.nodes b.node fun n =>
      { n with blks := tset n.blks b.index .published, ranOn := tset n.ranOn b.index b.core } }
  s.removeBlock uid

/-! ## Completion records and the end of a context (R271, R378, R384, R393) -/

/-- The 16 bytes of a completion record (R378). -/
def completionBytes (published task seq status : Nat) : List Byte :=
  leBytes 4 status ++ leBytes 4 seq ++ leBytes 4 task ++ leBytes 4 published

/-- Writes a completion record; during a takeover it is owed until the standby core goes on, and a helm that is down writes none (R28, R385). -/
def State.complete (s : State) (cplAddr published task seq status : Nat) : State :=
  let bs := completionBytes published task seq status
  match s.helm.hstat.toNat % 4 with
  | 2 => s.modHelm fun h => { h with owed := h.owed ++ [.record cplAddr bs] }
  | 3 => s
  | _ => (s.helmWrite cplAddr bs).modHelm fun h => { h with journal := h.journal ++ [.record cplAddr bs] }

/-- Runs of consecutive numbers in an ascending list: first and count. -/
def runsOf : List Nat → List (Nat × Nat)
  | [] => []
  | x :: xs =>
    match runsOf xs with
    | (a, n) :: r => if a = x + 1 then (x, n + 1) :: r else (x, 1) :: (a, n) :: r
    | [] => [(x, 1)]

/-- The BLOCKS entries of a node (R384). -/
def State.reportBlocks (s : State) (n : Node) : State :=
  (runsOf ((n.blks.filter fun p => p.2 == .published).map (·.1))).foldl (fun s r =>
    s.report n.ctx { kind := 1, crew := 0xFF, tid := 0xFF, task := n.task, blk := r.1, n := r.2 }) s

/-- The COPYWORD entries of a block that has not published (R384). -/
def State.reportCopyWords (s : State) (b : Block) : State :=
  b.copyWords.foldl (fun s w =>
    s.report b.ctx { kind := 2, crew := crewIx w.1, tid := tidOf w.1, task := b.task, blk := b.index, value := w.2.1, value2 := w.2.2.toNat }) s

/-- Commands that are still to move bytes note that a block leaves its core (R392, R393). -/
def State.noteDeparture (s : State) (uid : Nat) : State :=
  let b := s.block uid
  let d : Departed :=
    { uid := uid, core := b.core, base := b.spBase, bytes := 1024 * b.launch.spKib,
      regs := (s.crews.filter fun c => c.1 / 4 == uid).map fun c => (c.2.sub, c.2.regBase, b.launch.threads * b.launch.regs) }
  if b.core ≥ 256 then s
  else { s with copies := s.copies.map fun p => if p.2.ctx == b.ctx && !p.2.moved then (p.1, { p.2 with left := d :: p.2.left }) else p }

/-- The scratchpad of a block with its marks, as a core part of its own. -/
def State.padOf (s : State) (uid : Nat) : Core :=
  let b := s.block uid
  let c := s.core b.core
  let inside (k : Nat) : Bool := decide (b.spBase ≤ k) && decide (k < b.spBase + 1024 * b.launch.spKib)
  { scratch := c.scratch.filter fun p => inside p.1, spoison := c.spoison.filter fun k => inside (32 * k) }

/-- What is left of a block whose context's commands run on after it: its scratchpad, on no core. -/
def Block.ghost (b : Block) (uid : Nat) : Block :=
  { b with core := 256 + uid, stage := .gone, copyWords := [], queues := [], inbox := [], sequencer := {}, tiles := [], bars := [] }

/-- A context ends (R271, R384, R393): its reports, then everything of it on the device but the stores, requests and copy commands that it
has issued. These run on against what is left of its blocks. -/
def State.endContext (s : State) (ctx : BitVec 16) (code : Nat) (t : Option Nat) (addr : W64) : State :=
  if !s.ctxLive ctx then s
  else
    let ended : Report := match t with
      | some t =>
        let b := s.block (blockOf t)
        { kind := 5, code := code, crew := crewIx t, tid := tidOf t, task := b.task, blk := b.index, value := addr.toNat }
      | none => { kind := 5, code := code, crew := 0xFF, tid := 0xFF, blk := 0xFFFFFFFF }
    let nodes := s.nodesOf ctx
    let blocks := s.blocks.filter fun p => p.2.ctx == ctx && p.2.stage != .gone
    let s := s.report ctx ended
    let s := nodes.foldl State.reportBlocks s
    let s := (blocks.map (·.2)).foldl State.reportCopyWords s
    let s := nodes.foldl (fun s n => s.complete n.cplAddr n.publishedCount n.task.toNat (n.seq % 2 ^ 32) 5) s
    let late := s.helm.later.filter fun r => r.ctx == ctx
    let s := late.foldl (fun s r => s.complete (ofBytes ((r.bytes.drop 0x90).take 8)) 0 (ofBytes ((r.bytes.drop 4).take 4))
      (r.seq % 2 ^ 32) 4) s
    let gone (uid : Nat) : Bool := blocks.any (·.1 == uid)
    let s := s.modHelm fun h => { h with later := h.later.filter fun r => r.ctx != ctx, endedLate := h.endedLate.filter fun u => !gone u }
    let s := ((s.threads.map (·.1)).filter fun t => gone (blockOf t)).foldl State.settleAll s
    let busy := s.copies.any fun p => p.2.ctx == ctx
    let pads := if busy then blocks.map fun p => (256 + p.1, s.padOf p.1) else []
    let s := (blocks.map (·.1)).foldl State.noteDeparture s
    let s : State := { s with
      shadow := s.shadow.filter fun x => !gone (blockOf x.t),
      astray := s.astray.filter fun t => !gone (blockOf t),
      threads := s.threads.filter fun p => !gone (blockOf p.1),
      crews := s.crews.filter fun p => !gone (p.1 / 4),
      blocks := s.blocks.filterMap fun p =>
        if !gone p.1 then some p else if busy then some (p.1, p.2.ghost p.1) else none,
      nodes := s.nodes.filter fun p => p.2.ctx != ctx,
      groupOps := s.groupOps.filter fun o => !gone (o.crew / 4),
      mail := s.mail.filter fun m => !gone (blockOf m.sender),
      cores := pads.foldl (fun m p => tset m p.1 p.2) ((s.cores.map fun p => (p.1, { p.2 with
        held := p.2.held.filter fun h => !gone (blockOf h.t),
        slots := p.2.slots.map fun k => if k.2.kind != .free && k.2.ctx == ctx then (k.1, k.2.freed) else k,
        engine := p.2.engine.bind fun e => if gone e.1 then none else some e })).filter fun p =>
          p.1 < 256 || !gone (p.1 - 256)) }
    let s := s.modCtx ctx fun c =>
      { c with ended := true, stage := if code = 0x10 then 6 else 0, dies := [], sliceLeft := [], groups := [], saveUsed := 0,
               begun := false, ran := [] }
    s.settleCores.trimLogbook

/-! ## The stages of a pre-emption on the dies (R390, R395, R406) -/

/-- The blocks of a context on a die. -/
def State.dieBlocks (s : State) (ctx : BitVec 16) (die : Nat) : List Nat :=
  (s.blocks.filter fun p => p.2.ctx == ctx && decide (p.2.core < 256) && dieOf p.2.core == die).map (·.1)

/-- The blocks a pre-emption has saved. -/
def State.savedBlocks (s : State) (ctx : BitVec 16) : List Nat :=
  (s.blocks.filter fun p => p.2.ctx == ctx && p.2.stage == .saved).map (·.1)

/-- Writes the header of a save or swap area (R395, R403). -/
def State.areaHeader (s : State) (base size magic : Nat) (ctx : BitVec 16) (nblock state used : Nat) : State :=
  if size < 64 then s
  else s.helmWrite base (leBytes 4 magic ++ leBytes 2 ctx.toNat ++ leBytes 2 0 ++ leBytes 4 nblock ++ leBytes 4 state ++
    leBytes 8 used ++ leBytes 40 0)

/-- The header of the save area. -/
def State.saveHeader (s : State) (ctx : BitVec 16) (state : Nat) : State :=
  let x := s.ctx ctx
  s.areaHeader x.saveBase x.saveSize 0x31564153 ctx (s.savedBlocks ctx).length state x.saveUsed

/-- Dies on which every block has ended are done; once all four are, STAGE reads 3 if any block was saved, and 0 otherwise (R390,
R405, R406). -/
def State.settleDies (s : State) (ctx : BitVec 16) : State :=
  let x := s.ctx ctx
  if x.stage ≠ 1 && x.stage ≠ 2 then s
  else
    let s := s.modCtx ctx fun c => { c with dies := c.dies.map fun p =>
      if (s.dieBlocks ctx p.1).isEmpty then (p.1, .done) else p }
    if (s.ctx ctx).dies.all (·.2 == .done) then
      let n := (s.savedBlocks ctx).length
      let s := s.modCtx ctx fun c => { c with stage := if n = 0 then 0 else 3, begun := false, sliceLeft := [], saveUsed := if n = 0 then 0 else c.saveUsed }
      if n = 0 then (let x := s.ctx ctx; s.areaHeader x.saveBase x.saveSize 0x31564153 ctx 0 0 64) else s.saveHeader ctx 1
    else s

end Sys2Proof.Machine
end

