-- ==== Sys2Proof/Machine/Helm.lean ====
section
/-! DEFINITION. The helm: queues and task records, the verification of a context, admission, placement, publication, completion and
takeover (R33, R52, R53, R108, R109, R355, R358, R371 to R385, R394, R444 to R447, R462, R469, R470). -/

namespace Sys2Proof.Machine

/-! ## Queues (R371, R373, R375, R376) -/

/-- A queue's descriptor. -/
def Helm.queue (h : Helm) (q : Nat) : Queue := tgetD h.queues q {}

/-- KICK (R371): the bits that are 1 set the kicks of queues 32w to 32w + 31. -/
def execKick (w : Nat) (bits : W32) (s : State) : Host.Outcome State Fault Refusal :=
  .next (s.modHelm fun h =>
    { h with kicks := h.kicks ++ ((List.range 32).filter fun i => bits.getLsbD i && !h.kicks.contains (32 * w + i)).map (32 * w + ·) })

/-- QDESC_WRITE (R9, R373, R375): writing BASE, in the upper half, clears STOP and sets HEAD to TAIL; a reserved LOGSIZE leaves the field
as it was. -/
def execQdescWrite (q : Nat) (hi : Bool) (v : W64) (s : State) : Host.Outcome State Fault Refusal :=
  let d := s.helm.queue q
  let x := v.toNat
  let d' : Queue :=
    if hi then { d with base := x / 2 ^ 12 % 2 ^ 40, stop := false, head := d.tail }
    else { d with tail := BitVec.ofNat 16 (x / 2 ^ 48),
                    logSize := if x / 2 ^ 28 % 16 ≤ 11 then x / 2 ^ 28 % 16 else d.logSize,
                    prio := x / 2 ^ 26 % 4, ctx := BitVec.ofNat 16 x }
  .next (if q < 1024 then s.modHelm fun h => { h with queues := tset h.queues q d' } else s)

/-! ## Contexts (R374, R388, R444 to R447, R470) -/

/-- A field of n bytes at an offset. -/
def field (bs : List Byte) (off n : Nat) : Nat := ofBytes ((bs.drop off).take n)

/-- Every byte of a range is zero. -/
def zeros (bs : List Byte) (off n : Nat) : Bool := ((bs.drop off).take n).all (· == 0)

/-- A context as its record gives it: idle until a block of it is placed (R389). -/
def contextOf (r : List Byte) : Context :=
  { tba := BitVec.ofNat 64 (field r 0 8), reckon := if field r 0xC 4 % 2 = 1 then field r 8 4 else 65536,
    cores := BitVec.ofNat 256 (field r 0x10 32), rpBase := field r 0x30 8, rpLog := field r 0x38 4,
    saveBase := field r 0x60 8, saveSize := field r 0x68 8, slice := field r 0x70 4, drain := field r 0x74 4,
    force := field r 0x78 4, pair := BitVec.ofNat 16 (field r 0x7C 2), swapBase := field r 0x80 8, swapSize := field r 0x88 8,
    fwBase := field r 0xC8 8, fwSize := field r 0xD0 8, fwPerm := field r 0xD8 4, stage := 0 }

/-- The checks of R470 on a context record. -/
def recordOk (r : List Byte) : Bool :=
  decide (4 ≤ field r 0x38 4 && field r 0x38 4 ≤ 16) && field r 0x30 8 % 4096 == 0 && field r 0xC 4 / 2 == 0

/-- The verification of a policy record under a key, in the order of R447. -/
def policyOk (key p : List Byte) : Bool :=
  let gran := (p.drop 0x28).take 16
  field p 0 4 == 0x314C4F50 && field p 4 1 == 1 && decide (field p 5 1 ≤ 2) && decide (field p 6 1 ≤ 24) &&
  zeros p 7 1 && zeros p 0x38 8 && gran.all (fun g => decide (g.toNat ≤ 4)) &&
  [6, 7, 11, 14, 15].all (fun k => gran.getD k 0 == 0) &&
  (p.drop 8).take 32 == leBytes 32 (Config.sha512 key).toNat &&
  Config.edVerify (BitVec.ofNat 256 (ofBytes key)) (p.take 0x40) (BitVec.ofNat 512 (field p 0x40 64))

/-- The helm makes a context live (R447): the STATUS that its records complete with where it does not. -/
def State.makeLive (s : State) (ctx : BitVec 16) : Except Nat Unit × State :=
  if s.ctxLive ctx then (.ok (), s)
  else
    let (r, s) := s.helmRead (s.ctxRecord ctx) 256
    if !recordOk r then (.error 4, s)
    else
      let x := contextOf r
      if field r 0xA0 8 = 0 then (.ok (), (s.setCtx ctx x).beginSlices)
      else
        let (p, s) := s.helmRead (field r 0xA0 8) 128
        if policyOk ((r.drop 0xA8).take 32) p then
          (.ok (), (s.setCtx ctx
            { x with hasPolicy := true, faddr := field p 5 1, timek := field p 6 1, gran := (p.drop 0x28).take 16 }).beginSlices)
        else (.error 7, s)

/-! ## Launch records (R108, R109, R377 to R379) -/

/-- The region entries of a descriptor, read from c0 (R109, R379). -/
def regionOf (c0 : List Byte) (e : Nat) : Option Region :=
  let par (o : Nat) : Option Nat := if 4 * o + 8 ≤ c0.length then some (field c0 (4 * o) 8) else none
  let acc : Access := match e % 4 with | 0 => .r | 1 => .w | 2 => .rw | _ => .red
  if e / 4 % 4 ≠ 0 || e / 32 % 256 ≠ 0 then none
  else match par (e / 2 ^ 13 % 2 ^ 17), par (e / 2 ^ 30 % 2 ^ 17), (if e.testBit 4 then par (e / 2 ^ 47 % 2 ^ 17) else some 0) with
    | some b, some x, some d => some { base := toSigned 64 b, extent := x, stride := toSigned 64 d, acc := acc }
    | _, _, _ => none

/-- All of a list, or none. -/
def allSome {α : Type} : List (Option α) → Option (List α)
  | [] => some []
  | x :: xs => match x, allSome xs with | some a, some l => some (a :: l) | _, _ => none

/-- The launch parameters of a record and its descriptor, or none for BAD_RECORD (R377, R378). -/
def State.parseLaunch (s : State) (ctx : BitVec 16) (r : List Byte) : Option Launch :=
  if !zeros r 1 3 || !zeros r 0x27 1 || !zeros r 0x9E 2 || !zeros r 0xA4 92 || field r 0 1 ≠ 1 then none
  else match s.readVirtual ctx (BitVec.ofNat 64 (field r 8 8)) 192 with
    | none => none
    | some d =>
      let c0base := BitVec.ofNat 64 (field r 0x28 8)
      if !zeros d 35 1 || !zeros d 0 18 || field d 22 1 > 16 || field r 0xA0 4 > 2 ^ 19 then none
      else if (List.range 6).any (fun w => field r (0x38 + 16 * w) 8 % 4 ≠ 0 || field r (0x38 + 16 * w) 8 > 2 ^ 19) then none
      else match s.readVirtual ctx c0base (field d 40 4) with
        | none => none
        | some c0 =>
          match allSome ((List.range (field d 22 1)).map fun k => regionOf c0 (field d (64 + 8 * k) 8)) with
          | none => none
          | some regions =>
            let stream := field d 48 8
            let text := BitVec.ofNat 64 (field r 0x10 8)
            some
              { entry := text + BitVec.ofNat 64 (field d 56 8),
                stream := if stream = 2 ^ 64 - 1 then none else some (BitVec.ofNat 64 (field r 0x18 8 + stream)),
                undolog := field d 36 4, fair := field d 32 3, regs := field d 30 2, uregs := field d 28 2,
                threads := field d 27 1, crews := field d 26 1, carveout := field d 25 1, progress := field d 24 1,
                shadow := field d 23 1 == 1, blocks := field r 0x20 4, spKib := field r 0x24 2, tiles := field r 0x26 1,
                windows := [(c0base, field d 40 4)] ++
                  (List.range 6).map (fun w => (BitVec.ofNat 64 (field r (0x30 + 16 * w) 8), field r (0x38 + 16 * w) 8)) ++
                  [(text, field r 0xA0 4)],
                regions := regions }

/-! ## Taking records (R375, R376, R380) -/

/-- The hulls that a record will enter in the logbook; none of a host resume or of a record that cannot be read. -/
def State.hullsOf (s : State) (r : TakenRec) : List (Int × Int × Access) :=
  if field r.bytes 0 1 = 2 then [] else ((s.parseLaunch r.ctx r.bytes).map Launch.hulls).getD []

/-- The logbook as it will be once some records have been entered. -/
def State.logbookWith (s : State) (rs : List TakenRec) : List LogbookEntry :=
  rs.foldl (fun l r => (s.hullsOf r).foldl (enterHull r.ctx r.seq) l) s.helm.logbook

/-- Room for a record (R376, R380): 4,096 nodes in the ready pool, and 8,192 entries in the logbook. The journal always has room (log 36). -/
def State.roomForRecord (s : State) (r : TakenRec) : Bool :=
  decide (s.nodes.length + s.helm.taken.length < 4096) && decide ((s.logbookWith (s.helm.taken ++ [r])).length ≤ 8192)

/-- Takes up to n records of a queue; the kick is set again when one has to stay in its ring. -/
def State.takeRecords (s : State) (q : Nat) : Nat → State
  | 0 => s
  | n + 1 =>
    let d := s.helm.queue q
    if d.head = d.tail then s
    else
      let (bs, s) := s.helmRead (d.base * 2 ^ 12 + 256 * (d.head.toNat % 2 ^ (d.logSize + 4))) 256
      let r : TakenRec := { q := q, seq := s.helm.nextSeq, prio := d.prio, ctx := d.ctx, bytes := bs }
      if !s.roomForRecord r then s.modHelm fun h => { h with kicks := h.kicks ++ [q] }
      else State.takeRecords (s.modHelm fun h =>
        { h with taken := h.taken ++ [r], nextSeq := (h.nextSeq + 1) % 2 ^ 64, queues := tset h.queues q { d with head := d.head + 1 } }) q n

/-- The first record of a queue stays in its ring, for want of room (R376). -/
def State.scanStays (s : State) (q : Nat) : Bool :=
  let d := s.helm.queue q
  let bs := s.homeRead 0 (d.base * 2 ^ 12 + 256 * (d.head.toNat % 2 ^ (d.logSize + 4))) 256
  !d.stop && d.head != d.tail && decide ((d.tail - d.head).toNat ≤ 2 ^ (d.logSize + 4)) &&
    !s.roomForRecord { q := q, seq := s.helm.nextSeq, prio := d.prio, ctx := d.ctx, bytes := bs }

/-- QUEUE_SCAN (R375, R376): the lowest queue whose kick is set, but for those whose records have to stay in their rings; its records are taken
up to its TAIL. -/
def execQueueScan (q : Nat) (s : State) : Host.Outcome State Fault Refusal :=
  let h := s.helm
  if !h.running || !h.kicks.contains q || h.kicks.any (fun k => decide (k < q) && !s.scanStays k) then .next s
  else
    let d := h.queue q
    let s := s.modHelm fun h => { h with kicks := h.kicks.filter (· != q) }
    let n := (d.tail - d.head).toNat
    if d.stop then .next s
    else if n > 2 ^ (d.logSize + 4) then .next (s.modHelm fun h => { h with queues := tset h.queues q { d with stop := true } })
    else .next (s.takeRecords q n)

/-! ## Admission (R33, R53, R355, R379) -/

/-- SHADOW of the descriptor lies outside off and on. -/
def shadowBad (d : Option (List Byte)) : Bool := match d with | some d => decide (field d 23 1 > 1) | none => false

/-- The parameters lie in the ranges of R33 and R355, and every block's regions in the valid space (R379). -/
def Launch.shapeOk (l : Launch) : Bool :=
  decide (1 ≤ l.blocks && l.blocks ≤ 2 ^ 31 && 1 ≤ l.crews && l.crews ≤ 4 && 1 ≤ l.threads && l.threads ≤ 128) &&
  decide (8 ≤ l.regs && l.regs ≤ 1024) && l.regs % 8 == 0 && decide (16 ≤ l.uregs && l.uregs ≤ 256) && l.uregs % 16 == 0 &&
  decide (l.carveout ≤ 3 && l.progress ≤ 2 && l.tiles ≤ 8) && decide (l.spKib ≤ partKib l.carveout) &&
  (l.undolog == 0 || (decide (4096 ≤ l.undolog && l.undolog ≤ 2 ^ 24) && l.undolog % 4096 == 0)) &&
  l.hulls.all fun h => decide (-(2 : Int) ^ 56 ≤ h.1 ∧ h.2.1 ≤ (2 : Int) ^ 56)

/-- One block fits on an empty core (R53). -/
def Launch.fitsEmpty (l : Launch) : Bool :=
  decide (l.weight * l.threads * l.regs ≤ 65536) && decide (l.weight * l.threads ≤ 512)

/-- Blocks that one empty core holds (R37). -/
def Launch.perCore (l : Launch) : Nat :=
  let m := min (512 / (l.weight * l.threads)) (65536 / (l.weight * l.threads * l.regs))
  min (min 16 (if l.tiles = 0 then 16 else 8 / l.tiles))
    (min (if l.spKib = 0 then 16 else partKib l.carveout / l.spKib) (max m (4 * m / l.crews)))

/-- The STATUS with which admission rejects a launch, or none (R53, R355, R462). -/
def State.admission (s : State) (ctx : BitVec 16) (l : Launch) : Option Nat :=
  if !l.shapeOk then some 1
  else if !l.fitsEmpty || !(l.undolog == 0 || (List.range 256).any fun c => s.mayUse ctx c && decide (l.undoBytes ≤ Config.undoRoom (dieOf c))) then some 2
  else if l.progress = 2 && (l.fair = 0 ||
      decide (l.perCore * ((List.range 256).filter fun c => s.mayUse ctx c).length < l.blocks)) then some 3
  else none

/-- The first record taken and not yet acted on, where it is of a queue: records are acted on in submission order (R376). -/
def Helm.nextTaken (h : Helm) (q : Nat) : Option TakenRec :=
  match h.taken with
  | r :: _ => if r.q == q then some r else none
  | [] => none

/-- A record completes with a status, having published nothing (R378). -/
def State.finishRecord (s : State) (r : TakenRec) (status : Nat) : State :=
  s.complete (field r.bytes 0x90 8) 0 (field r.bytes 4 4) (r.seq % 2 ^ 32) status

/-- LAUNCH (R53, R377, R378, R447): the helm acts on a record that is no host resume. -/
def execLaunch (q : Nat) (s : State) : Host.Outcome State Fault Refusal :=
  match s.helm.nextTaken q with
  | none => .next s
  | some r =>
    if !s.helm.running || field r.bytes 0 1 = 2 then .next s
    else
      let s := s.modHelm fun h => { h with taken := h.taken.drop 1 }
      match s.makeLive r.ctx with
      | (.error st, s) => .next (s.finishRecord r st)
      | (.ok _, s) =>
        match s.parseLaunch r.ctx r.bytes with
        | none => .next (s.finishRecord r 4)
        | some l =>
          match (if shadowBad (s.readVirtual r.ctx (BitVec.ofNat 64 (field r.bytes 8 8)) 192) then some 1 else s.admission r.ctx l) with
          | some st => .next (s.finishRecord r st)
          | none =>
            .next (s.enterLogbook
              { ctx := r.ctx, task := BitVec.ofNat 32 (field r.bytes 4 4), seq := r.seq, prio := r.prio, launch := l,
                cplAddr := field r.bytes 0x90 8 })

/-! ## Host resume (R275, R377, R394) -/

/-- The thread that a host resume record names and that waits under R275, in any node of the context with its TASKID. It waits from its
`trap.host` on, also while the posting of it is held (DESIGN CHOICE, log 107). -/
def State.resumeTarget (s : State) (r : TakenRec) : Option Nat :=
  if field r.bytes 0x9D 1 ≥ 4 || field r.bytes 0x9C 1 ≥ 128 then none
  else s.blocks.findSome? fun p =>
    let t := threadKey p.1 (field r.bytes 0x9D 1) (field r.bytes 0x9C 1)
    if p.2.ctx == r.ctx && p.2.task.toNat == field r.bytes 4 4 && p.2.index == field r.bytes 0x98 4 then
      (match (s.thread t).wait with | .host _ => some t | _ => none)
    else none

/-- The thread continues at A + 12, and the record completes with RESUMED. -/
def State.resumeHost (s : State) (r : TakenRec) (t : Nat) : State :=
  State.finishRecord ((s.modThread t fun th => { th with wait := .none, pc := th.pc + 12 }).regroup [t]) r 6

/-- HOST_RESUME (R377, R394): the record of a thread that is saved is kept until its block is restored. -/
def execHostResume (q : Nat) (s : State) : Host.Outcome State Fault Refusal :=
  match s.helm.nextTaken q with
  | none => .next s
  | some r =>
    if !s.helm.running || field r.bytes 0 1 ≠ 2 then .next s
    else
      let s := s.modHelm fun h => { h with taken := h.taken.drop 1 }
      match s.makeLive r.ctx with
      | (.error st, s) => .next (s.finishRecord r st)
      | (.ok _, s) =>
        if !zeros r.bytes 1 3 || !zeros r.bytes 8 0x88 || !zeros r.bytes 0x9E 0x62 then .next (s.finishRecord r 4)
        else match s.resumeTarget r with
          | none => .next (s.finishRecord r 4)
          | some t =>
            if (s.block (blockOf t)).core ≥ 256 then .next (s.modHelm fun h => { h with later := h.later ++ [r] })
            else .next (s.resumeHost r t)

/-! ## Placement (R382) -/

/-- A block that is in line for a core. -/
structure Cand where
  prio : Nat
  seq : Nat
  idx : Nat
  ctx : BitVec 16
  launch : Launch
  /-- free reckoner slots it needs (R401) -/
  slots : Nat := 0
  /-- held-effect entries it needs -/
  held : Nat := 0
  /-- it has been placed before -/
  back : Bool := false
  deriving DecidableEq, Repr

/-- The order of R382. -/
def Cand.before (a b : Cand) : Bool :=
  a.prio > b.prio || (a.prio == b.prio && (a.seq < b.seq || (a.seq == b.seq && a.idx < b.idx)))

/-- A context's blocks may be placed: it is not in a pre-emption (R390). -/
def State.placing (s : State) (ctx : BitVec 16) : Bool := s.ctxLive ctx && ((s.ctx ctx).stage == 5 || (s.ctx ctx).stage == 0)

/-- The blocks of a node that wait and are ready; those of a class 2 node only all together. -/
def State.readyBlocks (s : State) (n : Node) : List Nat :=
  let ks := (List.range n.launch.blocks).filter fun k =>
    (match tgetD n.blks k (.waiting 0) with | .waiting _ => true | _ => false) && s.blockReady n k
  if !s.placing n.ctx then []
  else if n.launch.progress = 2 && ks.length < n.launch.blocks then [] else ks

/-- The candidate of a block of a node. -/
def Node.cand (n : Node) (k : Nat) : Cand := { prio := n.prio, seq := n.seq, idx := k, ctx := n.ctx, launch := n.launch }

/-- The slots of the core key of a saved block that are in use. -/
def State.savedSlots (s : State) (b : Block) : Nat := ((s.core b.core).slots.filter fun p => p.2.kind != .free).length

/-- The candidate of a block that comes back. -/
def State.blockCand (s : State) (b : Block) : Cand :=
  { prio := ((tget s.nodes b.node).map (·.prio)).getD 0, seq := b.node, idx := b.index, ctx := b.ctx, launch := b.launch,
    slots := s.savedSlots b, held := (s.core b.core).held.length, back := true }

/-- Every block in line: ready ones, and saved or swapped ones that come back. -/
def State.candidates (s : State) : List Cand :=
  ((s.nodes.map (·.2)).flatMap fun n => (s.readyBlocks n).map n.cand) ++
    (s.blocks.filter fun p => p.2.stage == .restoring || (p.2.stage == .swapped && p.2.woken && s.placing p.2.ctx)).map fun p =>
      s.blockCand p.2

/-- A candidate fits on a core: R37, and the free slots and held-effect entries it needs. -/
def State.candFit (s : State) (c : Cand) (core : Nat) : Option (Nat × List Nat) :=
  if (s.core core).freeSlots < c.slots || (s.core core).held.length + c.held > 512 then none else s.fit c.ctx c.seq c.launch core c.back

/-- Places blocks of a node on the lowest cores that they fit on; none where one does not fit. -/
def State.placeRest (s : State) (n : Node) : List Nat → Option State
  | [] => some s
  | k :: ks =>
    match (List.range 256).findSome? fun c => (s.fit n.ctx n.seq n.launch c).map fun f => (c, f) with
    | none => none
    | some (c, sp, subs) => (s.place n k c sp subs).placeRest n ks

/-- A candidate fits somewhere; a block of a class 2 node that waits for its placement does where all blocks of the node fit together. -/
def State.candFits (s : State) (c : Cand) : Bool :=
  match (if c.back then none else tget s.nodes c.seq) with
  | some n => if n.launch.progress = 2 then (s.placeRest n (s.readyBlocks n)).isSome else (List.range 256).any fun k => (s.candFit c k).isSome
  | none => (List.range 256).any fun k => (s.candFit c k).isSome

/-- The candidates that have been passed over for 1,400,000 cycles (R382). -/
def State.starvedCands (s : State) : List Cand :=
  ((s.nodes.map (·.2)).flatMap fun n => n.starved.map n.cand) ++
    (s.blocks.filter fun p => decide (1400000 ≤ p.2.passed) && (p.2.stage == .restoring || p.2.stage == .swapped)).map fun p => s.blockCand p.2

/-- Two candidates are the same block. -/
def Cand.same (a b : Cand) : Bool := a.seq == b.seq && a.idx == b.idx && a.back == b.back

/-- A candidate is starved. -/
def State.isStarved (s : State) (c : Cand) : Bool := s.starvedCands.any c.same

/-- A starved block of a priority keeps others of at most that priority waiting (R382). Of several starved blocks the one that the order of
R382 puts first waits for none of the others (DEDUCED, log 89). -/
def State.starvedBefore (s : State) (c : Cand) : Bool :=
  s.starvedCands.any fun d => d.prio ≥ c.prio && !d.same c && (!s.isStarved c || d.before c)

/-- The order of R382 lets a candidate be placed now: no starved block keeps it waiting, and none before it that fits and that none keeps. -/
def State.mayPlace (s : State) (c : Cand) : Bool :=
  s.helm.running && !s.starvedBefore c && s.candidates.all fun d => !(d.before c && s.candFits d && !s.starvedBefore d)

/-- BLOCK_PLACEMENT (R37, R52, R382): a ready block is placed on a core; the blocks of a class 2 node are placed together. -/
def execBlockPlacement (node blk core : Nat) (s : State) : Host.Outcome State Fault Refusal :=
  match tget s.nodes node with
  | none => .next s
  | some n =>
    let ks := s.readyBlocks n
    if !ks.contains blk || !s.mayPlace (n.cand blk) then .next s
    else match s.fit n.ctx n.seq n.launch core with
      | none => .next s
      | some (sp, subs) =>
        let s' := s.place n blk core sp subs
        if n.launch.progress = 2 then .next ((s'.placeRest n (ks.filter (· != blk))).getD s) else .next s'

/-- A block that has been passed over for 1,400,000 cycles is starved. -/
def State.starve (s : State) (node blk : Nat) : State :=
  match tget s.nodes node with
  | none => s
  | some n =>
    match tgetD n.blks blk (.waiting 0) with
    | .waiting p =>
      if p ≥ 1400000 && !n.starved.contains blk then { s with nodes := tset s.nodes node { n with starved := n.starved ++ [blk] } }
      else s
    | _ => s

/-- PLACEMENT_STARVATION (R382). -/
def execPlacementStarvation (node blk : Nat) (s : State) : Host.Outcome State Fault Refusal := .next (s.starve node blk)

/-- A cycle passes over every block on its way back that fits nowhere (R382, R401). -/
def State.passBack (s : State) : State :=
  { s with blocks := s.blocks.map fun p =>
      if (p.2.stage == .restoring || (p.2.stage == .swapped && p.2.woken && s.placing p.2.ctx)) && !s.candFits (s.blockCand p.2) then
        (p.1, { p.2 with passed := p.2.passed + 1 })
      else p }

/-- A cycle passes over every ready block that fits nowhere (R382). -/
def State.passBlocks (s : State) : State :=
  (s.nodes.map (·.2)).foldl (fun s n => (s.readyBlocks n).foldl (fun s k =>
    if s.candFits (n.cand k) then s
    else
      let up (m : Node) : Node := { m with blks := tset m.blks k (match tgetD m.blks k (.waiting 0) with | .waiting p => .waiting (p + 1) | x => x) }
      State.starve { s with nodes := tmod s.nodes n.seq up } n.seq k) s) s

/-! ## Completion (R38, R378, R383) -/

/-- COMPLETION_EVENT (R38, R323): a block that has ended and drained publishes, and its resources are free. -/
def execCompletionEvent (b : Nat) (s : State) : Host.Outcome State Fault Refusal :=
  .next (if s.helm.running && s.mayPublish b then (s.publish b).settleDies (s.block b).ctx else s)

/-- NODE_COMPLETION (R378, R383): the completion record of a node whose blocks have all published. -/
def execNodeCompletion (node : Nat) (s : State) : Host.Outcome State Fault Refusal :=
  match tget s.nodes node with
  | none => .next s
  | some n =>
    if !s.helm.running || !n.allPublished then .next s
    else
      let s := s.complete n.cplAddr n.publishedCount n.task.toNat (n.seq % 2 ^ 32) 0
      .next (State.trimLogbook { s.foldTaskTallies n.ctx n.task with nodes := tdel s.nodes node })

/-! ## Takeover (R372, R385) -/

/-- HSTAT with another STATE. -/
def Helm.withState (h : Helm) (x : Nat) : W32 := (h.hstat &&& ~~~ 3) ||| BitVec.ofNat 32 x

/-- TAKEOVER (R385): STATE becomes 2 until the standby core goes on; without a standby core the helm is down. -/
def execTakeover (s : State) : Host.Outcome State Fault Refusal :=
  .next (if !s.helm.running then s else s.modHelm fun h => { h with hstat := h.withState (if h.standby then 2 else 3) })

/-- An action that the journal has no end entry for is done once more (R385). -/
def State.redo (s : State) (x : Journaled) : State :=
  match x with
  | .record pa bs => s.helmWrite pa bs
  | .edgeOut ctx core l k => s.edgeWriteback ctx core l k
  | .edgeIn ctx core l k => s.edgeInvalidate ctx core l k

/-- What the takeover put off is written (R385). -/
def State.payOwed (s : State) : State :=
  s.helm.owed.foldl (fun s x => match x with
    | .report c r => s.report c r
    | .record pa bs => (s.helmWrite pa bs).modHelm fun h => { h with journal := h.journal ++ [.record pa bs] })
    (s.modHelm fun h => { h with owed := [] })

/-- The standby core goes on (R385): of what was journalled the last actions, the model's free choice how many, are repeated, every queue with
records counts as kicked, HSTAT shows the new active core, and what the takeover put off is written. -/
def State.endTakeover (s : State) : State :=
  if s.helm.hstat.toNat % 4 ≠ 2 then s
  else
    let j := s.helm.journal
    let (k, s) := s.choose j.length
    let s := (j.drop (j.length - k)).foldl State.redo s
    let h := s.helm
    let n := h.hstat.toNat / 2 ^ 16 % 2 ^ 8
    let hot := (h.queues.filter fun q => q.2.head != q.2.tail && !h.kicks.contains q.1).map (·.1)
    State.payOwed (s.modHelm fun h =>
      { h with hstat := BitVec.ofNat 32 (1 + 2 ^ 8 + 2 ^ 16 * min 255 (n + 1)), standby := false, kicks := h.kicks ++ hot })

end Sys2Proof.Machine
end

