-- ==== Sys2Proof/Machine/Save.lean ====
section
/-! DEFINITION. The block record of a save: its sections as bytes, how a block leaves its core, and how it comes back (R276, R324,
R368, R387, R391 to R402). -/

namespace Sys2Proof.Machine

/-! ## Stopping (R248, R276, R289, R391) -/

/-- A command writes a register of a block through the on-chip map (R430). -/
def State.copyMeetsRegs (s : State) (c : Copy) (uid : Nat) : Bool :=
  c.dstKind == 3 && c.targets.any fun a =>
    let off := a.toNat % 2 ^ 24
    decide (onChipBase ≤ a.toNat) && decide (off < 0x100000) &&
      (match s.regWord c.ctx (a.toNat / 2 ^ 30 % 4 * 64 + a.toNat / 2 ^ 24 % 64) (off / 0x40000) (off % 0x40000 / 4) with
      | some (t, _) => blockOf t == uid
      | none => false)

/-- A copy command writes into a block (R392 step 2): its payload goes to the block's scratchpad or registers, or its completion word or queue
entry lies there. -/
def State.copyInto (s : State) (c : Copy) (uid : Nat) : Bool :=
  let b := s.block uid
  (c.blk == uid && (c.ctrl 22 1 == 1 || c.ctrl 23 1 == 1)) || s.copyMeetsS c b.core b.spBase (1024 * b.launch.spKib) || s.copyMeetsRegs c uid

/-- A stopped block may be saved (R289, R391, R392 steps 1 and 2): none of its results is outstanding but those of held effects, its
accesses are performed, the copies into it and its `mma` are complete. -/
def State.quiet (s : State) (uid : Nat) : Bool :=
  let c := s.core (s.block uid).core
  (s.blockThreads uid).all (fun t =>
    let th := s.thread t
    th.pend.isEmpty && th.out.all fun o => !s.resultDue t o) &&
  !(s.allRequests.any fun r => blockOf r.t == uid && !r.kind.ofCopy) &&
  !(s.copies.any fun p => s.copyInto p.2 uid) &&
  (match c.engine with | some e => e.1 != uid | none => true)

/-! ## The sections (R396 to R399) -/

/-- RUN of a thread (R397). -/
def State.runCode (s : State) (t : Nat) : Nat :=
  let th := s.thread t
  if th.exited then 1
  else match th.wait with
    | .parked _ => 2
    | .host _ => 4
    | .bar _ => 5
    | _ => if (s.crew (crewOf t)).halted.isSome then 3 else 0

/-- Bits of predicates p0 to p14. -/
def Thread.predBits (th : Thread) (g : PReg → Bool) : Nat :=
  (List.range 15).foldl (fun x n => if g (th.getP n) then x + 2 ^ n else x) 0

/-- A thread entry (R397). -/
def State.threadEntry (s : State) (t : Nat) : List Byte :=
  let th := s.thread t
  leBytes 8 th.pc.toNat ++ leBytes 8 th.epc.toNat ++ leBytes 8 th.badaddr.toNat ++
    ((List.range 4).flatMap fun k => leBytes 4 (tgetD th.scratch k 0).toNat) ++
    leBytes 2 (th.predBits (·.val)) ++ leBytes 2 (th.predBits (·.poison)) ++ leBytes 1 th.cause.toNat ++
    leBytes 1 ((if th.region.isSome then 2 else 0) + if th.handler then 1 else 0) ++ leBytes 1 (s.runCode t) ++
    leBytes 1 th.arrived.toNat ++ ((List.range 15).flatMap fun n => leBytes 1 (th.getP n).tags.toNat) ++
    leBytes 1 (th.arrived.toNat / 2 ^ 8)

/-- A uniform register record (R396). -/
def uniRecord (r : Reg) : List Byte :=
  leBytes 4 r.val.toNat ++ leBytes 1 r.tags.toNat ++ leBytes 1 (if r.poison then 1 else 0) ++ leBytes 2 0

/-- The sign extension of the low n bytes of a value. -/
def signFits (n x : Nat) : Bool := ofSigned 32 (toSigned (8 * n) x) == x

/-- A vector register record (R398): the registers of a crew's threads in ascending `sr.tid`, with whether each thread is live. -/
def regRecord (rs : List (Reg × Bool)) : List Byte :=
  let live := rs.filter (·.2)
  let vals := live.map (·.1.val.toNat)
  let elem (n : Nat) : List Byte := rs.flatMap fun r => leBytes n (if r.2 then r.1.val.toNat else 0)
  let t0 := (rs.findIdx? (·.2)).getD 0
  let v0 := vals.headD 0
  let d := (((rs[t0 + 1]?).map fun r => (r.1.val.toNat + 2 ^ 32 - v0) % 2 ^ 32).getD 0)
  let b := (v0 + (2 ^ 32 - d) * t0) % 2 ^ 32
  let affine := ((rs[t0 + 1]?).map (·.2)).getD false &&
    (rs.zipIdx.all fun r => !r.1.2 || r.1.1.val.toNat == (b + d * r.2) % 2 ^ 32)
  let (form, body) : Nat × List Byte :=
    if vals.all (· == v0) then (0, leBytes 4 v0)
    else if affine then (1, leBytes 4 b ++ leBytes 4 d)
    else if vals.all (signFits 1) then (2, elem 1)
    else if vals.all (signFits 2) then (3, elem 2)
    else (4, elem 4)
  let side := live.any fun r => r.1.poison || r.1.tags != 0
  let extra : List Byte := if side then
      (rs.flatMap fun r => leBytes 1 (if r.2 then r.1.tags.toNat else 0)) ++
        leBytes ((rs.length + 7) / 8) (rs.zipIdx.foldl (fun x r => if r.1.2 && r.1.1.poison then x + 2 ^ r.2 else x) 0)
    else []
  let out := leBytes 1 (form + if side then 0x80 else 0) ++ leBytes 3 0 ++ body ++ extra
  out ++ leBytes ((4 - out.length % 4) % 4) 0

/-- EXPECT of a barrier as it is saved. -/
def Barrier.expectCode (b : Barrier) : Nat := match b.expect with | none => 0 | some 0 => 0x7FF | some n => n

/-- A barrier record (R399). -/
def Barrier.record (b : Barrier) : List Byte :=
  leBytes 8 ((if b.phase then 1 else 0) + b.arrived % 2 ^ 11 * 2 + b.expectCode * 2 ^ 12 + b.rtags.toNat * 2 ^ 24)

/-- A queue record (R399). -/
def queueRecord (q : List QEntry) : List Byte :=
  leBytes 1 q.length ++ leBytes 1 0 ++ leBytes 2 (q.zipIdx.foldl (fun x e => if e.1.poison then x + 2 ^ e.2 else x) 0) ++ leBytes 4 0 ++
    (List.range 16).flatMap fun k => leBytes 8 ((q[k]?).elim 0 fun e => e.val.toNat)

/-- SWAIT and SWAITNUM (R399). -/
def SeqWait.code : SeqWait → Nat × Nat
  | .bar b => (1, b)
  | .queue q => (2, q)
  | .engine | .tile _ => (3, 0)
  | _ => (0, 0)

/-- The sequencer record (R399). -/
def Sequencer.record (q : Sequencer) : List Byte :=
  let w := if q.st == .waiting then q.wait.code else (0, 0)
  leBytes 8 q.next.toNat ++
    leBytes 1 q.st.code ++ leBytes 1 (if q.st == .stopped then q.detail else 0) ++
    leBytes 1 w.1 ++ leBytes 1 w.2 ++ leBytes 4 0 ++ (List.range 32).flatMap fun n => leBytes 8 (q.getX n).toNat

/-- BSEC (R399). -/
def Block.bsec (b : Block) : List Byte :=
  ((List.range 16).flatMap fun k => (b.bar k).record) ++ ((List.range 16).flatMap fun q => queueRecord (b.queue q)) ++
    b.sequencer.record ++ leBytes 8 b.tba.toNat ++ leBytes 8 0

/-- SPSEC (R399). -/
def Core.spsec (c : Core) (base kib : Nat) : List Byte :=
  c.sRead base (1024 * kib) ++ (List.range (32 * kib)).flatMap fun k =>
    leBytes 1 (tgetD c.stags (base / 32 + k) 0).toNat ++ leBytes 1 (if c.spoison.contains (base / 32 + k) then 1 else 0)

/-- MODE of a tile as it is saved. -/
def TileMode.code : TileMode → Nat
  | .empty => 0 | .fix64 => 1 | .f64 => 2

/-- A tile record with its elements (R399). -/
def Tile.record (x : Tile) : List Byte :=
  let unset (b : Option (BitVec 16)) (k : Nat) : Nat := if b.isNone then k else 0
  let band (b : Option (BitVec 16)) : List Byte := leBytes 2 (b.getD 0).toNat
  leBytes 1 x.mode.code ++ leBytes 1 (unset x.bandA0 1 + unset x.bandA1 2 + unset x.bandB0 4 + unset x.bandB1 8) ++ leBytes 2 0 ++
    leBytes 4 x.kcount ++ band x.bandA0 ++ band x.bandA1 ++ band x.bandB0 ++ band x.bandB1 ++ leBytes 16 x.rowFlags.toNat ++
    leBytes 16 x.colFlags.toNat ++ leBytes 16 0 ++
    if x.mode == .empty then [] else (List.range 16384).flatMap fun k => leBytes 8 (tgetD x.el k 0).toNat

/-- A tile as its record in memory gives it (R402). -/
def State.tileAt (s : State) (pa : Nat) : Tile :=
  let h := memRead s.mem pa 64
  let u := field h 1 1
  let band (k : Nat) : Option (BitVec 16) := if u.testBit k then none else some (BitVec.ofNat 16 (field h (8 + 2 * k) 2))
  let mode : TileMode := match field h 0 1 with | 0 => .empty | 1 => .fix64 | _ => .f64
  { mode := mode, bandA0 := band 0, bandA1 := band 1, bandB0 := band 2, bandB1 := band 3, kcount := field h 4 4,
    rowFlags := BitVec.ofNat 128 (field h 0x10 16), colFlags := BitVec.ofNat 128 (field h 0x20 16),
    el := if mode == .empty then [] else
      ((List.range 16384).map fun k => (k, BitVec.ofNat 64 (ofBytes (memRead s.mem (pa + 64 + 8 * k) 8)))).filter fun e => e.2 != 0 }

/-- A tile with its contents, fetched where it is absent. -/
def State.presentTile (s : State) (x : Tile) : Tile := match x.absent with | some pa => s.tileAt pa | none => x

/-- An absent tile becomes present with what its record holds; where that is poisoned, its elements are in error (R402, R411). -/
def State.fetchTile (s : State) (uid acc : Nat) : State :=
  match ((s.block uid).tile acc).absent with
  | none => s
  | some pa =>
    let n := 64 + if memGet s.mem pa = 0 then 0 else 131072
    s.setTile uid acc { s.tileAt pa with bad := if s.poisoned pa n then List.range 16384 else [] }

/-- The absent tiles of a context are fetched: records in its areas may now be overwritten (R400, R403). -/
def State.fetchTiles (s : State) (ctx : BitVec 16) : State :=
  (s.blocks.flatMap fun p => if p.2.ctx == ctx && decide (p.2.core < 256) then p.2.tiles.map fun x => (p.1, x.1) else []).foldl
    (fun s x => s.fetchTile x.1 x.2) s

/-- The sections of a block record in order: THRSEC, USEC, VSEC, BSEC, RSEC, SPSEC, TSEC. The layout of RSEC is the device's own. -/
def State.sections (s : State) (uid : Nat) (rsec : List Byte) : List (List Byte) :=
  let b := s.block uid
  let l := b.launch
  let key (c t : Nat) : Nat := threadKey uid c t
  [(List.range l.crews).flatMap fun c => (List.range l.threads).flatMap fun t => s.threadEntry (key c t),
   (List.range l.crews).flatMap fun c => (List.range l.uregs).flatMap fun n => uniRecord ((s.crew (4 * uid + c)).getS n),
   (List.range l.crews).flatMap fun c => (List.range l.regs).flatMap fun n =>
     regRecord ((List.range l.threads).map fun t => ((s.thread (key c t)).getV n, !(s.thread (key c t)).exited)),
   b.bsec, rsec, (s.core b.core).spsec b.spBase l.spKib,
   (List.range l.tiles).flatMap fun k => (s.presentTile (b.tile k)).record]

/-- Offsets of sections that start after a 64-byte header. -/
def sectionOffsets (secs : List (List Byte)) : List Nat :=
  (secs.foldl (fun (x : List Nat × Nat) e => (x.1 ++ [x.2], x.2 + e.length)) ([], 64)).1

/-- A block record (R396). RSEC is at most 16 KiB of bytes whose number and values are free (R399, log 20): what it stands for is kept in
State. -/
def State.blockRecord (s : State) (uid : Nat) : List Byte × State :=
  let b := s.block uid
  let l := b.launch
  let (n, s) := s.choose 16384
  let (rsec, s) := s.freeBytes n
  let secs := s.sections uid rsec
  let body := secs.flatten
  (leBytes 4 b.index ++ leBytes 4 b.task.toNat ++ leBytes 4 (64 + body.length) ++ leBytes 1 l.crews ++ leBytes 1 l.threads ++
    leBytes 1 l.tiles ++ leBytes 1 0 ++ leBytes 2 l.regs ++ leBytes 2 l.uregs ++ (sectionOffsets secs).flatMap (leBytes 4) ++
    leBytes 2 l.spKib ++ leBytes 14 0 ++ body, s)

/-! ## A block leaves its core (R368, R392) -/

/-- Tag sets of a thread. -/
def Thread.allTags (th : Thread) : Tags :=
  let a := th.v.foldl (fun g p => g ||| p.2.tags) (0 : Tags)
  let a := th.p.foldl (fun g p => g ||| p.2.tags) a
  let a := th.marks.foldl (fun g m => g ||| tagOf m.slot) a
  let a := th.out.foldl (fun g o => g ||| o.tags) a
  let a := th.popped.foldl (fun g p => g ||| p.2.tags) a
  match th.wait with | .join _ g => a ||| g | .watch w => a ||| w.tags | _ => a

/-- Tag sets of a crew. -/
def Crew.allTags (c : Crew) : Tags :=
  c.log.foldl (fun g e => match e.old with | .reg _ r => g ||| r.tags | .sector _ _ _ x => g ||| x)
    (c.s.foldl (fun g p => g ||| p.2.tags) (0 : Tags))

/-- Tag sets of a block: its threads, crews, barriers, inbox, held effects and sectors. -/
def State.blockTags (s : State) (uid : Nat) : Tags :=
  let b := s.block uid
  let c := s.core b.core
  let a := (s.blockThreads uid).foldl (fun g t => g ||| (s.thread t).allTags) (0 : Tags)
  let a := (s.crews.filter fun p => p.1 / 4 == uid).foldl (fun g p => g ||| p.2.allTags) a
  let a := b.bars.foldl (fun g p => g ||| p.2.rtags) a
  let a := b.inbox.foldl (fun g m => g ||| m.tags) a
  let a := (c.held.filter fun h => blockOf h.t == uid).foldl (fun g h => g ||| h.tags) a
  a ||| if b.launch.spKib = 0 then 0 else c.sectorTags b.spBase (1024 * b.launch.spKib)

/-- The key of a block that stands on no core. -/
def savedCore (uid : Nat) : Nat := 256 + uid

/-- Slots that belong to a block: its threads' guesses and regions. -/
def Slot.ofBlock (x : Slot) (uid : Nat) : Bool := (x.kind == .guess || x.kind == .contain) && blockOf x.owner == uid

/-- The slots a block takes with it, with PARENTS among them. -/
def State.slotsTaken (s : State) (uid : Nat) : Tags :=
  let c := s.core (s.block uid).core
  let own : Tags := c.slots.foldl (fun g p => if p.2.ofBlock uid then g ||| tagOf p.1 else g) (s.blockTags uid)
  c.slots.foldl (fun g p => if p.2.ofBlock uid then g ||| p.2.parents else g) own

/-- A block leaves its core with its reckoning state (R368, R392 step 5): other blocks that carry its tags keep mirrors of its slots. -/
def State.leaveCore (s : State) (uid : Nat) (stage : BlockStage) : State :=
  let s := (s.noteDeparture uid).foldBlockTallies uid
  let b := s.block uid
  let c := s.core b.core
  let taken := s.slotsTaken uid
  let rest : Tags := ((s.coreBlocks b.core).filter (· != uid)).foldl (fun g o => g ||| s.slotsTaken o) 0
  let inside (k : Nat) : Bool := decide (b.spBase ≤ k) && decide (k < b.spBase + 1024 * b.launch.spKib)
  let mirror (x : Slot) : Slot := { kind := .mirror, aid := x.aid, ctx := x.ctx, gen := x.gen }
  let mine (h : Held) : Bool := blockOf h.t == uid
  let v : Core :=
    { scratch := c.scratch.filter fun p => inside p.1, stags := c.stags.filter fun p => inside (32 * p.1),
      spoison := c.spoison.filter fun k => inside (32 * k), held := c.held.filter mine,
      slots := (c.slots.filter fun p => p.2.kind != .free && taken.getLsbD p.1).map fun p =>
        if p.2.ofBlock uid then p else (p.1, mirror p.2) }
  let c' : Core :=
    { c with
      stags := c.stags.filter fun p => !inside (32 * p.1), held := c.held.filter fun h => !mine h,
      slots := c.slots.map fun p =>
        if p.2.ofBlock uid then (p.1, if rest.getLsbD p.1 then mirror p.2 else p.2.freed) else p }
  State.settleCores (((s.setCore b.core c').setCore (savedCore uid) v).modBlock uid fun b => { b with core := savedCore uid, stage := stage })

/-- Writes a block record at an offset of an area, and lets the block leave its core. Its record up to SPSEC is kept (R400). -/
def State.putRecord (s : State) (uid base off : Nat) (rec_ : List Byte) (stage : BlockStage) : State :=
  let sp := field rec_ 0x28 4
  let s := s.helmWrite (base + off) rec_
  (s.modBlock uid fun b => { b with saveOff := off, saveLen := rec_.length, saveRec := rec_.take sp }).leaveCore uid stage

/-- The threads of a block stop for a save (R276, R391). -/
def State.stopForSave (s : State) (uid : Nat) : State :=
  let ts := s.blockThreads uid
  { ts.foldl (fun s t => s.modThread t Thread.saved) s with mail := s.mail.filter fun m => !ts.contains m.sender }

/-- Saves one block (R324, R392 steps 3 to 5, R406); none when SAVESIZE is exhausted. -/
def State.saveBlock (s : State) (uid : Nat) : Option State :=
  let ctx := (s.block uid).ctx
  let s := (s.settleInto uid).stopForSave uid
  let s := (s.releaseAction (s.block uid).core []).drainOut (dieOf (s.block uid).core)
  let (rec_, s) := s.blockRecord uid
  let x := s.ctx ctx
  let off := (x.saveUsed + 63) / 64 * 64
  if off + rec_.length > x.saveSize then none
  else
    let s := s.putRecord uid x.saveBase off rec_ .saved
    some ((s.modCtx ctx fun c => { c with saveUsed := off + rec_.length }).saveHeader ctx 2)

/-! ## Reading a record back (R397, R398, R400, R401) -/

/-- One vector register record at an offset of a record: the registers of T threads, and the offset after it; none for a reserved FORM
or bit. -/
def readRegRecord (r : List Byte) (pos t : Nat) : Option (List Reg × Nat) :=
  let h := field r pos 1
  let form := h % 8
  let side := h / 128 = 1
  if h / 8 % 16 ≠ 0 || form > 4 || !zeros r (pos + 1) 3 then none
  else
    let p := pos + 4
    let w := match form with | 2 => 1 | 3 => 2 | _ => 4
    let size := match form with | 0 => 4 | 1 => 8 | _ => w * t
    let val (k : Nat) : Nat := match form with
      | 0 => field r p 4
      | 1 => (field r p 4 + field r (p + 4) 4 * k) % 2 ^ 32
      | _ => ofSigned 32 (toSigned (8 * w) (field r (p + w * k) w))
    let q := p + size
    let extra := if side then t + (t + 7) / 8 else 0
    some ((List.range t).map fun k =>
        { val := BitVec.ofNat 32 (val k), tags := if side then BitVec.ofNat 8 (field r (q + k) 1) else 0,
          poison := decide (side) && (field r (q + t + k / 8) 1).testBit (k % 8) },
      (q + extra + 3) / 4 * 4)

/-- n register records in a row. -/
def readRegRecords (r : List Byte) (pos t : Nat) : Nat → Option (List (List Reg) × Nat)
  | 0 => some ([], pos)
  | n + 1 =>
    match readRegRecords r pos t n with
    | none => none
    | some (l, p) => (readRegRecord r p t).map fun x => (l ++ [x.1], x.2)

/-- A thread entry has no reserved RUN value and no reserved bit set (R397, R400). -/
def entryOk (e : List Byte) : Bool :=
  decide (field e 0x2E 1 ≤ 5) && field e 0x2D 1 / 4 == 0 && field e 0x28 2 / 2 ^ 15 == 0 && field e 0x2A 2 / 2 ^ 15 == 0

/-- BSEC has no reserved value and no reserved bit set (R399, R400). -/
def bsecOk (b : List Byte) : Bool :=
  (List.range 16).all (fun k => zeros b (8 * k + 4) 4) &&
  (List.range 16).all (fun q => decide (field b (0x80 + 136 * q) 1 ≤ 16) && zeros b (0x81 + 136 * q) 1 && zeros b (0x84 + 136 * q) 4) &&
  decide (field b 0x908 1 ≤ 3) && decide (field b 0x90A 1 ≤ 3) && zeros b 0x90C 4 && zeros b 0xA18 8

/-- The tile records at an address of memory have no reserved value (R399, R400). -/
def State.tilesOk (s : State) (pa : Nat) : Nat → Bool
  | 0 => true
  | n + 1 =>
    let h := memRead s.mem pa 64
    decide (field h 0 1 ≤ 2) && field h 1 1 / 16 == 0 && zeros h 2 2 && zeros h 0x30 16 &&
      s.tilesOk (pa + 64 + if field h 0 1 = 0 then 0 else 131072) n

/-- A block's record in memory, up to its scratchpad image. -/
def State.recordOf (s : State) (base : Nat) (b : Block) : List Byte := memRead s.mem (base + b.saveOff) b.saveRec.length

/-- NBLOCK of the save area's header names no block that the pre-emption did not save (R400). -/
def State.countValid (s : State) (base n : Nat) : Bool := decide (ofBytes (memRead s.mem (base + 8) 4) ≤ n)

/-- A record may be restored (R400): its header is as the device wrote it, and it holds no reserved value. -/
def State.recordValid (s : State) (base : Nat) (b : Block) : Bool :=
  let r := s.recordOf base b
  let l := b.launch
  let thr := field r 0x14 4
  let us := field r 0x18 4
  let bs := field r 0x20 4
  r.take 64 == b.saveRec.take 64 &&
  ((List.range (l.crews * l.threads)).all fun k => entryOk ((r.drop (thr + 64 * k)).take 64)) &&
  ((List.range (l.crews * l.uregs)).all fun k => field r (us + 8 * k + 5) 1 / 2 == 0 && zeros r (us + 8 * k + 6) 2) &&
  (match readRegRecords r (field r 0x1C 4) l.threads (l.crews * l.regs) with | some (_, p) => p == bs | none => false) &&
  bsecOk ((r.drop bs).take 2592) && s.tilesOk (base + b.saveOff + field r 0x2C 4) l.tiles

/-- A saved thread whose REGION bit system software has cleared is in its region no longer (R400). -/
def State.leaveRegion (s : State) (t : Nat) : State :=
  match (s.thread t).region with
  | none => s
  | some k =>
    (s.modThread t fun th => { th with region := none }).modCore (s.coreOf t) fun c =>
      { c with slots := tmod c.slots k fun x => { x with group := x.group.filter (· != t) } }

/-- A thread with what system software has changed in its entry (R400). A field that stands as the device wrote it is not restored from there:
an answer to a fault, a resolution or a host resume may have changed it in the saved state meanwhile (R387, R394). A REGION bit that it sets has
no region to stand for and changes nothing (DESIGN CHOICE, log 98). -/
def State.editThread (s : State) (t : Nat) (e was : List Byte) : State :=
  let run := field e 0x2E 1
  let old := field was 0x2E 1
  let pick {α : Type} (off n : Nat) (x : α) (f : Nat → α) : α := if field e off n = field was off n then x else f (field e off n)
  let pc := pick 0 8 (s.thread t).pc (BitVec.ofNat 64)
  let barAt : Wait := match s.peek (blockOf t) pc with | some (.bar f) => .bar f.dst.toNat | _ => .none
  let s := if run = 3 && old ≠ 3 then s.modCrew (crewOf t) fun c => { c with halted := c.halted.orElse fun _ => some .boundary } else s
  let leaves := (field was 0x2D 1).testBit 1 && !(field e 0x2D 1).testBit 1
  let s := if leaves then s.leaveRegion t else s
  let bit (off n : Nat) (x : Bool) : Bool := if (field e off 2).testBit n = (field was off 2).testBit n then x else (field e off 2).testBit n
  let pred (th : Thread) (n : Nat) : Nat × PReg :=
    let p := th.getP n
    (n, { val := bit 0x28 n p.val, poison := bit 0x2A n p.poison, tags := pick (0x30 + n) 1 p.tags (BitVec.ofNat 8) })
  s.modThread t fun th =>
    { th with
      pc := pc, slept := if pc = th.pc then th.slept else none, epc := pick 8 8 th.epc (BitVec.ofNat 64), badaddr := pick 0x10 8 th.badaddr (BitVec.ofNat 64),
      scratch := (List.range 4).map fun k => (k, pick (0x18 + 4 * k) 4 (tgetD th.scratch k 0) (BitVec.ofNat 32)),
      p := (List.range 15).map (pred th),
      cause := pick 0x2C 1 th.cause (BitVec.ofNat 32), handler := pick 0x2D 1 th.handler (·.testBit 0),
      exited := pick 0x2E 1 th.exited (· == 1),
      arrived := BitVec.ofNat 16 (pick 0x2F 1 (th.arrived.toNat % 256) id + 256 * pick 0x3F 1 (th.arrived.toNat / 256) id),
      wait := if run = old then th.wait
        else match run with
          | 2 => .parked pc
          | 4 => .host 0
          | 5 => barAt
          | _ => .none }

/-- What system software has changed in the record of a saved block is restored as changed (R400, R401). -/
def State.applyEdits (s : State) (base uid : Nat) : State :=
  let b := s.block uid
  let l := b.launch
  let r := s.recordOf base b
  let o := b.saveRec
  let thr := field r 0x14 4
  let us := field r 0x18 4
  let s := (List.range (l.crews * l.threads)).foldl (fun s k =>
    let e := (r.drop (thr + 64 * k)).take 64
    let was := (o.drop (thr + 64 * k)).take 64
    if e == was then s else s.editThread (threadKey uid (k / l.threads) (k % l.threads)) e was) s
  let runs (x : List Byte) (c : Nat) : List Nat := (List.range l.threads).map fun t => field x (thr + 64 * (c * l.threads + t) + 0x2E) 1
  let s := (List.range l.crews).foldl (fun s c =>
    if (runs o c).contains 3 && !(runs r c).contains 3 then s.modCrew (4 * uid + c) fun x => { x with halted := none } else s) s
  let s := (List.range (l.crews * l.uregs)).foldl (fun s k =>
    let e := (r.drop (us + 8 * k)).take 8
    if e == (o.drop (us + 8 * k)).take 8 then s
    else
      let x : Reg := { val := BitVec.ofNat 32 (field e 0 4), tags := BitVec.ofNat 8 (field e 4 1), poison := field e 5 1 % 2 == 1 }
      s.modCrew (4 * uid + k / l.uregs) fun c => { c with s := tset c.s (k % l.uregs) x }) s
  let n := l.crews * l.regs
  match readRegRecords r (field r 0x1C 4) l.threads n, readRegRecords o (field r 0x1C 4) l.threads n with
  | some (new, _), some (old, _) =>
    (List.range n).foldl (fun s k => (List.range l.threads).foldl (fun s t =>
      let x := (new.getD k []).getD t Reg.zero
      if x == (old.getD k []).getD t Reg.zero then s
      else s.modThread (threadKey uid (k / l.regs) t) fun th => { th with v := tset th.v (k % l.regs) x }) s) s
  | _, _ => s

/-! ## A block comes back (R368, R387, R394, R401, R402) -/

/-- Puts the slots of a saved block into a core: each at the core's own slot for its AID, or the lowest free one. Answers where each
went. -/
def State.giveSlots (s : State) (core : Nat) : List (Nat × Slot) → List (Nat × Nat) × State
  | [] => ([], s)
  | (k, x) :: r =>
    let c := s.core core
    match (if x.kind == .contain then none else c.slotOfAid x.aid).orElse fun _ => c.freeSlot with
    | none => s.giveSlots core r
    | some j =>
      let old := c.slot j
      let y := if x.kind == .mirror && old.kind != .free then old else { x with gen := max old.gen x.gen }
      let (m, s) := (s.modCore core fun c => { c with slots := tset c.slots j y }).giveSlots core r
      ((k, j) :: m, s)

/-- The change of a tag set under a renumbering of slots. -/
def renumber (m : List (Nat × Nat)) (g : Tags) : Tags :=
  m.foldl (fun x p => if g.getLsbD p.1 then x ||| tagOf p.2 else x) 0

/-- The threads of a restored block form fresh PC groups (R401): later than every group on the sub-core, and ranked by the lowest `sr.tid` of
each. -/
def State.freshGroups (s : State) (uid : Nat) : State :=
  ((s.crews.map (·.1)).filter (· / 4 == uid)).foldl (fun s c =>
    let ts := (s.crewThreads c).filter fun t => !(s.thread t).exited
    let pcs := (ts.map fun t => (s.thread t).pc).eraseDups
    let others := (s.subCrews (s.block uid).core (s.crew c).sub).filter (· / 4 != uid)
    let last := (others.flatMap s.crewThreads).foldl (fun m t => if (s.thread t).exited then m else max m (s.thread t).form) s.formNow
    ts.foldl (fun s t => s.modThread t fun th =>
      { th with form := last + 1 + pcs.idxOf th.pc, waitCnt := 0, lastQ := none, hot := false }) s) s

/-- Addresses of the tile records of a block in memory. -/
def State.tilePlaces (s : State) (pa : Nat) : Nat → List Nat
  | 0 => []
  | n + 1 => pa :: s.tilePlaces (pa + 64 + if field (memRead s.mem pa 1) 0 1 = 0 then 0 else 131072) n

/-- Takes the reckoning state and scratchpad of a saved block onto a core: its image covers the whole allotment. -/
def State.enterCore (s : State) (uid core sp : Nat) : State :=
  let b := s.block uid
  let v := s.core (savedCore uid)
  let (m, s) := s.giveSlots core (v.slots.filter fun p => p.2.kind != .free)
  let f := renumber m
  let v := v.retag f
  let s := s.retagBlocks [uid] f
  let apart (k : Nat) : Bool := decide (k < sp) || decide (sp + 1024 * b.launch.spKib ≤ k)
  let s := s.modCore core fun c =>
    { c with
      shade := c.shade.filter fun p => apart p.1,
      slots := c.slots.map fun p => if m.any (fun q => q.2 == p.1) && p.2.ofBlock uid then (p.1, { p.2 with parents := f p.2.parents }) else p,
      scratch := v.scratch.foldl (fun t p => tset t (p.1 - b.spBase + sp) p.2) (c.scratch.filter fun p => apart p.1),
      stags := v.stags.foldl (fun t p => tset t (p.1 - b.spBase / 32 + sp / 32) p.2) c.stags,
      spoison := (c.spoison.filter fun k => apart (32 * k)) ++ v.spoison.map fun k => k - b.spBase / 32 + sp / 32,
      held := c.held ++ v.held }
  { s with cores := tdel s.cores (savedCore uid) }

/-- Restores a saved or swapped block on a core (R401): what system software changed, its state with 0 in the registers of exited threads
(R398) and shadows equal to their leading threads (R416), absent tiles, and the acquire cache action. -/
def State.restoreBlock (s : State) (uid base core sp : Nat) (subs : List Nat) : State :=
  let b := s.block uid
  let l := b.launch
  let s := s.applyEdits base uid
  let tiles := s.tilePlaces (base + b.saveOff + field b.saveRec 0x2C 4) l.tiles
  let s := (s.blockThreads uid).foldl (fun s t => s.modThread t fun th => { th with v := if th.exited then [] else th.v }) (s.dropShadow uid)
  let s := if (s.ctx b.ctx).stage = 4 then s else s.startSlice b.ctx (dieOf core)
  let s := s.takeCore b.ctx l core sp
  let s := s.enterCore uid core sp
  let s := subs.zipIdx.foldl (fun s p => s.modCrew (4 * uid + p.2) fun c => { c with sub := p.1, regBase := (s.regBase core p.1 l).getD 0 }) s
  let s := s.modBlock uid fun b =>
    { b with core := core, spBase := sp, stage := .resident, woken := false, passed := 0, placedAt := s.cycle, saveRec := [],
             tiles := tiles.zipIdx.map fun p => (p.2, { absent := some p.1 }) }
  let s := (s.acquireAction core b.ctx).freshGroups uid
  let s := (s.blockThreads uid).foldl (fun s t =>
    match (s.thread t).pageOwed with
    | some va => (s.modThread t fun th => { th with pageOwed := none, wait := .none }).raise t (s.thread t).pc .page (s.thread t).pc va
    | none => s) s
  let late := s.helm.later.filter fun r => match s.resumeTarget r with | some t => blockOf t == uid | none => false
  let s := late.foldl (fun s r => match s.resumeTarget r with | some t => s.resumeHost r t | none => s) s
  let s := s.modHelm fun h => { h with later := h.later.filter fun r => !late.contains r }
  State.addTodo s [.release core, .bars uid]

end Sys2Proof.Machine
end

