-- ==== Sys2Proof/Machine/Preempt.lean ====
section
/-! DEFINITION. Pre-emption of a context and its return, absent tiles, the swapping of blocks, resident pairs, and the end of a context
on command (R57, R387 to R406). -/

namespace Sys2Proof.Machine

/-! ## Stages (R390, R393, R406) -/

/-- A crew of the context on a die stands halted by a debugger: the die's counters stand still (R277, R390). -/
def State.dieHalted (s : State) (ctx : BitVec 16) (die : Nat) : Bool :=
  s.crews.any fun c => c.2.halted.isSome &&
    (let b := s.block (c.1 / 4); b.ctx == ctx && decide (b.core < 256) && dieOf b.core == die)

/-- The stage of a die. -/
def Context.die (c : Context) (die : Nat) : DieStage := tgetD c.dies die .idle

/-- Stage 3 (R393): the context ends on the device. -/
def State.resetContext (s : State) (ctx : BitVec 16) : State := s.endContext ctx 0x10 none 0

/-- A die enters stage 2 (R390, R391, R406): its blocks' crews stop. FORCE = 0 enters stage 3 at once. -/
def State.enterSave (s : State) (ctx : BitVec 16) (die : Nat) : State :=
  let x := s.ctx ctx
  let s := if x.stage = 1 then
      (s.modCtx ctx fun c => { c with stage := 2 }).areaHeader x.saveBase x.saveSize 0x31564153 ctx 0 2 x.saveUsed
    else s
  let s := (s.fetchTiles ctx).modCtx ctx fun c => { c with dies := tset c.dies die (.save x.force) }
  let s := (s.dieBlocks ctx die).foldl (fun s b => s.modBlock b fun k =>
    if k.stage == .resident then { k with stage := .saving } else k) s
  if x.force = 0 then s.resetContext ctx else s

/-- The DRAIN counter of a die has reached 0. -/
def State.drained (s : State) (ctx : BitVec 16) (die : Nat) : State :=
  if s.ctxLive ctx && (s.ctx ctx).die die == .drain 0 then s.enterSave ctx die else s

/-- Pre-emption of a context starts on all four dies (R390): stage 1, and with DRAIN = 0 stage 2 in the same cycle. -/
def State.beginPreempt (s : State) (ctx : BitVec 16) : State :=
  let n := (s.ctx ctx).drain
  let s := s.modCtx ctx fun c =>
    { c with stage := 1, saveUsed := 64, sliceLeft := [], dies := (List.range 4).map fun d => (d, .drain n) }
  let s := (s.modHelm fun h => { h with stageCtx := ctx }).settleDies ctx
  if n = 0 then (List.range 4).foldl (fun s d => s.drained ctx d) s else s

/-- A refused command (R277, R389, R390, R404, R406). -/
def State.refuseCmd (s : State) : State := s.modHelm fun h => { h with ctxErr := true }

/-- CTXSTAT.CTX is the context of an accepted command, whose stage CTXSTAT shows. -/
def State.acceptCmd (s : State) (ctx : BitVec 16) : State := s.modHelm fun h => { h with ctxCtx := ctx, stageCtx := ctx }

/-- A context is running: it is live and in no stage of a pre-emption, with blocks placed (R389, R390). -/
def State.ctxRunning (s : State) (ctx : BitVec 16) : Bool :=
  s.ctxLive ctx && (s.ctx ctx).stage == 5 && s.blocks.any fun p => p.2.ctx == ctx && decide (p.2.core < 256)

/-- PREEMPT (R390). -/
def execPreempt (ctx : BitVec 16) (s : State) : Host.Outcome State Fault Refusal :=
  .next (if s.ctxRunning ctx then (s.acceptCmd ctx).beginPreempt ctx else s.refuseCmd)

/-- SLICE has expired on a die; it waits while a crew of the context there is halted. -/
def State.sliced (s : State) (ctx : BitVec 16) (die : Nat) : State :=
  let x := s.ctx ctx
  if s.ctxRunning ctx && x.slice != 0 && tget x.sliceLeft die == some 0 && !s.dieHalted ctx die then s.beginPreempt ctx else s

/-- SLICE_EXPIRY (R56, R390, R405). -/
def execSliceExpiry (die : Nat) (ctx : BitVec 16) (s : State) : Host.Outcome State Fault Refusal := .next (s.sliced ctx die)

/-- DRAIN_EXPIRY (R390, R392, R406). -/
def execDrainExpiry (die : Nat) (ctx : BitVec 16) (s : State) : Host.Outcome State Fault Refusal := .next (s.drained ctx die)

/-- Saves blocks in turn; none when SAVESIZE is exhausted. -/
def State.saveBlocks (s : State) : List Nat → Option State
  | [] => some s
  | b :: bs => match s.saveBlock b with | some s => s.saveBlocks bs | none => none

/-- SAVE_COMPLETE (R324, R390 to R392): every block of the die has stopped, and its records are written. -/
def execSaveComplete (die : Nat) (ctx : BitVec 16) (s : State) : Host.Outcome State Fault Refusal :=
  match (s.ctx ctx).die die with
  | .save _ =>
    let bs := s.dieBlocks ctx die
    if !s.ctxLive ctx || !(bs.all fun b => (s.block b).stage == .saving && s.quiet b) then .next s
    else match s.saveBlocks bs with
      | none => .next (s.resetContext ctx)
      | some s => .next ((s.modCtx ctx fun c => { c with dies := tset c.dies die .done }).settleDies ctx)
  | _ => .next s

/-- The FORCE counter of a die has reached 0. -/
def State.forced (s : State) (ctx : BitVec 16) (die : Nat) : State :=
  if s.ctxLive ctx && (s.ctx ctx).die die == .save 0 then s.resetContext ctx else s

/-- FORCE_EXPIRY (R390, R393). -/
def execForceExpiry (die : Nat) (ctx : BitVec 16) (s : State) : Host.Outcome State Fault Refusal := .next (s.forced ctx die)

/-! ## Restore (R394, R400 to R402, R405, R406) -/

/-- The header of a context's save area is complete (R395, R406). -/
def State.areaComplete (s : State) (ctx : BitVec 16) : Bool :=
  let a := (s.ctx ctx).saveBase
  decide (64 ≤ (s.ctx ctx).saveSize) && ofBytes (memRead s.mem a 4) == 0x31564153 && ofBytes (memRead s.mem (a + 12) 4) == 1

/-- RESTORE (R400, R401, R405, R406): SLICE, DRAIN and FORCE are read again, and the saved blocks are in line for cores; a record that
was changed where it may not be ends the context. -/
def execRestore (ctx : BitVec 16) (s : State) : Host.Outcome State Fault Refusal :=
  let x := s.ctx ctx
  if !s.ctxLive ctx || x.stage ≠ 3 || !s.areaComplete ctx then .next s.refuseCmd
  else
    let r := s.ctxRecord ctx
    let w (off : Nat) : Nat := ofBytes (memRead s.mem (r + off) 4)
    let s := (s.acceptCmd ctx).modCtx ctx fun c => { c with slice := w 0x70, drain := w 0x74, force := w 0x78 }
    if !s.countValid x.saveBase (s.savedBlocks ctx).length || !((s.savedBlocks ctx).all fun b => s.recordValid x.saveBase (s.block b)) then .next (s.endContext ctx 1 none 0)
    else .next (State.modCtx { s with blocks := s.blocks.map fun p =>
      if p.2.ctx == ctx && p.2.stage == .saved then (p.1, { p.2 with stage := .restoring }) else p } ctx fun c => { c with stage := 4, dies := [] })

/-- STAGE reads 5 once every block is placed, and the SLICE count starts on each die (R401, R405). -/
def State.settleRestore (s : State) (ctx : BitVec 16) : State :=
  if (s.ctx ctx).stage ≠ 4 || (s.blocks.any fun p => p.2.ctx == ctx && p.2.stage == .restoring) then s
  else
    s.modCtx ctx fun c => { c with stage := 5, begun := true, dies := [], sliceLeft := (List.range 4).map fun d => (d, c.slice) }

/-- A block that comes back takes a core, if R382 and R37 let it. -/
def State.comeBack (s : State) (uid base core : Nat) : State :=
  let c := s.blockCand (s.block uid)
  if !s.mayPlace c then s
  else match s.candFit c core with
    | none => s
    | some (sp, subs) => s.restoreBlock uid base core sp subs

/-- BLOCK_RESTORE (R37, R401): a block waiting for its restore is placed. -/
def execBlockRestore (ctx : BitVec 16) (k core : Nat) (s : State) : Host.Outcome State Fault Refusal :=
  let b := s.block k
  .next (if b.stage == .restoring && b.ctx == ctx then (s.comeBack k (s.ctx ctx).saveBase core).settleRestore ctx else s)

/-- Threads of a block that wait for an absent tile: their next word is an `accld` or `accst` that names it and whose guard is true. -/
def State.tileWaiters (s : State) (b acc : Nat) : List Nat :=
  (s.blockThreads b).filter fun t =>
    let th := s.thread t
    !th.exited && th.wait == .none && (match s.peek b th.pc with
      | some (.accld f) => f.sa == .special (.acc (BitVec.ofNat 3 acc)) && s.guardTrue t f
      | some (.accst f) => f.dst.toNat == acc && s.guardTrue t f
      | _ => false)

/-- The sequencer of a block waits for an absent tile, the other checks of its `mma` done (R468). -/
def State.tileSeq (s : State) (b acc : Nat) : Bool :=
  (s.block b).sequencer.st == .waiting && (s.block b).sequencer.wait == .tile acc

/-- TILE_FETCH (R402): an absent tile that a thread or the sequencer waits for is read from its record. A fetch that meets an
uncorrectable error raises MATRIX with detail 6 (R288). -/
def execTileFetch (b acc : Nat) (s : State) : Host.Outcome State Fault Refusal :=
  match ((s.block b).tile acc).absent with
  | none => .next s
  | some pa =>
    let ts := s.tileWaiters b acc
    let seq := s.tileSeq b acc
    if (s.block b).stage != .resident || (ts.isEmpty && !seq) then .next s
    else
      let n := 64 + if memGet s.mem pa = 0 then 0 else 131072
      match (sectorsOf pa n).find? s.marked.contains with
      | some k =>
        .next (s.matrixFault b 6 (if seq then (s.block b).sequencer.pc else (ts.head?.map fun t => (s.thread t).pc).getD 0) (unitOf (32 * k)) (32 * k))
      | none =>
        .next (s.setTile b acc (s.tileAt pa))

/-! ## Swapping (R403) -/

/-- The record ranges in use in a context's swap area. -/
def State.swapUsed (s : State) (ctx : BitVec 16) : List (Nat × Nat) :=
  (s.blocks.filter fun p => p.2.ctx == ctx && p.2.stage == .swapped).map fun p => (p.2.saveOff, p.2.saveLen)

/-- The header of a context's swap area. -/
def State.swapHeader (s : State) (ctx : BitVec 16) : State :=
  let x := s.ctx ctx
  let u := s.swapUsed ctx
  s.areaHeader x.swapBase x.swapSize 0x31505753 ctx u.length 1 (64 + (u.map (·.2)).sum)

/-- The lowest offset, a multiple of 64 from 64 on, at which a record fits in a swap area. -/
def State.swapPlace (s : State) (ctx : BitVec 16) (n : Nat) : Option Nat :=
  let up (k : Nat) : Nat := (k + 63) / 64 * 64
  firstGap ((0, 64) :: (s.swapUsed ctx).map fun u => (u.1, up u.2)) (up n) ((s.ctx ctx).swapSize / 64 * 64)

/-- The helm may swap a block out (R52, R403). -/
def State.maySwap (s : State) (uid : Nat) : Bool :=
  let b := s.block uid
  let me := s.blockCand b
  s.helm.running && b.stage == .resident && decide (b.launch.progress < 2) && (s.ctx b.ctx).swapSize != 0 &&
    ((s.blockThreads uid).all fun t =>
      let th := s.thread t
      th.exited || (match th.wait with | .watch w => w.global | _ => false)) &&
    (s.candidates.any fun c => c.prio ≥ me.prio && !s.candFits c) && s.quiet uid

/-- SWAP_OUT (R403): the block is saved in its context's swap area, and its monitors stay armed. -/
def execSwapOut (b : Nat) (s : State) : Host.Outcome State Fault Refusal :=
  if !s.maySwap b then .next s
  else
    let ctx := (s.block b).ctx
    let s1 := (((s.fetchTiles ctx).settleInto b).releaseAction (s.block b).core []).drainOut (dieOf (s.block b).core)
    let (rec_, s1) := s1.blockRecord b
    match s.swapPlace ctx rec_.length with
    | none => .next s
    | some off => .next ((s1.putRecord b (s.ctx ctx).swapBase off rec_ .swapped).swapHeader ctx)

/-- SWAP_IN (R403): a block that a satisfying write has made ready takes a core, the helm's choice, and its threads issue their `waitc`
again. -/
def execSwapIn (ctx : BitVec 16) (k : Nat) (s : State) : Host.Outcome State Fault Refusal :=
  let b := s.block k
  if b.stage != .swapped || b.ctx != ctx || !b.woken || !s.placing ctx then .next s
  else
    let cand := s.blockCand b
    match (List.range 256).filter fun c => (s.candFit cand c).isSome with
    | [] => .next s
    | c :: cs =>
      let (n, s) := s.choose cs.length
      let s1 := s.comeBack k (s.ctx ctx).swapBase ((c :: cs).getD n c)
      .next (if (s1.block k).stage == .swapped then s1
        else (s1.stopThreads (s1.blockThreads k)).swapHeader ctx)

/-! ## Resident pairs (R57, R404, R405) -/

/-- SWITCH (R404, R405): issue for the former context stops on each core with blocks of the pair, the SLICE count of the new one starts on each die, and
its held effects may be released again (R58). -/
def execSwitch (ctx : BitVec 16) (s : State) : Host.Outcome State Fault Refusal :=
  let p := (s.ctx ctx).pair
  let on (c : BitVec 16) (k : Nat) : Bool := (s.coreBlocks k).any fun b => (s.block b).ctx == c
  if !s.ctxLive ctx || !s.paired ctx p || !((List.range 256).any (on p)) then .next s.refuseCmd
  else
    let s := s.acceptCmd ctx
    let cores := (List.range 256).filter fun k => on ctx k || on p k
    let fresh := cores.any fun k => (s.core k).active != some ctx
    let stop := cores.flatMap fun k => if (s.core k).active == some p then
        (s.coreBlocks k).flatMap fun b => if (s.block b).ctx == p then s.blockThreads b else [] else []
    let s := s.stopThreads stop
    let s := cores.foldl (fun s k => s.modCore k fun c => { c with active := some ctx }) s
    .next ((s.modCtx ctx fun c =>
      if fresh then { c with sliceLeft := (List.range 4).map fun d => (d, c.slice) } else c).addTodo (cores.map Todo.release))

/-- END (R389): the context ends with CODE 0x0F. -/
def execEnd_ (ctx : BitVec 16) (s : State) : Host.Outcome State Fault Refusal :=
  .next (if s.ctxLive ctx then (s.acceptCmd ctx).endContext ctx 0x0F none 0 else s)

end Sys2Proof.Machine
end

