-- ==== Sys2Proof/Machine/Debug.lean ====
section
/-! DEFINITION. The debugger: ATTACH, DETACH, HALT, RESUME and STEP, and the halt of a crew at its boundary (R56, R274, R277). -/

namespace Sys2Proof.Machine

/-- The resident blocks a command acts on: the one of DBGSEL, or with ALL every one of the context (R277). -/
def State.dbgBlocks (s : State) (ctx : BitVec 16) (all : Bool) : List Nat :=
  (s.blocks.filter fun p => p.2.ctx == ctx && decide (p.2.core < 256) &&
    (all || (p.2.task.toNat == s.helm.dbgSel.toNat / 2 ^ 32 && p.2.index == s.helm.dbgSel.toNat % 2 ^ 32))).map (·.1)

/-- The crews of blocks. -/
def State.crewsOf (s : State) (bs : List Nat) : List Nat := (s.crews.map (·.1)).filter fun c => bs.contains (c / 4)

/-- HALT, RESUME and STEP are refused while DBG is 0, and on a selection without a resident block (R277). -/
def State.dbgRefused (s : State) (ctx : BitVec 16) (all : Bool) : Bool :=
  !s.helm.attached.contains ctx || (s.dbgBlocks ctx all).isEmpty

/-- DBGSTAT.CTX is the context of an accepted command. -/
def State.acceptDbg (s : State) (ctx : BitVec 16) : State := s.modHelm fun h => { h with dbgCtx := ctx }

/-- The threads of a crew that halted at a `brk` go on at A + 12 (R274, R277). -/
def State.leaveBrk (s : State) (c : Nat) : State :=
  let ts := (s.crewThreads c).filter fun t => (s.thread t).wait == .brk
  (ts.foldl (fun s t => s.modThread t fun th => { th with wait := .none, pc := th.pc + 12 }) s).regroup ts

/-- A halted crew continues. -/
def State.resumeCrew (s : State) (c : Nat) : State :=
  if (s.crew c).halted.isNone then s
  else (s.leaveBrk c).modCrew c fun x => { x with halted := none, haltReq := false, brkReq := false, stepped := false }

/-- Crews that are to halt and have no long-latency instruction outstanding halt (R277). -/
def State.settleHalts (s : State) : State :=
  (s.crews.map (·.1)).foldl (fun s c =>
    let x := s.crew c
    if (x.haltReq || x.brkReq || x.stepped) && x.halted.isNone && !s.longDue c then s.haltCrew c else s) s

/-- ATTACH (R277). -/
def execAttach (ctx : BitVec 16) (s : State) : Host.Outcome State Fault Refusal :=
  .next ((s.acceptDbg ctx).modHelm fun h =>
    { h with attached := if h.attached.contains ctx then h.attached else h.attached ++ [ctx] })

/-- DETACH (R277): halts that have not been reached are given up, and a thread at a `brk` goes on at A + 12. -/
def execDetach (ctx : BitVec 16) (s : State) : Host.Outcome State Fault Refusal :=
  let s := (s.acceptDbg ctx).modHelm fun h => { h with attached := h.attached.filter (· != ctx) }
  let cs := s.crewsOf ((s.blocks.filter fun p => p.2.ctx == ctx).map (·.1))
  .next (cs.foldl (fun s c => (s.leaveBrk c).modCrew c fun x =>
    { x with halted := none, haltReq := false, brkReq := false, stepReq := false, stepped := false }) s)

/-- HALT (R277). -/
def execHalt (ctx : BitVec 16) (all : Bool) (s : State) : Host.Outcome State Fault Refusal :=
  if s.dbgRefused ctx all then .next s.refuseCmd
  else .next ((s.crewsOf (s.dbgBlocks ctx all)).foldl (fun s c => s.modCrew c fun x =>
    if x.halted.isSome then x else { x with haltReq := true }) (s.acceptDbg ctx))

/-- RESUME (R277). -/
def execResume (ctx : BitVec 16) (all : Bool) (s : State) : Host.Outcome State Fault Refusal :=
  if s.dbgRefused ctx all then .next s.refuseCmd
  else .next ((s.crewsOf (s.dbgBlocks ctx all)).foldl State.resumeCrew (s.acceptDbg ctx))

/-- STEP (R277): the crew issues one issue group, waits for its results, and halts again. -/
def execStep (ctx : BitVec 16) (crew : BitVec 2) (s : State) : Host.Outcome State Fault Refusal :=
  if s.dbgRefused ctx false then .next s.refuseCmd
  else
    let cs := (s.crewsOf (s.dbgBlocks ctx false)).filter fun c => c % 4 == crew.toNat
    .next (cs.foldl (fun s c => (s.resumeCrew c).modCrew c fun x => { x with stepReq := true }) (s.acceptDbg ctx))

end Sys2Proof.Machine
end

