-- ==== Sys2Proof/Machine/Translation.lean ====
section
/-! DEFINITION. What system software does about translation: the answers to faults, and invalidation (R54, R387, R425 to R427, R468). -/

namespace Sys2Proof.Machine

/-- The parked threads of a context. -/
def State.parkedThreads (s : State) (ctx : BitVec 16) : List Nat :=
  (s.threads.map (·.1)).filter fun t => (s.block (blockOf t)).ctx == ctx && (match (s.thread t).wait with | .parked _ => true | _ => false)

/-- The blocks of a context whose sequencer waits on a translation fault (R288). -/
def State.faultedStreams (s : State) (ctx : BitVec 16) : List Nat :=
  (s.blocks.filter fun p => p.2.ctx == ctx && p.2.sequencer.st == .waiting && p.2.sequencer.wait == .fault).map (·.1)

/-- A parked thread is unparked (R46, R54): it issues its instruction again. -/
def State.unpark (s : State) (t : Nat) : State :=
  ((s.modThread t fun th => { th with wait := .none }).regroup [t]).addTodo [.joins (crewOf t)]

/-- A parked thread whose fault cannot be serviced raises PAGE (R387); a saved one when it is restored. -/
def State.killParked (s : State) (t : Nat) : State :=
  match (s.thread t).wait with
  | .parked va =>
    if (s.block (blockOf t)).core ≥ 256 then s.modThread t fun th => { th with pageOwed := some va }
    else
      let a := (s.thread t).pc
      (s.modThread t fun th => { th with wait := .none }).raise t a .page a va
  | _ => s

/-- XLRES with KILL = 0 (R426): parked threads, sequencers and copy commands that wait on a fault try again. -/
def execXlresUnpark (ctx : BitVec 16) (s : State) : Host.Outcome State Fault Refusal :=
  let s := (s.parkedThreads ctx).foldl State.unpark s
  let s := (s.faultedStreams ctx).foldl (fun s b => s.modSeq b fun q => { q with st := .running, wait := .none }) s
  .next { s with copies := s.copies.map fun p => if p.2.ctx == ctx then (p.1, { p.2 with faulted := false }) else p }

/-- XLRES with KILL = 1 (R288, R387, R426). -/
def execXlresKill (ctx : BitVec 16) (s : State) : Host.Outcome State Fault Refusal :=
  let s := (s.parkedThreads ctx).foldl State.killParked s
  let s := (s.faultedStreams ctx).foldl (fun s b => s.matrixFault b 7 (s.block b).sequencer.pc 0 0) s
  .next { s with copies := s.copies.map fun p =>
    if p.2.ctx == ctx && p.2.faulted then (p.1, { p.2 with faulted := false, killed := true }) else p }

/-- XLINVCMD with GO (R427): BUSY is set, and the range is XLINVBASE and a length in 64 KiB units. While BUSY is set it joins those that the
device is at (DESIGN CHOICE, log 49). -/
def execXlinvcmd (ctx : BitVec 16) (len : W32) (s : State) : Host.Outcome State Fault Refusal :=
  .next (s.modHelm fun h => { h with xlBusy := true, xlRanges := h.xlRanges ++ [(ctx, h.xlBase.toNat / 2 ^ 16 * 2 ^ 16, 65536 * len.toNat)] })

/-- A line lies in the range under invalidation. -/
def Helm.invalidates (h : Helm) (l : L1Line) : Bool :=
  h.xlRanges.any fun r => l.ctx == r.1 && overlap (128 * l.line) 128 r.2.1 r.2.2

/-- A memory controller keeps the leaf of an address (R423): which and when is a free choice. Four controllers keep 4,096 each. -/
def State.keepLeaf (s : State) : State :=
  let (k, s) := s.choose (s.ctxs.length - 1)
  let (va, s) := s.freeWord
  match s.ctxs[k]? with
  | none => s
  | some c =>
    let ctx := BitVec.ofNat 16 c.1
    if s.leaves.length ≥ 16384 || !validVa va || s.leaves.any (·.maps ctx va.toNat) then s
    else match s.leaf ctx va.toNat with
      | .ok (e, level) => { s with leaves := s.leaves ++ [{ ctx := ctx, page := va.toNat / pageSize level, level := level, entry := e.w }] }
      | .error _ => s

/-- It makes room: a kept leaf is dropped, again by a free choice. -/
def State.dropLeaf (s : State) : State :=
  let (k, s) := s.choose (s.leaves.length - 1)
  { s with leaves := s.leaves.eraseIdx k }

/-- INVALIDATION_COMPLETE (R427): accesses that the contexts' threads have issued are performed, dirty bytes of the ranges are written back
under the old translation, their partials are combined, their lines leave every L1 and their leaves the controllers, and BUSY clears. -/
def execInvalidationComplete (s : State) : Host.Outcome State Fault Refusal :=
  if !s.helm.xlBusy then .next s
  else
    let s := ((s.threads.map (·.1)).filter fun t => s.helm.xlRanges.any (·.1 == (s.block (blockOf t)).ctx)).foldl State.settleAll s
    let s := s.cores.foldl (fun s c => c.2.l1.foldl (fun s l => if s.helm.invalidates l then s.evict c.1 l else s) s) s
    let s := { s with leaves := s.leaves.filter fun x => !s.helm.xlRanges.any fun r => x.meets r.1 r.2.1 r.2.2 }
    .next ((List.range 4).foldl State.drainOut (s.modHelm fun h => { h with xlBusy := false, xlRanges := [] }))

end Sys2Proof.Machine
end

