-- ==== Sys2Proof/Machine/Fabric.lean ====
section
/-! DEFINITION. The fabric: accesses from other devices, replies and timeouts, the endpoint number, ports and lanes (R206, R211, R259,
R334 to R341, R386, R432 to R438). -/

namespace Sys2Proof.Machine

/-! ## Accesses from other devices (R337, R386) -/

/-- Steps 3 and 4 of R337 on physical bytes. -/
def State.reachable (s : State) (x : Incoming) (n : Nat) (r w : Bool) : Bool :=
  let c := s.ctx x.ctx
  decide (c.fwBase ≤ x.pa ∧ x.pa + n ≤ c.fwBase + c.fwSize) && s.populated x.pa n &&
    (!r || c.fwPerm.testBit 0) && (!w || c.fwPerm.testBit 1)

/-- A read-modify-write from another device at the home slice (R200, R201, R203, R336): status and old value. -/
def State.remoteAtom (s : State) (x : Incoming) (aop : Nat) (ty : Ty) (rnd : Rnd) (red : Bool) : Nat × List Byte × State :=
  let w := ty.bytes
  let b := ofBytes x.data
  let s := s.recall x.pa
  let old := s.homeWord x.pa w
  let back := if red then [] else leBytes w old
  if s.poisoned x.pa w then
    (4, back, if red then s.errorRecord { pa := x.pa / 32 * 32, ctx := x.ctx, unit := unitOf x.pa, outcome := 6, die := homeDie x.pa } else s)
  else if aop = 7 && atomValue aop ty rnd old b = old then (0, back, s)
  else (0, back, s.writeHome x.pa (leBytes w (atomValue aop ty rnd old b)))

/-- A message from another device enters the inbox of its receiver (R259, R260), or none while it waits: placed yet, and room. -/
def State.remoteMail (s : State) (x : Incoming) (task : W32) (poison : List Bool) : Option (Nat × State) :=
  match (s.nodes.map (·.2)).find? fun n => n.ctx == x.ctx && n.task == task with
  | none => some (5, s)
  | some n =>
    if x.pa ≥ n.launch.blocks then some (5, s)
    else match tgetD n.blks x.pa (.waiting 0) with
      | .waiting _ => none
      | .published => some (5, s)
      | .placed uid =>
        let b := s.block uid
        if b.stage == .ending then some (5, s)
        else if b.stage != .resident || b.inbox.length ≥ 64 then none
        else
          let ws := (List.range (x.data.length / 4)).map fun k =>
            (BitVec.ofNat 32 (ofBytes ((x.data.drop (4 * k)).take 4)), poison.getD k false)
          some (0, s.modBlock uid fun b => { b with inbox := b.inbox ++ [{ words := ws, tags := 0, sender := none, seq := s.seq }] })

/-- An access of another device is performed at the home slice, past the L1s and outbound paths here (R334, R337), or none while it has to
wait. That of a group operation names a virtual address of its context (R215, R217). -/
def State.performRemote (s : State) (x : Incoming) : Option State :=
  let n := x.data.length
  let done (r : Nat × List Byte × State) : Option State := some (r.2.2.reply x.src r.1 r.2.1)
  if !s.helm.fabValid || !s.ctxLive x.ctx then done (1, [], s)
  else if !(s.ctx x.ctx).begun then none
  else match x.op with
    | .load =>
      if !s.reachable x n true false then done (5, [], s)
      else
        let (bs, poison, s) := s.readThrough none x.pa n
        done (if poison then 4 else 0, bs, s)
    | .store poison =>
      if !s.reachable x n false true then done (5, [], s)
      else done (0, [], s.writeThrough none x.pa x.data poison)
    | .atomic aop ty rnd => if !s.reachable x ty.bytes true true then done (5, [], s) else done (s.remoteAtom x aop ty rnd false)
    | .red aop ty rnd => if !s.reachable x ty.bytes true true then done (5, [], s) else done (s.remoteAtom x aop ty rnd true)
    | .mcRead =>
      let (st, bs, s) := s.memberRead none x.ctx (BitVec.ofNat 64 x.pa) n
      done (st, bs, s)
    | .mcWrite sc poison =>
      let (st, s) := s.memberWrite none x.ctx (BitVec.ofNat 64 x.pa) sc x.data poison
      done (st, [], s)
    | .mail task poison => (s.remoteMail x task poison).map fun r => r.2.reply x.src r.1 []

/-- Performs the accesses that wait, in the order in which each device sent them; one that has waited for the fabric timeout fails with
PEER_NOT_READY (R337), a message with TIMEOUT. -/
def State.settleIncoming (s : State) : State :=
  let go (x : State × List Incoming) (i : Incoming) : State × List Incoming :=
    let (s, kept) := x
    if kept.any (·.src == i.src) then (s, kept ++ [i])
    else match s.performRemote i with
      | some s => (s, kept)
      | none =>
        if s.cycle - i.since ≥ i.timeout then
          (s.reply i.src (match i.op with | .mail .. => if (s.ctx i.ctx).begun then 3 else 2 | _ => 2) [], kept)
        else (s, kept ++ [i])
  let (s, kept) := s.incoming.foldl go (s, [])
  { s with incoming := kept }

/-- FABRIC_REQUEST (R334, R337): an access of another device is delivered. The event stands behind the restoration of R334: the accesses of
one device come in the order in which it sent them (log 84). Nothing comes while no port is up (R438). -/
def execFabricRequest (src : BitVec 12) (ctx : BitVec 16) (op : FabOp) (pa : Nat) (data : List Byte) (s : State) :
    Host.Outcome State Fault Refusal :=
  .next (if !s.linked then s else State.settleIncoming { s with incoming := s.incoming ++
    [{ src := src, ctx := ctx, op := op, pa := pa, data := data, since := s.cycle, timeout := max s.helm.fabTo 1024 }] })

/-! ## Replies and timeouts (R336, R338, R339) -/

/-- The outstanding request of a tag of a port. -/
def State.requestOf (s : State) (port : Nat) (tag : BitVec 12) : Option Request :=
  s.requests.find? fun r => r.port == port && r.tag == tag

/-- A port. -/
def State.port (s : State) (p : Nat) : Port := tgetD s.ports p {}
/-- Changes a port. -/
def State.modPort (s : State) (p : Nat) (f : Port → Port) : State := { s with ports := tset s.ports p (f (s.port p)) }

/-- A request leaves its tag. -/
def State.dropRequest (s : State) (r : Request) : State :=
  { s with requests := s.requests.filter fun q => !(q.port == r.port && q.tag == r.tag) }

/-- What follows the end of a request: releases, fences and messages that waited for it. -/
def State.afterRequest (s : State) : State := s.addTodo [.fences]

/-- A reply is dropped and counted (R338): in the port's counter, and for the context of the tag's last request, as closely as it is still
attributed (R448, R452). -/
def State.dropReply (s : State) (port : Nat) (tag : BitVec 12) : State :=
  let s := s.modPort port fun p => { p with stale := p.stale + 1 }
  match tget (s.port port).last tag.toNat with
  | none => s
  | some (ctx, task, blk, tid) =>
    let at_ (level task blk tid : Nat) : State := s.modCtx ctx fun c =>
      { c with tallies := addTally c.tallies { group := 4, index := Config.staleIndex, level := level, task := task, blk := blk, tid := tid, n := 1 } }
    if s.blocks.any fun b => b.2.ctx == ctx && b.2.task == task && b.2.index == blk && decide (b.2.core < 256) then at_ 4 task.toNat blk tid
    else if s.nodes.any fun n => n.2.ctx == ctx && n.2.task == task then at_ 2 task.toNat 0 0
    else at_ 1 0 0 0

/-- FABRIC_REPLY (R334, R338): a reply is accepted when its tag is outstanding with its generation; any other is dropped and counted. The
last member's answer ends the request. None comes by a port that is not up (R436, R438). -/
def execFabricReply (port : Nat) (tag : BitVec 12) (gen : BitVec 4) (member : Nat) (leaf : BitVec 8) (status : Nat) (data : List Byte)
    (s : State) : Host.Outcome State Fault Refusal :=
  let stale : State := s.dropReply port tag
  if (s.port port).state ≠ 2 then .next s
  else match s.requestOf port tag with
  | none => .next stale
  | some r =>
    if r.gen != gen || member ≥ r.members.length || r.answers.any (·.member == member) then .next stale
    else
      let as := r.answers ++ [{ member := member, leaf := leaf, status := status, data := data }]
      if as.length < r.members.length then
        .next { s with requests := s.requests.map fun q =>
          if q.port == port && q.tag == tag then { q with answers := as } else q }
      else .next ((s.dropRequest r).endRequest r as).afterRequest

/-- Members that have not answered within a request's timeout fail, and the tag's generation advances (R338): with TIMEOUT, or with the
PEER_NOT_READY of a member that waits for its gang slice at that moment (R337, R386), which is a free choice (log 85). -/
def State.timeoutRequest (s : State) (port : Nat) (tag : BitVec 12) : State :=
  match s.requestOf port tag with
  | none => s
  | some r =>
    if s.cycle - r.issued < r.timeout then s
    else
      let (late, s) := ((List.range r.members.length).filter fun m => !(r.answers.any (·.member == m))).foldl
        (fun (x : List Answer × State) m =>
          let (k, s) := x.2.choose 1
          (x.1 ++ [{ member := m, leaf := 0, status := 3 - k, data := [] }], s)) ([], s)
      let s := (s.dropRequest r).modPort port fun p => { p with gens := tset p.gens tag.toNat (tgetD p.gens tag.toNat 0 + 1) }
      (s.endRequest r (r.answers ++ late)).afterRequest

/-- A request that no port has taken within its timeout was never sent: the members that have not answered fail with TIMEOUT (R336, R433,
R437). -/
def State.timeoutUnsent (s : State) (r : Request) : State :=
  if s.cycle - r.issued < r.timeout then s
  else
    let late := ((List.range r.members.length).filter fun m => !(r.answers.any (·.member == m))).map fun m =>
      ({ member := m, leaf := 0, status := 3, data := [] } : Answer)
    (State.endRequest { s with unsent := s.unsent.filter (·.id != r.id) } r (r.answers ++ late)).afterRequest

/-- FABRIC_TIMEOUT (R211, R336, R338). -/
def execFabricTimeout (port : Nat) (tag : BitVec 12) (s : State) : Host.Outcome State Fault Refusal := .next (s.timeoutRequest port tag)

/-- LATE_REPLY_DISCARD (R338): a reply older than 8 timeouts never reaches a request. -/
def execLateReplyDiscard (_port : Nat) (_tag : BitVec 12) (_gen : BitVec 4) (s : State) : Host.Outcome State Fault Refusal := .next s

/-! ## Endpoint, ports and lanes (R432, R434 to R437) -/

/-- FABID_ASSIGNMENT (R432): at bring-up the device learns its endpoint number and leaf. -/
def execFabidAssignment (device : BitVec 12) (leaf : BitVec 8) (s : State) : Host.Outcome State Fault Refusal :=
  .next (if s.helm.fabValid then s else s.modHelm fun h => { h with fabValid := true, fabDev := device, fabLeaf := leaf })

/-- Lanes of a port that have failed. -/
def Port.failures (p : Port) : Nat := ((List.range 8).filter fun k => p.failed.getLsbD k).length

/-- MODE and ERASE of a port whose link is up, by its failed lanes (R434, R435). -/
def Port.settle (p : Port) : Port :=
  match p.failures with
  | 0 => { p with mode := 1, erase := 15 }
  | 1 => { p with mode := 2, erase := ((List.range 8).find? fun k => p.failed.getLsbD k).getD 15 }
  | _ => { p with mode := 3, erase := 15 }

/-- LANE_FAILURE (R435): one failed lane is an erasure, two retrain the port in NRZ, three take it down. -/
def execLaneFailure (port lane : Nat) (s : State) : Host.Outcome State Fault Refusal :=
  if port ≥ 32 || lane ≥ 8 || (s.port port).failed.getLsbD lane then .next s
  else .next (s.modPort port fun p =>
    let p := { p with failed := p.failed ||| BitVec.ofNat 8 (2 ^ lane) }
    if p.failures ≥ 3 then { p with state := 3, mode := 0, erase := 15, since := none }
    else if p.state = 2 then
      (if p.failures = 2 then { p.settle with state := 1, since := some s.cycle } else p.settle)
    else p)

/-- A port that retrains is up again, and takes what has waited for one (R435, R438). -/
def State.retrained (s : State) (port : Nat) : State :=
  if (s.port port).state = 1 then (s.modPort port fun p => { p.settle with state := 2, since := none }).sendUnsent.sendReplies else s

/-- RETRAINING_COMPLETE (R435). -/
def execRetrainingComplete (port : Nat) (s : State) : Host.Outcome State Fault Refusal := .next (s.retrained port)

/-- A port retrains for at most 70,000 cycles (R435). -/
def State.retrainBound (s : State) : State :=
  (List.range 32).foldl (fun s p => match (s.port p).since with
    | some c => if s.cycle - c ≥ 70000 then s.retrained p else s
    | none => s) s

/-- FLIT_REPLAY (R436): each flit is delivered once, in order, so a replay changes nothing. -/
def execFlitReplay (_port : Nat) (s : State) : Host.Outcome State Fault Refusal := .next s

/-- PAUSE (R437): a class of a port's link is paused, at once: the spec allows the sender 512 cycles (DESIGN CHOICE, log 101). -/
def execPause (port cls : Nat) (s : State) : Host.Outcome State Fault Refusal :=
  .next (if port < 32 ∧ cls < 4 then s.modPort port fun p => { p with paused := p.paused ||| BitVec.ofNat 4 (2 ^ cls) } else s)

/-- PAUSE_END (R437): what has waited for the class goes out. -/
def execPauseEnd (port cls : Nat) (s : State) : Host.Outcome State Fault Refusal :=
  .next (if port < 32 ∧ cls < 4 then
      (s.modPort port fun p => { p with paused := p.paused &&& ~~~ BitVec.ofNat 4 (2 ^ cls) }).sendUnsent.sendReplies
    else s)

end Sys2Proof.Machine
end

