-- ==== Sys2Proof/Machine/Bar.lean ====
section
/-! DEFINITION. The registers of BAR 0 that have no row of their own, what each register reads as, and the host's accesses to memory
(R9, R277, R371 to R374, R389, R417, R419, R427, R430, R432, R434, R440 to R443, R451 to R453, R455, R458 to R460). -/

namespace Sys2Proof.Machine

/-! ## Writes (R9, R371) -/

/-- The address that a register described as 4 KiB aligned takes from a write (R9, R371, R417, R419, R453): the spec does not say what
becomes of bits [11:0] and [63:52], and the model drops them (DESIGN CHOICE, log 77). -/
def pageAddr (v : W64) : Nat := v.toNat % 2 ^ 52 / 2 ^ 12 * 2 ^ 12

/-- A register that holds what is written to it takes its fields (R9, R371). -/
def Helm.write (h : Helm) (off : Nat) (v : W64) : Helm :=
  let x := v.toNat
  match off with
  | 0x0008 => { h with ctxtab := pageAddr v }
  | 0x0018 => { h with ctxErr := h.ctxErr && !v.getLsbD 31 }
  | 0x0020 => { h with errBase := BitVec.ofNat 64 (pageAddr v) }
  | 0x0028 => { h with errLog := x % 16 }
  | 0x0038 => { h with errHead := v.setWidth 32 }
  | 0x0050 => { h with trtab := pageAddr v }
  | 0x0060 => { h with xlBase := BitVec.ofNat 64 (x / 2 ^ 16 * 2 ^ 16) }
  | 0x0088 => { h with fabTo := x % 2 ^ 24 }
  | 0x0098 => { h with powLimit := x / 2 ^ 32 % 2 ^ 16 }
  | 0x00B0 => { h with dbgSel := v }
  | 0x0400 => { h with sxsel := v &&& 0x000003FFFF00FFFF }
  | 0x0408 => { h with sxkey := v }
  | 0x0440 => { h with trBase := BitVec.ofNat 64 (pageAddr v) }
  | 0x0448 => { h with trLog := x % 16 }
  | 0x0458 => { h with trHead := v.setWidth 32 }
  | 0x0468 => { h with trCtl := BitVec.ofNat 32 (x % 2 ^ 19) }
  | _ => h

/-! ## Reads -/

/-- CTXSTAT (R389): ERR, CTX of the last accepted command, and STAGE and the dies that have finished it
of the context that the last accepted command or the last expiry of a SLICE named, since R390 says that STAGE reads 3 after either (assumption 21,
DEDUCED). -/
def State.ctxStat (s : State) : Nat :=
  let c := s.ctx s.helm.stageCtx
  let live := (tget s.ctxs s.helm.stageCtx.toNat).isSome
  let done := (List.range 4).foldl (fun x d => if c.die d == .done then x + 2 ^ (20 + d) else x) 0
  (if s.helm.ctxErr then 2 ^ 31 else 0) + (if live then done + c.stage * 2 ^ 16 else 0) + s.helm.ctxCtx.toNat

/-- DBGSTAT (R277). -/
def State.dbgStat (s : State) : Nat :=
  let n := (s.crews.filter fun c => c.2.halted.isSome && (s.block (c.1 / 4)).ctx == s.helm.dbgCtx).length
  let busy := s.crews.any fun c => (c.2.haltReq || c.2.stepReq || c.2.stepped) && c.2.halted.isNone && (s.block (c.1 / 4)).ctx == s.helm.dbgCtx
  n * 2 ^ 32 + (if busy then 2 ^ 16 else 0) + s.helm.dbgCtx.toNat

/-- BOOTSTAT (R455). -/
def Helm.bootStat (h : Helm) : Nat :=
  h.bootErr * 2 ^ 16 + h.dieFail.toNat * 2 ^ 12 + (if h.warm then 2 ^ 8 else 0) + h.bootStep

/-- Step 2 of a start runs: reduced service (R457). -/
def Helm.reduced (h : Helm) : Bool := h.bootStep == 2

/-- CLOCK of POWSTAT (R457, R459): 700 in reduced service, else the lower of what the two causes have lowered it to. -/
def Helm.clock (h : Helm) : Nat := if h.reduced then 700 else min h.powClock h.hotClock

/-- REASON of POWSTAT (R459). -/
def Helm.reasons (h : Helm) : Nat := h.reason.toNat + if h.reduced then 4 else 0

/-- Width and speed of a CXL link, as the host reads them through CXL.io (R442); the manual does not describe the capability structures that hold
them (log 57). -/
def State.cxlLink (s : State) (p : Nat) : Option (Nat × Nat) := tget s.helm.cxlLink p

/-- FWSTAT (R458). -/
def Helm.fwStat (h : Helm) : Nat :=
  (if h.fwOpen then 1 else 0) + (if h.fwStaged then 2 else 0) + (if h.fwError then 4 else 0) + (if h.fwRejected then 8 else 0) +
    h.fwCount * 2 ^ 32

/-- PORTSTAT (R434). -/
def Port.stat (p : Port) : Nat := p.failed.toNat * 2 ^ 16 + p.erase * 2 ^ 8 + p.mode * 4 + p.state

/-- The low or high half of a queue descriptor (R373). -/
def Queue.half (q : Queue) (hi : Bool) : Nat :=
  if hi then q.base * 2 ^ 12
  else q.tail.toNat * 2 ^ 48 + q.head.toNat * 2 ^ 32 + q.logSize * 2 ^ 28 + q.prio * 2 ^ 26 + (if q.stop then 2 ^ 25 else 0) + q.ctx.toNat

/-- The 64-byte entry of a resident block slot in a core's control window (R430, R440): the manual names its contents; their offsets
are the model's (log 18). -/
def State.slotEntry (s : State) (core slot : Nat) : List Byte :=
  match (s.coreBlocks core)[slot]? with
  | none => List.replicate 64 0
  | some b =>
    let x := s.block b
    leBytes 4 x.ctx.toNat ++ leBytes 4 x.task.toNat ++ leBytes 4 x.index ++ leBytes 4 x.spBase ++
      ((List.range 4).flatMap fun c => leBytes 4 (s.crew (4 * b + c)).regBase) ++ leBytes 32 0

/-- The 8 bytes of a big register at an offset of it. -/
def slice64 (bits : Nat) (k : Nat) : Nat := bits / 2 ^ (8 * k) % 2 ^ 64

/-- The 64 bits that a read of an aligned offset of BAR 0 answers (R371): 0 for a write-only register and where no register is. -/
def State.barRead (s : State) (off : Nat) : W64 :=
  let h := s.helm
  BitVec.ofNat 64 (
    if off = 0 then h.hstat.toNat
    else if off = 0x0008 then h.ctxtab
    else if off = 0x0018 then s.ctxStat
    else if off = 0x0020 then h.errBase.toNat
    else if off = 0x0028 then h.errLog
    else if off = 0x0030 then h.errTail.toNat
    else if off = 0x0038 then h.errHead.toNat
    else if off = 0x0040 then h.errLost.toNat
    else if off = 0x0048 then h.errCorr.toNat
    else if off = 0x0050 then h.trtab
    else if off = 0x0060 then h.xlBase.toNat
    else if off = 0x0070 then (if h.xlBusy then 1 else 0)
    else if off = 0x0080 then (if h.fabValid then 2 ^ 24 else 0) + h.fabLeaf.toNat * 2 ^ 16 + h.fabDev.toNat
    else if off = 0x0088 then h.fabTo
    else if off = 0x0090 then h.bootStat
    else if off = 0x0098 then h.powLimit * 2 ^ 32 + h.clock * 2 ^ 16 + h.reasons
    else if off = 0x00A8 then s.dbgStat
    else if off = 0x00B0 then h.dbgSel.toNat
    else if 0x0200 ≤ off ∧ off < 0x0300 then (s.port ((off - 0x0200) / 8)).stat
    else if 0x0300 ≤ off ∧ off < 0x0340 then tgetD h.cxlCap ((off - 0x0300) / 8) 0
    else if off = 0x0400 then h.sxsel.toNat
    else if off = 0x0408 then h.sxkey.toNat
    else if off = 0x0410 then s.sxval.toNat
    else if off = 0x0440 then h.trBase.toNat
    else if off = 0x0448 then h.trLog
    else if off = 0x0450 then h.trTail.toNat
    else if off = 0x0458 then h.trHead.toNat
    else if off = 0x0460 then h.trLost.toNat
    else if off = 0x0468 then h.trCtl.toNat
    else if 0x0500 ≤ off ∧ off < 0x0520 then slice64 Config.idKey.toNat (off - 0x0500)
    else if 0x0520 ≤ off ∧ off < 0x0560 then slice64 h.fwMeas.toNat (off - 0x0520)
    else if 0x0580 ≤ off ∧ off < 0x05C0 then slice64 h.attSig.toNat (off - 0x0580)
    else if off = 0x0610 then h.fwStat
    else if 0x10000 ≤ off ∧ off < 0x14000 then (h.queue ((off - 0x10000) / 16)).half (off % 16 == 8)
    else if 0x18000 ≤ off ∧ off < 0x58000 then
      (let k := (off - 0x18000) / 64
       ofBytes (((s.slotEntry (k % 256) (k / 256)).drop ((off - 0x18000) % 64)).take 8))
    else 0)

/-! ## Counters (R451, R452) -/

/-- The counter that SXSEL and SXKEY name is kept (R446, R452): one of an item class that has items, and at level 2 of a task without its
completion record, at level 3 of a resident block, at level 4 of a thread of one. -/
def State.sxKept (s : State) : Bool :=
  let h := s.helm
  let ctx := h.sxsel.setWidth 16
  let task := h.sxkey.toNat / 2 ^ 32
  let here (b : Block) : Bool := b.ctx == ctx && decide (b.core < 256) && b.task.toNat == task && b.index == h.sxkey.toNat % 2 ^ 32
  decide (h.sxsel.toNat / 2 ^ 24 % 8 < 6) &&
    match h.sxsel.toNat / 2 ^ 32 % 8 with
    | 1 => true
    | 2 => s.nodes.any fun n => n.2.ctx == ctx && n.2.task.toNat == task
    | 3 => s.blocks.any fun b => here b.2
    | _ => s.blocks.any fun b => here b.2 && decide (h.sxsel.toNat / 2 ^ 35 % 128 < b.2.launch.threads)

/-- A counter's share belongs to a selection (R446): its own level or a finer one of the task, block or thread that SXKEY and TID name. -/
def Tally.within (x : Tally) (group index level task blk tid : Nat) : Bool :=
  x.group == group && x.index == index &&
    (level == 1 || (decide (level ≤ x.level) && x.task == task && (level == 2 || (x.blk == blk && (level == 3 || x.tid == tid)))))

/-- A counter measures cycles: INDEX 0 of class 2 does (48_disclosure_notes.md). -/
def inCycles (group index : Nat) : Bool := (group == 2 && index == 0) || Config.countsCycles group index

/-- What a counter reads as (R452): the sum of its shares up to where it saturates, with the low TIMEK bits of one that measures cycles
cleared. -/
def Context.counted (c : Context) (group index level task blk tid : Nat) : Nat :=
  let n := min (2 ^ 64 - 2) ((c.tallies.filter fun x => x.within group index level task blk tid).foldl (fun n x => n + x.n) 0)
  if inCycles group index then n / 2 ^ c.timek * 2 ^ c.timek else n

/-- SXVAL (R451, R452): all ones where the selection may not be disclosed or is not kept; else the value of the counter that GROUP and INDEX name.
What it has counted since it was read last is a free value, since the manual does not say which events it counts (log 55); it stands in the
context's counters from then on. -/
def execSxval (s : State) : Host.Outcome State Fault Refusal :=
  let sel := s.helm.sxsel.toNat
  let ctx := BitVec.ofNat 16 sel
  let level := sel / 2 ^ 32 % 8
  let group := sel / 2 ^ 24 % 8
  if level = 0 || level ≥ 5 || !s.ctxLive ctx || level > (s.ctx ctx).level group || !s.sxKept then
    .next { s with sxval := BitVec.allOnes 64 }
  else
    let index := sel / 2 ^ 27 % 32
    let task := s.helm.sxkey.toNat / 2 ^ 32
    let blk := s.helm.sxkey.toNat % 2 ^ 32
    let tid := sel / 2 ^ 35 % 128
    let (v, s) := s.freeWord
    let x : Tally := { group := group, index := index, level := level, task := if level ≥ 2 then task else 0,
                       blk := if level ≥ 3 then blk else 0, tid := if level ≥ 4 then tid else 0, n := v.toNat }
    let s := s.modCtx ctx fun c => { c with tallies := addTally c.tallies x }
    .next { s with sxval := BitVec.ofNat 64 ((s.ctx ctx).counted group index level task blk tid) }

/-! ## Memory (R440, R441, R443) -/

/-- An address of an HDM range (R440). -/
def inHdm (pa : Nat) : Bool := decide (pa < 2 ^ 40) || (decide (cxlBase 0 ≤ pa) && decide (pa < cxlBase 8))

/-- A byte as the host reads it: all ones where no memory is attached. -/
def State.hostByte (s : State) (pa : Nat) : Byte := if s.populated pa 1 then s.homeByte (homeDie pa) pa else 0xFF

/-- A write by the host, byte by byte where there is memory. -/
def State.hostWrite (s : State) (pa : Nat) (bs : List Byte) : State :=
  if s.populated pa bs.length then (s.flush (homeDie pa) pa bs.length).writeHome pa bs
  else bs.zipIdx.foldl (fun s b => if s.populated (pa + b.2) 1 then (s.flush (homeDie pa) (pa + b.2) 1).writeHome (pa + b.2) [b.1] else s) s

/-- A CXL.mem access is performed, untranslated, at the home slice (R329, R440). -/
def State.hostAccess (s : State) (write : Bool) (pa : Nat) (data : List Byte) : State :=
  if write then s.hostWrite pa data
  else
    let s := s.recallRange pa data.length
    { s with hostData := (List.range data.length).map fun k => s.hostByte (pa + k) }

/-- HOST_MEMORY_ACCESS (R329, R440, R441, R457): before step 4 of a start is complete the access waits; none reaches the device once all
four modules have failed. -/
def execHostMemoryAccess (write : Bool) (pa : Nat) (data : List Byte) (s : State) : Host.Outcome State Fault Refusal :=
  if s.helm.modules = 0 || !(List.range data.length).all fun k => inHdm (pa + k) then .next s
  else if s.helm.hdmReady then .next (s.hostAccess write pa data)
  else .next { s with hostWaiting := s.hostWaiting ++ [(write, pa, data)] }

/-- The HDM accesses that have waited for step 4 of a start are performed in their order (R457). -/
def State.serveHost (s : State) : State :=
  s.hostWaiting.foldl (fun s x => s.hostAccess x.1 x.2.1 x.2.2) { s with hostWaiting := [] }

/-- MODULE_FAILURE (R441): a UCIe module fails. -/
def execModuleFailure (m : Nat) (s : State) : Host.Outcome State Fault Refusal :=
  .next (s.modHelm fun h => { h with modules := h.modules &&& ~~~ BitVec.ofNat 4 (2 ^ m) })

/-- CXL_POISON (R408, R443): a CXL memory device reports poison. -/
def execCxlPoison (pa : Nat) (s : State) : Host.Outcome State Fault Refusal :=
  if pa < 2 ^ 40 || !s.populated pa 1 then .next s
  else if s.marked.contains (pa / 32) then .next (s.markSector (pa / 32))
  else .next ((s.markSector (pa / 32)).markRecord (homeDie pa) 7 (pa / 32 * 32) none 0xFF 0)

/-! ## Accesses to CXL memory without a completion (R433, R443) -/

/-- What was issued in a cycle has stood for the fabric timeout. -/
def State.overdue (s : State) (since : Nat) : Bool := decide (since + max s.helm.fabTo 1024 ≤ s.cycle)

/-- Some of n bytes of a page lie in a line of this device's memory. -/
def Page.onLine (p : Page) (n line : Nat) : Bool := p.peer.isNone && overlap p.pa n (128 * line) 128

/-- A late unit accesses a line. -/
def LateUnit.onLine (u : LateUnit) (line : Nat) : Bool :=
  match u with
  | .mem _ _ pg bs _ => pg.onLine bs.length line
  | .nibble _ _ pg _ _ => pg.onLine 1 line
  | .encode _ _ _ pg sp bp _ _ _ _ => pg.onLine 4 line || sp.onLine 1 line || bp.onLine 4 line
  | .read _ _ _ _ pg n => pg.onLine n line
  | .effect (.atomG f _ pg _ _) _ | .effect (.redG f _ pg _) _ => pg.onLine f.ty.bytes line
  | _ => false

/-- The record of an access to a line that has had no completion (R443). -/
def State.expireRecord (s : State) (b tid core line : Nat) : State :=
  let x := s.block b
  s.errorRecord { pa := 128 * line, task := x.task, blk := x.index, ctx := x.ctx, unit := 7, outcome := 1, tid := tid,
                  die := dieOf core, core := core }

/-- A late unit has had no completion: a read, and the result of an atomic, are poisoned, and what is written is written or not (R443). The
value that comes with the poison is free (log 6). -/
def State.expireUnit (s : State) (t id line : Nat) (u : LateUnit) : State :=
  let s := s.expireRecord (blockOf t) (tidOf t) (s.coreOf t) line
  let either (s : State) : State :=
    let (k, s) := s.choose 1
    if k = 1 then State.performLate (s.lateBound t) s t id true else s.dropLate t id
  match u with
  | .read out k _ _ _ n =>
    let (bs, s) := s.freeBytes n
    (s.dropLate t id).gotUnit t out k { bytes := bs, poison := true }
  | .effect (.atomG f _ _ _ out) _ =>
    let (v, s) := (either s).freeWord
    (s.answer t out (atomWb f v.toNat true)).acquired t f.ord.toNat f.scope.toNat
  | _ => either s

/-- The late units of the threads that access a line and have stood for the timeout. -/
def State.expireUnits (s : State) (line : Nat) : State :=
  (s.threads.flatMap fun p => p.2.pend.filterMap fun x => match x.2 with
    | .late _ since u => if s.overdue since && u.onLine line then some (p.1, x.1, u) else none
    | _ => none).foldl (fun s x => s.expireUnit x.1 x.2.1 line x.2.2) s

/-- The results of a thread that have read a line and stood for the timeout are poisoned. -/
def State.expireResults (s : State) (line t : Nat) : State :=
  (s.thread t).out.foldl (fun s o =>
    if o.wb.isSome && o.lines.contains line && s.overdue o.asked then
      State.modThread (s.expireRecord (blockOf t) (tidOf t) (s.coreOf t) line) t fun th => { th with out := th.out.map fun x =>
        if x.id = o.id then { x with wb := x.wb.map fun l => l.map fun p => (p.1, { p.2 with poison := true }), lines := [] } else x }
    else s) s

/-- The writes to a line that have stood in a die's outbound path for the timeout are performed or not. -/
def State.expireOut (s : State) (line die : Nat) : State :=
  (s.out die).foldl (fun s w =>
    if overlap w.pa w.data.length (128 * line) 128 && s.overdue w.since then
      let s := s.errorRecord { pa := 128 * line, unit := 7, outcome := 1, die := die }
      let s : State := { s with outbound := tset s.outbound die ((s.out die).filter (·.id != w.id)) }
      let (k, s) := s.choose 1
      if k = 1 then s.performOut die w
      else State.addTodo { s with threads := s.threads.map fun p => (p.1, p.2.ack die w.id) } [.fences]
    else s) s

/-- A byte that a command is still to read lies in a line of this device's memory. -/
def State.copyReadsLine (s : State) (c : Copy) (line : Nat) : Bool :=
  c.srcKind == 0 && (c.runs.zipIdx.drop c.runsDone).any fun r =>
    match s.copyStart c r.2 r.1 with
    | .ok d => (s.linesAt c.ctx (BitVec.ofNat 64 (c.word 0) + d) r.1.n).contains line
    | .error _ => false

/-- What a copy command that has stood for the timeout reads of a line is poisoned. -/
def State.expireCopies (s : State) (line : Nat) : State :=
  s.copies.foldl (fun s p =>
    if !p.2.moved && s.overdue p.2.asked && !p.2.lost.contains line && s.copyReadsLine p.2 line then
      (s.expireRecord p.2.blk (tidOf p.2.t) p.2.core line).modCopy p.1 fun c => { c with lost := line :: c.lost }
    else s) s

/-- CXL_COMPLETION_TIMEOUT (R443): the accesses to a line of CXL memory that have had no completion for the fabric timeout end. -/
def execCxlCompletionTimeout (pa : Nat) (s : State) : Host.Outcome State Fault Refusal :=
  if pa < 2 ^ 40 || !s.populated pa 1 then .next s
  else
    let line := pa / 128
    let s := s.expireUnits line
    let s := (s.threads.map (·.1)).foldl (fun s t => s.expireResults line t) s
    let s := (List.range 4).foldl (fun s d => s.expireOut line d) s
    .next (s.expireCopies line)

end Sys2Proof.Machine
end

