-- ==== Sys2Proof/Machine/Boot.lean ====
section
/-! DEFINITION. Starts, power and temperature, firmware staging and attestation, and the
host's writes to BAR 0 (R9, R277, R371, R389, R426, R427, R435, R455 to R460). -/

namespace Sys2Proof.Machine

/-! ## Firmware staging (R458) -/

/-- BEGIN. -/
def execBegin_ (s : State) : Host.Outcome State Fault Refusal :=
  .next (s.modHelm fun h =>
    { h with fwSlot := [], fwCount := 0, fwOpen := true, fwStaged := false, fwError := false, fwRejected := false })

/-- FWDATA: eight bytes at the staging offset, while OPEN is 1 and the slot has room. -/
def execFwdata (v : W64) (s : State) : Host.Outcome State Fault Refusal :=
  .next (s.modHelm fun h =>
    if h.fwOpen && decide (h.fwCount + 8 ≤ 2 ^ 26) then
      { h with fwSlot := h.fwSlot ++ leBytes 8 v.toNat, fwCount := h.fwCount + 8 }
    else { h with fwError := true })

/-- COMMIT. -/
def execCommit (len : W32) (s : State) : Host.Outcome State Fault Refusal :=
  .next (s.modHelm fun h =>
    if h.fwOpen && !h.fwError && len.toNat = h.fwCount then { h with fwOpen := false, fwStaged := true }
    else { h with fwError := true, fwOpen := false })

/-- ABORT. -/
def execAbort (s : State) : Host.Outcome State Fault Refusal :=
  .next (s.modHelm fun h => { h with fwOpen := false, fwStaged := false })

/-! ## Attestation (R460) -/

/-- NONCE: word k of the 32 bytes; the last one starts a signature, and any write during a signature restarts it. -/
def execNonce (k : Nat) (v : W32) (s : State) : Host.Outcome State Fault Refusal :=
  .next (if k ≥ 8 then s else s.modHelm fun h =>
    let h := { h with nonce := tset h.nonce k v }
    if k = 7 then { h with signing := true, attSig := 0 } else h)

/-- SIGNATURE_COMPLETE: over NONCE, FWMEAS and BOOTSTAT. -/
def execSignatureComplete (s : State) : Host.Outcome State Fault Refusal :=
  .next (if !s.helm.signing then s else s.modHelm fun h =>
    { h with signing := false,
             attSig := Config.edSign (((List.range 8).flatMap fun k => leBytes 4 (tgetD h.nonce k 0).toNat) ++
               leBytes 64 h.fwMeas.toNat ++ leBytes 8 h.bootStat) })

/-! ## Power and temperature (R459) -/

/-- A clock one step lower, to no less than 700 MHz. -/
def slower (clock : Nat) : Nat := max 700 (clock - 50)
/-- A clock one step higher, to no more than 1,400 MHz. -/
def faster (clock : Nat) : Nat := min 1400 (clock + 50)

/-- The package limit in force: values above 3,200 act as 3,200. -/
def Helm.limit (h : Helm) : Nat := min 3200 h.powLimit

/-- The draw of the package in watts, a free value (log 102). -/
def State.draw (s : State) : Nat × State := let (w, s) := s.freeWord; (w.toNat % 2 ^ 16, s)

/-- POWER_LIMIT: where the draw would exceed LIMIT, the clock that the power limit allows is one step lower. -/
def execPowerLimit (s : State) : Host.Outcome State Fault Refusal :=
  let (w, s) := s.draw
  .next (if w > s.helm.limit then s.modHelm fun h => { h with powClock := slower h.powClock, reason := h.reason ||| 1 } else s)

/-- JUNCTION_LIMIT: the clock that the junction limits allow is one step lower. -/
def execJunctionLimit (die : Nat) (s : State) : Host.Outcome State Fault Refusal :=
  .next (s.modHelm fun h =>
    { h with hotClock := slower h.hotClock, reason := h.reason ||| 2, hot := h.hot ||| BitVec.ofNat 4 (2 ^ die) })

/-- ARITHMETIC_CLOCK_RAISE: where the draw is below LIMIT again, and no die at its junction limit. -/
def execArithmeticClockRaise (s : State) : Host.Outcome State Fault Refusal :=
  let (w, s) := s.draw
  .next (if w < s.helm.limit then s.modHelm fun h =>
      { h with powClock := faster h.powClock, hotClock := faster h.hotClock, reason := 0, hot := 0 }
    else s)

/-- CRITICAL_TEMPERATURE: at 700 MHz every context ends with DEADLINE, and the helm is down. -/
def execCriticalTemperature (die : Nat) (s : State) : Host.Outcome State Fault Refusal :=
  if die ≥ 4 || s.helm.clock ≠ 700 then .next s
  else
    let s := (s.ctxs.map (·.1)).foldl (fun s c => s.endContext (BitVec.ofNat 16 c) 0x10 none 0) s
    .next (s.modHelm fun h => { h with hstat := h.hstat ||| 3 })

/-! ## Starts (R435, R455 to R458) -/

/-- A port after link training (R435, R456): up in the mode of its failed lanes, down with three of them, or with nothing at its other end
untrained. -/
def State.trainPort (s : State) (p : Nat) : State :=
  let (k, s) := s.choose 1
  if k = 1 && decide ((s.port p).failures < 3) then s.modPort p fun x => { x.settle with state := 2 } else s

/-- What CXL port p finds attached, in pages of 4 KiB, and what its link trains to (R442). -/
def State.trainCxl (s : State) (p : Nat) : State :=
  let (k, s) := s.choose (2 ^ 28)
  let (w, s) := s.choose 2
  let (v, s) := s.choose 1
  s.modHelm fun h => { h with cxlCap := tset h.cxlCap p k,
                              cxlLink := if k = 0 then h.cxlLink else tset h.cxlLink p (16 / 2 ^ w, 64 / 2 ^ v) }

/-- The state that a start begins from: nothing of contexts, queues or blocks is left, and HBM4E reads as unlisted memory (log 2). The
CXL tier, what has arrived from outside and the counters of the model stand. -/
def State.restarted (s : State) (cold : Bool) : State :=
  let far := s.mem.filter fun c => decide (2 ^ 40 ≤ c.1)
  { mem := far, marked := s.marked.filter fun k => decide (2 ^ 40 ≤ 32 * k), agenda := s.agenda, free := s.free, seq := s.seq,
    nextId := s.nextId, nextUid := s.nextUid, hostWaiting := s.hostWaiting,
    helm :=
      { hstat := if cold then 0 else s.helm.hstat &&& 0x00FF0000, errCorr := if cold then 0 else s.helm.errCorr, warm := !cold,
        fwSlot := s.helm.fwSlot, fwCount := s.helm.fwCount, fwOpen := s.helm.fwOpen,
        fwStaged := s.helm.fwStaged, fwError := s.helm.fwError, fwRejected := s.helm.fwRejected, fwImage := s.helm.fwImage } }

/-- Step 1 (R456, R458): a staged image is verified first, then the image in use; false when that fails too. -/
def State.verifyFirmware (s : State) : Bool × State :=
  let h := s.helm
  let use (h : Helm) : Bool × State :=
    let i := h.fwImage.getD Config.flashImage
    if Config.imageVerifies i then (true, { s with helm := { h with bootStep := 1, fwMeas := Config.sha512 i } })
    else (false, { s with helm := { h with bootStep := 8, bootErr := 1 } })
  if h.fwStaged then
    (if Config.imageVerifies h.fwSlot then use { h with fwStaged := false, fwImage := some h.fwSlot }
    else use { h with fwStaged := false, fwRejected := true })
  else use h

/-- Dies that fail a step: a free choice (log 6). The first failure stands in ERR. -/
def State.testDies (s : State) (err : Nat) : State :=
  let (k, s) := s.choose 15
  s.modHelm fun h =>
    { h with dieFail := h.dieFail ||| BitVec.ofNat 4 k, bootErr := if k ≠ 0 && h.bootErr = 0 then err else h.bootErr }

/-- The cycle counts of the four dies begin anew, with no fixed relation to one another (R21): free values (log 3). -/
def State.restartCounts (s : State) : State :=
  (List.range 4).foldl (fun s d => let (v, s) := s.freeWord; { s with dieOff := tset s.dieOff d v.toNat }) s

/-- Nothing further of a start runs (R456). -/
def State.failStart (s : State) : State := s.modHelm fun h => { h with bootStep := 8 }

/-- A start begins (R456): steps 0 and 1, and the device stands in step 2, or in step 3 where a warm start finds its training record good. While
step 2 runs the clock is at 700 MHz in reduced service (R457, R459). -/
def State.start (s : State) (cold : Bool) : State :=
  match (s.restarted cold).restartCounts.verifyFirmware with
  | (false, s) => s
  | (true, s) =>
    let (train, s) := if cold then (1, s) else s.choose 1
    s.modHelm fun h => if train = 1 then { h with bootStep := 2 } else { h with bootStep := 3 }

/-- The step that a start stands in is complete, and the next one begins (R456). Die 0 failing leaves the device without task service
(R28). -/
def State.startStep (s : State) : State :=
  match s.helm.bootStep with
  | 2 =>
    let s := s.testDies 2
    if s.helm.dieFail.getLsbD 0 then s.failStart
    else s.modHelm fun h => { h with bootStep := 3 }
  | 3 =>
    let (k, s) := ((List.range 8).foldl State.trainCxl ((List.range 32).foldl State.trainPort s)).choose 1
    s.modHelm fun h => { h with bootStep := 4, bootErr := if k = 1 && h.bootErr = 0 then 3 else h.bootErr }
  | 4 => (s.modHelm fun h => { h with bootStep := if h.warm then 6 else 5, hdmReady := true }).serveHost
  | 5 =>
    let s := s.testDies 4
    if s.helm.dieFail.getLsbD 0 then s.failStart else s.modHelm fun h => { h with bootStep := 6 }
  | 6 => s.modHelm fun h => { h with hstat := h.hstat ||| 1, bootStep := 7 }
  | _ => s

/-- A start stands in one of its steps. -/
def State.starting (s : State) : Bool := decide (2 ≤ s.helm.bootStep && s.helm.bootStep ≤ 6)

/-- COLD_START. -/
def execColdStart (s : State) : Host.Outcome State Fault Refusal := .next (s.start true)

/-- WARM_START. -/
def execWarmStart (s : State) : Host.Outcome State Fault Refusal := .next (s.start false)

/-! ## Commands in registers (R277, R371, R373, R389, R426, R427, R458, R460) -/

/-- CTXCMD (R389). -/
def State.ctxCmd (s : State) (v : W64) : Host.Outcome State Fault Refusal :=
  let ctx := v.setWidth 16
  match v.toNat / 2 ^ 16 % 16 with
  | 1 => execPreempt ctx s
  | 2 => execRestore ctx s
  | 3 => execSwitch ctx s
  | 4 => execEnd_ ctx s
  | _ => .next s

/-- DBGCMD (R277). -/
def State.dbgCmd (s : State) (v : W64) : Host.Outcome State Fault Refusal :=
  let ctx := v.setWidth 16
  match v.toNat / 2 ^ 16 % 16 with
  | 1 => execAttach ctx s
  | 2 => execDetach ctx s
  | 3 => execHalt ctx (v.getLsbD 22) s
  | 4 => execResume ctx (v.getLsbD 22) s
  | 5 => execStep ctx (BitVec.ofNat 2 (v.toNat / 2 ^ 20)) s
  | _ => .next s

/-- FWCTL (R458). -/
def State.fwCtl (s : State) (v : W64) : Host.Outcome State Fault Refusal :=
  match v.toNat % 4 with
  | 1 => execBegin_ s
  | 2 => execCommit (BitVec.ofNat 32 (v.toNat / 2 ^ 32)) s
  | 3 => execAbort s
  | _ => .next s

/-- The low word of a write, and at an offset that 8 divides the high one after it. -/
def State.twoWords (s : State) (off : Nat) (v : W64) (k : Nat) (f : Nat → W32 → State → Host.Outcome State Fault Refusal) :
    Host.Outcome State Fault Refusal :=
  match f k (v.setWidth 32) s with
  | .next s => if off % 8 = 0 then f (k + 1) (BitVec.ofNat 32 (v.toNat / 2 ^ 32)) s else .next s
  | o => o

/-- REGISTER_WRITE (R9, R371): a command register carries its command out, a register that may be written takes its fields, and any other
offset is ignored. -/
def execRegisterWrite (off : Nat) (v : W64) (s : State) : Host.Outcome State Fault Refusal :=
  if off = 0x0010 then s.ctxCmd v
  else if off = 0x0058 then (if v.getLsbD 16 then execXlresKill (v.setWidth 16) s else execXlresUnpark (v.setWidth 16) s)
  else if off = 0x0068 then (if v.getLsbD 63 then execXlinvcmd (v.setWidth 16) (BitVec.ofNat 32 (v.toNat / 2 ^ 16)) s else .next s)
  else if off = 0x00A0 then s.dbgCmd v
  else if 0x0100 ≤ off ∧ off < 0x0180 ∧ off % 4 = 0 then s.twoWords off v ((off - 0x0100) / 4) execKick
  else if 0x0560 ≤ off ∧ off < 0x0580 ∧ off % 4 = 0 then s.twoWords off v ((off - 0x0560) / 4) execNonce
  else if off = 0x0600 then s.fwCtl v
  else if off = 0x0608 then execFwdata v s
  else if 0x10000 ≤ off ∧ off < 0x14000 ∧ off % 8 = 0 then execQdescWrite ((off - 0x10000) / 16) (off % 16 == 8) v s
  else .next (s.modHelm fun h => h.write off v)

end Sys2Proof.Machine
end

