-- ==== Sys2Proof/Machine/Dispatch.lean ====
section
/-! DEFINITION. One arm for each constructor of Instr, each one direct call of its meaning. -/

namespace Sys2Proof.Machine

/-- The meaning of an instruction, or of an operation or event of an agent. -/
def exec (i : Instr) (s : State) : Host.Outcome State Fault Refusal :=
  match i with
  | .illZero => Sys2Proof.Machine.execIllZero s
  | .iadd f => Sys2Proof.Machine.execIadd f s
  | .isub f => Sys2Proof.Machine.execIsub f s
  | .iaddc f => Sys2Proof.Machine.execIaddc f s
  | .isubb f => Sys2Proof.Machine.execIsubb f s
  | .imul f => Sys2Proof.Machine.execImul f s
  | .imulhi f => Sys2Proof.Machine.execImulhi f s
  | .imad f => Sys2Proof.Machine.execImad f s
  | .iadd64 f => Sys2Proof.Machine.execIadd64 f s
  | .isub64 f => Sys2Proof.Machine.execIsub64 f s
  | .imin f => Sys2Proof.Machine.execImin f s
  | .imax f => Sys2Proof.Machine.execImax f s
  | .iabs f => Sys2Proof.Machine.execIabs f s
  | .and f => Sys2Proof.Machine.execAnd f s
  | .or f => Sys2Proof.Machine.execOr f s
  | .xor f => Sys2Proof.Machine.execXor f s
  | .andn f => Sys2Proof.Machine.execAndn f s
  | .orn f => Sys2Proof.Machine.execOrn f s
  | .shl f => Sys2Proof.Machine.execShl f s
  | .shr f => Sys2Proof.Machine.execShr f s
  | .sar f => Sys2Proof.Machine.execSar f s
  | .rot f => Sys2Proof.Machine.execRot f s
  | .shf f => Sys2Proof.Machine.execShf f s
  | .bfe f => Sys2Proof.Machine.execBfe f s
  | .bfi f => Sys2Proof.Machine.execBfi f s
  | .popc f => Sys2Proof.Machine.execPopc f s
  | .clz f => Sys2Proof.Machine.execClz f s
  | .ctz f => Sys2Proof.Machine.execCtz f s
  | .brev f => Sys2Proof.Machine.execBrev f s
  | .prmt f => Sys2Proof.Machine.execPrmt f s
  | .sel f => Sys2Proof.Machine.execSel f s
  | .icmp f => Sys2Proof.Machine.execIcmp f s
  | .icmp64 f => Sys2Proof.Machine.execIcmp64 f s
  | .plop f => Sys2Proof.Machine.execPlop f s
  | .mov f => Sys2Proof.Machine.execMov f s
  | .mov64 f => Sys2Proof.Machine.execMov64 f s
  | .movsr f => Sys2Proof.Machine.execMovsr f s
  | .lea f => Sys2Proof.Machine.execLea f s
  | .fadd f => Sys2Proof.Machine.execFadd f s
  | .fsub f => Sys2Proof.Machine.execFsub f s
  | .fmul f => Sys2Proof.Machine.execFmul f s
  | .ffma f => Sys2Proof.Machine.execFfma f s
  | .fmin f => Sys2Proof.Machine.execFmin f s
  | .fmax f => Sys2Proof.Machine.execFmax f s
  | .fcmp f => Sys2Proof.Machine.execFcmp f s
  | .fclass f => Sys2Proof.Machine.execFclass f s
  | .frcp f => Sys2Proof.Machine.execFrcp f s
  | .frsq f => Sys2Proof.Machine.execFrsq f s
  | .fsqrt f => Sys2Proof.Machine.execFsqrt f s
  | .fex2 f => Sys2Proof.Machine.execFex2 f s
  | .flg2 f => Sys2Proof.Machine.execFlg2 f s
  | .fsin f => Sys2Proof.Machine.execFsin f s
  | .fcos f => Sys2Proof.Machine.execFcos f s
  | .ftanh f => Sys2Proof.Machine.execFtanh f s
  | .fscale f => Sys2Proof.Machine.execFscale f s
  | .fround f => Sys2Proof.Machine.execFround f s
  | .dadd f => Sys2Proof.Machine.execDadd f s
  | .dmul f => Sys2Proof.Machine.execDmul f s
  | .dfma f => Sys2Proof.Machine.execDfma f s
  | .dmin f => Sys2Proof.Machine.execDmin f s
  | .dmax f => Sys2Proof.Machine.execDmax f s
  | .dcmp f => Sys2Proof.Machine.execDcmp f s
  | .hadd2 f => Sys2Proof.Machine.execHadd2 f s
  | .hmul2 f => Sys2Proof.Machine.execHmul2 f s
  | .hfma2 f => Sys2Proof.Machine.execHfma2 f s
  | .hmin2 f => Sys2Proof.Machine.execHmin2 f s
  | .hmax2 f => Sys2Proof.Machine.execHmax2 f s
  | .cvt f => Sys2Proof.Machine.execCvt f s
  | .cvtx f => Sys2Proof.Machine.execCvtx f s
  | .q4enc f => Sys2Proof.Machine.execQ4enc f s
  | .q4dec f => Sys2Proof.Machine.execQ4dec f s
  | .bscale f => Sys2Proof.Machine.execBscale f s
  | .ldG f => Sys2Proof.Machine.execLdG f s
  | .ldS f => Sys2Proof.Machine.execLdS f s
  | .ldX f => Sys2Proof.Machine.execLdX f s
  | .ldC f => Sys2Proof.Machine.execLdC f s
  | .stG f => Sys2Proof.Machine.execStG f s
  | .stS f => Sys2Proof.Machine.execStS f s
  | .stX f => Sys2Proof.Machine.execStX f s
  | .atomG f => Sys2Proof.Machine.execAtomG f s
  | .atomS f => Sys2Proof.Machine.execAtomS f s
  | .atomX f => Sys2Proof.Machine.execAtomX f s
  | .redG f => Sys2Proof.Machine.execRedG f s
  | .redS f => Sys2Proof.Machine.execRedS f s
  | .fence f => Sys2Proof.Machine.execFence f s
  | .prefetch f => Sys2Proof.Machine.execPrefetch f s
  | .accld f => Sys2Proof.Machine.execAccld f s
  | .accst f => Sys2Proof.Machine.execAccst f s
  | .ldredMc f => Sys2Proof.Machine.execLdredMc f s
  | .stmc f => Sys2Proof.Machine.execStmc f s
  | .mcgOpen f => Sys2Proof.Machine.execMcgOpen f s
  | .mcgClose f => Sys2Proof.Machine.execMcgClose f s
  | .nop f => Sys2Proof.Machine.execNop f s
  | .bra f => Sys2Proof.Machine.execBra f s
  | .brx f => Sys2Proof.Machine.execBrx f s
  | .call f => Sys2Proof.Machine.execCall f s
  | .callx f => Sys2Proof.Machine.execCallx f s
  | .ret f => Sys2Proof.Machine.execRet f s
  | .exit f => Sys2Proof.Machine.execExit f s
  | .mkj f => Sys2Proof.Machine.execMkj f s
  | .join f => Sys2Proof.Machine.execJoin f s
  | .yield f => Sys2Proof.Machine.execYield f s
  | .vote f => Sys2Proof.Machine.execVote f s
  | .shfl f => Sys2Proof.Machine.execShfl f s
  | .match_ f => Sys2Proof.Machine.execMatch_ f s
  | .redux f => Sys2Proof.Machine.execRedux f s
  | .elect f => Sys2Proof.Machine.execElect f s
  | .bar f => Sys2Proof.Machine.execBar f s
  | .waitc f => Sys2Proof.Machine.execWaitc f s
  | .waitw f => Sys2Proof.Machine.execWaitw f s
  | .guess f => Sys2Proof.Machine.execGuess f s
  | .guessW f => Sys2Proof.Machine.execGuessW f s
  | .affirm f => Sys2Proof.Machine.execAffirm f s
  | .deny f => Sys2Proof.Machine.execDeny f s
  | .tags f => Sys2Proof.Machine.execTags f s
  | .ctnOpen f => Sys2Proof.Machine.execCtnOpen f s
  | .ctnClose f => Sys2Proof.Machine.execCtnClose f s
  | .msend f => Sys2Proof.Machine.execMsend f s
  | .mrecv f => Sys2Proof.Machine.execMrecv f s
  | .mma f => Sys2Proof.Machine.execMma f s
  | .mclr f => Sys2Proof.Machine.execMclr f s
  | .mbar f => Sys2Proof.Machine.execMbar f s
  | .mloop f => Sys2Proof.Machine.execMloop f s
  | .mset f => Sys2Proof.Machine.execMset f s
  | .madd f => Sys2Proof.Machine.execMadd f s
  | .mjmp f => Sys2Proof.Machine.execMjmp f s
  | .mend f => Sys2Proof.Machine.execMend f s
  | .qpush f => Sys2Proof.Machine.execQpush f s
  | .qpop f => Sys2Proof.Machine.execQpop f s
  | .qstat f => Sys2Proof.Machine.execQstat f s
  | .cpyt f => Sys2Proof.Machine.execCpyt f s
  | .cpyg f => Sys2Proof.Machine.execCpyg f s
  | .cpym f => Sys2Proof.Machine.execCpym f s
  | .trap f => Sys2Proof.Machine.execTrap f s
  | .trapHost f => Sys2Proof.Machine.execTrapHost f s
  | .ill f => Sys2Proof.Machine.execIll f s
  | .brk f => Sys2Proof.Machine.execBrk f s
  | .sleep f => Sys2Proof.Machine.execSleep f s
  | .rtt f => Sys2Proof.Machine.execRtt f s
  | .csrr f => Sys2Proof.Machine.execCsrr f s
  | .csrw f => Sys2Proof.Machine.execCsrw f s
  | .trapPool => Sys2Proof.Machine.execTrapPool s
  | .issueSelection core sub => Sys2Proof.Machine.execIssueSelection core sub s
  | .monitorRetry t => Sys2Proof.Machine.execMonitorRetry t s
  | .messageDelivery t => Sys2Proof.Machine.execMessageDelivery t s
  | .mmaComplete core => Sys2Proof.Machine.execMmaComplete core s
  | .copyCompletion id => Sys2Proof.Machine.execCopyCompletion id s
  | .sleepExpiry t => Sys2Proof.Machine.execSleepExpiry t s
  | .trapEntry t => Sys2Proof.Machine.execTrapEntry t s
  | .longLatencyComplete t k => Sys2Proof.Machine.execLongLatencyComplete t k s
  | .reckonTimeout t => Sys2Proof.Machine.execReckonTimeout t s
  | .outboundWritePerformed die k => Sys2Proof.Machine.execOutboundWritePerformed die k s
  | .eviction core k => Sys2Proof.Machine.execEviction core k s
  | .uncorrectableError die e => Sys2Proof.Machine.execUncorrectableError die e s
  | .launch q => Sys2Proof.Machine.execLaunch q s
  | .hostResume q => Sys2Proof.Machine.execHostResume q s
  | .kick w bits => Sys2Proof.Machine.execKick w bits s
  | .queueScan q => Sys2Proof.Machine.execQueueScan q s
  | .qdescWrite q hi v => Sys2Proof.Machine.execQdescWrite q hi v s
  | .blockPlacement node blk core => Sys2Proof.Machine.execBlockPlacement node blk core s
  | .placementStarvation node blk => Sys2Proof.Machine.execPlacementStarvation node blk s
  | .completionEvent b => Sys2Proof.Machine.execCompletionEvent b s
  | .nodeCompletion node => Sys2Proof.Machine.execNodeCompletion node s
  | .takeover => Sys2Proof.Machine.execTakeover s
  | .preempt ctx => Sys2Proof.Machine.execPreempt ctx s
  | .restore ctx => Sys2Proof.Machine.execRestore ctx s
  | .switch ctx => Sys2Proof.Machine.execSwitch ctx s
  | .end_ ctx => Sys2Proof.Machine.execEnd_ ctx s
  | .sliceExpiry die ctx => Sys2Proof.Machine.execSliceExpiry die ctx s
  | .drainExpiry die ctx => Sys2Proof.Machine.execDrainExpiry die ctx s
  | .saveComplete die ctx => Sys2Proof.Machine.execSaveComplete die ctx s
  | .forceExpiry die ctx => Sys2Proof.Machine.execForceExpiry die ctx s
  | .blockRestore ctx k core => Sys2Proof.Machine.execBlockRestore ctx k core s
  | .tileFetch b acc => Sys2Proof.Machine.execTileFetch b acc s
  | .swapOut b => Sys2Proof.Machine.execSwapOut b s
  | .swapIn ctx k => Sys2Proof.Machine.execSwapIn ctx k s
  | .attach ctx => Sys2Proof.Machine.execAttach ctx s
  | .detach ctx => Sys2Proof.Machine.execDetach ctx s
  | .halt ctx all => Sys2Proof.Machine.execHalt ctx all s
  | .resume ctx all => Sys2Proof.Machine.execResume ctx all s
  | .step ctx crew => Sys2Proof.Machine.execStep ctx crew s
  | .xlresUnpark ctx => Sys2Proof.Machine.execXlresUnpark ctx s
  | .xlresKill ctx => Sys2Proof.Machine.execXlresKill ctx s
  | .xlinvcmd ctx len => Sys2Proof.Machine.execXlinvcmd ctx len s
  | .invalidationComplete => Sys2Proof.Machine.execInvalidationComplete s
  | .begin_ => Sys2Proof.Machine.execBegin_ s
  | .commit len => Sys2Proof.Machine.execCommit len s
  | .abort => Sys2Proof.Machine.execAbort s
  | .fwdata v => Sys2Proof.Machine.execFwdata v s
  | .nonce k v => Sys2Proof.Machine.execNonce k v s
  | .signatureComplete => Sys2Proof.Machine.execSignatureComplete s
  | .sxval => Sys2Proof.Machine.execSxval s
  | .registerWrite off v => Sys2Proof.Machine.execRegisterWrite off v s
  | .fabricRequest src ctx op pa data => Sys2Proof.Machine.execFabricRequest src ctx op pa data s
  | .fabricReply port tag gen member leaf status data => Sys2Proof.Machine.execFabricReply port tag gen member leaf status data s
  | .fabricTimeout port tag => Sys2Proof.Machine.execFabricTimeout port tag s
  | .fabidAssignment device leaf => Sys2Proof.Machine.execFabidAssignment device leaf s
  | .laneFailure port lane => Sys2Proof.Machine.execLaneFailure port lane s
  | .retrainingComplete port => Sys2Proof.Machine.execRetrainingComplete port s
  | .flitReplay port => Sys2Proof.Machine.execFlitReplay port s
  | .pause port cls => Sys2Proof.Machine.execPause port cls s
  | .pauseEnd port cls => Sys2Proof.Machine.execPauseEnd port cls s
  | .moduleFailure m => Sys2Proof.Machine.execModuleFailure m s
  | .hostMemoryAccess write pa data => Sys2Proof.Machine.execHostMemoryAccess write pa data s
  | .cxlPoison pa => Sys2Proof.Machine.execCxlPoison pa s
  | .cxlCompletionTimeout pa => Sys2Proof.Machine.execCxlCompletionTimeout pa s
  | .coldStart => Sys2Proof.Machine.execColdStart s
  | .warmStart => Sys2Proof.Machine.execWarmStart s
  | .powerLimit => Sys2Proof.Machine.execPowerLimit s
  | .junctionLimit die => Sys2Proof.Machine.execJunctionLimit die s
  | .criticalTemperature die => Sys2Proof.Machine.execCriticalTemperature die s
  | .accessPerformed t k => Sys2Proof.Machine.execAccessPerformed t k s
  | .correctedError die => Sys2Proof.Machine.execCorrectedError die s
  | .arithmeticClockRaise => Sys2Proof.Machine.execArithmeticClockRaise s
  | .lateReplyDiscard port tag gen => Sys2Proof.Machine.execLateReplyDiscard port tag gen s

end Sys2Proof.Machine
end

