-- ==== Sys2Proof/Machine/Agenda.lean ====
section
/-! DEFINITION. What a step does: the parts of a step still to be done, the issue of what a selection has chosen, what has arrived from
outside, what comes about by itself, and the passing of a cycle (R18, R39, R56, R276, R337, R338, R390, R405, R441). -/

namespace Sys2Proof

/-- Events that stand for an access of the host (R440). -/
def Instr.fromHost : Instr → Bool
  | .kick .. | .qdescWrite .. | .preempt _ | .restore _ | .switch _ | .end_ _ | .attach _ | .detach _ | .halt .. | .resume .. | .step ..
  | .xlresUnpark _ | .xlresKill _ | .xlinvcmd .. | .begin_ | .commit _ | .abort | .fwdata _ | .nonce .. | .sxval | .registerWrite ..
  | .hostMemoryAccess .. => true
  | _ => false

/-- What the host does in reduced service (R457): firmware staging, the attestation of R460, reads, and the submissions that stay in their rings
until the helm runs (50_bringup_notes.md); whatever else it writes has no effect there (DESIGN CHOICE, log 86). -/
def Instr.inReducedService (e : Instr) : Bool :=
  match e with
  | .begin_ | .commit _ | .abort | .fwdata _ | .hostMemoryAccess .. | .nonce .. | .sxval | .kick .. | .qdescWrite .. => true
  | .registerWrite off _ =>
    off == 0x0600 || off == 0x0608 || (decide (0x0560 ≤ off) && decide (off < 0x0580)) || (decide (0x0100 ≤ off) && decide (off < 0x0180)) ||
      (decide (0x10000 ≤ off) && decide (off < 0x14000))
  | _ => false

end Sys2Proof

namespace Sys2Proof.Machine

/-- The next place in the issue order. -/
def State.bump (s : State) : State := { s with seq := s.seq + 1 }

/-- What follows a next state. -/
def andThen (o : Host.Outcome State Fault Refusal) (f : State → State) : Host.Outcome State Fault Refusal :=
  match o with
  | .next s => .next (f s)
  | .fault e => .fault e
  | .refused e => .refused e

/-! ## Parts of a step -/

/-- Releases every effect that may now be released. -/
def State.releaseAll (s : State) : State := s.releasable.foldl State.releaseCore s

/-- One part of a step that is still to be done. -/
def State.doTodo (s : State) (x : Todo) : Host.Outcome State Fault Refusal :=
  match x with
  | .affirm aid => .next (s.affirm aid)
  | .deny aid v p => .next (s.deny aid v p)
  | .release core => .next (s.releaseCore core)
  | .reval pa n => .next (s.reval pa n)
  | .revalS core off n => .next (s.revalS core off n)
  | .joins c => .next (s.settleJoins c)
  | .bars b => .next (s.settleBars b)
  | .fences => .next s.settleFences.releaseAll.sendUnsent
  | .groupOp c q => .next (s.settleGroupOp c q)
  | .contain core slot cause t unit pa => .next (s.contain core slot cause t unit pa)
  | .endCtx ctx code t a => .next (s.endContext ctx code t a)
  | .noMemory pa => .fault (.noMemory pa)

/-! ## Issue -/

/-- The chosen group issues its instruction (R79): what exec answers, with what an issue leaves behind. -/
def State.issueGroup (s : State) (c : Nat) (pc : W64) (ts : List Nat) : Host.Outcome State Fault Refusal :=
  match s.fetched c pc ts with
  | .error s' => .next (s'.issued c pc ts false)
  | .ok i => andThen (exec i s) fun s' => s'.issued c pc ts i.yields

/-- The issue of a stream word is over. -/
def State.endWord (s : State) : State := { s.bump with cur := none }

/-- The chosen sequencer issues its word (R80). -/
def State.issueWord (s : State) (b : Nat) : Host.Outcome State Fault Refusal :=
  match s.streamFetched b with
  | .error s' => .next s'.endWord
  | .ok i => andThen (exec i s) State.endWord

/-! ## Events -/

/-- An event that has arrived; none of the host reaches the device once all four modules have failed (R441), and few do in reduced service
(R457). -/
def State.takeEvent (s : State) (e : Instr) : Host.Outcome State Fault Refusal :=
  if e.fromHost && (s.helm.modules = 0 || (s.helm.bootStep = 2 && !e.inReducedService)) then .next s.bump
  else andThen (exec e s) State.bump

/-- Events of the threads that may come about. -/
def State.threadEvents (s : State) : List Instr :=
  s.threads.flatMap fun p =>
    let t := p.1
    (match p.2.wait with
    | .trapHeld .. => if s.plainUnion t = 0 then [Instr.trapEntry t] else []
    | .watch w => if w.global && !w.armed then [.monitorRetry t] else []
    | .send => [.messageDelivery t]
    | _ => []) ++
    ((p.2.out.filter fun o => o.wb.isSome || o.late.isSome).map fun o => .longLatencyComplete t o.id) ++
    ((p.2.pend.filter fun x => match x.2 with | .late .. | .home => true | _ => false).map fun x => .accessPerformed t x.1)

/-! ## Turns of a cycle -/

/-- Threads that are owed MATRIX and ready to issue (R288). -/
def State.owed (s : State) : List Nat :=
  (s.threads.filter fun p => p.2.matrixOwed.isSome && s.crewLive (crewOf p.1) && s.ready p.1).map (·.1)

/-- A thread takes the MATRIX that it is owed (R288). -/
def State.takeMatrix (s : State) (t : Nat) : State :=
  let a := (s.thread t).pc
  match (s.thread t).matrixOwed with
  | some bad => (s.modThread t fun th => { th with matrixOwed := none }).raise t a .matrix a bad
  | none => s

/-- The next block whose sequencer selects in this cycle: sequencers go before crews, and one that a crew wakes waits for the next cycle (R290). -/
def State.nextSeq (s : State) : Option Nat :=
  if s.subsDone.isEmpty then (s.blocks.find? fun b => !s.seqsDone.contains b.1 && s.streamReady b.1).map (·.1) else none

/-- The rank in its core of the group a sub-core would choose now: a `deny` goes first (R364), then ascending `sr.crew` (R290), and last a
sub-core that would choose none. -/
def State.choiceOf (s : State) (core sub : Nat) : Nat :=
  match chooseGroup ((s.subCrews core sub).flatMap s.crewGroups) with
  | some g => (match s.peek (g.crew / 4) g.pc with | some (.deny _) => 0 | _ => g.crew % 4 + 1)
  | none => 5

/-- The sub-core of a core that selects next: of those that have not had their turn, the one of lowest rank. -/
def State.nextOn (s : State) (core : Nat) : Option Nat :=
  ((List.range 4).filter fun k => !s.subsDone.contains (4 * core + k)).foldl (fun m k =>
    match m with
    | some j => if s.choiceOf core k < s.choiceOf core j then some k else m
    | none => some k) none

/-- The next sub-core that selects in this cycle, as 4 × core + sub-core: one that denies before every other (R364). -/
def State.nextSub (s : State) : Option Nat :=
  let next := (s.cores.filter fun c => decide (c.1 < 256)).filterMap fun c => (s.nextOn c.1).map fun k => (c.1, k)
  ((next.find? fun x => s.choiceOf x.1 x.2 == 0).or next.head?).map fun x => 4 * x.1 + x.2

/-- Everything that issues in this cycle has had its turn. -/
def State.turnsOver (s : State) : Bool := s.owed.isEmpty && s.nextSeq.isNone && s.nextSub.isNone

/-! ## What may come about -/

/-- Events of the memory system and the engines that may come about. Copies complete behind the pushes of a cycle (R290). -/
def State.unitEvents (s : State) : List Instr :=
  (s.outbound.flatMap fun p => p.2.map fun w => Instr.outboundWritePerformed p.1 w.id) ++
    (s.cores.flatMap fun c => ((c.2.slots.map (·.2)).filter fun x => match x.watch with | some g => !g.armed | none => false).map fun x =>
      Instr.monitorRetry x.owner) ++
    (s.cores.flatMap fun c => (if c.2.engine.isSome then [Instr.mmaComplete c.1] else []) ++
      (List.range c.2.l1.length).map fun k => .eviction c.1 k) ++
    (if s.turnsOver then (s.copies.filter fun p => !p.2.faulted).map fun p => .copyCompletion p.1 else []) ++
    (s.blocks.flatMap fun p => (p.2.tiles.filter fun x => x.2.absent.isSome).map fun x => .tileFetch p.1 x.1) ++
    (if s.helm.xlBusy then [.invalidationComplete] else []) ++ (if s.helm.signing then [.signatureComplete] else []) ++
    ((s.ports.filter fun p => p.2.state == 1).map fun p => .retrainingComplete p.1)

/-- Placements that R382 lets the helm make. -/
def State.placements (s : State) : List Instr :=
  s.nodes.flatMap fun p => ((s.readyBlocks p.2).filter fun k => s.mayPlace (p.2.cand k)).flatMap fun k =>
    ((List.range 256).filter fun c => (s.fit p.2.ctx p.2.seq p.2.launch c).isSome).map fun c => .blockPlacement p.1 k c

/-- Returns of saved blocks that R382 lets the helm make. -/
def State.returns (s : State) : List Instr :=
  s.blocks.flatMap fun p =>
    if p.2.stage == .restoring && s.mayPlace (s.blockCand p.2) then
      ((List.range 256).filter fun c => (s.candFit (s.blockCand p.2) c).isSome).map fun c => .blockRestore p.2.ctx p.1 c
    else if p.2.stage == .swapped && p.2.woken then [.swapIn p.2.ctx p.1]
    else if s.maySwap p.1 then [.swapOut p.1] else []

/-- Saves that may be complete. -/
def State.saves (s : State) : List Instr :=
  s.ctxs.flatMap fun c => (c.2.dies.filter fun d => match d.2 with | .save _ => true | _ => false).map fun d =>
    .saveComplete d.1 (BitVec.ofNat 16 c.1)

/-- Events of the helm that may come about. -/
def State.helmEvents (s : State) : List Instr :=
  if !s.helm.running then []
  else
    (s.helm.kicks.map Instr.queueScan) ++
      (match s.helm.taken with
      | r :: _ => [if ofBytes (r.bytes.take 1) = 2 then Instr.hostResume r.q else .launch r.q]
      | [] => []) ++
      ((s.blocks.filter fun p => s.mayPublish p.1).map fun p => .completionEvent p.1) ++
      ((s.nodes.filter fun p => p.2.allPublished).map fun p => .nodeCompletion p.1) ++ s.placements ++ s.returns

/-- Everything that may come about by itself now. -/
def State.events (s : State) : List Instr := s.threadEvents ++ s.unitEvents ++ s.saves ++ s.helmEvents

/-! ## A cycle -/

/-- Sleeping threads of active contexts sleep one cycle less (R276). -/
def State.sleepers (s : State) : State :=
  let live (t : Nat) : Bool := let b := s.block (blockOf t); (s.core b.core).active == some b.ctx
  let s : State := { s with threads := s.threads.map fun p => match p.2.wait with
    | .asleep n => if live p.1 then (p.1, { p.2 with wait := .asleep (n - 1) }) else p
    | _ => p }
  (s.threads.map (·.1)).foldl (fun s t => if (s.thread t).wait == .asleep 0 then s.wakeSleeper t else s) s

/-- The counters of a context on its dies run one cycle (R390, R405): SLICE unless it is the inactive one of a resident pair, DRAIN and FORCE in
their stages, unless a crew of it is halted on the die. -/
def State.countCtx (s : State) (ctx : BitVec 16) : State :=
  let p := (s.ctx ctx).pair
  let off := s.paired ctx p && s.cores.any (fun c => decide (c.1 < 256) && c.2.active == some p) &&
    !s.cores.any fun c => decide (c.1 < 256) && c.2.active == some ctx
  let s' := s.modCtx ctx fun c =>
    { c with
      sliceLeft := c.sliceLeft.map fun d => if c.stage = 5 && !off then (d.1, d.2 - 1) else d,
      dies := c.dies.map fun d =>
        if s.dieHalted ctx d.1 then d
        else match d.2 with
          | .drain n => (d.1, .drain (n - 1))
          | .save n => (d.1, .save (n - 1))
          | _ => d }
  (List.range 4).foldl (fun s d => ((s.sliced ctx d).drained ctx d).forced ctx d) s'

/-- The contents of a trace record of a class (R448, R449, R453, R454): one of the context's threads has caused it, or the device for it on a die,
which is a free choice, and its payload is a free value (log 56). What the policy withholds never reaches the record. -/
def State.traceContents (s : State) (cls : Nat) (ctx : BitVec 16) : List Byte × State :=
  let c := s.ctx ctx
  let ts := (s.threads.map (·.1)).filter fun t => (s.block (blockOf t)).ctx == ctx && decide (s.coreOf t < 256)
  let (k, s) := s.choose ts.length
  let (d, s) := s.choose 3
  let (payload, s) := s.freeWord
  let die := match ts[k]? with | some t => dieOf (s.coreOf t) | none => d
  let lv := c.level cls
  let b := match ts[k]? with | some t => s.block (blockOf t) | none => Block.absent
  let task : W32 := if ts[k]?.isSome && lv ≥ 2 then b.task else 0
  let blk := if ts[k]?.isSome && lv ≥ 3 then b.index else 0xFFFFFFFF
  let (crew, tid, core) := match ts[k]? with
    | some t => if lv ≥ 4 then (crewIx t, tidOf t, b.core % 64) else (0xFF, 0xFF, 0)
    | none => (0xFF, 0xFF, 0)
  let seq := tgetD s.helm.trSeq die 0
  let stamp := s.dieCycle die / 2 ^ c.timek * 2 ^ c.timek
  (leBytes 32 (Config.traceLayout [cls, die, seq.toNat, stamp, task.toNat, blk, crew, tid, core, payload.toNat]).toNat,
    s.modHelm fun h => { h with trSeq := tset h.trSeq die (seq + 1) })

/-- A trace record is written, or dropped and counted where the ring is full (R453, R474). -/
def State.traceRecord (s : State) (cls : Nat) (ctx : BitVec 16) : State :=
  let (bytes, s) := s.traceContents cls ctx
  let h := s.helm
  if (h.trTail - h.trHead).toNat = 2 ^ (h.trLog + 4) then
    s.modHelm fun h => { h with trLost := if h.trLost = 0xFFFFFFFF then h.trLost else h.trLost + 1 }
  else
    let at_ := h.trBase.toNat + 32 * (h.trTail.toNat % 2 ^ (h.trLog + 4))
    let s := State.modHelm { s with mem := memWrite s.mem at_ bytes } fun h => { h with trTail := h.trTail + 1 }
    State.addTodo (s.helmTouch at_ 32) [.reval at_ 32]

/-- Traces (R446, R447, R453): a class of 8 to 10 that TRCTL enables, and that the policy of its live context does not withhold, may have
a record in this cycle; whether it has is a free choice (log 56). -/
def State.traced (s : State) : State :=
  let ctx : BitVec 16 := s.helm.trCtl.setWidth 16
  ([8, 9, 10] : List Nat).foldl (fun s cls =>
    if s.helm.trCtl.getLsbD (cls + 8) && s.ctxLive ctx && (s.ctx ctx).level cls != 0 then
      let (k, s) := s.choose 1
      if k = 1 then s.traceRecord cls ctx else s
    else s) s

/-- A cycle ends (R18): a halt is taken before a slice expires (R56), the counters run, and what they bring about comes about. -/
def State.tick (s : State) : State :=
  let s : State := { s with cycle := s.cycle + 1, seqsDone := [], subsDone := [] }
  let s := s.fire.sleepers.settleHalts
  let s := (s.ctxs.map (·.1)).foldl (fun s c => s.countCtx (BitVec.ofNat 16 c)) s
  let s := (s.threads.map (·.1)).foldl State.reckonExpired s
  let s := s.requests.foldl (fun s r => s.timeoutRequest r.port r.tag) s.releaseAll
  let s := s.unsent.foldl State.timeoutUnsent s.retrainBound
  let s := (s.ctxs.map (·.1)).foldl (fun s c => s.reportLost (BitVec.ofNat 16 c)) s
  let s := s.traced.beginSlices.settleIncoming.passBack.passBlocks
  let s := s.modHelm fun h => { h with journal := h.journal.drop (h.journal.length - 1) }
  { s with up := (s.threads.map (·.1)).filter s.ready }

/-- A turn of the cycle (R18, R290): threads that are owed MATRIX take it, then a sequencer that is ready and has not had its turn
selects, then the next sub-core, and after the last one the cycle ends. -/
def State.turn (s : State) : Host.Outcome State Fault Refusal :=
  match s.owed, s.nextSeq, s.nextSub with
  | t :: ts, _, _ => .next ((t :: ts).foldl State.takeMatrix s)
  | [], some b, _ => .next { s with seqsDone := b :: s.seqsDone, cur := some (.stream b) }
  | [], none, some k => exec (.issueSelection (k / 4) (k % 4)) { s with subsDone := k :: s.subsDone }
  | [], none, none => .next s.tick

/-- Copy commands that are moving their payload (R298). -/
def State.movers (s : State) : List Nat := (s.copies.filter fun p => !p.2.moved && !p.2.faulted).map (·.1)

/-- What else may come about by itself. -/
inductive Quiet where
  | copyAhead (id : Nat)     -- a copy command moves a byte ahead of its order (R305)
  | startStep                -- a step of a start is complete (R456)
  | endTakeover              -- the standby core of the helm goes on (R385)
  | keepLeaf                 -- a memory controller keeps a leaf (R423)
  | dropLeaf                 -- it drops one
  deriving DecidableEq, Repr

/-- Everything of that kind that may come about now. -/
def State.quiets (s : State) : List Quiet :=
  s.movers.map .copyAhead ++ (if s.starting then [.startStep] else []) ++ (if s.helm.hstat.toNat % 4 = 2 then [.endTakeover] else []) ++
    (if s.ctxs.isEmpty then [] else [.keepLeaf]) ++ if s.leaves.isEmpty then [] else [.dropLeaf]

/-- It comes about. -/
def State.bringAbout (s : State) (q : Quiet) : State :=
  match q with
  | .copyAhead id => (s.copyAhead id).bump
  | .startStep => s.startStep.bump
  | .endTakeover => s.endTakeover.bump
  | .keepLeaf => s.keepLeaf.bump
  | .dropLeaf => s.dropLeaf.bump

/-- Nothing has arrived: something comes about by itself, or the cycle goes on. Which is a free choice (log 7). -/
def State.auto (s : State) : Host.Outcome State Fault Refusal :=
  let es := s.events
  let qs := s.quiets
  match es, qs with
  | [], [] => s.turn
  | _, _ =>
    let (k, s) := s.choose (es.length + qs.length)
    match es[k]?, qs[k - es.length]? with
    | some e, _ => s.takeEvent e
    | none, some q => .next (s.bringAbout q)
    | none, none => s.turn

/-! ## One instruction where a step fetches next -/

/-- Memory with the page table of one context, whose leaf maps 1 GiB at 0x4000_0000 to itself with R, W and X, and a word there. -/
def placeBytes (m : List Host.Cell) (ctx w : Nat) : List Host.Cell :=
  let entry (m : List Host.Cell) (a v : Nat) : List Host.Cell := memWrite m a (leBytes 16 v)
  let m := memWrite m (0x8000 + 8 * ctx) (leBytes 8 0x10000)
  let m := entry (entry (entry m 0x10000 0x12001) 0x12000 0x14001) 0x14010 0x4000001F
  memWrite m 0x40000000 (wordBytes (BitVec.ofNat 96 w))

/-- The launch of the block that stands at a placed word: whatever a word may name is allocated. -/
def placeLaunch : Launch :=
  { entry := 0x40000000, stream := some 0x40000000, regs := 1024, uregs := 256, threads := 1, crews := 1, tiles := 8, spKib := 896 }

/-- A running block of context 1 with one thread at a word, which a selection has chosen; a word of the sequencer stands in its stream
(log 17). -/
def State.placeWord (s : State) (w : Nat) : State :=
  let uid := s.nextUid
  let b : Block :=
    { ctx := 1, task := 0, index := 0, node := 0, core := 0, tba := 0x40000100, reckon := 65536, launch := placeLaunch,
      sequencer := { pc := 0x40000000, st := .running } }
  let seq := match decodeBytes (wordBytes (BitVec.ofNat 96 w)) with | .ok i => i.isSeqWord | .error _ => false
  let t := threadKey uid 0 0
  { s with
    mem := placeBytes s.mem 1 w, helm := { s.helm with trtab := 0x8000 }, nextUid := uid + 1, leaves := [],
    ctxs := tset s.ctxs 1 {}, cores := tset s.cores 0 { s.core 0 with carve := some 0, active := some 1 },
    blocks := tset s.blocks uid b, crews := tset s.crews (4 * uid) { sub := 0 }, threads := tset s.threads t { pc := 0x40000000 },
    todo := [], agenda := [], cur := if seq then some (.stream uid) else some (.group (4 * uid) 0x40000000 [t]) }

end Sys2Proof.Machine
end

