-- ==== Sys2Proof/Machine/Step.lean ====
section
/-! DEFINITION. One step of the device, and the placing of one instruction where a step fetches its next. -/

namespace Sys2Proof.Machine

/-- One step: a part of the step before that is still to be done, which has a place of its own in the issue order (R361); else the issue of
what a selection has chosen; else an event that has arrived; else what comes about by itself (log 7). -/
def step (s : State) : Host.Outcome State Fault Refusal :=
  match s.todo with
  | x :: r => andThen (State.doTodo { s with todo := r } x) State.bump
  | [] =>
    match s.cur with
    | some (.group c pc ts) => s.issueGroup c pc ts
    | some (.stream b) => s.issueWord b
    | none =>
      match s.agenda with
      | e :: r => State.takeEvent { s with agenda := r } e
      | [] => s.auto

/-- The state with one instruction word placed where `step` fetches next: a running block with one thread stands at the word, in an
executable page, and a selection has chosen it (log 17). -/
def State.withFetchWord (s : State) (nbits w : Nat) : State := s.placeWord (w % 2 ^ nbits)

end Sys2Proof.Machine
end

