-- ==== Sys2Proof/Safety.lean ====
section
/-! DEFINITION. The terms in which statements are made: a legal state, and what it is for the threads of an issue group to perform an
instruction, each with no stop. -/

namespace Sys2Proof.Machine

/-- Memory stands in its canonical form. -/
def State.memOk (s : State) : Prop := Memory.wf s.mem = true

/-- A property of every next state of an answer; a fault or a refusal satisfies it too. -/
def keeps (P : State → Prop) (o : Host.Outcome State Fault Refusal) : Prop := ∀ s', o = .next s' → P s'

/-- A thread of the machine stands at an address and waits for nothing (R39). -/
def State.stands (s : State) (a : W64) (t : Nat) : Bool :=
  !(s.thread t).exited && (s.thread t).pc == a && (s.thread t).wait == .none && (s.thread t).matrixOwed.isNone

/-- The guard of a thread reads as a value (R61); none where its predicate is poisoned. -/
def State.guarded (s : State) (t : Nat) (f : Fields) : Option Bool :=
  if ((s.thread t).getP f.gp.toNat).poison then none else some (((s.thread t).getP f.gp.toNat).val != f.gneg)

/-- The tags of its guard are consumed (R61, R352). -/
def State.pastGuard (s : State) (t : Nat) (a : W64) (f : Fields) : State := s.consume t a ((s.thread t).getP f.gp.toNat).tags

/-- The threads of an issue group perform an instruction one after another, each with a true guard doing its part at the next program
counter, each with a false guard only moving past the word; none where one of them does not stand at the word, has a poisoned guard,
has to wait, or has a shadow that differs. -/
def State.runGroup (i : Instr) (f : Fields) (a : W64) (part : Nat → State → Option State) : List Nat → State → Option State
  | [], s => some s
  | t :: ts, s =>
    if !s.stands a t || s.shadowed t then none
    else match s.guarded t f with
      | none => none
      | some false => ((s.pastGuard t a f).advance t a).runGroup i f a part ts
      | some true =>
        if s.issueWaits t i then none
        else match part t ((s.pastGuard t a f).advance t a) with
          | none => none
          | some s' => s'.runGroup i f a part ts

/-- The threads of a PC group admitted to an instruction that issues once: those with a false guard move past the word (R66). -/
def State.admitAll (s : State) (a : W64) (f : Fields) (ts : List Nat) : State :=
  ts.foldl (fun s t => if s.guarded t f = some true then s.pastGuard t a f else (s.pastGuard t a f).advance t a) s

/-- A PC group performs an instruction that issues once: its part is done by the first thread with a true guard; the rest of them move
past the word. None where a thread does not stand at the word, has a poisoned guard, or has a shadow that differs, or the one has to wait. -/
def State.runOnce (s : State) (i : Instr) (f : Fields) (a : W64) (part : Nat → State → Option State) (ts : List Nat) :
    Option State :=
  if !ts.all (fun t => s.stands a t && (s.guarded t f).isSome && !s.shadowed t) || !ts.Nodup then none
  else
    let s1 := s.admitAll a f ts
    match ts.filter fun t => s.guarded t f == some true with
    | [] => some s1
    | t :: rest => if s1.issueWaits t i then none else part t ((rest.foldl (fun s u => s.advance u a) s1).advance t a)

/-- exec answers the state in which the threads of the group have done the given part, whatever the state and the operands. -/
def Completes (i : Instr) (f : Fields) (part : Nat → State → Option State) : Prop :=
  ∀ s s' c a ts, s.cur = some (.group c a ts) →
    (if i.once then s.runOnce i f a part ts else State.runGroup i f a part ts s) = some s' → exec i s = .next s'

/-- The part of an operation of classes 0 to 2 in one thread: its sources read, a value computed from them written to its destination
with their poison and their tags; none where a source stops it. -/
def aluPart (i : Instr) (f : Fields) (value : Nat → Nat → Nat → Nat) (t : Nat) (s : State) : Option State :=
  let sh := formOf i
  match s.sources t f sh.a.valueOf.1 sh.a.valueOf.2 sh.b.valueOf.1 sh.b.valueOf.2 sh.xcRegs with
  | .error _ => none
  | .ok (a, b, x) =>
    let j := joinOpds [a, b, x]
    some (s.writeDst t sh f (value a.val b.val x.val) j.poison j.tags (s.here t))

end Sys2Proof.Machine
end

