-- ==== Sys2Proof/Certificates/Slice0/Obligations.lean ====
section
/-! DEFINITION. The statements about the machine, each a proposition for the provers, with the terms they are made in. OBLIGATIONS.json
gives each its text and the rules of spec/ it rests on. -/

namespace Sys2Proof.Claim

open Sys2Proof.Machine

/-! ## Integers -/

/-- Bits of an operand of an integer type of R140. -/
def wide (f : Fields) : Nat := match f.ty with | .u64 | .s64 => 64 | _ => 32

/-- The signed types. -/
def signed (f : Fields) : Bool := match f.ty with | .s32 | .s64 => true | _ => false

/-- The integer that w bits of an operand stand for under the type (R139). -/
def intAt (f : Fields) (w x : Nat) : Int := if signed f then (BitVec.ofNat w x).toInt else ((BitVec.ofNat w x).toNat : Int)

/-- The integer of an operand of the type's own width. -/
def int (f : Fields) (x : Nat) : Int := intAt f (wide f) x

/-- The least and greatest integers of the type. -/
def least (f : Fields) : Int := if signed f then -2 ^ (wide f - 1) else 0
/-- The greatest integer of the type. -/
def greatest (f : Fields) : Int := if signed f then 2 ^ (wide f - 1) - 1 else 2 ^ wide f - 1

/-- An exact integer in the destination: clamped to the type with `.sat`, wrapped to its width (R140). -/
def narrow (f : Fields) (x : Int) : Nat :=
  (BitVec.ofInt (wide f) (if f.sat then max (least f) (min (greatest f) x) else x)).toNat

/-- The number whose bit k is given, for k below w. -/
def fromBits (w : Nat) (bit : Nat → Bool) : Nat := ((List.range w).map fun k => if bit k then 2 ^ k else 0).sum

/-- The number of positions below w that satisfy a property. -/
def countBits (w : Nat) (p : Nat → Bool) : Nat := ((List.range w).filter p).length

/-- A condition of R151 on two integers: XC 0 eq, 1 ne, 2 lt, 3 le, 4 gt, 5 ge. -/
def cond (xc : Nat) (a b : Int) : Bool :=
  if xc = 0 then a = b else if xc = 1 then a ≠ b else if xc = 2 then a < b else if xc = 3 then a ≤ b
  else if xc = 4 then b < a else b ≤ a

/-- Byte of a selector of `prmt` (R149): byte c[2:0] of the eight, replaced under c[4:3] by 0, by its sign, or by ones. -/
def pickByte (bytes : List Nat) (c : Nat) : Nat :=
  let y := bytes.getD (c % 8) 0
  if c < 8 then y else if c < 16 then 0 else if c < 24 then (if y < 128 then 0 else 255) else 255

/-- The value each integer operation of class 0 writes, from the bits of SA, SB and v(XC) (R140, R142 to R149, R151, R153, R155). -/
def intTable : List ((Fields → Instr) × (Fields → Nat → Nat → Nat → Nat)) :=
  [(.iadd, fun f a b _ => narrow f (int f a + int f b)),
   (.isub, fun f a b _ => narrow f (int f a - int f b)),
   (.imul, fun f a b _ => narrow f (int f a * int f b)),
   (.imulhi, fun f a b _ => ((BitVec.ofInt 64 (int f a * int f b)).extractLsb' 32 32).toNat),
   (.imad, fun f a b c => narrow f (intAt f 32 a * intAt f 32 b + int f c)),
   (.iadd64, fun f a b _ => narrow f (int f a + int f b)),
   (.isub64, fun f a b _ => narrow f (int f a - int f b)),
   (.imin, fun f a b _ => if int f a ≤ int f b then a else b),
   (.imax, fun f a b _ => if int f a ≤ int f b then b else a),
   (.iabs, fun f a _ _ => if f.sat && a == 2 ^ 31 then 2 ^ 31 - 1 else (BitVec.ofNat 32 a).abs.toNat),
   (.and, fun f a b _ => (BitVec.ofNat (wide f) a &&& BitVec.ofNat (wide f) b).toNat),
   (.or, fun f a b _ => (BitVec.ofNat (wide f) a ||| BitVec.ofNat (wide f) b).toNat),
   (.xor, fun f a b _ => (BitVec.ofNat (wide f) a ^^^ BitVec.ofNat (wide f) b).toNat),
   (.andn, fun f a b _ => (BitVec.ofNat (wide f) a &&& ~~~BitVec.ofNat (wide f) b).toNat),
   (.orn, fun f a b _ => (BitVec.ofNat (wide f) a ||| ~~~BitVec.ofNat (wide f) b).toNat),
   (.shl, fun f a b _ => (BitVec.ofNat (wide f) a <<< b).toNat),
   (.shr, fun f a b _ => (BitVec.ofNat (wide f) a >>> b).toNat),
   (.sar, fun f a b _ => ((BitVec.ofNat (wide f) a).sshiftRight b).toNat),
   (.rot, fun f a b _ => ((BitVec.ofNat (wide f) a).rotateLeft b).toNat),
   (.shf, fun f a b c =>
      let both := BitVec.ofNat 32 a ++ BitVec.ofNat 32 c
      if f.rnd = .rtz then ((both >>> min b 32).extractLsb' 0 32).toNat else ((both <<< min b 32).extractLsb' 32 32).toNat),
   (.bfe, fun f a b _ =>
      let pos := min (b % 256) 32
      let len := min (b / 256 % 256) 32
      let ext : BitVec 64 := if signed f then (BitVec.ofNat 32 a).signExtend 64 else (BitVec.ofNat 32 a).setWidth 64
      let field : BitVec len := (ext >>> pos).setWidth len
      (if signed f then field.signExtend 32 else field.setWidth 32).toNat),
   (.bfi, fun _ a b c =>
      let pos := min (b % 256) 32
      let len := min (b / 256 % 256) 32
      fromBits 32 fun k => if pos ≤ k ∧ k < pos + len then a.testBit (k - pos) else c.testBit k),
   (.popc, fun f a _ _ => countBits (wide f) fun k => a.testBit k),
   (.clz, fun f a _ _ => countBits (wide f) fun k => decide (a < 2 ^ k)),
   (.ctz, fun f a _ _ => countBits (wide f) fun k => a % 2 ^ (k + 1) == 0),
   (.brev, fun f a _ _ => fromBits (wide f) fun k => a.testBit (wide f - 1 - k)),
   (.prmt, fun _ a b c =>
      let bytes := (leBytes 4 a ++ leBytes 4 c).map (·.toNat)
      ofBytes ((List.range 4).map fun k => BitVec.ofNat 8 (pickByte bytes (b / 2 ^ (5 * k) % 32)))),
   (.icmp, fun f a b _ => if cond f.xc.toNat (int f a) (int f b) then 1 else 0),
   (.icmp64, fun f a b _ => if cond f.xc.toNat (int f a) (int f b) then 1 else 0),
   (.mov64, fun _ a _ _ => a),
   (.lea, fun f a b _ => (BitVec.ofNat 64 a + (BitVec.ofInt 64 (int f b) <<< (f.xc.toNat % 32))).toNat)]

/-! ## Carries, selection and moves -/

/-- `iaddc` and `isubb` (R141): the carry or borrow in, where XC[8] names one in XC[7:4], and out to the predicate of XC[3:0]. -/
def carryPart (i : Instr) (f : Fields) (value : W32 → W32 → W32 → W32) (out : Nat → Nat → Nat → Bool) (t : Nat) (s : State) :
    Option State :=
  match s.sources t f 1 .b32 1 .b32 0 with
  | .error _ => none
  | .ok (a, b, _) =>
    let c : Opd := if f.xc.getLsbD 8 then s.readP t (f.xc.extractLsb' 4 4).toNat else { val := 0 }
    let j := joinOpds [a, b, c]
    let x := value (BitVec.ofNat 32 a.val) (BitVec.ofNat 32 b.val) (BitVec.ofNat 32 c.val)
    some ((s.writeDst t (formOf i) f x.toNat j.poison j.tags (s.here t)).writeLoc t (.p (f.xc.extractLsb' 0 4).toNat)
      (if out a.val b.val c.val then 1 else 0) j.poison j.tags)

/-- `iaddc`: the sum, and the carry out of bit 31. -/
def iaddcPart (f : Fields) : Nat → State → Option State :=
  carryPart (.iaddc f) f (fun a b c => a + b + c) fun a b c => decide (2 ^ 32 ≤ a + b + c)

/-- `isubb`: the difference, and the borrow. -/
def isubbPart (f : Fields) : Nat → State → Option State :=
  carryPart (.isubb f) f (fun a b c => a - b - c) fun a b c => decide (a < b + c)

/-- `sel` (R150): SA where the predicate of XC[3:0], inverted by XC[4], is true, and SB otherwise. -/
def selPart (f : Fields) (t : Nat) (s : State) : Option State :=
  match s.sources t f f.ty.regs f.ty f.ty.regs f.ty 0 with
  | .error _ => none
  | .ok (a, b, _) =>
    let p := s.readP t (f.xc.extractLsb' 0 4).toNat
    let j := joinOpds [a, b, p]
    some (s.writeDst t (formOf (.sel f)) f (if decide (p.val = 1) ≠ f.xc.getLsbD 4 then a.val else b.val) j.poison j.tags (s.here t))

/-- `plop` (R152): bit 2 a + b of the truth table in XC. -/
def plopPart (f : Fields) (t : Nat) (s : State) : Option State :=
  match s.sources t f 1 .b32 1 .b32 0 with
  | .error _ => none
  | .ok (a, b, _) =>
    let j := joinOpds [a, b]
    some (s.writeDst t (formOf (.plop f)) f (if f.xc.getLsbD (2 * a.val + b.val) then 1 else 0) j.poison j.tags (s.here t))

/-- `mov` (R153): a queue gives up its oldest entry, any other source is read. -/
def movPart (f : Fields) (t : Nat) (s : State) : Option State :=
  match f.sa with
  | .special (.queue q) =>
    match tgetD (s.block (blockOf t)).queues q.toNat [] with
    | [] => none
    | e :: rest =>
      let s' := s.modBlock (blockOf t) fun b => { b with queues := tset b.queues q.toNat rest }
      some (s'.writeDst t (formOf (.mov f)) f (e.val.setWidth 32).toNat e.poison 0 (s'.here t))
  | src =>
    match s.readSrc t 1 f.ty src with
    | .error _ => none
    | .ok a => some (s.writeDst t (formOf (.mov f)) f a.val a.poison a.tags (s.here t))

/-- `movsr` (R154): the lane, the quarter, the core group, the sub-core and the core of the thread. -/
def movsrPart (f : Fields) (t : Nat) (s : State) : Option State :=
  let core := (s.block (blockOf t)).core
  let values := [t % 32, t % 128 / 32, core % 64 / 4, (s.crew (crewOf t)).sub]
  some (s.writeDst t (formOf (.movsr f)) f (values.getD f.xc.toNat core) false 0 (s.here t))

/-! ## Floating point -/

/-- The class of a bit pattern by its fields (R165): the sign, the exponent field and the mantissa. -/
def floatClass (m : Fmt) (x : Nat) : Nat :=
  let neg := x.testBit (m.width - 1)
  let mant := x % 2 ^ m.mant
  let ones := 2 ^ (m.width - 1 - m.mant) - 1
  let e := x % 2 ^ (m.width - 1) / 2 ^ m.mant
  if e = ones then
    if mant = 0 then (if neg then 0 else 7) else if mant.testBit (m.mant - 1) then 9 else 8
  else if e = 0 then
    if mant = 0 then (if neg then 3 else 4) else if neg then 2 else 5
  else if neg then 1 else 6

/-- The conditions of R164 in the order of their codes 0 to 7; codes 8 to 13 are those of code − 8 or unordered. -/
def floatCond (code : Nat) (a b : FV) : Bool :=
  let lt := a.lt false b
  let gt := b.lt false a
  let num := !a.isNan && !b.isNan
  let eq := num && !lt && !gt
  [eq, lt || gt, lt, lt || eq, gt, gt || eq, num, !num].getD (code % 8) false || (8 ≤ code && !num)

/-- The lesser or greater of two bit patterns (R163): a NaN gives way to the other operand, two NaNs to the canonical one. -/
def lesser (m : Fmt) (x y : Nat) : Nat :=
  if (m.decode x).isNan then (if (m.decode y).isNan then m.nanCode else y)
  else if (m.decode y).isNan then x
  else if (m.decode y).lt true (m.decode x) then y else x
/-- The greater (R163). -/
def greater (m : Fmt) (x y : Nat) : Nat :=
  if (m.decode x).isNan then (if (m.decode y).isNan then m.nanCode else y)
  else if (m.decode y).isNan then x
  else if (m.decode x).lt true (m.decode y) then y else x

/-- The integral magnitude of a fraction in a direction (R167): floor, ceiling, or the nearer with ties to even. -/
def integral (rnd : Rnd) (neg : Bool) (n d : Nat) : Nat :=
  let floor := n / d
  let ceil := (n + d - 1) / d
  let nearest := if 2 * n < (2 * floor + 1) * d then floor else if (2 * floor + 1) * d < 2 * n then ceil else floor + floor % 2
  match rnd with
  | .rne => nearest
  | .rtz => floor
  | .rdn => if neg then ceil else floor
  | .rup => if neg then floor else ceil

/-- A packed operation: each half by itself (R162). -/
def halves (g : Nat → Nat → Nat → Nat) (a b c : Nat) : Nat :=
  let lo := fun x : Nat => x % 2 ^ 16
  let hi := fun x : Nat => x / 2 ^ 16 % 2 ^ 16
  g (lo a) (lo b) (lo c) + 2 ^ 16 * g (hi a) (hi b) (hi c)

/-- The values of two sources of a format, their sum, product and so on rounded once (R161). -/
def rounded (m : Fmt) (f : Fields) (v : FV) : Nat := m.round f.rnd f.sat v

/-- The value each floating-point operation of class 1 writes at once (R161 to R165, R167). -/
def floatTable : List ((Fields → Instr) × (Fields → Nat → Nat → Nat → Nat)) :=
  [(.fadd, fun f a b _ => rounded fmtF32 f ((fmtF32.decode a).add f.rnd (fmtF32.decode b))),
   (.fsub, fun f a b _ => rounded fmtF32 f ((fmtF32.decode a).add f.rnd (fmtF32.decode b).negate)),
   (.fmul, fun f a b _ => rounded fmtF32 f ((fmtF32.decode a).mul (fmtF32.decode b))),
   (.ffma, fun f a b c => rounded fmtF32 f (((fmtF32.decode a).mul (fmtF32.decode b)).add f.rnd (fmtF32.decode c))),
   (.fmin, fun _ a b _ => lesser fmtF32 a b),
   (.fmax, fun _ a b _ => greater fmtF32 a b),
   (.fcmp, fun f a b _ => if floatCond f.xc.toNat (fmtF32.decode a) (fmtF32.decode b) then 1 else 0),
   (.fclass, fun f a _ _ => if f.xc.getLsbD (floatClass (fmtOf f.ty) a) then 1 else 0),
   (.fround, fun f a _ _ =>
      match (fmtOf f.ty).decode a with
      | .fin neg n d => (fmtOf f.ty).round .rne false (.fin neg (integral f.rnd neg n d) 1)
      | v => (fmtOf f.ty).round .rne false v),
   (.dadd, fun f a b _ => rounded fmtF64 f ((fmtF64.decode a).add f.rnd (fmtF64.decode b))),
   (.dmul, fun f a b _ => rounded fmtF64 f ((fmtF64.decode a).mul (fmtF64.decode b))),
   (.dfma, fun f a b c => rounded fmtF64 f (((fmtF64.decode a).mul (fmtF64.decode b)).add f.rnd (fmtF64.decode c))),
   (.dmin, fun _ a b _ => lesser fmtF64 a b),
   (.dmax, fun _ a b _ => greater fmtF64 a b),
   (.dcmp, fun f a b _ => if floatCond f.xc.toNat (fmtF64.decode a) (fmtF64.decode b) then 1 else 0),
   (.hadd2, fun f a b c => halves (fun x y _ =>
      rounded (fmtOf f.ty) f (((fmtOf f.ty).decode x).add f.rnd ((fmtOf f.ty).decode y))) a b c),
   (.hmul2, fun f a b c => halves (fun x y _ =>
      rounded (fmtOf f.ty) f (((fmtOf f.ty).decode x).mul ((fmtOf f.ty).decode y))) a b c),
   (.hfma2, fun f a b c => halves (fun x y z =>
      rounded (fmtOf f.ty) f ((((fmtOf f.ty).decode x).mul ((fmtOf f.ty).decode y)).add f.rnd ((fmtOf f.ty).decode z))) a b c),
   (.hmin2, fun f a b c => halves (fun x y _ => lesser (fmtOf f.ty) x y) a b c),
   (.hmax2, fun f a b c => halves (fun x y _ => greater (fmtOf f.ty) x y) a b c)]

/-- A finite value as a rational number. -/
def rat : FV → Option Rat
  | .fin neg n d => some (if neg then -((n : Rat) / d) else (n : Rat) / d)
  | _ => none

/-- The rational magnitude of a code of a format. -/
def mag (m : Fmt) (c : Nat) : Rat := ((m.decode c).mag.1 : Rat) / (m.decode c).mag.2

/-- A code stands for a rounding of the positive fraction n / d among the magnitudes of a format: towards zero the greatest that is not
above it, away from zero the least that is not below it, to nearest one that no other is nearer to, and the even one of two equally
near (R115). -/
def isRounding (m : Fmt) (rnd : Rnd) (neg : Bool) (n d c : Nat) : Prop :=
  let x : Rat := (n : Rat) / d
  match rnd, neg with
  | .rne, _ => ∀ k ≤ m.maxCode, k ≠ c → |x - mag m c| ≤ |x - mag m k| ∧ (|x - mag m c| = |x - mag m k| → c % 2 = 0)
  | .rtz, _ | .rdn, false | .rup, true => mag m c ≤ x ∧ ∀ k ≤ m.maxCode, mag m k ≤ x → mag m k ≤ mag m c
  | .rdn, true | .rup, false => x ≤ mag m c ∧ ∀ k ≤ m.maxCode, x ≤ mag m k → mag m c ≤ mag m k

/-- The magnitude that code c of a format stands for, as if exponents had no upper bound (R113, R117 to R122): c units of the least subnormal
below the least normal, and 1.m times a power of two from there on. -/
def level (m : Fmt) (c : Nat) : Rat :=
  if c < 2 ^ m.mant then (c : Rat) * 2 ^ (m.emin - m.mant)
  else ((c % 2 ^ m.mant + 2 ^ m.mant : Nat) : Rat) * 2 ^ (m.emin + (c / 2 ^ m.mant : Nat) - 1 - m.mant)

/-- The formats with the codes of their largest magnitude, infinity and canonical NaN, where they have these (R113, R114, R117, R118, R120,
R122). -/
def formatCodes : List (Fmt × Nat × Option Nat × Option Nat) :=
  [(fmtF16, 0x7BFF, some 0x7C00, some 0x7E00), (fmtBf16, 0x7F7F, some 0x7F80, some 0x7FC0),
   (fmtF32, 0x7F7FFFFF, some 0x7F800000, some 0x7FC00000),
   (fmtF64, 0x7FEFFFFFFFFFFFFF, some 0x7FF0000000000000, some 0x7FF8000000000000),
   (fmtE4m3, 0x7E, none, some 0x7F), (fmtE5m2, 0x7B, some 0x7C, some 0x7E), (fmtFp4, 7, none, none), (fmtE3m5, 255, none, none)]

/-- A code with a sign. -/
def signedCode (m : Fmt) (neg : Bool) (c : Nat) : Nat := c + if neg then 2 ^ (m.width - 1) else 0

/-- A magnitude lies so far above the largest one, top, that its rounding exceeds it (R115). -/
def roundsOver (m : Fmt) (top : Nat) (rnd : Rnd) (neg : Bool) (x : Rat) : Prop :=
  match rnd, neg with
  | .rne, _ => level m top + level m (top + 1) < 2 * x ∨ (level m top + level m (top + 1) = 2 * x ∧ top % 2 = 1)
  | .rtz, _ | .rdn, false | .rup, true => level m (top + 1) ≤ x
  | .rdn, true | .rup, false => level m top < x

/-- The direction of a rounding is away from zero for a magnitude above the largest: to nearest, or to the infinity of its sign (R115). -/
def outward (rnd : Rnd) (neg : Bool) : Bool :=
  match rnd with
  | .rne => true
  | .rtz => false
  | .rdn => neg
  | .rup => !neg

/-- The value `fscale` writes (R166): the source times a power of two, rounded once. -/
def scaled (f : Fields) (a b : Nat) : Nat :=
  let n := (BitVec.ofNat 32 b).toInt
  match (fmtOf f.ty).decode a with
  | .fin neg p q => (fmtOf f.ty).round f.rnd f.sat (if 0 ≤ n then .fin neg (p * 2 ^ n.toNat) q else .fin neg p (q * 2 ^ (-n).toNat))
  | v => (fmtOf f.ty).round f.rnd f.sat v

/-- A long-latency function of one register in one thread: the value is read and computed at issue, and stands outstanding for its
destination (R63, R159). -/
def longPart (f : Fields) (value : Nat → Nat) (t : Nat) (s : State) : Option State :=
  match s.sources t f 1 .f32 0 .b32 0 with
  | .error _ => none
  | .ok (a, _, _) =>
    let s' := s.consume t (s.here t) a.tags
    let l : Loc := if f.scope.getLsbD 0 then .s f.dst.toNat else .v f.dst.toNat
    some (s'.addOut t [l]
      (some [(l, { val := BitVec.ofNat 32 (value a.val), poison := a.poison, tags := a.tags ||| (s'.thread t).tagUnion })])
      f.la.toNat)

/-- The reciprocal of a value (R168). -/
def reciprocal : FV → FV
  | .nan => .nan
  | .inf neg => .fin neg 0 1
  | .fin neg n d => if n = 0 then .inf neg else .fin neg d n

/-- The root of a value (R168): that of a positive fraction to 200 binary places, exact or between two of them (R169). -/
def root : FV → FV
  | .nan | .inf true => .nan
  | .inf false => .inf false
  | .fin neg n d =>
    if n = 0 then .fin neg 0 1
    else if neg then .nan
    else
      let r := Nat.sqrt (n * d * 2 ^ 400)
      if r * r = n * d * 2 ^ 400 then .fin false r (d * 2 ^ 200) else .fin false (2 * r + 1) (d * 2 ^ 201)

/-- The value each long-latency function writes (R168 to R170). -/
def longTable : List ((Fields → Instr) × (Fields → Nat → Nat)) :=
  [(.frcp, fun f a => rounded fmtF32 f (reciprocal (fmtF32.decode a))),
   (.fsqrt, fun f a => rounded fmtF32 f (root (fmtF32.decode a))),
   (.frsq, fun f a => approxBits .rsq f.sat a),
   (.fex2, fun f a => approxBits .ex2 f.sat a),
   (.flg2, fun f a => approxBits .lg2 f.sat a),
   (.fsin, fun f a => approxBits .sin f.sat a),
   (.fcos, fun f a => approxBits .cos f.sat a),
   (.ftanh, fun f a => approxBits .tanh f.sat a)]

/-- The table of R168 for the approximated functions: the binary32 result at a NaN, −∞, a negative finite value, −0, +0 and +∞; none
where R169 bounds it. -/
def specialTable : List (Approx × List (Option Nat)) :=
  [(.rsq, [some 0x7FC00000, some 0x7FC00000, some 0x7FC00000, some 0xFF800000, some 0x7F800000, some 0]),
   (.ex2, [some 0x7FC00000, some 0, none, some 0x3F800000, some 0x3F800000, some 0x7F800000]),
   (.lg2, [some 0x7FC00000, some 0x7FC00000, some 0x7FC00000, some 0xFF800000, some 0xFF800000, some 0x7F800000]),
   (.sin, [some 0x7FC00000, some 0x7FC00000, none, some 0x80000000, some 0, some 0x7FC00000]),
   (.cos, [some 0x7FC00000, some 0x7FC00000, none, some 0x3F800000, some 0x3F800000, some 0x7FC00000]),
   (.tanh, [some 0x7FC00000, some 0xBF800000, none, some 0x80000000, some 0, some 0x3F800000])]

/-- The column of R168 an argument belongs to; none for a positive finite one. -/
def specialColumn (x : Nat) : Option Nat :=
  match fmtF32.decode x with
  | .nan => some 0
  | .inf neg => some (if neg then 1 else 5)
  | .fin neg n _ => if n = 0 then some (if neg then 3 else 4) else if neg then some 2 else none

/-! ## Conversions -/

/-- Bits of an integer type of `cvt`, and whether it is signed (R172); none for a floating type. -/
def convInt (ty : Ty) : Option (Nat × Bool) :=
  match ty with
  | .b32 => some (32, false) | .s32 => some (32, true) | .u64 => some (64, false) | .s64 => some (64, true)
  | .u8 => some (8, false) | .s8 => some (8, true) | .u16 => some (16, false) | .s16 => some (16, true)
  | _ => none

/-- The low w bits of an integer, extended by the type to its registers (R172). -/
def extend (w : Nat) (sgn : Bool) (x : Int) : Nat :=
  if sgn then ((BitVec.ofInt w x).signExtend (max 32 w)).toNat else ((BitVec.ofInt w x).setWidth (max 32 w)).toNat

/-- The range of an integer type. -/
def loOf (w : Nat) (sgn : Bool) : Int := if sgn then -2 ^ (w - 1) else 0
/-- The greatest value of an integer type. -/
def hiOf (w : Nat) (sgn : Bool) : Int := if sgn then 2 ^ (w - 1) - 1 else 2 ^ w - 1
/-- An integer brought into the range of a type. -/
def intoRange (w : Nat) (sgn : Bool) (x : Int) : Int := max (loOf w sgn) (min (hiOf w sgn) x)

/-- The four rows of R172. -/
def convertTo (f : Fields) (a : Nat) : Nat :=
  match convInt f.stype, convInt f.ty with
  | none, none => (fmtOf f.ty).round f.rnd f.sat ((fmtOf f.stype).decode a)
  | some (v, sg), none =>
    let x := if sg then (BitVec.ofNat v a).toInt else ((BitVec.ofNat v a).toNat : Int)
    (fmtOf f.ty).round f.rnd false (.fin (decide (x < 0)) x.natAbs 1)
  | none, some (w, sgn) =>
    match (fmtOf f.stype).decode a with
    | .nan => 0
    | .inf neg => extend w sgn (if neg then loOf w sgn else hiOf w sgn)
    | .fin neg n d =>
      let k : Int := integral f.rnd neg n d
      extend w sgn (intoRange w sgn (if neg then -k else k))
  | some (v, sg), some (w, sgn) =>
    let x := if sg then (BitVec.ofNat v a).toInt else ((BitVec.ofNat v a).toNat : Int)
    extend w sgn (if f.sat then intoRange w sgn x else x)

/-- Element k of w bits of a packed operand. -/
def element (w x k : Nat) : Nat := x / 2 ^ (w * k) % 2 ^ w

/-- n elements of w bits, element 0 lowest. -/
def pack (w n : Nat) (g : Nat → Nat) : Nat := ((List.range n).map fun k => g k % 2 ^ w * 2 ^ (w * k)).sum

/-- Element k of a packing row of R173: the values of SA, and after them those of SB. -/
def packSource (f : Fields) (a b k : Nat) : FV :=
  let inA := match f.ty, f.stype with
    | .f16x2, _ | .bf16x2, _ => 1
    | .fp4x8, _ => 8
    | _, .f32 => 4
    | _, _ => 2
  let w := if f.stype = .f32 then 32 else 16
  (fmtOf f.stype).decode (if k < inA then element w a k else element w b (k - inA))

/-- `cvtx` (R173): each element packed under the rounding of its format, or unpacked exactly. -/
def convertPackedTo (f : Fields) (a b : Nat) : Nat :=
  let packed := fun w n => pack w n fun k => (fmtOf f.ty).round f.rnd f.sat (packSource f a b k)
  let unpacked := fun w n => pack 32 n fun k => fmtF32.round .rne false ((fmtOf f.stype).decode (element w a k))
  match f.ty, f.stype with
  | .f16x2, _ | .bf16x2, _ => packed 16 2
  | .e4m3x4, _ | .e5m2x4, _ => packed 8 4
  | .fp4x8, _ => packed 4 8
  | _, .f16x2 | _, .bf16x2 => unpacked 16 2
  | _, .e4m3x4 | _, .e5m2x4 => unpacked 8 4
  | _, _ => unpacked 4 8

/-- The eight values of a block in its registers (R175). -/
def eight (f : Fields) (x : Nat) : List FV :=
  (List.range 8).map fun k => if f.ty = .f32 then fmtF32.decode (element 32 x k) else fmtBf16.decode (element 16 x k)

/-- A quotient of finite values. -/
def over_ (a b : FV) : FV :=
  match a, b with
  | .fin x n d, .fin y k e => .fin (x != y) (n * e) (d * k)
  | _, _ => .nan

/-- The greatest of some magnitudes. -/
def greatestMag (l : List FV) : Nat × Nat := l.foldl (fun m v => if m.1 * v.mag.2 < v.mag.1 * m.2 then v.mag else m) (0, 1)

/-- `q4enc` (R175): the block in the low word and the scale, with SPECIAL in bit 8, in the high word. -/
def quantised (f : Fields) (a band : Nat) : Nat :=
  let b := fmtBf16.decode (element 16 band 1)
  let xs := eight f a
  if b.isZero || b.isSpecial || xs.any FV.isSpecial then 0x100 * 2 ^ 32
  else
    let ys := xs.map fun x => over_ x b
    let top := greatestMag ys
    let s := if top.1 = 0 then 0 else fmtE3m5.round .rup false (.fin false top.1 (6 * top.2))
    let codes := pack 4 8 fun k =>
      let y := ys.getD k (.fin false 0 1)
      if s = 0 then (if y.isNeg then 8 else 0) else fmtFp4.round f.rnd false (over_ y (fmtE3m5.decode s))
    codes + s * 2 ^ 32

/-- `q4dec` (R176): each code times the block scale and the band scale, rounded once. -/
def dequantised (f : Fields) (a band scale : Nat) : Nat :=
  let v := fun k => ((fmtFp4.decode (element 4 a k)).mul (fmtE3m5.decode (scale % 256))).mul (fmtBf16.decode (element 16 band 1))
  if f.ty = .f32 then pack 32 8 fun k => fmtF32.round f.rnd f.sat (v k) else pack 16 8 fun k => fmtBf16.round f.rnd f.sat (v k)

/-- The value each conversion of class 2 writes. -/
def convTable : List ((Fields → Instr) × (Fields → Nat → Nat → Nat → Nat)) :=
  [(.cvt, fun f a _ _ => convertTo f a), (.cvtx, fun f a b _ => convertPackedTo f a b),
   (.q4enc, fun f a b _ => quantised f a b), (.q4dec, fun f a b c => dequantised f a b c)]

/-! ## What an instruction leaves unchanged -/

/-- The registers an instruction of classes 0 to 2 writes: its destination (R65), and the carry predicate of R141. -/
def destinations (i : Instr) (f : Fields) : List Loc :=
  (match (formOf i).dst with
    | .v n => (List.range n).map fun k => Loc.v (f.dst.toNat + k)
    | .s n => (List.range n).map fun k => Loc.s (f.dst.toNat + k)
    | .p => [Loc.p f.dst.toNat]
    | _ => []) ++ (formOf i).predWrites.map Loc.p

/-- A register of thread t may be written when threads of a list write some locations: its own, and a uniform register of its crew. -/
def mayWrite (ts : List Nat) (locs : List Loc) (t : Nat) (l : Loc) : Prop :=
  l ∈ locs ∧ ∃ u ∈ ts, u = t ∨ (crewOf u = crewOf t ∧ ∃ n, l = .s n)

/-- Nothing but program counters, marks, the undo log and some registers differs between two states. -/
def onlyRegisters (ts : List Nat) (locs : List Loc) (s s' : State) : Prop :=
  s' = { s with threads := s'.threads, crews := s'.crews } ∧
  (∀ t, s'.thread t = { s.thread t with pc := (s'.thread t).pc, v := (s'.thread t).v, p := (s'.thread t).p,
                                        marks := (s'.thread t).marks }) ∧
  (∀ t, t ∉ ts → s'.thread t = s.thread t) ∧
  (∀ c, s'.crew c = { s.crew c with s := (s'.crew c).s, log := (s'.crew c).log, logTail := (s'.crew c).logTail }) ∧
  ∀ t l, ¬mayWrite ts locs t l → s'.getLoc t l = s.getLoc t l

/-- The threads of a group perform an instruction with the given parts, however it issues. -/
def performs (s : State) (i : Instr) (f : Fields) (part : Nat → State → Option State) (ts : List Nat) (s' : State) : Prop :=
  ∃ c a, s.cur = some (.group c a ts) ∧ (if i.once then s.runOnce i f a part ts else State.runGroup i f a part ts s) = some s'

/-- The state in which a thread alone in its group does its part: its guard's tags are consumed and it stands at the next word. -/
def entered (s : State) (t : Nat) (a : W64) (f : Fields) : State := (s.pastGuard t a f).advance t a

/-- Thread t alone is the issue group of an instruction at address a: its guard is true and nothing keeps it waiting. -/
structure Alone (s : State) (i : Instr) (f : Fields) (a : W64) (t : Nat) : Prop where
  cur : ∃ c, s.cur = some (.group c a [t])
  stands : s.stands a t = true
  guard : s.guarded t f = some true
  ready : s.issueWaits t i = false
  admitted : (s.pastGuard t a f).issueWaits t i = false
  shadow : s.shadowed t = false

/-! ## Control -/

/-- The displacement in bytes of a code target (R76): four times the signed 26-bit offset whose low 20 bits are the payload and whose
high six are XC[5:0]. -/
def displacement (f : Fields) : W64 :=
  match f.sb with
  | .imm p => (f.xc.extractLsb' 0 6 ++ p).signExtend 64 * 4
  | _ => ((f.xc.extractLsb' 0 6 ++ 0#20)).signExtend 64 * 4

/-- The thread's program counter is set. -/
def jumpTo (s : State) (t : Nat) (pc : W64) : State := s.modThread t fun th => { th with pc := pc }

/-- A register target that passes R225: not poisoned, a multiple of 4, and bits [63:56] all equal to bit 56. -/
def goodTarget (f : Fields) (t : Nat) (s : State) : Option Opd :=
  match s.readSrc t 2 .u64 f.sa with
  | .error _ => none
  | .ok o =>
    let x := BitVec.ofNat 64 o.val
    if o.poison || x.extractLsb' 0 2 ≠ 0 || x.extractLsb' 57 7 ≠ (if x.getLsbD 56 then 0x7F#7 else 0) then none
    else some o

/-- The part of each branch and call in one thread that stands at A + 12 (R223 to R226, R228). -/
def controlTable : List ((Fields → Instr) × (Fields → Nat → State → Option State)) :=
  [(.nop, fun _ _ s => some s),
   (.yield, fun _ _ s => some s),
   (.bra, fun f t s => some (jumpTo s t ((s.thread t).pc - 12 + displacement f))),
   (.brx, fun f t s => (goodTarget f t s).map fun o =>
      jumpTo (s.consume t ((s.thread t).pc - 12) o.tags) t (BitVec.ofNat 64 o.val)),
   (.ret, fun f t s => (goodTarget f t s).map fun o =>
      jumpTo (s.consume t ((s.thread t).pc - 12) o.tags) t (BitVec.ofNat 64 o.val)),
   (.call, fun f t s =>
      let a := (s.thread t).pc - 12
      some (jumpTo (s.writeGroup t .v f.dst.toNat (words 2 (a + 12).toNat) false 0) t (a + displacement f))),
   (.callx, fun f t s => (goodTarget f t s).map fun o =>
      let a := (s.thread t).pc - 12
      jumpTo ((s.consume t a o.tags).writeGroup t .v f.dst.toNat (words 2 (a + 12).toNat) false o.tags) t (BitVec.ofNat 64 o.val))]

/-- The cause and the address of the first check of R225 that a register target fails. -/
def badTarget (o : Opd) : Option Stop :=
  let x := BitVec.ofNat 64 o.val
  if o.poison then some (.poison 0 o.unit o.place)
  else if x.extractLsb' 0 2 ≠ 0 then some (.trap .misalign x)
  else if x.extractLsb' 57 7 ≠ (if x.getLsbD 56 then 0x7F#7 else 0) then some (.trap .permission x)
  else none

/-- Bit i of rejoin mask jN, in register s(192 + 4N + floor(i / 32)) (R45). -/
def maskBit (s : State) (c n i : Nat) : Bool := ((s.crew c).getS (192 + 4 * n + i / 32)).val.getLsbD (i % 32)

/-- A participant of a crew-wide operation: its thread and its sources (R232). -/
abbrev Member := Nat × Opd × Opd

/-- The participants' sources; none where one of them stops. -/
def readAll (s : State) (f : Fields) (na : Nat) (ta : Ty) (nb : Nat) (tb : Ty) : List Nat → Option (List Member)
  | [] => some []
  | t :: ts =>
    match s.sources t f na ta nb tb 0, readAll s f na ta nb tb ts with
    | .ok (a, b, _), some ps => some ((t, a, b) :: ps)
    | _, _ => none

/-- A crew-wide operation (R232): every thread of the group with a true guard is a participant, and each receives its result; the others
move past the word. -/
def crewRun (i : Instr) (f : Fields) (na : Nat) (ta : Ty) (nb : Nat) (tb : Ty)
    (result : List Member → Member → Nat × Bool × Tags) (a : W64) (ts : List Nat) (s : State) : Option State :=
  if !ts.all (fun t => s.stands a t && (s.guarded t f).isSome && !s.shadowed t) || !ts.Nodup then none
  else
    let s1 := s.admitAll a f ts
    let live := ts.filter fun t => s.guarded t f == some true
    if live.any fun t => s.issueWaits t i then none
    else match readAll s1 f na ta nb tb live with
      | none => none
      | some ps => some (ps.foldl (fun s p =>
          let r := result ps p
          (s.advance p.1 a).writeDst p.1 (formOf i) f r.1 r.2.1 r.2.2 a) s1)

/-- The mask of the lanes of the members that satisfy a condition. -/
def lanesOf (ps : List Member) (c : Member → Bool) : Nat := ((ps.filter c).map fun p => 2 ^ (p.1 % 32)).sum

/-- The poison and tags of every member's SA together (R233). -/
def together (ps : List Member) : Bool × Tags := (ps.any fun p => p.2.1.poison, ps.foldl (fun g p => g ||| p.2.1.tags) 0)

/-- `vote` (R233): every, some, same or mask. -/
def voteResult (f : Fields) (ps : List Member) (_ : Member) : Nat × Bool × Tags :=
  let all := lanesOf ps fun _ => true
  let mask := lanesOf ps fun p => decide (p.2.1.val = 1) ≠ f.xc.getLsbD 2
  let b : Bool → Nat := fun x => if x then 1 else 0
  ([b (mask = all), b (mask ≠ 0), b (mask = all ∨ mask = 0)].getD (f.xc.extractLsb' 0 2).toNat mask, together ps)

/-- `shfl` (R234): the source lane, and the member's own where that one is absent. -/
def shflResult (f : Fields) (ps : List Member) (p : Member) : Nat × Bool × Tags :=
  let w := 2 ^ (5 - (f.xc.extractLsb' 2 3).toNat)
  let l := p.1 % 32
  let bs := l - l % w
  let n := p.2.2.val
  let shifted : Int := l + (BitVec.ofNat 32 n).toInt
  let lane :=
    match (f.xc.extractLsb' 0 2).toNat with
    | 0 => bs + n % w
    | 1 => if (bs : Int) ≤ shifted ∧ shifted < bs + w then shifted.toNat else l
    | 2 => bs + (l - bs + n) % w
    | _ => bs + ((l - bs) ^^^ (n % w))
  let q := (ps.find? fun q => q.1 % 32 = lane).getD p
  (q.2.1.val, q.2.1.poison || p.2.2.poison, q.2.1.tags ||| p.2.2.tags)

/-- `match` (R235): the lanes with an equal value; with `.all`, every lane or none. -/
def matchResult (f : Fields) (ps : List Member) (p : Member) : Nat × Bool × Tags :=
  let e := lanesOf ps fun q => q.2.1.val = p.2.1.val
  let all := lanesOf ps fun _ => true
  (if f.xc.getLsbD 0 then (if e = all then all else 0) else e, together ps)

/-- `redux` (R236): the values of all participants combined. -/
def reduxResult (f : Fields) (ps : List Member) (_ : Member) : Nat × Bool × Tags :=
  let vals := ps.map fun p => p.2.1.val
  let fold := fun g : Nat → Nat → Nat => match vals with | [] => 0 | x :: xs => xs.foldl g x
  let v :=
    match f.xc.toNat with
    | 0 => vals.sum % 2 ^ 32
    | 1 => fold fun m x => if int f x < int f m then x else m
    | 2 => fold fun m x => if int f m < int f x then x else m
    | 3 => fold fun m x => m &&& x
    | 4 => fold fun m x => m ||| x
    | _ => fold fun m x => m ^^^ x
  (v, together ps)

/-- `elect` (R237): the lowest participant, or with `.m` the lowest of those in the member's own mask. -/
def electResult (f : Fields) (ps : List Member) (p : Member) : Nat × Bool × Tags :=
  let m := f.xc.getLsbD 0
  let chosen := ps.filter fun q => !m || p.2.1.val.testBit (q.1 % 32)
  (if chosen.any (fun q => q.1 % 32 = p.1 % 32) && chosen.all (fun q => p.1 % 32 ≤ q.1 % 32) then 1 else 0,
    m && p.2.1.poison, if m then p.2.1.tags else 0)

/-! ## Traps and system registers -/

/-- The payload of a code operand, zero-extended (R264). -/
def codeOf (f : Fields) : Nat := match f.sb with | .imm p => p.toNat | _ => 0

/-- A thread is delivered its trap at once (R271, R272): not in its handler, with a handler address, in no containment region, and with
no tag to wait for. -/
def trapsAtOnce (s : State) (t : Nat) : Prop :=
  (s.thread t).handler = false ∧ (s.block (blockOf t)).tba ≠ 0 ∧ s.plainUnion t = 0 ∧ (s.thread t).region = none

/-- A thread has entered its handler (R269): the cause, the return address and the fault address are saved, HANDLER is set, the program
counter is sys.tba; no register, predicate, poison bit, tag, mark, other thread or byte of memory changes; a shadow thread comes along. -/
def inHandler (s s' : State) (t code : Nat) (epc bad : W64) : Prop :=
  s' = { s with threads := s'.threads, astray := s.astray.filter (· != t) } ∧ (∀ u, u ≠ t → s'.thread u = s.thread u) ∧
  (s'.thread t).cause.toNat = code ∧ (s'.thread t).epc = epc ∧ (s'.thread t).badaddr = bad ∧ (s'.thread t).handler = true ∧
  (s'.thread t).pc = (s.block (blockOf t)).tba ∧ (s'.thread t).wait = .none ∧
  (s'.thread t).v = (s.thread t).v ∧ (s'.thread t).p = (s.thread t).p ∧ (s'.thread t).marks = (s.thread t).marks ∧
  (s'.thread t).scratch = (s.thread t).scratch ∧ (s'.thread t).exited = (s.thread t).exited

/-- The words that raise a cause on purpose (R274): cause code, bytes beyond A that sys.epc holds, and sys.badaddr. -/
def trapWords : List ((Fields → Instr) × Nat × W64) := [(.trap, 0x0F, 12), (.ill, 0x01, 0), (.brk, 0x0B, 12)]

/-- The value of a system register for a thread (R267, R268). -/
def systemRegister (s : State) (t n : Nat) : W64 :=
  let th := s.thread t
  let b := s.block (blockOf t)
  let bit := fun (x : Bool) (k : Nat) => if x then 2 ^ k else 0
  match n with
  | 0 => BitVec.ofNat 64 (bit th.handler 0 + bit th.region.isSome 1 + bit (s.helm.attached.contains b.ctx) 2)
  | 1 => th.cause.setWidth 64
  | 2 => th.epc
  | 3 => th.badaddr
  | 4 => b.tba
  | 5 => BitVec.ofNat 64 b.launch.fair
  | 6 => BitVec.ofNat 64 b.reckon
  | 7 => BitVec.ofNat 64 b.spBase
  | n => (tgetD th.scratch (n - 8) 0).setWidth 64

/-- A system register written (R267): sys.epc, sys.tba and sys.scratch0 to sys.scratch3 are the ones that can be. -/
def systemWritten (s s' : State) (t n : Nat) (x : W64) : Prop :=
  systemRegister s' t n = x ∧ (∀ m < 12, m ≠ n → systemRegister s' t m = systemRegister s t m) ∧
  s' = { s with threads := s'.threads, blocks := s'.blocks } ∧ (∀ u, u ≠ t → s'.thread u = s.thread u) ∧
  (s'.thread t).v = (s.thread t).v ∧ (s'.thread t).p = (s.thread t).p ∧ (s'.thread t).pc = (s.thread t).pc ∧
  ∀ b, b ≠ blockOf t → s'.block b = s.block b

/-! ## Memory instructions -/

/-- The displacement of SB (R181). -/
def disp (f : Fields) : W64 := match f.sb with | .imm p => p.signExtend 64 | _ => 0

/-- A `.g` address (R181): a 64-bit base, not poisoned, plus the displacement where the form has one. -/
def addressG (f : Fields) (d : Bool) (t : Nat) (s : State) : Option (Opd × W64) :=
  match s.readSrc t 2 .u64 f.sa with
  | .error _ => none
  | .ok o => if o.poison then none else some (o, BitVec.ofNat 64 o.val + if d then disp f else 0)

/-- A `.s`, `.x` or `.c` offset (R181): 32 bits. -/
def addressS (f : Fields) (d : Bool) (t : Nat) (s : State) : Option (Opd × Nat) :=
  match s.readSrc t 1 .b32 f.sa with
  | .error _ => none
  | .ok o => if o.poison then none else some (o, (BitVec.ofNat 32 o.val + if d then (disp f).setWidth 32 else 0).toNat)

/-- The data group of a store, not poisoned: vector registers, or uniform ones with UD (R183). -/
def storeData (f : Fields) (n t : Nat) (s : State) : Option Opd :=
  let d := if f.xc.getLsbD 3 then s.readS t f.dst.toNat n else s.readV t f.dst.toNat n
  if d.poison then none else some d

/-- The operand of an atomic, not poisoned; two groups for `.cas` (R199). -/
def atomData (f : Fields) (t : Nat) (s : State) : Option Opd :=
  match s.readSrc t (if f.aop = 7 then 2 * f.ty.regs else f.ty.regs) f.ty f.sb with
  | .error _ => none
  | .ok b => if b.poison then none else some b

/-- Bytes of an access (R189). -/
def bytesAt (f : Fields) : Nat := f.ty.bytes * 2 ^ (f.xc.extractLsb' 0 2).toNat

/-- A `.s` offset of n bytes and elements of a size in the block's scratchpad, as an offset in the core's part (R182, R184). -/
def placeS (t x n size : Nat) (s : State) : Option Nat :=
  let b := s.block (blockOf t)
  if x + n ≤ 1024 * b.launch.spKib ∧ x % size = 0 then some (b.spBase + x) else none

/-- An `.x` address (R182, R184): the core of the cluster that bits [21:20] name, and the offset in its part, where every byte belongs
to a block of the same context. -/
def placeX (t x n size : Nat) (s : State) : Option (Nat × Nat) :=
  let b := s.block (blockOf t)
  let core := b.core / 4 * 4 + x / 2 ^ 20 % 4
  if x < 2 ^ 22 ∧ x % size = 0 ∧ s.ownsScratch b.ctx core (x % 2 ^ 20) n then some (core, x % 2 ^ 20) else none

/-- The registers of one loaded element (R190): extended to 32 bits under its type, or its words. -/
def loadedElement (ty : Ty) (bs : List Byte) : List W32 :=
  match ty with
  | .s8 => [(BitVec.ofNat 8 (ofBytes bs)).signExtend 32]
  | .s16 => [(BitVec.ofNat 16 (ofBytes bs)).signExtend 32]
  | ty => words ty.regs (ofBytes bs)

/-- The registers of a load, element by element. -/
def loadedWords (f : Fields) (bs : List Byte) : List W32 :=
  (List.range (2 ^ (f.xc.extractLsb' 0 2).toNat)).flatMap fun k => loadedElement f.ty ((bs.drop (f.ty.bytes * k)).take f.ty.bytes)

/-- The registers of a group, vector or uniform, with given words, a poison bit and no tags of their own. -/
def groupValues (uniform : Bool) (first : Nat) (ws : List W32) (poison : Bool) : List (Loc × Reg) :=
  ws.mapIdx fun k w => (if uniform then Loc.s (first + k) else Loc.v (first + k), { val := w, poison := poison, tags := 0 })

/-- Offsets and bytes of the parts in which an access is performed (R305): its elements, or the two halves of each of 16 bytes. -/
def piecesOf (f : Fields) : List (Nat × Nat) :=
  if f.ty.bytes = 16 then (List.range (2 * f.count)).map fun k => (8 * k, 8)
  else (List.range f.count).map fun k => (f.ty.bytes * k, f.ty.bytes)

/-- A result that no unit has brought anything for yet. -/
def unread (f : Fields) (block : Bool) (us : List LateUnit) : Option LateLoad := some { f := f, block := block, got := us.map fun _ => none }

/-- A scratchpad load in one thread: it stands outstanding for the destination, and its parts are still to be performed; a `.s` load
consumes the tags of its sectors (R187, R190, R196, R308). An acquire, and a load of sectors with tags, is performed at once. -/
def loadScratchPart (i : Instr) (f : Fields) (place : Nat → Nat → Nat → State → Option (Nat × Nat)) (own : Bool) (t : Nat) (s : State) :
    Option State :=
  match addressS f true t s with
  | none => none
  | some (o, x) =>
    match place x (bytesAt f) f.ty.bytes s with
    | none => none
    | some (core, off) =>
      let g := (s.core core).sectorTags off (bytesAt f)
      let s1 := s.consume t (s.here t) (if own then o.tags ||| g else o.tags)
      let us := (piecesOf f).mapIdx fun k p => LateUnit.readS s1.nextId k core (off + p.1) p.2
      let s2 := (s1.addOut t (destsOf i) none f.la.toNat (acq := f.ord == 1) (late := unread f false us)).enterUnits t (some s1.seq) us
      some (if f.ord = 1 ∨ g ≠ 0 then s2.loadNow t s1.nextId else s2)

/-- `ld.c` in one thread (R69, R198): the words of window XC[6:4] that the access lies in. -/
def loadConstPart (f : Fields) (t : Nat) (s : State) : Option State :=
  match addressS f true t s with
  | none => none
  | some (o, x) =>
    let n := bytesAt f
    let w := (f.xc.extractLsb' 4 3).toNat
    if ((s.block (blockOf t)).launch.windows.getD w (0, 0)).2 < x + n ∨ x % f.ty.bytes ≠ 0 then none
    else match s.readWindow (blockOf t) w (x / 4) ((x % 4 + n + 3) / 4) with
      | .error _ => none
      | .ok r =>
        some ((s.consume t (s.here t) o.tags).addOut t (destsOf (.ldC f)) (some (groupValues (f.xc.getLsbD 3) f.dst.toNat
          (loadedWords f ((leBytes (x % 4 + n) r.val).drop (x % 4))) r.poison)) f.la.toNat true
          (s.linesAt (s.block (blockOf t)).ctx (((s.block (blockOf t)).launch.windows.getD w (0, 0)).1 + BitVec.ofNat 64 x) n))

/-- Addresses of the scale byte of the block at an address, and of the band record of its page (R126, R127). -/
def frameBytes (pg : Page) (va : W64) : W64 × W64 :=
  (BitVec.ofNat 64 (pg.frame + va.toNat % 2 ^ 16 / 4), BitVec.ofNat 64 (pg.frame + 0x4000))

/-- The units of a `.g` load whose result is `out` (R190, R191, R194, R305): of a block form the block, its scale byte and its band record
word; of another device's memory one access. -/
def globalReads (f : Fields) (va : W64) (pages frames : List Page) (out : Nat) : List LateUnit :=
  match pages, frames with
  | p :: _, sp :: bp :: _ =>
    [.read out 0 f.scope.toNat va p 4, .read out 1 f.scope.toNat (frameBytes p va).1 sp 1, .read out 2 f.scope.toNat (frameBytes p va).2 bp 4]
  | p :: ps, _ =>
    if p.peer.isSome then [.read out 0 f.scope.toNat va p (bytesAt f)]
    else (piecesOf f).mapIdx fun k x =>
      let pg := (p :: ps).getD (x.1 / f.ty.bytes) p
      .read out k f.scope.toNat (va + BitVec.ofNat 64 x.1) { pg with pa := pg.pa + x.1 % f.ty.bytes } x.2
  | [], _ => []

/-- `ld.g` in one thread (R184, R190, R191, R194, R308, R334): it stands outstanding for its destination, and its units are still to be
performed, at once where it is an acquire. One that names another device is an effect, which a thread with marks holds back. -/
def loadGlobalPart (f : Fields) (t : Nat) (s : State) : Option State :=
  match addressG f true t s with
  | none => none
  | some (o, va) =>
    match s.locate t va (s.geometry t f va).1 (s.geometry t f va).2 .load (fmtOk f) f.scope.toNat with
    | .error _ => none
    | .ok pages =>
      match s.framesOf t f va pages none with
      | .error _ => none
      | .ok frames =>
        let a := s.here t
        let s1 := s.consume t a o.tags
        let away := (pages ++ frames).any (·.peer.isSome)
        if away && s1.holds t && decide (512 ≤ (s1.core (s1.coreOf t)).held.length) then none
        else
          let us := globalReads f va pages frames s1.nextId
          let s2 := s1.addOut t (destsOf (.ldG f)) none f.la.toNat true
            (((pages ++ frames).filter fun p => p.peer.isNone).map fun p => p.pa / 128) (miss := s1.missLines t f va)
            (acq := f.ord == 1) (late := unread f (!frames.isEmpty) us)
          some (if away then s2.emit t a (.loadFab f va pages frames s1.nextId)
            else if f.ord = 1 then (s2.enterUnits t (some s2.seq) us).loadNow t s1.nextId else s2.enterUnits t (some s2.seq) us)

/-- A store, atomic or reduction with a release side (R204, R205, R347): the cache action first, and then only once the thread's earlier
accesses are performed at its scope; one that is held back goes without. -/
def ordered (f : Fields) (t : Nat) (s : State) (k : State → State) (held : Bool := true) : Option State :=
  if f.ord.getLsbD 1 && !(held && s.holds t) then
    let s1 := s.startRelease t f.scope.toNat 2
    if s1.performed t f.scope.toNat then some (k s1) else none
  else some (k s)

/-- `st.g` in one thread (R184, R188, R190, R192, R194). -/
def storeGlobalPart (f : Fields) (t : Nat) (s : State) : Option State :=
  match addressG f true t s, storeData f (lsRegs f) t s with
  | some (o, va), some d =>
    match s.locate t va (s.geometry t f va true).1 (s.geometry t f va true).2 .store (fmtOk f) f.scope.toNat with
    | .error _ => none
    | .ok pages =>
      match s.framesOf t f va pages (some d.val) with
      | .error _ => none
      | .ok frames =>
        let a := s.here t
        ordered f t (s.consume t a (o.tags ||| d.tags)) fun s => s.emit t a (.storeG f va pages frames d.val)
  | _, _ => none

/-- Offsets and bytes of the parts of a store of a data group (R190, R305). -/
def dataPieces (f : Fields) (data : Nat) : List (Nat × List Byte) :=
  if f.ty.bytes = 16 then (List.range (2 * f.count)).map fun k => (8 * k, leBytes 8 (data / 2 ^ (64 * k)))
  else (List.range f.count).map fun k => (f.ty.bytes * k, leBytes f.ty.bytes (data / 2 ^ (32 * f.ty.regs * k)))

/-- The part of n bytes at offset o of a store at a base is the last of a sector that the store covers whole (R409). -/
def closes (f : Fields) (base o n : Nat) : Bool :=
  decide ((o + n) % f.ty.bytes = 0 ∧ (base + o + n) % 32 = 0 ∧ 32 ≤ o + n)

/-- The units of a store to a scratchpad; `own` where it is the block's own by `.s`. -/
def scratchPieces (f : Fields) (core off data : Nat) (own : Bool) : List LateUnit :=
  (dataPieces f data).map fun p => .scratch core (off + p.1) p.2 own (closes f off p.1 p.2.length)

/-- `st.s` in one thread (R190, R196, R308): without marks and tags its parts are entered as units that are still to be performed; a tainted
thread writes at once, behind its own earlier accesses to the same sectors, with the tags of address, data and guard. -/
def storeSPart (f : Fields) (t : Nat) (s : State) : Option State :=
  match addressS f true t s, storeData f (lsRegs f) t s with
  | some (o, x), some d =>
    match placeS t x (bytesAt f) f.ty.bytes s with
    | none => none
    | some off =>
      let g := o.tags ||| d.tags ||| ((s.thread t).getP f.gp.toNat).tags
      ordered f t (s.consume t (s.here t) (o.tags ||| d.tags)) (held := false) fun s =>
        let core := s.coreOf t
        if (s.thread t).marks.isEmpty && g == 0 then s.enterUnits t (some s.seq) (scratchPieces f core off d.val true)
        else
          (s.settleAt t [spanS core (off / 32 * 32) ((off + bytesAt f + 31) / 32 * 32 - off / 32 * 32)]).storeS t off
            ((dataPieces f d.val).flatMap (·.2)) g
  | _, _ => none

/-- `st.x` in one thread (R190, R197). -/
def storeXPart (f : Fields) (t : Nat) (s : State) : Option State :=
  match addressS f true t s, storeData f (lsRegs f) t s with
  | some (o, x), some d =>
    match placeX t x (bytesAt f) f.ty.bytes s with
    | none => none
    | some (core, off) =>
      let a := s.here t
      ordered f t (s.consume t a (o.tags ||| d.tags)) fun s => s.emit t a (.storeX f core off d.val)
  | _, _ => none

/-- `atom.g` and `red.g` in one thread (R184, R188, R200, R202): one element of a plain page. -/
def atomGlobalPart (f : Fields) (red : Bool) (t : Nat) (s : State) : Option State :=
  match addressG f false t s, atomData f t s with
  | some (o, va), some b =>
    match s.locate t va f.ty.bytes 1 (if red then .reduce else .atomic) (·.fmt == 0) (if red then f.scope.toNat else 6) with
    | .ok [p] =>
      let a := s.here t
      ordered f t (s.consume t a (o.tags ||| b.tags)) fun s =>
        if red then s.emit t a (.redG f va p b.val)
        else (s.addOut t (destsOf (.atomG f)) none f.la.toNat true (if p.peer.isSome then [] else [p.pa / 128])
          (acq := f.ord.getLsbD 0)).emit t a (.atomG f va p b.val s.nextId)
    | _ => none
  | _, _ => none

/-- `atom.s`, which consumes the tags of its sector, and `red.s` in one thread (R196, R200, R203). -/
def atomScratchPart (f : Fields) (red : Bool) (t : Nat) (s : State) : Option State :=
  match addressS f false t s, atomData f t s with
  | some (o, x), some b =>
    match placeS t x f.ty.bytes f.ty.bytes s with
    | none => none
    | some off =>
      let a := s.here t
      let core := (s.block (blockOf t)).core
      let g := o.tags ||| b.tags ||| ((s.thread t).getP f.gp.toNat).tags
      if red then ordered f t (s.consume t a (o.tags ||| b.tags)) fun s => s.emit t a (.redS f core off b.val g)
      else
        ordered f t (s.consume t a (o.tags ||| b.tags ||| (s.core core).sectorTags off f.ty.bytes)) fun s =>
        (s.addOut t (destsOf (.atomS f)) none f.la.toNat (acq := f.ord.getLsbD 0)).emit t a (.atomL f core off b.val true g s.nextId)
  | _, _ => none

/-- `atom.x` in one thread (R197, R200). -/
def atomPeerPart (f : Fields) (t : Nat) (s : State) : Option State :=
  match addressS f false t s, atomData f t s with
  | some (o, x), some b =>
    match placeX t x f.ty.bytes f.ty.bytes s with
    | none => none
    | some (core, off) =>
      let a := s.here t
      ordered f t (s.consume t a (o.tags ||| b.tags)) fun s =>
        (s.addOut t (destsOf (.atomX f)) none f.la.toNat (acq := f.ord.getLsbD 0)).emit t a (.atomL f core off b.val false 0 s.nextId)
  | _, _ => none

/-- `bscale` in one thread (R177, R178): the band record word of the page, and the band scale in D. -/
def bscalePart (f : Fields) (t : Nat) (s : State) : Option State :=
  match addressG f false t s, s.readSrc t 1 .f32 f.sb with
  | some (o, va), .ok x =>
    if x.poison then none
    else match s.locate t va 1 1 .store (·.fmt == 1) 0 with
      | .ok [p] =>
        let record := (frameBytes p va).2
        match s.frameAt (s.coreOf t) (s.block (blockOf t)).ctx record true 0 with
        | .error _ => none
        | .ok bp =>
          let w := match fmtF32.decode x.val with
            | .fin _ n d => if n = 0 then 0x3F80 else fmtBf16.round .rup false (.fin false n (189 * d))
            | _ => 0x17FC0
          let a := s.here t
          let s1 := (s.consume t a (o.tags ||| x.tags)).emit t a (.bscale record bp w)
          some (s1.writeLoc t (.v f.dst.toNat) (BitVec.ofNat 32 w <<< 16) false (o.tags ||| x.tags))
      | _ => none
  | _, _ => none

/-! ## What a memory instruction leaves at its issue -/

/-- Registers, predicates and memory at home stand. -/
def dataStands (s s' : State) : Prop := (∀ u l, s'.getLoc u l = s.getLoc u l) ∧ s'.mem = s.mem

/-- Every scratchpad byte stands. -/
def scratchStands (s s' : State) : Prop := ∀ c j, (s'.core c).sByte j = (s.core c).sByte j

/-- Every scratchpad byte stands but some of one core. -/
def scratchBut (s s' : State) (core off n : Nat) : Prop :=
  ∀ c j, ¬(c = core ∧ off ≤ j ∧ j < off + n) → (s'.core c).sByte j = (s.core c).sByte j

/-- The loads, each with its part in one thread. -/
def loadParts : List ((Fields → Instr) × (Fields → Nat → State → Option State)) :=
  [(.ldG, loadGlobalPart), (.ldC, loadConstPart),
   (.ldS, fun f t => loadScratchPart (.ldS f) f (fun x n size s => (placeS t x n size s).map fun off => ((s.block (blockOf t)).core, off)) true t),
   (.ldX, fun f t => loadScratchPart (.ldX f) f (placeX t) false t)]

/-- The stores that enter units for their bytes, or a request, and write nothing themselves. -/
def storeParts : List ((Fields → Instr) × (Fields → Nat → State → Option State)) :=
  [(.stG, storeGlobalPart), (.stX, storeXPart)]

/-- The atomics and reductions, each with its part. -/
def atomicParts : List ((Fields → Instr) × (Fields → Nat → State → Option State)) :=
  [(.atomG, fun f => atomGlobalPart f false), (.redG, fun f => atomGlobalPart f true), (.atomS, fun f => atomScratchPart f false),
   (.redS, fun f => atomScratchPart f true), (.atomX, atomPeerPart)]

/-! ## What an access does when it is performed -/

/-- No access of any thread is still to be performed. -/
def nothingLate (s : State) : Prop := ∀ u, (s.thread u).lates = []

/-- A unit that a thread has entered comes next among those that touch what it touches: nothing before it in its thread, or in a thread of its
issue group with a lower `sr.tid`, has still to be performed (R186, R302). -/
def due (s : State) (t id : Nat) (q : Option Nat) (u : LateUnit) : Prop :=
  (s.thread t).lates.find? (·.1 == id) = some (id, q, u) ∧
  (∀ x ∈ (s.thread t).lates.takeWhile (·.1 != id), x.2.2.meets u.spans = false) ∧
  (q ≠ none → ∀ v ∈ s.crewThreads (crewOf t), v < t → ∀ x ∈ (s.thread v).lates, x.2.1 = q → x.2.2.meets u.spans = false)

/-- What a thread and its crew have still to be performed are reads and writes of plain bytes of this device. -/
def plainLates (s : State) (t : Nat) : Prop :=
  ∀ u, crewOf u = crewOf t → ∀ x ∈ (s.thread u).lates, match x.2.2 with
    | .mem _ _ pg _ _ | .read _ _ _ _ pg _ => pg.peer = none
    | .scratch .. | .readS .. => True
    | _ => False

/-- No L1 holds a line, and no write stands in an outbound path: memory is what every agent reads. -/
def uncached (s : State) : Prop := s.outbound = [] ∧ ∀ c ∈ s.cores, c.2.l1 = []

/-- n bytes at an address lie in one line, and a page places them so. -/
def inLine (va : W64) (pg : Page) (n : Nat) : Prop := pg.pa % 128 = va.toNat % 128 ∧ va.toNat % 128 + n ≤ 128

/-- Bytes of memory as they are read (R126). -/
def seen (s : State) (pa n : Nat) : List Byte := (List.range n).map fun k => s.kept (pa + k) (memGet s.mem (pa + k))

/-- What a unit of a load gets, and for which part of which result: bytes of a scratchpad, or of this device's memory where no cache holds
anything; poisoned where a sector of them is (R187, R190). -/
def pieceRead (s : State) (u : LateUnit) (out k : Nat) (g : Got) : Prop :=
  match u with
  | .readS o j core off n =>
    o = out ∧ j = k ∧ g = { bytes := (List.range n).map fun i => (s.core core).sByte (off + i), poison := (s.core core).sectorPoison off n }
  | .read o j _ va pg n =>
    o = out ∧ j = k ∧ pg.peer = none ∧ uncached s ∧ inLine va pg n ∧ 0 < n ∧ g = { bytes := seen s pg.pa n, poison := s.poisoned pg.pa n }
  | _ => False

/-- The registers of a load whose parts have given their bytes (R190, R191, R194): elements extended under the type, the values of a block
under its scale and band, or the block with its scale code and SPECIAL. -/
def resultWords (l : LateLoad) (gs : List Got) : List W32 :=
  match l.block, gs with
  | true, [b, s, r] =>
    if l.f.xc.getLsbD 2 then
      [BitVec.ofNat 32 (ofBytes b.bytes), BitVec.ofNat 32 (ofBytes s.bytes + 2 ^ 8 * (ofBytes r.bytes / 2 ^ 16 % 2))]
    else words (lsRegs l.f) (dequantised l.f (ofBytes b.bytes) (ofBytes r.bytes % 2 ^ 16 * 2 ^ 16) (ofBytes s.bytes))
  | _, gs => loadedWords l.f (gs.flatMap (·.bytes))

/-- A result that has been o is known once every part of it has been read (R190, R191, R194, R305); until then it stands as it was. -/
def known (l : LateLoad) (o o' : Outstanding) : Prop :=
  ((∃ j < l.got.length, l.got.getD j none = none) → o'.wb = o.wb) ∧
  ((∀ j < l.got.length, ∃ x, l.got.getD j none = some x ∧ x.failed = false) → (l.block = true → l.got.length = 3) →
    (l.block = false → l.f.xc.getLsbD 2 = false) →
    o'.wb = some (groupValues (l.f.xc.getLsbD 3) l.f.dst.toNat (resultWords l (l.got.filterMap fun x => x))
      ((l.got.filterMap fun x => x).any (·.poison))))

/-- The result that a thread has outstanding under an identifier. -/
def resultAt (s : State) (t out : Nat) : Option Outstanding := (s.thread t).out.find? (·.id == out)

/-- Memory after bytes are written at an address, reserved bytes of a scale frame aside (R126). -/
def stored (s s' : State) (pa : Nat) (bs : List Byte) : Prop :=
  ∀ a, memGet s'.mem a = if pa ≤ a ∧ a < pa + bs.length then s.kept a (bs.getD (a - pa) 0) else memGet s.mem a

/-- An access of a SCOPE to a page is performed at the home slice (R195, R429). -/
def goesHome (scope : Nat) (pg : Page) : Prop := 3 ≤ scope ∨ pg.synonym.isSome

/-- Bytes of a store have been performed (R195, R305, R330, R331): in memory, where the line has its home on the die; in the die's outbound path,
where it has not; in the line of the core's L1, which holds them dirty, at SCOPE 0 to 2. Nothing else of memory has changed. -/
def storedAt (s s' : State) (core : Nat) (ctx : BitVec 16) (scope : Nat) (va : W64) (pg : Page) (bs : List Byte) : Prop :=
  (goesHome scope pg → homeDie pg.pa = dieOf core → stored s s' pg.pa bs) ∧
  (goesHome scope pg → homeDie pg.pa ≠ dieOf core →
    s'.mem = s.mem ∧ ∃ w, s'.out (dieOf core) = s.out (dieOf core) ++ [w] ∧ w.pa = pg.pa ∧ w.data = bs ∧ w.half = none) ∧
  (¬goesHome scope pg → s'.mem = s.mem ∧ ∃ l, (s'.core core).line ctx va = some l ∧ l.pa + va.toNat % 128 = pg.pa ∧
    (l.data.drop (va.toNat % 128)).take bs.length = bs ∧ ∀ k < bs.length, l.dirty.getLsbD (va.toNat % 128 + k) = true)

/-- The block code of an encode store against a scale code and a band (R192): element k of the data divided by their product and rounded once to
FP4, or a zero of its sign where the product is zero. -/
def encoded (f : Fields) (data scale band : Nat) : Nat :=
  let k := (fmtE3m5.decode (scale % 256)).mul (fmtBf16.decode (band % 2 ^ 16))
  pack 4 8 fun j =>
    let x := (eight f data).getD j (.fin false 0 1)
    if k.isZero then (if x.isNeg then 8 else 0) else fmtFp4.round f.rnd false (over_ x k)

/-- The data of an encode store, or the band, is infinite or a NaN (R128, R192). -/
def writesSpecial (f : Fields) (data band : Nat) : Bool :=
  (fmtBf16.decode (band % 2 ^ 16)).isSpecial || (eight f data).any FV.isSpecial

/-- A unit of a thread is still to be performed, in the place of an issue group. -/
def stillDue (s : State) (t : Nat) (q : Option Nat) (u : LateUnit) : Prop := ∃ id, (id, q, u) ∈ (s.thread t).lates

/-- The nibbles of a block code are still to be written (R305). -/
def nibblesDue (s : State) (t : Nat) (q : Option Nat) (scope : Nat) (va : W64) (pg : Page) (code : Nat) : Prop :=
  ∀ k < 8, stillDue s t q (.nibble scope (va + BitVec.ofNat 64 (k / 2)) { pg with pa := pg.pa + k / 2 } (k % 2 == 1) (code / 2 ^ (4 * k) % 16))

/-- The units that a `.g` store of this device enters (R190, R192, R194, R305). -/
def globalPieces (f : Fields) (a va : W64) (pages frames : List Page) (data : Nat) : List LateUnit :=
  let nibbles := fun (p : Page) (code : Nat) => (List.range 8).map fun k => LateUnit.nibble f.scope.toNat (va + BitVec.ofNat 64 (k / 2))
    { p with pa := p.pa + k / 2 } (k % 2 == 1) (code / 2 ^ (4 * k) % 16)
  match pages, frames with
  | p :: _, sp :: r =>
    let bp := r.headD sp
    let (sa, ba) := frameBytes p va
    if !f.xc.getLsbD 2 then [.encode f a va p sp bp data false none none]
    else if data.testBit 40 then
      nibbles p 0 ++ [.mem f.scope.toNat sa sp (leBytes 1 0) false, .mem f.scope.toNat ba bp (leBytes 4 0x17FC0) false]
    else nibbles p data ++ [.mem f.scope.toNat sa sp (leBytes 1 (data / 2 ^ 32)) false]
  | ps, _ => (dataPieces f data).flatMap fun x =>
      match ps[x.1 / f.ty.bytes]? with
      | some p => [.mem f.scope.toNat (va + BitVec.ofNat 64 x.1) { p with pa := p.pa + x.1 % f.ty.bytes } x.2
          (closes f va.toNat x.1 x.2.length)]
      | none => []

/-- A byte with its high or low four bits replaced. -/
def withNibble (hi : Bool) (v : Nat) (b : Byte) : Byte :=
  if hi then BitVec.ofNat 4 v ++ b.extractLsb' 0 4 else b.extractLsb' 4 4 ++ BitVec.ofNat 4 v

/-! ## Queues, reckoning state, tiles -/

/-- `qpush` in one thread (R291): the entry goes behind the others. -/
def qpushPart (f : Fields) (t : Nat) (s : State) : Option State :=
  match s.readSrc t f.ty.regs f.ty f.sa with
  | .error _ => none
  | .ok o =>
    let q := f.dst.toNat
    some (s.modBlock (blockOf t) fun b =>
      { b with queues := tset b.queues q (tgetD b.queues q [] ++ [{ val := BitVec.ofNat 64 o.val, poison := o.poison }]) })

/-- `qpop` in one thread (R291): the oldest entry leaves its queue for the destination. -/
def qpopPart (f : Fields) (q t : Nat) (s : State) : Option State :=
  match tgetD (s.block (blockOf t)).queues q [] with
  | [] => none
  | e :: rest =>
    let s' := s.modBlock (blockOf t) fun b => { b with queues := tset b.queues q rest }
    some (s'.writeGroup t .v f.dst.toNat (words f.ty.regs e.val.toNat) e.poison 0)

/-- The value of `qstat` (R292): XC[1:0] selects the entries of a queue, the state of the sequencer or the address of its next word, which
is the one after an `mbar` that waits (R282). -/
def queueStatus (f : Fields) (b : Block) : Nat :=
  let n := (tgetD b.queues (f.xc.extractLsb' 2 4).toNat []).length
  match (f.xc.extractLsb' 0 2).toNat with
  | 0 => n % 32 + if 16 ≤ n then 32 else 0
  | 1 =>
    match b.sequencer.st with
    | .running => 0 | .waiting => 1 | .ended => 2
    | .stopped => 3 + 256 * b.sequencer.detail
  | _ => (match b.sequencer.wait with | .bar _ => b.sequencer.pc + 12 | _ => b.sequencer.pc).toNat % 2 ^ 32

/-- The value of `tags` (R254): the tag set and the poison bit of a register, the register tag union, or the AID in a slot. -/
def tagsValue (f : Fields) (t : Nat) (s : State) : Option Nat :=
  match (f.xc.extractLsb' 0 2).toNat with
  | 0 =>
    match s.readSrc t 1 .b32 f.sa with
    | .error _ => none
    | .ok o => some (o.tags.toNat + if o.poison then 2 ^ 8 else 0)
  | 1 => some (s.thread t).tagUnion.toNat
  | _ =>
    let x := tgetD (s.core (s.block (blockOf t)).core).slots (match f.sa with | .imm p => p.toNat | _ => 0) {}
    some (if x.kind = .free then 0 else x.aid.toNat)

/-- The value that a drain delivers (R134): a flagged row or column gives the canonical NaN, anything else is rounded once, and a zero
is +0. -/
def drained (x : Tile) (m : Fmt) (rnd : Rnd) (sat : Bool) (i n : Nat) : Nat :=
  let bits := tgetD x.el (128 * i + n) 0
  let band := fun b : Option (BitVec 16) => fmtBf16.decode (b.getD 0x3F80).toNat
  let v : FV := match x.mode with
    | .empty => .fin false 0 1
    | .f64 => fmtF64.decode bits.toNat
    | .fix64 => ((FV.fin (decide (bits.toInt < 0)) bits.toInt.natAbs (2 ^ 16)).mul (band (if i < 64 then x.bandA0 else x.bandA1))).mul
        (band (if n < 64 then x.bandB0 else x.bandB1))
  if x.rowFlags.getLsbD i || x.colFlags.getLsbD n then m.nanCode
  else if (m.decode (m.round rnd sat v)).isZero then 0 else m.round rnd sat v

/-- The registers of an `accld` (R208): COUNT of one element each, or of two in bfloat16. -/
def drainedWords (f : Fields) (x : Tile) (i n : Nat) : List W32 :=
  (List.range f.count).map fun k =>
    if f.ty = .f32 then BitVec.ofNat 32 (drained x fmtF32 f.rnd f.sat i (n + k))
    else BitVec.ofNat 32 (drained x fmtBf16 f.rnd f.sat i (n + 2 * k) + 2 ^ 16 * drained x fmtBf16 f.rnd f.sat i (n + 2 * k + 1))

/-- `accld` in one thread (R208), where no element it reads has an uncorrectable error. -/
def accldPart (f : Fields) (tile t : Nat) (s : State) : Option State :=
  match s.readSrc t 1 .b32 f.sb with
  | .error _ => none
  | .ok o =>
    let e := if f.ty = .f32 then f.count else 2 * f.count
    let i := o.val % 2 ^ 7
    let n := o.val / 2 ^ 8 % 2 ^ 7
    let x := tgetD (s.block (blockOf t)).tiles tile {}
    if o.poison ∨ n % e ≠ 0 ∨ (∃ k < e, 128 * i + n + k ∈ x.bad) then none
    else some ((s.consume t (s.here t) o.tags).addOut t (destsOf (.accld f))
      (some (groupValues false f.dst.toNat (drainedWords f x i n) false)) f.la.toNat)

/-- The binary64 element of a tile once it is promoted (R131), as a bit pattern. -/
def promotedElem (x : Tile) (i n : Nat) : Nat :=
  let bits := tgetD x.el (128 * i + n) 0
  let band := fun b : Option (BitVec 16) => fmtBf16.decode (b.getD 0x3F80).toNat
  let a := band (if i < 64 then x.bandA0 else x.bandA1)
  let b := band (if n < 64 then x.bandB0 else x.bandB1)
  match x.mode with
  | .fix64 =>
    if bits = 0 ∨ a.isSpecial ∨ b.isSpecial then 0
    else fmtF64.round .rne false (((FV.fin (decide (bits.toInt < 0)) bits.toInt.natAbs (2 ^ 16)).mul a).mul b)
  | _ => bits.toNat

/-- The tile after `accst` (R209): binary64, the named elements of row i replaced, the rest promoted; the band record, KCOUNT and the
flags stay. -/
def storedTile (f : Fields) (x y : Tile) (i n data : Nat) : Prop :=
  y.mode = .f64 ∧ y.bandA0 = x.bandA0 ∧ y.bandA1 = x.bandA1 ∧ y.bandB0 = x.bandB0 ∧ y.bandB1 = x.bandB1 ∧ y.kcount = x.kcount ∧
  y.rowFlags = x.rowFlags ∧ y.colFlags = x.colFlags ∧
  (∀ k < f.count, tgetD y.el (128 * i + n + k) 0 =
    BitVec.ofNat 64 (fmtF64.round .rne false ((fmtOf f.ty).decode (data / 2 ^ (32 * f.ty.regs * k) % 2 ^ (32 * f.ty.regs))))) ∧
  ∀ r c, r < 128 → c < 128 → (r = i → n ≤ c → n + f.count ≤ c) →
    tgetD y.el (128 * r + c) 0 = BitVec.ofNat 64 (promotedElem x r c)

/-- What a fence waits for (R204, R205, R342): its thread's accesses are performed at its scope, of copies' acknowledgements only a release's;
and at SCOPE 3 or wider no line of the core's L1 holds dirty bytes that the thread wrote. -/
def fenceDone (s : State) (t scope ord : Nat) : Prop :=
  s.performed t scope 0 (ord != 1) = true ∧ (3 ≤ scope → ∀ l ∈ (s.core (s.coreOf t)).l1, ∀ w ∈ l.by_, w.2 ≠ t)

/-! ## Barriers -/

/-- A barrier with one more arrival (R243): EXPECT set by the first one of the phase, 0 standing for ALL. -/
def arrivedBarrier (s : State) (b : Barrier) (n : Nat) (t : Option Nat) : Barrier :=
  { b with
    expect := some (b.expect.getD n), arrived := b.arrived + 1,
    rtags := b.rtags ||| (match t with | some t => (s.thread t).tagUnion | none => 0),
    arrivals := b.arrivals ++ (match t with | some t => [(t, s.seq)] | none => []) }

/-- Complete() (R243) for the arrival of t. -/
def phaseDone (s : State) (blk k : Nat) (x : Barrier) (t : Option Nat) : Prop :=
  match x.expect with
  | none => False
  | some 0 => ∀ u ∈ s.blockThreads blk, (s.thread u).exited = true ∨ (s.thread u).arrived.getLsbD k = true ∨ t = some u
  | some n => n ≤ x.arrived

/-! ## The matrix sequencer -/

/-- The state in which a stream word acts: its block's sequencer runs and stands at the next word. -/
def enteredStream (s : State) (b : Nat) : State :=
  let a := (s.block b).sequencer.pc
  s.modSeq b fun q => { q with pc := a + 12, st := .running, wait := .none }

/-- The value of a source of `mset` or `madd` that is no queue (R281, R282). -/
def streamValue (s : State) (b : Nat) (ty : Ty) : Src → Option W64
  | .imm p => some (BitVec.ofNat 64 (immVal ty p))
  | .special (.stream n) => some (tgetD (s.block b).sequencer.x n.toNat 0)
  | .special (.sr r) => some (BitVec.ofNat 64 (s.readSr (threadKey b 0 0) r))
  | .cwin w off =>
    match s.readWindow b w.toNat off.toNat 2 with
    | .ok o => if o.poison then none else some (BitVec.ofNat 64 o.val)
    | .error _ => none
  | _ => none

/-- The state and the value once a source of `mset` or `madd` is read: a queue gives up its oldest entry, which is not poisoned. -/
def streamSource (s : State) (b : Nat) (ty : Ty) (src : Src) : Option (W64 × State) :=
  match src with
  | .special (.queue q) =>
    match tgetD (s.block b).queues q.toNat [] with
    | [] => none
    | e :: rest =>
      if e.poison then none
      else some (e.val, s.modBlock b fun b => { b with queues := tset b.queues q.toNat rest })
  | src => (streamValue s b ty src).map fun v => (v, s)

/-- The sequencer words. -/
def streamWords : List (Fields → Instr) :=
  [.mma, .mclr, .mbar, .mloop, .mset, .madd, .mjmp, .mend]

/-- The signed integer in units of 2^-16 that the product of two FP4 elements under their scales stands for (R130). -/
def productUnits (x y : FV) : Int :=
  match x, y with
  | .fin p a b, .fin q c d => if p = q then ((a * c) * 2 ^ 16 / (b * d) : Nat) else -(((a * c) * 2 ^ 16 / (b * d) : Nat) : Int)
  | _, _ => 0

/-- An operand of `mma` on its core: the value of element k of row i, by its code and its scale (R284, R285). -/
def operandValue (c : Core) (ty : Ty) (o : Operand) (add i k : Nat) : FV :=
  let row := add + o.data + i * o.stride
  let byte := fun x => ((tget c.scratch x).map fun b => b.val.toNat).getD 0
  match ty with
  | .fp4x8 => (fmtFp4.decode (byte (row + k / 2) / 16 ^ (k % 2) % 16)).mul (fmtE3m5.decode (byte (add + o.scales + i * o.sstride + k / 8)))
  | .bf16x2 => fmtBf16.decode (byte (row + 2 * k) + 256 * byte (row + 2 * k + 1))
  | ty => (fmtOf ty).decode (byte (row + k))

/-- An `mma` whose checks pass (R283 to R286, R288): its shape, its operands with the cores they lie on and what is added to their
offsets there; the engine is free, every sector is clear and untagged, the tile is there and has no uncorrectable error. -/
structure MmaReady (s : State) (f : Fields) (b : Nat) (m n k : Nat) (oa ob : Operand) (ca aa cb ab : Nat) : Prop where
  stream : s.cur = some (.stream b)
  shape : (tgetD (s.block b).sequencer.x (f.xc.extractLsb' 0 5).toNat 0).toNat = m + 2 ^ 8 * n + 2 ^ 16 * k
  rows : m ≤ 128 ∧ n ≤ 128 ∧ k ≤ 16384 ∧ k % 8 = 0 ∧ 0 < m ∧ 0 < n ∧ 0 < k
  tile : f.dst.toNat < (s.block b).launch.tiles
  here : (tget s.blocks b).isSome
  sa : ∃ r, f.sa = .special (.stream r) ∧
    oa = operandOf (tgetD (s.block b).sequencer.x r.toNat 0).toNat (tgetD (s.block b).sequencer.x (r.toNat + 1) 0).toNat ∧
    operandOk (f.ty == .fp4x8) (tgetD (s.block b).sequencer.x r.toNat 0).toNat (tgetD (s.block b).sequencer.x (r.toNat + 1) 0).toNat = true
  sb : ∃ r, f.sb = .special (.stream r) ∧
    ob = operandOf (tgetD (s.block b).sequencer.x r.toNat 0).toNat (tgetD (s.block b).sequencer.x (r.toNat + 1) 0).toNat ∧
    operandOk (f.ty == .fp4x8) (tgetD (s.block b).sequencer.x r.toNat 0).toNat (tgetD (s.block b).sequencer.x (r.toNat + 1) 0).toNat = true
  home : s.operandHome b oa = (ca, aa) ∧ s.operandHome b ob = (cb, ab)
  bounds : s.operandBounds b oa (oa.ranges f.ty m k) = none ∧ s.operandBounds b ob (ob.ranges f.ty n k) = none
  engine : (s.core (s.block b).core).engine = none
  sectors : (∀ r ∈ oa.ranges f.ty m k, (s.core ca).sectorTags (aa + r.1) r.2 = 0 ∧ (s.core ca).sectorPoison (aa + r.1) r.2 = false) ∧
    ∀ r ∈ ob.ranges f.ty n k, (s.core cb).sectorTags (ab + r.1) r.2 = 0 ∧ (s.core cb).sectorPoison (ab + r.1) r.2 = false
  sound : (tgetD (s.block b).tiles f.dst.toNat {}).absent = none ∧ (tgetD (s.block b).tiles f.dst.toNat {}).bad = []

/-- The tile that an `mma` starts from: cleared with `.clear` (R286). -/
def mmaFrom (s : State) (f : Fields) (b : Nat) : Tile := if f.xc.getLsbD 5 then {} else tgetD (s.block b).tiles f.dst.toNat {}

/-- What an `mma` does outside its tile: the engine of the core is busy, the sequencer stands at the next word, and nothing else
changes. -/
def mmaFrame (s s' : State) (f : Fields) (b : Nat) : Prop :=
  let core := (s.block b).core
  s' = { s with blocks := s'.blocks, cores := s'.cores } ∧
  (s'.core core) = { s.core core with engine := some (b, f.dst.toNat) } ∧ (∀ c, c ≠ core → s'.core c = s.core c) ∧
  (∀ u, u ≠ b → s'.block u = s.block u) ∧
  s'.block b = { s.block b with
    sequencer := { (s.block b).sequencer with pc := (s.block b).sequencer.pc + 12, st := .running, wait := .none }
    tiles := (s'.block b).tiles } ∧
  ∀ n, n ≠ f.dst.toNat → tgetD (s'.block b).tiles n {} = tgetD (s.block b).tiles n {}

/-- The band scales that the record of a tile holds are those of the operands (R131). -/
def bandsAgree (x : Tile) (a b : Operand) : Prop :=
  (∀ w, x.bandA0 = some w → w.toNat = a.band0) ∧ (∀ w, x.bandA1 = some w → w.toNat = a.band1) ∧
  (∀ w, x.bandB0 = some w → w.toNat = b.band0) ∧ ∀ w, x.bandB1 = some w → w.toNat = b.band1

/-- The band scale of a row or column of an operand (R286). -/
def bandValue (o : Operand) (row : Nat) : FV := fmtBf16.decode (if row < 64 then o.band0 else o.band1)

/-- The sums of the groups of eight products in an element of binary64, each rounded once (R132, R133); a term with an infinite or NaN
factor counts as zero. -/
def sumGroups (ty : Ty) (k : Nat) (a b : Nat → FV) (bandA bandB : FV) (old : Nat) : Nat :=
  (List.range (k / 8)).foldl (fun acc g =>
    let term := fun j =>
      let x := a (8 * g + j)
      let y := b (8 * g + j)
      if x.isSpecial || y.isSpecial || (ty = .fp4x8 && (bandA.isSpecial || bandB.isSpecial)) then .fin false 0 1
      else if ty = .fp4x8 then ((x.mul y).mul bandA).mul bandB else x.mul y
    let sum := (List.range 8).foldl (fun acc j => acc.add .rne (term j)) (.fin false 0 1)
    fmtF64.round .rne false ((fmtF64.decode acc).add .rne (if sum.isZero then .fin false 0 1 else sum))) old

/-! ## Monitors, assumptions, messages -/

/-- A watched word satisfies its condition, or is poisoned (R246). -/
def satisfied (f : Fields) (x b : Nat) (poison : Bool) : Bool := poison || cond (f.xc.extractLsb' 0 3).toNat (int f x) (int f b)

/-- The registers from `first` on hold the words of a value, with a poison bit. -/
def holdsWords (s : State) (t first n x : Nat) (poison : Bool) : Prop :=
  ∀ k < n, (s.getLoc t (.v (first + k))).val = BitVec.ofNat 32 (x / 2 ^ (32 * k)) ∧ (s.getLoc t (.v (first + k))).poison = poison

/-- A wait that ends at once has written its destination and goes on; another waits at its word (R246). No other register is written. -/
def waitOutcome (s1 s' : State) (f : Fields) (t : Nat) (a : W64) (isGlobal : Bool) (pa x b : Nat) (poison : Bool) : Prop :=
  (satisfied f x b poison = true →
    holdsWords s' t f.dst.toNat f.ty.regs x poison ∧ (s'.thread t).pc = a + 12 ∧ (s'.thread t).wait = .none) ∧
  (satisfied f x b poison = false →
    (∀ n, (s'.thread t).getV n = (s1.thread t).getV n) ∧ (s'.thread t).pc = a ∧
    ∃ w, (s'.thread t).wait = .watch w ∧ w.global = isGlobal ∧ w.pa = pa ∧ w.bytes = f.ty.bytes ∧ w.cmp = BitVec.ofNat 64 b ∧
      w.dst = f.dst.toNat ∧ w.armed = true ∧ w.cond = (f.xc.extractLsb' 0 3).toNat) ∧
  ∀ u l, ¬mayWrite [t] ((List.range f.ty.regs).map fun k => Loc.v (f.dst.toNat + k)) u l → s'.getLoc u l = s1.getLoc u l

/-- A slot of a core. -/
def slotAt (s : State) (core k : Nat) : Slot := tgetD (s.core core).slots k {}

/-- The lowest-numbered free slot (R351). -/
def lowestFree (s : State) (core k : Nat) : Prop :=
  k < 8 ∧ (slotAt s core k).kind = .free ∧ ∀ j < k, (slotAt s core j).kind ≠ .free

/-- The AID of a slot's next generation (R249, R351). -/
def nextAid (s : State) (core k : Nat) : W32 :=
  BitVec.ofNat 32 (core % 2 ^ 8 * 2 ^ 24 + k * 2 ^ 21 + ((slotAt s core k).gen % (2 ^ 21 - 1) + 1))

/-- A guess has been made (R250, R252): the slot is taken for its thread, the AID written, and the value group holds the presumption
under the slot's tag, or in the wait form is still to be written. No other register is written, and no memory. -/
def guessed (s s' : State) (f : Fields) (t : Nat) (a : W64) (b : Opd) (wait : Bool) (watch : Option GuessWatch) : Prop :=
  let core := (s.block (blockOf t)).core
  let n := f.ty.regs
  ∃ k, lowestFree s core k ∧ (slotAt s' core k).kind = .guess ∧ (slotAt s' core k).aid = nextAid s core k ∧
    (slotAt s' core k).owner = t ∧ (slotAt s' core k).watch = watch ∧ (slotAt s' core k).val = BitVec.ofNat 64 b.val ∧
    (slotAt s' core k).waitForm = wait ∧
    holdsWords s' t (f.dst.toNat + n) n (nextAid s core k).toNat false ∧ (s'.thread t).pc = a + 12 ∧
    (wait = false → holdsWords s' t f.dst.toNat n b.val b.poison ∧
      (∀ j < n, (s'.getLoc t (.v (f.dst.toNat + j))).tags.getLsbD k = true) ∧ ∃ m ∈ (s'.thread t).marks, m.slot = k) ∧
    (wait = true → (∀ j < n, s'.getLoc t (.v (f.dst.toNat + j)) = s.getLoc t (.v (f.dst.toNat + j))) ∧
      (nextAid s core k, f.dst.toNat, n) ∈ (s'.thread t).deferred) ∧
    s'.mem = s.mem ∧ ∀ u l, ¬mayWrite [t] ((List.range (2 * n)).map fun j => Loc.v (f.dst.toNat + j)) u l → s'.getLoc u l = s.getLoc u l

/-- Nothing a thread holds carries the tag of a slot. -/
def untagged (s : State) (t k : Nat) : Prop :=
  (∀ n, ((s.thread t).getV n).tags.getLsbD k = false) ∧ (∀ n, ((s.thread t).getP n).tags.getLsbD k = false) ∧
  (∀ n, ((s.crew (crewOf t)).getS n).tags.getLsbD k = false) ∧ ∀ m ∈ (s.thread t).marks, m.slot ≠ k

/-- A guess has room in the undo log for its two groups, where it begins its thread's marks (R357). -/
def mayGuess (s : State) (t : Nat) (a : W64) (f : Fields) (b : Opd) : Prop :=
  s.waitForm t a ((s.thread t).tagUnion ||| b.tags) = true ∨ (s.consume t a b.tags).logRoom t (16 * f.ty.regs) = true

/-- There is room in the undo log of a thread for n bytes, or it has nothing to log: no mark, and no tags to consume (R356, R357). -/
def mayLog (s : State) (t n : Nat) (g : Tags) : Prop := ((s.thread t).marks = [] ∧ g = 0) ∨ s.logRoom t n = true

/-- The words of a message as they stand in the sender's registers (R259). -/
def messageWords (f : Fields) (t : Nat) (s : State) : List (W32 × Bool) :=
  let first := match f.sb with | .reg r _ _ => r.toNat | _ => 0
  (List.range f.count).map fun k => (((s.thread t).getV (first + k)).val, ((s.thread t).getV (first + k)).poison)

/-- A message has entered the inbox of a block, and its sender goes on with pd = 1, no other register written (R260). -/
def delivered (s s' : State) (t uid pd : Nat) (ws : List (W32 × Bool)) (a : W64) : Prop :=
  (∃ m, (s'.block uid).inbox = (s.block uid).inbox ++ [m] ∧ m.words = ws ∧ m.sender = some t) ∧
  (s'.thread t).pc = a + 12 ∧ (s'.thread t).wait = .none ∧ (pd ≠ 15 → ((s'.thread t).getP pd).val = true ∧ ((s'.thread t).getP pd).poison = false) ∧
  ∀ u l, ¬mayWrite [t] [.p pd] u l → s'.getLoc u l = s.getLoc u l

/-- A result of a thread, with the registers it will write and their values where they are known. -/
def owes (s : State) (t : Nat) (dests : List Loc) (wb : Option (List (Loc × Reg))) : Prop :=
  ∃ o ∈ (s.thread t).out, o.dests = dests ∧ o.wb = wb

/-! ## Multicast groups and copy commands -/

/-- A group record of R212 in a block's scratchpad: its members, distinct, each of 12 bits. -/
def groupRecordAt (c : Core) (off : Nat) (ms : List (BitVec 12)) : Prop :=
  0 < ms.length ∧ ms.length ≤ 4096 ∧ ms.Nodup ∧ ofBytes (c.sRead off 8) = ms.length ∧
  ∀ k < ms.length, ofBytes (c.sRead (off + 8 + 2 * k) 2) = (ms.getD k 0).toNat

/-- A handle names an open group of a context (R213): INDEX, GEN, and zeros above. -/
def opens (s : State) (ctx : BitVec 16) (h : Nat) (g : Group) : Prop :=
  tget (s.ctx ctx).groups (h % 2 ^ 6) = some g ∧ h = h % 2 ^ 6 + 2 ^ 6 * g.gen ∧ g.gen < 2 ^ 20

/-- The checks of a group access on the issuing device (R184, R215): every byte canonical, and the access aligned to its size. -/
def groupAddressOk (va : W64) (n : Nat) : Prop :=
  (∀ k < n, (va + BitVec.ofNat 64 k).extractLsb' 56 8 = 0 ∨ (va + BitVec.ofNat 64 k).extractLsb' 56 8 = 0xFF) ∧ va.toNat % n = 0

/-- A request of the class of multicast and reduction (R437). -/
def ofGroup : ReqKind → Bool
  | .ldred .. | .stmc .. | .cpym _ => true
  | _ => false

/-- A port takes a new request of a group operation, and none waits for one before it (R437, R438). -/
def groupPort (s : State) : Prop :=
  (∀ r ∈ s.unsent, ofGroup r.kind = false) ∧ ∃ p < 32, (tgetD s.ports p {}).state = 2 ∧ (tgetD s.ports p {}).paused.getLsbD 2 = false ∧
    (s.requests.filter (·.port == p)).length < 4096

/-- A request of thread t to the members of a group has been sent, or waits for a port (R211, R438). -/
def sentTo (s s' : State) (t : Nat) (g : Group) (va : W64) (data : List Byte) : Prop :=
  ∃ r, (groupPort s → s'.requests = s.requests ++ [r] ∧ s'.unsent = s.unsent) ∧
    (¬groupPort s → s'.unsent = s.unsent ++ [r] ∧ s'.requests = s.requests) ∧
    r.members = g.members ∧ r.t = t ∧ r.ctx = (s.block (blockOf t)).ctx ∧ r.pa = va.toNat ∧ r.data = data ∧ r.answers = [] ∧ r.issued = s.cycle

/-- Bytes of a command record with NDIM dimensions (R294, R295). -/
def recordBytes (op ndim : Nat) : Nat := if op = 1 then 56 else 32 + if ndim % 16 ≤ 12 then 24 * (ndim % 16) else 0

/-- The copy words with the number of their operation. -/
def copyWords : List ((Fields → Instr) × Nat) := [(.cpyt, 0), (.cpyg, 1), (.cpym, 2)]

/-- A reserved field, kind or combination of a command record (R294, R295, R297). -/
def reservedIn (c : Copy) : Prop :=
  c.ctrl 32 32 ≠ 0 ∨ c.ctrl 12 5 ≠ 0 ∨ c.word 24 / 2 ^ 20 % 2 ^ 12 ≠ 0 ∨ c.ctrl 19 3 = 7 ∨ 2 < c.srcKind ∨ 3 < c.dstKind ∨
  (c.ctrl 22 1 = 1 ∧ c.cwoff % 4 ≠ 0) ∨ (c.ctrl 28 4 ≠ 0 ∧ (c.op ≠ 0 ∨ c.dstKind ≠ 1)) ∨
  (c.op = 1 ∧ (c.ndim ≠ 0 ∨ c.srcKind ≠ 0 ∨ c.word 32 / 2 ^ 20 ≠ 0 ∨ c.word 32 % 8 ≠ 0)) ∨
  (c.op ≠ 1 ∧ (c.ndim < 1 ∨ 12 < c.ndim ∨ (∃ j < c.ndim, c.word (32 + 24 * j) / 2 ^ 32 ≠ 0) ∨ (c.dim 0).2 ≠ (0, 0) ∨
    (c.op = 2 ∧ (1 < c.srcKind ∨ c.dstKind ≠ 0))))

/-- A command is about to end with a status (R297): its payload has moved, or it was killed, or its record is refused. -/
def endsWith (c : Copy) (status : Nat) : Prop :=
  (c.moved = true ∧ status = (if c.result ≠ 0 ∧ c.result ≠ 0x13 then c.result else if c.status ≠ 0 then c.status else c.result)) ∨
  (c.moved = false ∧ c.killed = true ∧ status = 0x12) ∨ (c.moved = false ∧ c.killed = false ∧ reservedIn c ∧ status = 0x14)

/-- A command that moves n bytes once from its block's scratchpad to its block's scratchpad, and reports nowhere (R294, R295). -/
structure MovesOwn (s : State) (id : Nat) (c : Copy) (src dst n : Nat) : Prop where
  op : c.op = 0
  ctrl : c.word 16 = 1 + 2 ^ 4 + 2 ^ 8
  words : c.word 0 = src ∧ c.word 8 = dst ∧ c.word 24 = 0 ∧ c.word 32 = n ∧ c.word 40 = 0 ∧ c.word 48 = 0
  length : c.record.length = 56
  core : c.core = (s.block c.blk).core
  here : (s.block c.blk).stage ≠ .gone
  bounds : 0 < n ∧ n < 2 ^ 32 ∧ src + n ≤ 2 ^ 20 ∧ dst + n ≤ 2 ^ 20 ∧
    src + n ≤ 1024 * (s.block c.blk).launch.spKib ∧ dst + n ≤ 1024 * (s.block c.blk).launch.spKib
  apart : src + n ≤ dst ∨ dst + n ≤ src
  clean : (s.core c.core).stags = [] ∧ (s.core c.core).spoison = []
  fresh : c.faulted = false ∧ c.killed = false ∧ c.moved = false ∧ c.worded = false ∧ c.status = 0 ∧ c.got = [] ∧ c.runsDone = 0 ∧
    c.ahead = [] ∧ c.rows = [] ∧ c.poisoned = false ∧ c.lost = [] ∧ c.left = []
  idle : (s.allRequests.any fun r => r.kind == .cpym id) = false

/-! ## Events of the cores, of memory and of the device's registers -/

/-- The registers and predicates of every thread, and memory, stand. -/
def sameData (s s' : State) : Prop :=
  (∀ t, (s'.thread t).v = (s.thread t).v ∧ (s'.thread t).p = (s.thread t).p) ∧ (∀ c, (s'.crew c).s = (s.crew c).s) ∧ s'.mem = s.mem

/-- The registers of BAR 0 that read back what is written, and the bits of them that hold it (R371). -/
def plainRegisters : List (Nat × W64) :=
  [(0x0008, 0x000FFFFFFFFFF000), (0x0020, 0x000FFFFFFFFFF000), (0x0028, 0xF), (0x0038, 0xFFFFFFFF), (0x0050, 0x000FFFFFFFFFF000),
   (0x0060, 0xFFFFFFFFFFFF0000), (0x0088, 0xFFFFFF), (0x00B0, 0xFFFFFFFFFFFFFFFF), (0x0400, 0x000003FFFF00FFFF),
   (0x0408, 0xFFFFFFFFFFFFFFFF), (0x0440, 0x000FFFFFFFFFF000), (0x0448, 0xF), (0x0458, 0xFFFFFFFF), (0x0468, 0x7FFFF)]

/-- The offsets of BAR 0 that take a write: registers, commands, and the kicks, the nonce and the queue descriptors (R371). -/
def writable (off : Nat) : Prop :=
  off ∈ plainRegisters.map (·.1) ++ [0x0010, 0x0018, 0x0058, 0x0068, 0x0098, 0x00A0, 0x0600, 0x0608] ∨
    (0x0100 ≤ off ∧ off < 0x0180) ∨ (0x0560 ≤ off ∧ off < 0x0580) ∨ (0x10000 ≤ off ∧ off < 0x14000)

/-- The command that a write to a command register carries out, none where the value names none (R277, R389, R426, R427, R458). -/
def commandOf (off : Nat) (v : W64) : Option Instr :=
  let ctx := v.extractLsb' 0 16
  let cmd := (v.extractLsb' 16 4).toNat
  if off = 0x0010 then [none, some (.preempt ctx), some (.restore ctx), some (.switch ctx), some (.end_ ctx)].getD cmd none
  else if off = 0x0058 then some (if v.getLsbD 16 then .xlresKill ctx else .xlresUnpark ctx)
  else if off = 0x0068 then (if v.getLsbD 63 then some (.xlinvcmd ctx (v.extractLsb' 16 32)) else none)
  else if off = 0x00A0 then [none, some (.attach ctx), some (.detach ctx), some (.halt ctx (v.getLsbD 22)),
    some (.resume ctx (v.getLsbD 22)), some (.step ctx (v.extractLsb' 20 2))].getD cmd none
  else if off = 0x0600 then
    [none, some .begin_, some (.commit (v.extractLsb' 32 32)), some .abort].getD (v.extractLsb' 0 2).toNat none
  else if off = 0x0608 then some (.fwdata v)
  else if 0x10000 ≤ off ∧ off < 0x14000 ∧ off % 8 = 0 then some (.qdescWrite ((off - 0x10000) / 16) (off % 16 == 8) v)
  else none

/-- The offsets of the commands. -/
def commandOffsets (off : Nat) : Prop :=
  off ∈ [0x0010, 0x0058, 0x0068, 0x00A0, 0x0600, 0x0608] ∨ (0x10000 ≤ off ∧ off < 0x14000 ∧ off % 8 = 0)

/-- A unit reads for the result of an identifier. -/
def readsFor (u : LateUnit) (out : Nat) : Prop :=
  match u with
  | .read o .. | .readS o .. => o = out
  | _ => False

/-- CLOCK of POWSTAT (R457, R459): 700 while step 2 of a start runs, else the lower of the clocks that the two causes allow. -/
def clockOf (h : Helm) : Nat := if h.bootStep = 2 then 700 else min h.powClock h.hotClock

/-- An access issued in a cycle has stood for the fabric timeout (R433, R443). -/
def stoodFor (s : State) (since : Nat) : Prop := since + max s.helm.fabTo 1024 ≤ s.cycle

/-- A PC group is owed an issue (R41 step 1, R461). -/
def owedIssue (g : PcGroup) : Prop := g.fair ≠ 0 ∧ g.fair ≤ g.waitCnt

/-- A group is one that R41 lets be chosen among ready groups: of those owed an issue, with the largest wait count and then the earliest
formation cycle; else the one that issued last; else the earliest formed, then placed (R461), then lowest. -/
def mayChoose (gs : List PcGroup) (g : PcGroup) : Prop :=
  g ∈ gs ∧
  ((∃ h ∈ gs, owedIssue h) → owedIssue g ∧
    ∀ h ∈ gs, owedIssue h → h.waitCnt < g.waitCnt ∨ (h.waitCnt = g.waitCnt ∧ g.form ≤ h.form)) ∧
  ((∀ h ∈ gs, ¬owedIssue h) → (∃ h ∈ gs, h.hot = true) → g.hot = true) ∧
  ((∀ h ∈ gs, ¬owedIssue h ∧ h.hot = false) → ∀ h ∈ gs, g.form ≤ h.form ∧
    (h.form = g.form → before4 h.placed g.placed = false ∧ (h.placed = g.placed → g.pc.toNat ≤ h.pc.toNat)))

/-- Firmware staging as FWSTAT shows it (R458): OPEN, STAGED, ERROR, REJECTED and the bytes received. -/
def staging (s : State) : Bool × Bool × Bool × Bool × Nat :=
  (s.helm.fwOpen, s.helm.fwStaged, s.helm.fwError, s.helm.fwRejected, s.helm.fwCount)

/-- Nothing but the helm's registers differs. -/
def onlyHelm (s s' : State) : Prop := s' = { s with helm := s'.helm }

/-- A start begins (R456): no thread, block, node or context is left; HBM4E reads as nothing written, and the CXL tier stands. -/
def started (s s' : State) (cold : Bool) : Prop :=
  s'.threads = [] ∧ s'.crews = [] ∧ s'.blocks = [] ∧ s'.cores = [] ∧ s'.ctxs = [] ∧ s'.nodes = [] ∧ s'.requests = [] ∧ s'.cur = none ∧
  (∀ a, memGet s'.mem a = if a < 2 ^ 40 then memDefault a else memGet s.mem a) ∧ s'.helm.warm = !cold ∧
  s'.helm.errCorr = (if cold then 0 else s.helm.errCorr) ∧ s'.helm.hdmReady = false ∧ s'.helm.dieFail = 0 ∧
  (s'.helm.bootStep = 8 ∨ s'.helm.bootStep = 2 ∧ (s'.barRead 0x0098).extractLsb' 0 32 = 700 * 2 ^ 16 + 4 ∨
    s'.helm.bootStep = 3 ∧ cold = false)

/-! ## The helm, contexts and the fabric -/

/-- No partial stands in any L1, and no write in an outbound path: memory at home is what every agent reads. -/
def settled (s : State) : Prop := s.outbound = [] ∧ ∀ c ∈ s.cores, ∀ l ∈ c.2.l1, l.red = none

/-- The completion record of R378 stands at an address: STATUS, submission sequence, TASK, published blocks. A byte that would lie on reserved
bits of a scale frame is not stored there (R126, R127). -/
def completed (s : State) (pa status seq task published : Nat) : Prop :=
  ∀ k < 16, ∀ b, (leBytes 4 status ++ leBytes 4 (seq % 2 ^ 32) ++ leBytes 4 task ++ leBytes 4 published)[k]? = some b →
    memGet s.mem (pa + k) = b ∨
      (0x4002 ≤ (pa + k) % 0x8000 ∧ memGet s.mem (pa + k) = if (pa + k) % 0x8000 = 0x4002 then b &&& 1 else 0)

/-- The helm's state once it has taken the next record (R376). -/
def afterTake (s : State) : State := s.modHelm fun h => { h with taken := h.taken.drop 1 }

/-- The next record is of a queue, and the helm runs. -/
def nextRecord (s : State) (q : Nat) (r : TakenRec) : Prop :=
  s.helm.hstat.extractLsb' 0 2 = 1 ∧ r.q = q ∧ s.helm.taken.head? = some r

/-- A context has ended (R389, R393): none of its nodes is left, and no block but as the owner of commands that run on. -/
def endedContext (s : State) (ctx : BitVec 16) : Prop :=
  (s.ctx ctx).ended = true ∧ (∀ b x, tget s.blocks b = some x → x.ctx = ctx → x.stage = .gone) ∧ ∀ n x, tget s.nodes n = some x → x.ctx ≠ ctx

/-- The record j places after HEAD in a queue's ring, with what a scan that takes it adds to it (R375 to R377). -/
def ringRecord (s : State) (q j : Nat) : TakenRec :=
  let d := tgetD s.helm.queues q {}
  { q := q, seq := (s.helm.nextSeq + j) % 2 ^ 64, prio := d.prio, ctx := d.ctx,
    bytes := s.homeRead 0 (d.base * 2 ^ 12 + 256 * ((d.head.toNat + j) % 2 ^ 16 % 2 ^ (d.logSize + 4))) 256 }

/-- There is room for record j of a queue once those before it have been taken (R376). -/
def roomFor (s : State) (q j : Nat) : Prop :=
  State.roomForRecord { s with helm := { s.helm with taken := s.helm.taken ++ (List.range j).map (ringRecord s q) } } (ringRecord s q j) = true

/-- A pre-emption has started on every die where the context has blocks, with its DRAIN count there (R390). -/
def draining (s s' : State) (ctx : BitVec 16) : Prop :=
  (s'.ctx ctx).stage = 1 ∧
  ∀ d < 4, tget (s'.ctx ctx).dies d = some (if s.dieBlocks ctx d = [] then .done else .drain (s.ctx ctx).drain)

/-- A command was refused: ERR of CTXSTAT is set, and nothing else happens (R389). -/
def refused (i : Instr) (s : State) : Prop := ∃ s', exec i s = .next s' ∧ onlyHelm s s' ∧ s'.helm.ctxErr = true

/-- A port is up and takes answers, which are of traffic class 1 (R437, R438). -/
def takesReplies (s : State) (p : Nat) : Prop := (tgetD s.ports p {}).state = 2 ∧ (tgetD s.ports p {}).paused.getLsbD 1 = false

/-- A reply is one that no request waits for (R338): its tag is not outstanding, or not with its generation, or that member has answered. -/
def unexpected (s : State) (port : Nat) (tag : BitVec 12) (gen : BitVec 4) (member : Nat) : Prop :=
  ∀ r, s.requestOf port tag = some r → r.gen ≠ gen ∨ r.members.length ≤ member ∨ ∃ a ∈ r.answers, a.member = member

/-- The answer sent last to another device (R337). -/
def replied (s : State) (dev : BitVec 12) (status : Nat) (data : List Byte) : Prop := s.replies.head? = some (dev, status, data)

/-! ## Memory as it is read and written -/

/-- The new value of an atomic operation (R199), from the old value and the operand b; `.cas` has its two groups in b. -/
def atomNew (f : Fields) (old b : Nat) : Nat :=
  let w := wide f
  match f.aop with
  | 0 =>
    match f.ty with
    | .f32 => fmtF32.round f.rnd false ((fmtF32.decode old).add f.rnd (fmtF32.decode b))
    | .f64 => fmtF64.round f.rnd false ((fmtF64.decode old).add f.rnd (fmtF64.decode b))
    | .bf16x2 => halves (fun x y _ => fmtBf16.round f.rnd false ((fmtBf16.decode x).add f.rnd (fmtBf16.decode y))) old b 0
    | _ => (old + b) % 2 ^ w
  | 1 =>
    match f.ty with
    | .f32 => lesser fmtF32 old b
    | .f64 => lesser fmtF64 old b
    | _ => if int f old ≤ int f b then old else b
  | 2 =>
    match f.ty with
    | .f32 => greater fmtF32 old b
    | .f64 => greater fmtF64 old b
    | _ => if int f old ≤ int f b then b else old
  | 3 => (BitVec.ofNat w old &&& BitVec.ofNat w b).toNat
  | 4 => (BitVec.ofNat w old ||| BitVec.ofNat w b).toNat
  | 5 => (BitVec.ofNat w old ^^^ BitVec.ofNat w b).toNat
  | 6 => b
  | _ => if b % 2 ^ w = old then b / 2 ^ w % 2 ^ w else old

/-- The types of each row of R199. -/
def atomTypes (aop : Nat) : List Ty :=
  if aop = 0 then [.b32, .s32, .u64, .s64, .f32, .f64, .bf16x2]
  else if aop ≤ 2 then [.b32, .s32, .u64, .s64, .f32, .f64]
  else if aop ≤ 7 then [.b32, .u64] else []

/-- Bits of the elements of a type of R199. -/
def atomBits (f : Fields) : Nat := match f.ty with | .u64 | .s64 | .f64 => 64 | _ => 32

/-- The tag set of a sector after a store of n bytes at an offset (R196): the store's where it covers the sector whole, joined to the
old one where it covers a part of it. -/
def sectorAfter (off n : Nat) (g old : Tags) (k : Nat) : Tags :=
  if off ≤ 32 * k ∧ 32 * k + 32 ≤ off + n then g
  else if 32 * k < off + n ∧ off < 32 * k + 32 then old ||| g else old

/-! ## The machine -/

/-- A thread has been told of a word that cannot be issued for it (R79): it stands in its handler with the cause, the address of the
word in sys.epc, and sys.badaddr; its registers and predicates, and memory, stand. -/
def toldOf (s s' : State) (t code : Nat) (pc bad : W64) : Prop :=
  (s'.thread t).cause.toNat = code ∧ (s'.thread t).epc = pc ∧ (s'.thread t).badaddr = bad ∧ (s'.thread t).handler = true ∧
  (s'.thread t).pc = (s.block (blockOf t)).tba ∧ (s'.thread t).wait = .none ∧ sameData s s'

/-- An instruction without options: no guard, no lookahead, no yield; every field 0 but the true predicate p15. -/
def plain (ty : Ty) (dst : BitVec 10) (sa sb : Src) : Fields :=
  { gneg := false, gp := 15, la := 0, y := false, dst := dst, sa := sa, sb := sb, xc := 0, ord := 0, scope := 0, sat := false,
    rnd := .rne, ty := ty }

/-- A vector register source without modifiers. -/
def vr (n : BitVec 10) : Src := .reg n false false

/-- Words that spec/ prints in its examples, or whose bits R59 gives, with what they stand for. -/
def specWords : List (BitVec 96 × Instr) :=
  [ -- iadd.s32 v12, v3, 5 (R60)
   (0x0000060000500000C0C03C01, .iadd (plain .s32 12 (vr 3) (.imm 5))),
    -- cvtx.e4m3x4.sat.f32 v8, v0:v3
   (0x010120000000000000803D01, .cvtx { plain .e4m3x4 8 (vr 0) (vr 0) with sat := true, xc := 4 }),
    -- ld.g.f32.x8 v16:v23, [v8:v9+64]
   (0x00C012000400000201003D80, .ldG { plain .f32 16 (vr 8) (.imm 64) with xc := 3 }),
    -- atom.g.s32.device.ar.add v4, [v8:v9], v6
   (0x003A04000060000200403D88, .atomG { plain .s32 4 (vr 8) (vr 6) with ord := 3, scope := 5 }),
    -- (!p15) nop
   (0x000000000000000000007E00, .nop { plain .b32 0 (vr 0) (vr 0) with gneg := true }),
    -- call v30:v31, +40
   (0x000002000280000001E03E03, .call (plain .b32 30 (vr 0) (.imm 40))),
    -- shfl.b32.xor.w8 v5, v4, 1
   (0x02C002000010000100503E11, .shfl { plain .b32 5 (vr 4) (.imm 1) with xc := 11 }),
    -- bar.block.ar.sync b3, 64
   (0x003402000400000000303E80, .bar { plain .b32 3 (vr 0) (.imm 64) with ord := 3, scope := 2 }),
    -- ill.zero and trap.pool, whatever their other bits hold
   (0, .illZero), (0xFFFFFFFFFFFFFFFFFFFFFC00, .illZero), (0x3FF, .trapPool), (0xFFFFFFFFFFFFFFFFFFFFFFFF, .trapPool)]

/-- A word of an OPC with the true guard, and some bits more. -/
def wordWith (opc : Nat) (bits : Nat) : BitVec 96 := BitVec.ofNat 96 (opc + 15 * 2 ^ 10 + bits)

/-- Words that R79 refuses at steps 3 and 4, and why: an OPC that is not assigned, a reserved bit of a source, a register pair at an odd
number, a type, an order, a scope, a saturation, a rounding and an extension that the form does not list, a sequencer word with LA. -/
def badWords : List (BitVec 96 × Illegal) :=
  [(wordWith 0x00D 0, .opcode), (wordWith 0x3C0 0, .opcode), (wordWith 0x010 (2 ^ 42), .source),
   (wordWith 0x008 (2 ^ 20 + 2 * 2 ^ 74), .destination), (wordWith 0x001 (4 * 2 ^ 74), .type), (wordWith 0x010 (2 ^ 84), .order),
   (wordWith 0x010 (2 ^ 83), .scope), (wordWith 0x010 (2 ^ 80), .saturate), (wordWith 0x010 (2 ^ 78), .rounding),
   (wordWith 0x206 (2 ^ 86), .extension), (wordWith 0x30C (2 ^ 15), .agent)]

/-- The registers of BAR 0 with the value their tables give for reset (R372, R389, R417, R432, R455, R459, R277, R451). -/
def resetRegisters : List (Nat × Nat) :=
  [(0x0000, 0), (0x0018, 0), (0x0080, 0), (0x0088, 280000), (0x0090, 0), (0x0098, 3200 * 2 ^ 32 + 1400 * 2 ^ 16), (0x00A8, 0), (0x00B0, 0),
   (0x0400, 2 ^ 32)]

end Sys2Proof.Claim

section Statements

open Sys2Proof Sys2Proof.Machine Sys2Proof.Claim

/-- The integer, logic, shift and bit-field operations of class 0 write the values their rules give, in every well-formed form. -/
def Obligations.IntegerResults : Prop :=
  ∀ e ∈ intTable, ∀ f, (e.1 f).WellFormed → Completes (e.1 f) f (aluPart (e.1 f) f (e.2 f))

/-- `iaddc` and `isubb` carry and borrow through predicates (R141); `sel`, `plop`, `mov` and `movsr` write what they select, combine, move
and read of the placement (R150, R152 to R154). -/
def Obligations.CarrySelectAndMove : Prop :=
  (∀ f,
     ((Instr.iaddc f).WellFormed → Completes (.iaddc f) f (iaddcPart f)) ∧
     ((Instr.isubb f).WellFormed → Completes (.isubb f) f (isubbPart f))) ∧
  (∀ f,
     ((Instr.sel f).WellFormed → Completes (.sel f) f (selPart f)) ∧
     ((Instr.plop f).WellFormed → Completes (.plop f) f (plopPart f)) ∧
     ((Instr.mov f).WellFormed → Completes (.mov f) f (movPart f)) ∧
     ((Instr.movsr f).WellFormed → Completes (.movsr f) f (movsrPart f)))

/-- The floating-point operations of class 1 write the exact result rounded once, the chosen operand, the condition or the class;
`fscale` multiplies by a power of two with one rounding, for every count (R161 to R167). -/
def Obligations.FloatResults : Prop :=
  (∀ e ∈ floatTable, ∀ f, (e.1 f).WellFormed → Completes (e.1 f) f (aluPart (e.1 f) f (e.2 f))) ∧
  (∀ f, (Instr.fscale f).WellFormed → Completes (.fscale f) f (aluPart (.fscale f) f fun a b _ => scaled f a b))

/-- Sums and products of finite values are exact, as rational numbers; a zero sum is negative where both are zeros of that sign, and else under
`.rdn` alone, and a product has the sign of its factors' signs; infinities and NaNs follow IEEE 754 (R114, R161). -/
def Obligations.ExactSumsAndProducts : Prop :=
  (∀ rnd x n d y k e, d ≠ 0 → e ≠ 0 →
    rat (FV.add rnd (.fin x n d) (.fin y k e)) = (do let p ← rat (.fin x n d); let q ← rat (.fin y k e); pure (p + q)) ∧
    rat (FV.mul (.fin x n d) (.fin y k e)) = (do let p ← rat (.fin x n d); let q ← rat (.fin y k e); pure (p * q))) ∧
  (∀ rnd x n d y k e, d ≠ 0 → e ≠ 0 →
    (rat (FV.add rnd (.fin x n d) (.fin y k e)) = some 0 →
      (FV.add rnd (.fin x n d) (.fin y k e)).isNeg = if n = 0 ∧ k = 0 ∧ x = y then x else rnd == .rdn) ∧
    (FV.mul (.fin x n d) (.fin y k e)).isNeg = (x != y)) ∧
  (∀ rnd x y n d, d ≠ 0 →
    FV.add rnd (.inf x) (.inf y) = (if x = y then .inf x else .nan) ∧
    FV.add rnd (.inf x) (.fin y n d) = .inf x ∧ FV.add rnd (.fin y n d) (.inf x) = .inf x ∧
    FV.mul (.inf x) (.inf y) = .inf (x != y) ∧
    FV.mul (.inf x) (.fin y n d) = (if n = 0 then .nan else .inf (x != y)) ∧
    FV.mul (.fin y n d) (.inf x) = (if n = 0 then .nan else .inf (y != x))) ∧
  (∀ rnd v, FV.add rnd .nan v = .nan ∧ FV.mul .nan v = .nan ∧ FV.add rnd v .nan = .nan ∧ FV.mul v .nan = .nan)

/-- Codes are read as R113 to R122 say. A finite value is rounded to the neighbour its mode names, with its own sign; one whose rounding exceeds
the largest magnitude becomes an infinity or the largest one by its mode, the largest one with SAT, in E4M3 the canonical NaN without SAT, and
in FP4 and E3M5 the largest one. An infinity becomes one, with SAT the largest magnitude, in E4M3 without SAT the canonical NaN; a NaN becomes
the canonical one; FP4 takes an infinity as 6 and a NaN as 0 (R114 to R122, R174). -/
def Obligations.RoundsToNeighbour : Prop :=
  ∀ e ∈ formatCodes, let m := e.1; let top := e.2.1
    (∀ neg c, c ≤ top → ∃ n d : Nat, 0 < d ∧ m.decode (signedCode m neg c) = .fin neg n d ∧ (n : Rat) / d = level m c) ∧
    (∀ neg c, top < c → c < 2 ^ (m.width - 1) → m.decode (signedCode m neg c) = if e.2.2.1 = some c then .inf neg else .nan) ∧
    (∀ rnd sat neg (n d : Nat), 0 < d → (m = fmtE3m5 → neg = false) → let x : Rat := (n : Rat) / d
      (¬roundsOver m top rnd neg x → ∃ c ≤ top, m.round rnd sat (.fin neg n d) = signedCode m neg c ∧ isRounding m rnd neg n d c) ∧
      (roundsOver m top rnd neg x → m.round rnd sat (.fin neg n d) =
        match e.2.2.1, e.2.2.2 with
        | some inf, _ => signedCode m neg (if outward rnd neg && !sat then inf else top)
        | none, some nan => if sat then signedCode m neg top else nan
        | none, none => signedCode m neg top)) ∧
    (∀ rnd sat neg, m = fmtFp4 → m.round rnd sat .nan = 0 ∧ m.round rnd sat (.inf neg) = signedCode m neg 7) ∧
    ∀ rnd sat neg nan, e.2.2.2 = some nan → m.round rnd sat .nan = nan ∧ m.round rnd sat (.inf neg) =
      if sat then signedCode m neg top else match e.2.2.1 with | some inf => signedCode m neg inf | none => nan

/-- The long-latency functions compute at issue what stands outstanding for their destination (R63, R168 to R170); the approximated ones
return the results of R168 at special arguments, with SAT = 0. -/
def Obligations.LongFunctions : Prop :=
  (∀ e ∈ longTable, ∀ f, (e.1 f).WellFormed → Completes (e.1 f) f (longPart f (e.2 f))) ∧
  (∀ e ∈ specialTable, ∀ x < 2 ^ 32, ∀ k r, specialColumn x = some k → e.2.getD k none = some r → approxBits e.1 false x = r)

/-- The conversions of class 2 write what R172 to R176 give. -/
def Obligations.ConversionResults : Prop :=
  ∀ e ∈ convTable, ∀ f, (e.1 f).WellFormed → Completes (e.1 f) f (aluPart (e.1 f) f (e.2 f))

/-- An operation of class 0, 1 or 2 changes, in the threads of its group, nothing but the program counter, marks, the undo log and its
destination: every byte of memory, every other register, the system registers and every other part of the machine stay. -/
def Obligations.ArithmeticFrame : Prop :=
  (∀ e ∈ intTable ++ floatTable ++ convTable, ∀ f, (e.1 f).WellFormed → ∀ s s' ts,
    performs s (e.1 f) f (aluPart (e.1 f) f (e.2 f)) ts s' →
    exec (e.1 f) s = .next s' ∧ onlyRegisters ts (destinations (e.1 f) f) s s') ∧
  (∀ f, (Instr.fscale f).WellFormed → ∀ s s' ts, performs s (.fscale f) f (aluPart (.fscale f) f fun a b _ => scaled f a b) ts s' →
    exec (.fscale f) s = .next s' ∧ onlyRegisters ts (destinations (.fscale f) f) s s') ∧
  (∀ f, (Instr.sel f).WellFormed → ∀ s s' ts, performs s (.sel f) f (selPart f) ts s' →
    exec (.sel f) s = .next s' ∧ onlyRegisters ts (destinations (.sel f) f) s s') ∧
  (∀ f, (Instr.plop f).WellFormed → ∀ s s' ts, performs s (.plop f) f (plopPart f) ts s' →
    exec (.plop f) s = .next s' ∧ onlyRegisters ts (destinations (.plop f) f) s s') ∧
  (∀ f, (Instr.movsr f).WellFormed → ∀ s s' ts, performs s (.movsr f) f (movsrPart f) ts s' →
    exec (.movsr f) s = .next s' ∧ onlyRegisters ts (destinations (.movsr f) f) s s') ∧
  (∀ f, (Instr.mov f).WellFormed → (∀ q, f.sa ≠ .special (.queue q)) → ∀ s s' ts, performs s (.mov f) f (movPart f) ts s' →
    exec (.mov f) s = .next s' ∧ onlyRegisters ts (destinations (.mov f) f) s s')

/-- The carry and borrow operations change nothing but their destination and their carry predicate; `mov` from a queue changes besides
only that queue of its block; a long-latency function changes at issue no register and no memory. -/
def Obligations.CarryQueueAndLongFrame : Prop :=
  ((∀ f, (Instr.iaddc f).WellFormed → ∀ s s' ts, performs s (.iaddc f) f (iaddcPart f) ts s' →
     exec (.iaddc f) s = .next s' ∧ onlyRegisters ts (destinations (.iaddc f) f) s s') ∧
   (∀ f, (Instr.isubb f).WellFormed → ∀ s s' ts, performs s (.isubb f) f (isubbPart f) ts s' →
     exec (.isubb f) s = .next s' ∧ onlyRegisters ts (destinations (.isubb f) f) s s') ∧
   (∀ f q, (Instr.mov f).WellFormed → f.sa = .special (.queue q) → ∀ s s' t, performs s (.mov f) f (movPart f) [t] s' →
     exec (.mov f) s = .next s' ∧ s' = { s with threads := s'.threads, crews := s'.crews, blocks := s'.blocks } ∧
     (∀ b, s'.block b = { s.block b with queues := (s'.block b).queues }) ∧
     (∀ b k, (b ≠ blockOf t ∨ k ≠ q.toNat) → tgetD (s'.block b).queues k [] = tgetD (s.block b).queues k []) ∧
     ∀ u l, ¬mayWrite [t] (destinations (.mov f) f) u l → s'.getLoc u l = s.getLoc u l)) ∧
  (∀ e ∈ longTable, ∀ f, (e.1 f).WellFormed → ∀ s s' ts, performs s (e.1 f) f (longPart f (e.2 f)) ts s' →
     exec (e.1 f) s = .next s' ∧ s' = { s with threads := s'.threads, crews := s'.crews, nextId := s'.nextId } ∧
     (∀ c, s'.crew c = { s.crew c with log := (s'.crew c).log, logTail := (s'.crew c).logTail }) ∧
     (∀ t, s'.thread t = { s.thread t with pc := (s'.thread t).pc, marks := (s'.thread t).marks, out := (s'.thread t).out }) ∧
     (∀ t, t ∉ ts → s'.thread t = s.thread t) ∧ ∀ t l, s'.getLoc t l = s.getLoc t l)

/-- A register group written holds the words of the value, with the poison bit and the tags of the sources and of the thread; no other
register, and nothing else but the log, changes (R65, R159, R353). A write to p15 is discarded, and p15 reads as true, with no poison
and no tags, whatever stands in the state (R61). -/
def Obligations.GroupWrite : Prop :=
  (∀ (s : State) t first (ws : List W32) poison g (mk : Nat → Loc), (mk = .v ∨ mk = .s) → (s.thread t).exited = false → (tget s.crews (crewOf t)).isSome →
     let s' := s.writeGroup t mk first ws poison g
     (∀ k, k < ws.length →
       s'.getLoc t (mk (first + k)) = { val := ws.getD k 0, poison := poison, tags := g ||| (s.thread t).tagUnion }) ∧
     (∀ u l, ¬mayWrite [t] ((List.range ws.length).map fun k => mk (first + k)) u l → s'.getLoc u l = s.getLoc u l) ∧
     s' = { s with threads := s'.threads, crews := s'.crews }) ∧
  ((∀ (s : State) t val poison g, s.writeLoc t (.p 15) val poison g = s) ∧ ∀ (s : State) t, s.getLoc t (.p 15) = { val := 1, poison := false, tags := 0 })

/-- A thread whose guard is false passes every word of the opcode map with no effect but the consumption of its guard's tags; a poisoned
guard raises POISON_USE in its thread, and the instruction has no effect (R61). -/
def Obligations.Guards : Prop :=
  (∀ i f sh, i.shape = some (f, sh) → sh.seq = false → ∀ s c a t, s.cur = some (.group c a [t]) → s.stands a t = true →
     s.shadowed t = false → s.guarded t f = some false → exec i s = .next (entered s t a f)) ∧
  (∀ i f sh, i.shape = some (f, sh) → sh.seq = false → ∀ s c a t, s.cur = some (.group c a [t]) → s.stands a t = true →
     s.shadowed t = false → s.guarded t f = none → exec i s = .next ((s.pastGuard t a f).stopThread t a (.poison 0 4 0)))

/-- `nop` and `yield` change the program counter only; `bra` and `call` go to A + 4 d, `brx`, `ret` and `callx` to a register target,
each thread to its own, and the calls write the link pair; a register target that fails a check of R225 raises its cause at the branch,
with the link and the program counter unchanged. -/
def Obligations.BranchesAndCalls : Prop :=
  (∀ e ∈ controlTable, ∀ f, (e.1 f).WellFormed → Completes (e.1 f) f (e.2 f)) ∧
  (∀ mk ∈ [Instr.brx, Instr.callx, Instr.ret], ∀ f s a t o x, (mk f).WellFormed → Alone s (mk f) f a t →
     (entered s t a f).readSrc t 2 .u64 f.sa = .ok o → badTarget o = some x →
     exec (mk f) s = .next ((s.pastGuard t a f).stopThread t a x))

/-- `exit` performs what stores of its thread are still to be performed, and ends the thread: it is exited, its bit is clear in j0 to
j15, and no other thread, no other bit of a rejoin mask, no other uniform register and no byte of memory changes. -/
def Obligations.ExitEndsThread : Prop :=
  ∀ f s a t, (Instr.exit f).WellFormed → Alone s (.exit f) f a t → (s.thread t).region = none → (tget s.crews (crewOf t)).isSome →
    let s1 := (entered s t a f).settleAll t
    ((s.thread t).lates = [] → s1 = entered s t a f) ∧ ∃ s', exec (.exit f) s = .next s' ∧ (s'.thread t).exited = true ∧
      (∀ n < 16, maskBit s' (crewOf t) n (tidOf t) = false) ∧
      (∀ c n i, (c ≠ crewOf t ∨ i ≠ tidOf t) → n < 16 → i < 128 → maskBit s' c n i = maskBit s c n i) ∧
      (∀ c r, (r < 192 ∨ 256 ≤ r) → (s'.crew c).getS r = (s.crew c).getS r) ∧
      (∀ u, u ≠ t → s'.thread u = s1.thread u) ∧ s'.mem = s1.mem

/-- `mkj` sets the bits of the threads of its group with a true guard, and clears or keeps the others by `.or` (R229); `join` lets a thread
whose bit is clear go on, and one whose bit is set arrives and waits; a poisoned mask raises POISON_USE (R230); a release lets the waiting
threads go on once every thread of the mask has exited or waits here outside its handler (R46, R231). -/
def Obligations.RejoinMasks : Prop :=
  (∀ f s c a ts, (Instr.mkj f).WellFormed → s.cur = some (.group c a ts) → ts.Nodup → ts ≠ [] →
     (∀ t ∈ ts, s.stands a t = true ∧ s.guarded t f = some true ∧ s.shadowed t = false ∧ crewOf t = c) → (tget s.crews c).isSome →
     (∀ t ∈ ts, (s.admitAll a f ts).issueWaits t (.mkj f) = false) →
     ∃ s', exec (.mkj f) s = .next s' ∧
       (∀ i < 128, maskBit s' c f.dst.toNat i =
         ((ts.any fun t => tidOf t = i) || (f.xc.getLsbD 0 && maskBit s c f.dst.toNat i))) ∧
       (∀ n i, n ≠ f.dst.toNat → n < 16 → i < 128 → maskBit s' c n i = maskBit s c n i) ∧
       (∀ r, (r < 192 ∨ 256 ≤ r) → (s'.crew c).getS r = (s.crew c).getS r) ∧
       (∀ t ∈ ts, (s'.thread t).pc = a + 12) ∧ (∀ t, t ∉ ts → s'.thread t = s.thread t) ∧
       (∀ t, (s'.thread t).v = (s.thread t).v ∧ (s'.thread t).p = (s.thread t).p) ∧ s'.mem = s.mem ∧
       s'.todo = s.todo ++ [.joins c]) ∧
  (∀ f s a t, (Instr.join f).WellFormed → Alone s (.join f) f a t →
     let poisoned := (List.range 4).any fun k => ((s.crew (crewOf t)).getS (192 + 4 * f.dst.toNat + k)).poison
     let s1 := entered s t a f
     (poisoned = true → exec (.join f) s = .next ((s.pastGuard t a f).stopThread t a (.poison 0 4 0))) ∧
     (poisoned = false → maskBit s (crewOf t) f.dst.toNat (tidOf t) = false → exec (.join f) s = .next s1) ∧
     (poisoned = false → maskBit s (crewOf t) f.dst.toNat (tidOf t) = true →
       exec (.join f) s = .next (((s1.settleAll t).modThread t fun th => { th with pc := a, wait := .join f.dst.toNat th.tagUnion }).addTodo
         [.joins (crewOf t)]))) ∧
  (∀ s c n p,
     let waiting := fun t => (s.thread t).handler = false ∧ (s.thread t).pc = p ∧ ∃ g, (s.thread t).wait = .join n g
     let due := ∀ t ∈ s.crewThreads c, maskBit s c n (tidOf t) = true → (s.thread t).exited = true ∨ waiting t
     (¬due → s.settleJoin c n p = s) ∧
     (due → ∀ t ∈ s.crewThreads c, waiting t → ((s.settleJoin c n p).thread t).pc = p + 12 ∧ ((s.settleJoin c n p).thread t).wait = .none) ∧
     (∀ t, ¬(t ∈ s.crewThreads c ∧ waiting t) → (s.settleJoin c n p).thread t = s.thread t))

/-- The crew-wide operations give every participant the result of R233 to R237, found from the sources of all. -/
def Obligations.CrewOperations : Prop :=
  ∀ f s s' c a ts, s.cur = some (.group c a ts) →
    ((Instr.vote f).WellFormed → crewRun (.vote f) f 1 .b32 0 .b32 (voteResult f) a ts s = some s' → exec (.vote f) s = .next s') ∧
    ((Instr.shfl f).WellFormed → crewRun (.shfl f) f f.ty.regs f.ty 1 (if (f.xc.extractLsb' 0 2).toNat = 1 then .s32 else .b32)
      (shflResult f) a ts s = some s' → exec (.shfl f) s = .next s') ∧
    ((Instr.match_ f).WellFormed → crewRun (.match_ f) f f.ty.regs f.ty 0 .b32 (matchResult f) a ts s = some s' →
      exec (.match_ f) s = .next s') ∧
    ((Instr.redux f).WellFormed → crewRun (.redux f) f 1 f.ty 0 .b32 (reduxResult f) a ts s = some s' →
      exec (.redux f) s = .next s') ∧
    ((Instr.elect f).WellFormed → crewRun (.elect f) f (if f.xc.getLsbD 0 then 1 else 0) .b32 0 .b32 (electResult f) a ts s = some s' →
      exec (.elect f) s = .next s')

/-- Entry into a handler (R269): what a cause that is delivered saves and sets. A thread with a non-empty tag union is held at its
instruction before its trap (R272); a thread in its handler, or one of a block without a handler, ends its context instead (R271). -/
def Obligations.TrapEntry : Prop :=
  (∀ (s : State) t a c epc bad, (s.thread t).exited = false → trapsAtOnce s t →
     inHandler s (s.raise t a c epc bad) t c.code epc bad) ∧
  (∀ (s : State) t a c epc bad, (s.thread t).exited = false → (s.thread t).region = none →
     (s.plainUnion t ≠ 0 → c ≠ .assumeOverflow →
       ((s.raise t a c epc bad).thread t).wait = .trapHeld c.code epc bad ∧ ((s.raise t a c epc bad).thread t).pc = a ∧
       ((s.raise t a c epc bad).thread t).handler = (s.thread t).handler) ∧
     ((s.plainUnion t = 0 ∨ c = .assumeOverflow) → ((s.thread t).handler = true ∨ (s.block (blockOf t)).tba = 0) →
       s.raise t a c epc bad = s.addTodo [.endCtx (s.block (blockOf t)).ctx c.code (some t) a]))

/-- `trap`, `ill` and, with no debugger attached, `brk` enter the handler with their cause, their return address and their code; the words
`ill.zero` and `trap.pool` raise ILLEGAL and POOL_ENTRY whatever their guard would be (R77, R78); `brk` with a debugger attached halts
the crew with the thread at its address (R274). -/
def Obligations.TrapWords : Prop :=
  (∀ w ∈ trapWords, ∀ f s a t, (w.1 f).WellFormed → Alone s (w.1 f) f a t → trapsAtOnce (s.pastGuard t a f) t →
     s.helm.attached.contains (s.block (blockOf t)).ctx = false →
     ∃ s', exec (w.1 f) s = .next s' ∧ inHandler (s.pastGuard t a f) s' t w.2.1 (a + w.2.2) (BitVec.ofNat 64 (codeOf f))) ∧
  (∀ w ∈ [(Instr.illZero, 1), (Instr.trapPool, 2)], ∀ s c a t, s.cur = some (.group c a [t]) → (s.thread t).exited = false →
     trapsAtOnce s t → ∃ s', exec w.1 s = .next s' ∧ inHandler s s' t w.2 a 0) ∧
  (∀ f s a t, (Instr.brk f).WellFormed → Alone s (.brk f) f a t → (tget s.crews (crewOf t)).isSome →
     s.helm.attached.contains (s.block (blockOf t)).ctx = true → (s.crew (crewOf t)).halted = none →
     let s1 := (entered s t a f).modThread t fun th => { th with pc := a, wait := .brk }
     (s1.longDue (crewOf t) = true → exec (.brk f) s = .next (s1.modCrew (crewOf t) fun c => { c with brkReq := true })) ∧
     (s1.longDue (crewOf t) = false →
       ∃ s', exec (.brk f) s = .next s' ∧ (s'.crew (crewOf t)).halted = some .brk ∧ s'.thread t = s1.thread t ∧
         ∀ u, u ≠ t → s'.thread u = if u ∈ s.crewThreads (crewOf t) then (s.thread u).stopped else s.thread u))

/-- `rtt` in a handler clears HANDLER and goes to sys.epc, and changes nothing else but the joins to be settled; outside a handler it
raises ILLEGAL (R273). -/
def Obligations.ReturnFromTrap : Prop :=
  ∀ f s a t, (Instr.rtt f).WellFormed → Alone s (.rtt f) f a t →
    ((s.thread t).handler = true → exec (.rtt f) s =
      .next (((entered s t a f).modThread t fun th => { th with handler := false, pc := th.epc }).addTodo [.joins (crewOf t)])) ∧
    ((s.thread t).handler = false → exec (.rtt f) s = .next ((s.pastGuard t a f).raise t a .illegal a 0))

/-- `csrr` writes the system register it names, for each of the twelve, with a clear poison bit (R266 to R268); `csrw` writes sys.epc in the
handler, sys.tba and the scratch registers, after the checks of R267, and sys.epc outside the handler raises PERMISSION. -/
def Obligations.SystemRegisters : Prop :=
  (∀ f, (Instr.csrr f).WellFormed → Completes (.csrr f) f fun t s =>
     some (s.writeGroup t .v f.dst.toNat (words f.ty.regs (systemRegister s t f.xc.toNat).toNat) false 0)) ∧
  (∀ f s a t o, (Instr.csrw f).WellFormed → Alone s (.csrw f) f a t →
     (entered s t a f).readSrc t f.ty.regs f.ty f.sa = .ok o → o.poison = false →
     (f.xc = 2 → (s.thread t).handler = false → exec (.csrw f) s = .next ((s.pastGuard t a f).raise t a .permission a 0)) ∧
     ((f.xc = 2 → (s.thread t).handler = true) →
       (∀ x, (f.xc = 2 ∨ f.xc = 4) → badTarget o = some x → exec (.csrw f) s = .next ((s.pastGuard t a f).stopThread t a x)) ∧
       (((f.xc = 2 ∨ f.xc = 4) → badTarget o = none) → (tget s.blocks (blockOf t)).isSome →
         ∃ s', exec (.csrw f) s = .next s' ∧ systemWritten (entered s t a f) s' t f.xc.toNat (BitVec.ofNat 64 o.val))))

/-- `sleep` of 0, and one whose sleep a save has ended, acts as `nop`; of n it waits at its address for a number of cycles from n to n + 256, and goes on at A + 12 once the count
has run out (R276); `trap.host` waits at its address with its number, and an untainted thread's record is posted at once (R275). -/
def Obligations.SleepAndHostTrap : Prop :=
  ((∀ f s a t o, (Instr.sleep f).WellFormed → Alone s (.sleep f) f a t →
     (entered s t a f).readSrc t 1 .b32 f.sb = .ok o → o.poison = false →
     (o.val = 0 ∨ (s.thread t).slept = some a →
       exec (.sleep f) s = .next ((entered s t a f).modThread t fun th => { th with slept := none })) ∧
     (o.val ≠ 0 → (s.thread t).slept ≠ some a → ∃ s' k, exec (.sleep f) s = .next s' ∧ k ≤ 256 ∧ (s'.thread t).wait = .asleep (o.val + k) ∧ (s'.thread t).pc = a ∧
       s' = { s with threads := s'.threads, free := s.free + 1 } ∧ ∀ u, u ≠ t → s'.thread u = s.thread u)) ∧
   (∀ (s : State) t, (s.thread t).wait = .asleep 0 → (s.thread t).exited = false →
     ∃ s', exec (.sleepExpiry t) s = .next s' ∧ (s'.thread t).wait = .none ∧ (s'.thread t).pc = (s.thread t).pc + 12 ∧
       s' = { s with threads := s'.threads } ∧ ∀ u, u ≠ t → s'.thread u = s.thread u)) ∧
  (∀ f s a t, (Instr.trapHost f).WellFormed → Alone s (.trapHost f) f a t →
     let s1 := (entered s t a f).modThread t fun th => { th with pc := a, wait := .host (BitVec.ofNat 32 (codeOf f)) }
     let b := s.block (blockOf t)
     (s1.holds t = false → exec (.trapHost f) s = .next (s1.report b.ctx
       { kind := 6, crew := t / 128 % 4, tid := t % 128, task := b.task, blk := b.index, n := codeOf f, value := a.toNat })) ∧
     (s1.holds t = true → exec (.trapHost f) s = .next (s1.modCore b.core fun c =>
       { c with held := c.held ++ [{ t := t, pc := a, seq := s.seq, tags := (s1.thread t).tagUnion,
                                     eff := .hostTrap (BitVec.ofNat 32 (codeOf f)) a }] })))

/-- `ld.g`, `ld.s`, `ld.x` and `ld.c` complete where every check of R184 passes, and stand outstanding for their destination: a `ld.c` with what
the words of its window give, the others with units that are still to be performed. A relaxed load leaves at its issue every register, every byte
of memory and every scratchpad byte. A unit that is performed gets the bytes that then stand at its address, poisoned where they are; with the
last of them the result has its value: the elements extended under the type, the values of a block of an fp4bs page under its scale and band, or
the block with its scale code and SPECIAL (R190, R191, R194). -/
def Obligations.Loads : Prop :=
  (∀ f,
    ((Instr.ldG f).WellFormed → Completes (.ldG f) f (loadGlobalPart f)) ∧
    ((Instr.ldS f).WellFormed → Completes (.ldS f) f fun t => loadScratchPart (.ldS f) f
      (fun x n size s => (placeS t x n size s).map fun off => ((s.block (blockOf t)).core, off)) true t) ∧
    ((Instr.ldX f).WellFormed → Completes (.ldX f) f fun t => loadScratchPart (.ldX f) f (placeX t) false t) ∧
    ((Instr.ldC f).WellFormed → Completes (.ldC f) f (loadConstPart f))) ∧
  (∀ e ∈ loadParts, ∀ f s a t s', (e.1 f).WellFormed → f.ord = 0 → Alone s (e.1 f) f a t → nothingLate s →
    e.2 f t (entered s t a f) = some s' → exec (e.1 f) s = .next s' ∧ dataStands s s' ∧ scratchStands s s') ∧
  (∀ (s : State) t a f va pages frames out, s.unitsOf t a (.loadFab f va pages frames out) = some (globalReads f va pages frames out)) ∧
  ∀ s t id q u out k g o l, due s t id q u → pieceRead s u out k g → resultAt s t out = some o → o.late = some l → k < l.got.length →
    let l' := { l with got := l.got.set k (some g) }
    ∃ s' o', exec (.accessPerformed t id) s = .next s' ∧ dataStands s s' ∧ scratchStands s s' ∧ resultAt s' t out = some o' ∧ o'.dests = o.dests ∧
      o'.late = some l' ∧ (known l' o o')

/-- `st.g` and `st.x` complete where every check of R184 passes, as irrevocable effects; so does `st.s`; what a thread without marks
stores is performed after the issue, unit by unit, and a tainted thread's `st.s` at once; `bscale` writes the band record word of its page, and
the band scale in D (R177, R178). At its issue a relaxed store leaves every register but the destination of `bscale`, all of memory, and every
scratchpad byte but those that a tainted `st.s` writes. The units of a `st.g` and a `st.x` hold the bytes of the data group; a unit that is
performed puts them, and no others, into memory at home, the outbound path or the L1, or into the scratchpad; an encode store becomes the nibbles
of the codes of R192, or at SCOPE 3 or wider the special block. -/
def Obligations.Stores : Prop :=
  (∀ f,
    ((Instr.stG f).WellFormed → Completes (.stG f) f (storeGlobalPart f)) ∧
    ((Instr.stS f).WellFormed → Completes (.stS f) f (storeSPart f)) ∧
    ((Instr.stX f).WellFormed → Completes (.stX f) f (storeXPart f)) ∧
    ((Instr.bscale f).WellFormed → Completes (.bscale f) f (bscalePart f))) ∧
  (∀ f s a t s', f.ord = 0 →
    (∀ e ∈ storeParts, (e.1 f).WellFormed → Alone s (e.1 f) f a t → e.2 f t (entered s t a f) = some s' →
      exec (e.1 f) s = .next s' ∧ dataStands s s' ∧ scratchStands s s') ∧
    (∀ o x off, (Instr.stS f).WellFormed → Alone s (.stS f) f a t → nothingLate s → storeSPart f t (entered s t a f) = some s' →
      addressS f true t (entered s t a f) = some (o, x) → placeS t x (bytesAt f) f.ty.bytes (entered s t a f) = some off →
      exec (.stS f) s = .next s' ∧ dataStands s s' ∧ scratchBut s s' (s.block (blockOf t)).core off (bytesAt f)) ∧
    ((Instr.bscale f).WellFormed → Alone s (.bscale f) f a t → bscalePart f t (entered s t a f) = some s' →
      exec (.bscale f) s = .next s' ∧ s'.mem = s.mem ∧ (∀ u l, ¬mayWrite [t] [.v f.dst.toNat] u l → s'.getLoc u l = s.getLoc u l) ∧
        scratchStands s s')) ∧
  (∀ (s : State) t a f va pages frames data, (∀ p ∈ pages, p.peer = none) →
    (frames = [] → pages.length = f.count) →
    s.unitsOf t a (.storeG f va pages frames data) = some (globalPieces f a va pages frames data)) ∧
  (∀ (s : State) t a f core off data,
    s.unitsOf t a (.storeX f core off data) = some (scratchPieces f core off data false)) ∧
  (∀ s t id q core off bs own whole, due s t id q (.scratch core off bs own whole) →
    ∃ s', exec (.accessPerformed t id) s = .next s' ∧ dataStands s s' ∧
      ∀ c j, (s'.core c).sByte j = if c = core ∧ off ≤ j ∧ j < off + bs.length then bs.getD (j - off) 0 else (s.core c).sByte j) ∧
  (∀ s t id q scope va pg bs whole, due s t id q (.mem scope va pg bs whole) → pg.peer = none → uncached s → s.memOk → inLine va pg bs.length →
    ∃ s', exec (.accessPerformed t id) s = .next s' ∧ (∀ u l, s'.getLoc u l = s.getLoc u l) ∧ scratchStands s s' ∧
      storedAt s s' (s.coreOf t) (s.block (blockOf t)).ctx scope va pg bs) ∧
  (∀ s t id q scope va pg hi v, due s t id q (.nibble scope va pg hi v) → pg.peer = none → uncached s → s.memOk → goesHome scope pg →
    homeDie pg.pa = dieOf (s.coreOf t) →
    ∃ s', exec (.accessPerformed t id) s = .next s' ∧ (∀ u l, s'.getLoc u l = s.getLoc u l) ∧ scratchStands s s' ∧
      stored s s' pg.pa [withNibble hi v (memGet s.mem pg.pa)]) ∧
  ∀ s t id q f pc va p sp bp data, due s t id q (.encode f pc va p sp bp data false none none) → sp.peer = none → bp.peer = none → uncached s →
    3 ≤ f.scope.toNat →
    let scale := ofBytes (seen s sp.pa 1)
    let band := ofBytes (seen s bp.pa 4)
    ∃ s', exec (.accessPerformed t id) s = .next s' ∧
      (writesSpecial f data band = false → dataStands s s' ∧ nibblesDue s' t q f.scope.toNat va p (encoded f data scale band)) ∧
      (writesSpecial f data band = true → sp.w = true → bp.w = true → dataStands s s' ∧ nibblesDue s' t q f.scope.toNat va p 0 ∧
        stillDue s' t q (.mem f.scope.toNat (frameBytes p va).1 sp [0] false) ∧
        stillDue s' t q (.mem f.scope.toNat (frameBytes p va).2 bp (leBytes 4 0x17FC0) false))

/-- The atomics and reductions complete where their checks pass, as irrevocable effects with a result for `atom` and none for `red`. A relaxed
one leaves at its issue every register, all of memory and every scratchpad byte; when it is performed, of memory at home and of the scratchpads
every byte but those of its element. -/
def Obligations.AtomicsAndReductions : Prop :=
  (∀ e ∈ atomicParts, ∀ f, (e.1 f).WellFormed → Completes (e.1 f) f (e.2 f)) ∧
  (∀ e ∈ atomicParts, ∀ f s a t s', (e.1 f).WellFormed → f.ord = 0 → Alone s (e.1 f) f a t → e.2 f t (entered s t a f) = some s' →
    exec (e.1 f) s = .next s' ∧ dataStands s s' ∧ scratchStands s s') ∧
  (∀ s t id q f core off b own g out sp, due s t id q (.effect (.atomL f core off b own g out) sp) → (s.core core).sectorPoison off f.ty.bytes = false →
    ∃ s', exec (.accessPerformed t id) s = .next s' ∧ dataStands s s' ∧ scratchBut s s' core off f.ty.bytes) ∧
  (∀ s t id q f core off b g sp, due s t id q (.effect (.redS f core off b g) sp) → (s.core core).sectorPoison off f.ty.bytes = false →
    ∃ s', exec (.accessPerformed t id) s = .next s' ∧ dataStands s s' ∧ scratchBut s s' core off f.ty.bytes) ∧
  ∀ s t id q f va pg b out sp eff, eff = .atomG f va pg b out ∨ eff = .redG f va pg b → due s t id q (.effect eff sp) → s.memOk → uncached s →
    s.helm.fabValid = true → s.poisoned pg.pa f.ty.bytes = false →
    ∃ s', exec (.accessPerformed t id) s = .next s' ∧ (∀ u l, s'.getLoc u l = s.getLoc u l) ∧ scratchStands s s' ∧
      ∀ x, ¬(pg.peer = none ∧ pg.pa ≤ x ∧ x < pg.pa + f.ty.bytes) → memGet s'.mem x = memGet s.mem x

/-- The new value of every operation of R199; the read-modify-write of an atomic at the home slice and in a scratchpad returns the old
value and stores the new one, and at a poisoned place it writes nothing. -/
def Obligations.AtomicOperations : Prop :=
  (∀ f old b, f.ty ∈ atomTypes f.aop → old < 2 ^ atomBits f → b < 2 ^ (if f.aop = 7 then 2 * atomBits f else atomBits f) →
    atomValue f.aop f.ty f.rnd old b = atomNew f old b) ∧
  (∀ (s : State) core f pa b, f.ty ∈ atomTypes f.aop → b < 2 ^ (if f.aop = 7 then 2 * atomBits f else atomBits f) → s.memOk → settled s →
    let old := ofBytes (seen s pa f.ty.bytes)
    let r := s.gAtom core f pa b
    (s.poisoned pa f.ty.bytes = false → r.1 = old ∧ r.2.1 = false ∧
      (f.aop = 7 → atomNew f old b = old → r.2.2 = s) ∧
      (¬(f.aop = 7 ∧ atomNew f old b = old) → stored s r.2.2 pa (leBytes f.ty.bytes (atomNew f old b)))) ∧
    (s.poisoned pa f.ty.bytes = true → r.2.1 = true ∧ r.2.2 = s)) ∧
  ∀ (s : State) t core f off b own g, f.ty ∈ atomTypes f.aop → b < 2 ^ (if f.aop = 7 then 2 * atomBits f else atomBits f) →
    let n := f.ty.bytes
    let old := ofBytes ((s.core core).sRead off n)
    let r := s.sAtom t f core off b own g
    ((s.core core).sectorPoison off n = false → r.1 = old ∧ r.2.1 = false ∧ r.2.2.mem = s.mem ∧ (∀ c, c ≠ core → r.2.2.core c = s.core c) ∧
      ∀ a, (r.2.2.core core).sByte a = if off ≤ a ∧ a < off + n then (leBytes n (atomNew f old b)).getD (a - off) 0 else (s.core core).sByte a) ∧
    ((s.core core).sectorPoison off n = true → r.2.1 = true ∧ r.2.2 = s)

/-- A store to a block's scratchpad is read back byte for byte, with the tag sets of its sectors as R196 states, and nothing else changes. A
write by an agent of a die to a line homed on it is in memory at once; one to a line of another die is read by the agents of that die
alone, memory is as before, and the threads named wait for it (R330 to R332). A write of SCOPE 0 to 2 stands in the L1 of its core, where it is read back (R195). -/
def Obligations.ReadBack : Prop :=
  (∀ (s : State) t off bs g, nothingLate s →
     let core := (s.block (blockOf t)).core
     let s' := s.storeS t off bs g
     (∀ a, (s'.core core).sByte a = if off ≤ a ∧ a < off + bs.length then bs.getD (a - off) 0 else (s.core core).sByte a) ∧
     (∀ k, tgetD (s'.core core).stags k 0 = sectorAfter off bs.length (g ||| (s.thread t).tagUnion) (tgetD (s.core core).stags k 0) k) ∧
     (∀ c, c ≠ core → s'.core c = s.core c) ∧ s'.mem = s.mem ∧ ∀ u, s'.thread u = { s.thread u with out := (s'.thread u).out }) ∧
  ((∀ (s : State) die ts pa bs cleans marks, s.memOk → homeDie pa = die →
     let s' := s.storeHome die ts pa bs cleans marks
     stored s s' pa bs ∧ s'.outbound = s.outbound ∧ (∀ k ∈ marks, k ∈ s'.marked) ∧
     ∀ t ∈ ts, (tget s.threads t).isSome → ∃ p ∈ (s'.thread t).pend, p = (s.nextId, .home)) ∧
   (∀ (s : State) die ts pa bs cleans marks, homeDie pa ≠ die →
     let s' := s.storeHome die ts pa bs cleans marks
     s'.mem = s.mem ∧
     (∀ t ∈ ts, (tget s.threads t).isSome → ∃ p ∈ (s'.thread t).pend, p.2 = .outbound die s.nextId) ∧
     (∀ a, s'.homeByte die a = if pa ≤ a ∧ a < pa + bs.length then s.kept a (bs.getD (a - pa) 0) else s.homeByte die a) ∧
     ∀ d a, d ≠ die → s'.homeByte d a = s.homeByte d a) ∧
   ∀ (s : State) t core ctx scope va pg bs, scope < 3 → pg.synonym = none → va.toNat % 128 + bs.length ≤ 128 →
     (∀ l ∈ (s.core core).l1, l.data.length = 128 ∧ l.red = none) → (s.core core).l1.length < (s.core core).l1Lines →
     (∀ l, (s.core core).line ctx va = some l → l.pa + va.toNat % 128 = pg.pa) → va.toNat % 128 ≤ pg.pa →
     let s' := s.gWrite t core ctx scope va pg bs
     s'.mem = s.mem ∧ (∀ c, c ≠ core → s'.core c = s.core c) ∧ (s'.gRead core ctx scope va pg bs.length).1 = s.keptBytes pg.pa bs)

/-- The checks of an address in their order (R184): a poisoned address raises POISON_USE; then a byte outside the canonical range or the
scratchpad raises PERMISSION, an element that is not aligned MISALIGN, a byte no region covers UNDECLARED. -/
def Obligations.AddressChecks : Prop :=
  (∀ f s a t o, (Instr.ldG f).WellFormed → Alone s (.ldG f) f a t → (entered s t a f).readSrc t 2 .u64 f.sa = .ok o →
    let va := BitVec.ofNat 64 o.val + disp f
    let g := (entered s t a f).geometry t f va
    (o.poison = true → exec (.ldG f) s = .next ((s.pastGuard t a f).stopThread t a (.poison 0 o.unit o.place))) ∧
    ∀ c bad, o.poison = false → (entered s t a f).locate t va g.1 g.2 .load (fmtOk f) = .error (.trap c bad) →
      exec (.ldG f) s = .next ((s.pastGuard t a f).raise t a c a bad)) ∧
  (∀ (s : State) t va size count need ok, let n := size * count
    ((∃ k < n, validVa (va + BitVec.ofNat 64 k) = false) → s.locate t va size count need ok = .error (.trap .permission va)) ∧
    ((∀ k < n, validVa (va + BitVec.ofNat 64 k) = true) →
      (va.toNat % size ≠ 0 → s.locate t va size count need ok = .error (.trap .misalign va)) ∧
      (va.toNat % size = 0 → (∃ k < n, ∀ x, (s.block (blockOf t)).accessAt (va + BitVec.ofNat 64 k).toNat = some x → need.coveredBy x = false) →
        s.locate t va size count need ok = .error (.trap .undeclared va)))) ∧
  ∀ f s a t o, (Instr.ldS f).WellFormed → Alone s (.ldS f) f a t → (entered s t a f).readSrc t 1 .b32 f.sa = .ok o →
    let x := (BitVec.ofNat 32 o.val + (disp f).setWidth 32).toNat
    (o.poison = true → exec (.ldS f) s = .next ((s.pastGuard t a f).stopThread t a (.poison 0 o.unit o.place))) ∧
    (o.poison = false → 1024 * (s.block (blockOf t)).launch.spKib < x + bytesAt f →
      exec (.ldS f) s = .next ((s.pastGuard t a f).raise t a .permission a (BitVec.ofNat 64 x))) ∧
    (o.poison = false → x + bytesAt f ≤ 1024 * (s.block (blockOf t)).launch.spKib → x % f.ty.bytes ≠ 0 →
      exec (.ldS f) s = .next ((s.pastGuard t a f).raise t a .misalign a (BitVec.ofNat 64 x)))

/-- The queue words of a thread push, pop and report, in order of arrival (R291, R292).
`fence` waits until its thread's accesses are performed at its scope, after the release cache action, and does the acquire cache
action when it goes on; a held one is entered behind the thread's effects; a posted failure raises FABRIC at SCOPE 6 (R204 to R206). `prefetch` raises
nothing, and at most adds a clean copy to the L1 of its core, which evicts a line first where it is full (R19, R207). -/
def Obligations.QueuesAndFences : Prop :=
  (∀ f,
     ((Instr.qpush f).WellFormed → Completes (.qpush f) f (qpushPart f)) ∧
     ((Instr.qpop f).WellFormed → ∀ q, f.sa = .special (.queue q) → Completes (.qpop f) f (qpopPart f q.toNat)) ∧
     ((Instr.qstat f).WellFormed → Completes (.qstat f) f fun t s =>
       some (s.writeLoc t (.v f.dst.toNat) (BitVec.ofNat 32 (queueStatus f (s.block (blockOf t)))) false 0))) ∧
  ((∀ f s a t, (Instr.fence f).WellFormed → Alone s (.fence f) f a t →
     let s1 := entered s t a f
     let s2 := s1.startRelease t f.scope.toNat f.ord.toNat
     let failed := fun s : State => if f.scope = 6 then (s.thread t).postFail else none
     (s1.holds t = false → fenceDone s2 t f.scope.toNat f.ord.toNat → failed s2 = none →
       ∃ s', exec (.fence f) s = .next s' ∧
         s' = { (if f.ord ≠ 2 ∧ 3 ≤ f.scope.toNat then s2.acquireAction (s2.block (blockOf t)).core (s2.block (blockOf t)).ctx else s2) with
                  threads := s'.threads } ∧
         (∀ u, u ≠ t → s'.thread u = s2.thread u) ∧ s'.thread t = { s2.thread t with pc := a + 12, wait := .none }) ∧
     (s1.holds t = false → fenceDone s2 t f.scope.toNat f.ord.toNat → ∀ va, failed s2 = some va → exec (.fence f) s =
       .next (((s2.modThread t fun th => { th with wait := .none, pc := a }).modThread t fun th => { th with postFail := none }).raise t a
         .fabric a va)) ∧
     (s1.holds t = false → ¬fenceDone s2 t f.scope.toNat f.ord.toNat →
       exec (.fence f) s = .next (s2.modThread t fun th => { th with pc := a, wait := .fence f.scope.toNat f.ord.toNat })) ∧
     (s1.holds t = true → failed s1 = none → exec (.fence f) s = .next (s1.hold t a (.fence f.scope.toNat f.ord.toNat))) ∧
     (s1.holds t = true → ∀ va, failed s1 = some va → exec (.fence f) s =
       .next ((s1.modThread t fun th => { th with postFail := none, pc := a }).raise t a .fabric a va))) ∧
   ∀ f s a t, (Instr.prefetch f).WellFormed → Alone s (.prefetch f) f a t →
     let s1 := entered s t a f
     let core := (s.block (blockOf t)).core
     let s2 := s1.makeRoom core
     ((s.core core).l1.length < (s.core core).l1Lines → s2 = s1) ∧
     ∃ s', exec (.prefetch f) s = .next s' ∧ (s' = s1 ∨ s' = { s2 with cores := s'.cores } ∧
       ∀ c, s'.core c = { s2.core c with l1 := (s'.core c).l1 } ∧ (∀ l ∈ (s2.core c).l1, l ∈ (s'.core c).l1) ∧
         ∀ l ∈ (s'.core c).l1, l ∈ (s2.core c).l1 ∨ (l.dirty = 0 ∧ l.red = none)))

/-- `accld` drains the elements at its position, and `accst` stores exact values in a tile that it brings to binary64 (R134, R208,
R209). -/
def Obligations.TileTransfers : Prop :=
  (∀ f n, (Instr.accld f).WellFormed → f.sa = .special (.acc n) → Completes (.accld f) f (accldPart f n.toNat)) ∧
  ∀ f s a t o d r u v, (Instr.accst f).WellFormed → Alone s (.accst f) f a t → (tget s.blocks (blockOf t)).isSome →
    (entered s t a f).readSrc t 1 .b32 f.sa = .ok o → o.poison = false → f.sb = .reg r u v →
    (entered s t a f).readV t r.toNat (f.ty.regs * f.count) = d → d.poison = false →
    let i := o.val % 2 ^ 7
    let n := o.val / 2 ^ 8 % 2 ^ 7
    let x := tgetD (s.block (blockOf t)).tiles f.dst.toNat {}
    (n % f.count ≠ 0 → exec (.accst f) s = .next ((s.pastGuard t a f).raise t a .misalign a (BitVec.ofNat 64 o.val))) ∧
    (n % f.count = 0 → (x.mode = .fix64 → x.bad = []) →
      ∃ s', exec (.accst f) s = .next s' ∧ storedTile f x (tgetD (s'.block (blockOf t)).tiles f.dst.toNat {}) i n d.val ∧
        s' = { entered s t a f with blocks := s'.blocks } ∧ (∀ b, b ≠ blockOf t → s'.block b = s.block b) ∧
        s'.block (blockOf t) = { s.block (blockOf t) with tiles := (s'.block (blockOf t)).tiles } ∧
        ∀ k, k ≠ f.dst.toNat → tgetD (s'.block (blockOf t)).tiles k {} = tgetD (s.block (blockOf t)).tiles k {})

/-- A thread at `bar` arrives, and waits at its word with `.sync`; with acq_rel only once its earlier accesses are performed, until when it
issues again; the matrix stream arrives by `mbar` once no `mma` of its block runs
(R243, R244, R282).
An arrival counts, and the phase is released when it is complete: the threads that wait at the barrier go on at their next word and
the phase bit flips; otherwise they wait on (R243, R466). -/
def Obligations.Barriers : Prop :=
  ((∀ f s a t, (Instr.bar f).WellFormed → Alone s (.bar f) f a t →
     let s1 := entered s t a f
     let s2 := if f.ord = 3 then s1.startRelease t f.scope.toNat 2 else s1
     let s3 := if f.xc.getLsbD 0 then s2 else s2.modThread t fun th => { th with pc := a, wait := .bar f.dst.toNat }
     ((f.ord = 3 → s2.performed t f.scope.toNat = true) → exec (.bar f) s = .next (s3.arriveBar (blockOf t) f.dst.toNat (codeOf f) (some t))) ∧
     (f.ord = 3 → s2.performed t f.scope.toNat = false → exec (.bar f) s = .next (s2.stayAt t a))) ∧
   ∀ f s b, (Instr.mbar f).WellFormed → s.cur = some (.stream b) → (∀ n, (s.core (s.block b).core).engine ≠ some (b, n)) →
     let s1 := enteredStream s b
     let a := (s.block b).sequencer.pc
     let s2 := if f.xc.getLsbD 0 then s1 else s1.modSeq b fun q => { q with pc := a, st := .waiting, wait := .bar f.dst.toNat }
     exec (.mbar f) s = .next (s2.arriveBar b f.dst.toNat (codeOf f) none)) ∧
  (∀ (s : State) blk k n t, k < 16 → (tget s.blocks blk).isSome → (∀ u, t = some u → (s.thread u).exited = false ∧ blockOf u = blk) →
     let b := tgetD (s.block blk).bars k {}
     let x := arrivedBarrier s b n t
     let s' := s.arriveBar blk k n t
     (¬phaseDone s blk k x t → tgetD (s'.block blk).bars k {} = x ∧ ∀ u, (s'.thread u).pc = (s.thread u).pc ∧ (s'.thread u).wait = (s.thread u).wait) ∧
     (phaseDone s blk k x t → tgetD (s'.block blk).bars k {} = { phase := !b.phase } ∧
       (∀ u ∈ s.blockThreads blk, (s.thread u).wait = .bar k → (s'.thread u).pc = (s.thread u).pc + 12 ∧ (s'.thread u).wait = .none) ∧
       ∀ u, (s.thread u).wait ≠ .bar k → (s'.thread u).pc = (s.thread u).pc ∧ (s'.thread u).wait = (s.thread u).wait) ∧
     (∀ j, j ≠ k → tgetD (s'.block blk).bars j {} = tgetD (s.block blk).bars j {}) ∧ s'.mem = s.mem)

/-- The words of the matrix sequencer but `mma` and `mbar` change its registers, its program counter, a tile; a thread that issues a
sequencer word raises ILLEGAL (R80, R282). -/
def Obligations.SequencerWords : Prop :=
  (∀ f s b, s.cur = some (.stream b) →
    let a := (s.block b).sequencer.pc
    let x := fun n => tgetD (s.block b).sequencer.x n 0
    let s1 := enteredStream s b
    let d := f.dst.toNat
    (∀ v s2, streamSource s1 b f.ty f.sa = some (v, s2) → exec (.mset f) s = .next (s2.modSeq b fun q => { q with x := tset q.x d v })) ∧
    (∀ v s2 r, f.sa = .special (.stream r) → streamSource s1 b f.ty f.sb = some (v, s2) →
      exec (.madd f) s = .next (s2.modSeq b fun q => { q with x := tset q.x d (x r.toNat + v) })) ∧
    exec (.mloop f) s = .next (s1.modSeq b fun q =>
      let left := tgetD q.x d 0 - 1
      if tgetD q.x d 0 = 0 then q
      else if left = 0 then { q with x := tset q.x d left } else { q with x := tset q.x d left, pc := a + displacement f }) ∧
    exec (.mjmp f) s = .next (s1.modSeq b fun q => { q with pc := a + displacement f }) ∧
    exec (.mend f) s = .next (s1.modSeq b fun q => { q with st := .ended }) ∧
    (d < (s.block b).launch.tiles → (s.core (s.block b).core).engine = none →
      exec (.mclr f) s = .next (s1.modBlock b fun b => { b with tiles := tset b.tiles d {} }))) ∧
  ∀ mk ∈ streamWords, ∀ f s c a t, s.cur = some (.group c a [t]) → exec (mk f) s = .next (s.raise t a .illegal a 0)

/-- `mma` on an empty tile or one in fixed point adds to each element of its rows and columns the exact sum of its products in units of
2^-16, modulo 2^64, and counts K; the other elements stay (R130, R286). MMA_COMPLETE frees the engine. -/
def Obligations.MatrixMultiplyFixed : Prop :=
  (∀ f s b m n k oa ob ca aa cb ab, (Instr.mma f).WellFormed → f.ty = .fp4x8 → MmaReady s f b m n k oa ob ca aa cb ab →
    let x := mmaFrom s f b
    (x.mode = .empty ∨ x.mode = .fix64) → x.kcount + k ≤ 2 ^ 20 → bandsAgree x oa ob →
    ∃ s', exec (.mma f) s = .next s' ∧ mmaFrame s s' f b ∧
      let y := tgetD (s'.block b).tiles f.dst.toNat {}
      y.mode = .fix64 ∧ y.kcount = x.kcount + k ∧ y.bandA0 = some (BitVec.ofNat 16 oa.band0) ∧ y.bandB0 = some (BitVec.ofNat 16 ob.band0) ∧
      (∀ i < 128, ∀ j < 128, tgetD y.el (128 * i + j) 0 =
        if i < m ∧ j < n then BitVec.ofInt 64 ((tgetD x.el (128 * i + j) 0).toInt + ((List.range k).map fun e =>
          productUnits (operandValue (s.core ca) f.ty oa aa i e) (operandValue (s.core cb) f.ty ob ab j e)).sum)
        else tgetD x.el (128 * i + j) 0)) ∧
  ∀ s core, (s.core core).engine.isSome → exec (.mmaComplete core) s = .next (s.modCore core fun c => { c with engine := none })

/-- `mma` in binary64 (bfloat16 and FP8 operands on an empty tile, any operands on one already promoted) adds, group of eight by group
of eight, the exact sum of the group with one rounding, and flags the rows and columns that hold an infinity or a NaN (R132, R133,
R286). -/
def Obligations.MatrixMultiplyFloating : Prop :=
  ∀ f s b m n k oa ob ca aa cb ab, (Instr.mma f).WellFormed → MmaReady s f b m n k oa ob ca aa cb ab →
    let x := mmaFrom s f b
    let va := operandValue (s.core ca) f.ty oa aa
    let vb := operandValue (s.core cb) f.ty ob ab
    let bands := fun (o : Operand) i => decide (f.ty = .fp4x8) && (bandValue o i).isSpecial
    (x.mode = .f64 ∨ (x.mode = .empty ∧ f.ty ≠ .fp4x8)) →
    ∃ s', exec (.mma f) s = .next s' ∧ mmaFrame s s' f b ∧
      let y := tgetD (s'.block b).tiles f.dst.toNat {}
      y.mode = .f64 ∧ y.kcount = x.kcount ∧
      (∀ i < 128, y.rowFlags.getLsbD i =
        (x.rowFlags.getLsbD i || (decide (i < m) && (bands oa i || (List.range k).any fun e => (va i e).isSpecial)))) ∧
      (∀ j < 128, y.colFlags.getLsbD j =
        (x.colFlags.getLsbD j || (decide (j < n) && (bands ob j || (List.range k).any fun e => (vb j e).isSpecial)))) ∧
      ∀ i < 128, ∀ j < 128, tgetD y.el (128 * i + j) 0 =
        if i < m ∧ j < n then BitVec.ofNat 64
          (sumGroups f.ty k (va i) (vb j) (bandValue oa i) (bandValue ob j) (tgetD x.el (128 * i + j) 0).toNat)
        else tgetD x.el (128 * i + j) 0

/-- `waitc` and `waitw` end at once where the word satisfies their condition or is poisoned, and otherwise wait at their word with a
monitor armed; MONITOR_RETRY tries an arming again and changes no outcome (R246 to R248). The thread's own earlier stores to the word
are performed before the compare (R302). -/
def Obligations.MonitorWaits : Prop :=
  (∀ f s a t o va b p, (Instr.waitc f).WellFormed → Alone s (.waitc f) f a t →
    let s1 := entered s t a f
    addressG f false t s1 = some (o, va) → s1.readSrc t f.ty.regs f.ty f.sb = .ok b →
    s1.locate t va f.ty.bytes 1 .load (fun p => p.fmt == 0 && p.peer.isNone) = .ok [p] → s1.monitorsAt p.pa < 1024 →
    let s2 := ((s1.settleAt t [spanG va f.ty.bytes]).modThread t fun th => { th with pc := a }).recall p.pa
    let die := (s.block (blockOf t)).core / 64
    (s.block (blockOf t)).stage ≠ .swapped → plainLates s t → mayLog s2 t (4 * f.ty.bytes) (o.tags ||| b.tags) →
    ∃ s', exec (.waitc f) s = .next s' ∧ waitOutcome s1 s' f t a true p.pa (ofBytes (s2.homeRead die p.pa f.ty.bytes)) b.val
      (s2.homePoisoned die p.pa f.ty.bytes)) ∧
  (∀ f s a t o x b off, (Instr.waitw f).WellFormed → Alone s (.waitw f) f a t →
    let s1 := entered s t a f
    addressS f false t s1 = some (o, x) → s1.readSrc t 1 f.ty f.sb = .ok b → placeS t x 4 4 s = some off →
    let s2 := s1.settleAt t [spanS (s.block (blockOf t)).core off 4]
    let c := s2.core (s.block (blockOf t)).core
    (s.block (blockOf t)).stage ≠ .swapped → plainLates s t → mayLog s2 t 16 (o.tags ||| b.tags ||| c.sectorTags off 4) →
    ∃ s', exec (.waitw f) s = .next s' ∧ waitOutcome s1 s' f t a false off (ofBytes (c.sRead off 4)) b.val (c.sectorPoison off 4)) ∧
  ∀ s t w, (s.thread t).wait = .watch w → (s.thread t).exited = false →
    (∀ p ∈ (s.core (s.block (blockOf t)).core).slots, ∀ g, p.2.kind = .guess → p.2.owner = t → p.2.watch = some g → g.armed = true) →
    ((w.global = false ∨ w.armed = true) → exec (.monitorRetry t) s = .next s) ∧
    (w.global = true → w.armed = false → s.monitorsAt w.pa < 1024 → mayLog s t (4 * w.bytes) w.tags →
      ∃ s', exec (.monitorRetry t) s = .next s' ∧
        ((s'.thread t).wait = .watch { w with armed := true } ∨ ((s'.thread t).wait = .none ∧ (s'.thread t).pc = (s.thread t).pc + 12)))

/-- `guess` takes the lowest-numbered free slot, writes its AID, and presumes its value under the slot's tag, or in the wait form leaves
the value group to be written. `guess.w` on a word that has left the pending value delivers the word and mints nothing; otherwise it
guesses with a monitor. `tags` writes reckoning state with a clear poison bit and its guard's tags, and consumes no others (R241, R250
to R254). -/
def Obligations.Guesses : Prop :=
  (∀ f s a t b, (Instr.guess f).WellFormed → Alone s (.guess f) f a t →
    let s1 := entered s t a f
    s1.readSrc t f.ty.regs f.ty f.sb = .ok b → (∃ k, lowestFree s1 (s.block (blockOf t)).core k) → mayGuess s1 t a f b →
    ∃ s', exec (.guess f) s = .next s' ∧ guessed s1 s' f t a b (s1.waitForm t a ((s1.thread t).tagUnion ||| b.tags)) none) ∧
  (∀ f s a t o va b p, (Instr.guessW f).WellFormed → Alone s (.guessW f) f a t →
    let s1 := entered s t a f
    addressG f false t s1 = some (o, va) → s1.readSrc t f.ty.regs f.ty f.sb = .ok b →
    s1.locate t va f.ty.bytes 1 .load (fun p => p.fmt == 0 && p.peer.isNone) = .ok [p] →
    let u := s1.readXc t f.ty.regs f
    let s2 := (s1.settleAt t [spanG va f.ty.bytes]).recall p.pa
    let die := (s.block (blockOf t)).core / 64
    let x := ofBytes (s2.homeRead die p.pa f.ty.bytes)
    plainLates s t →
    (x ≠ u.val → ∃ s', exec (.guessW f) s = .next s' ∧
      holdsWords s' t f.dst.toNat f.ty.regs x (s2.homePoisoned die p.pa f.ty.bytes) ∧
      holdsWords s' t (f.dst.toNat + f.ty.regs) f.ty.regs 0 false ∧ (s'.thread t).pc = a + 12 ∧
      ∀ c k, slotAt s' c k = slotAt s2 c k) ∧
    (x = u.val → (∃ k, lowestFree s2 (s.block (blockOf t)).core k) → mayGuess s2 t a f b →
      ∃ s', exec (.guessW f) s = .next s' ∧ guessed s2 s' f t a b (s2.waitForm t a ((s2.thread t).tagUnion ||| b.tags))
        (some { pa := p.pa, bytes := f.ty.bytes, pending := BitVec.ofNat 64 u.val, presumed := BitVec.ofNat 64 b.val,
                acq := f.ord == 1, scope := f.scope.toNat, armed := decide (s2.monitorsAt p.pa < 1024) }))) ∧
  ∀ f s a t v, (Instr.tags f).WellFormed → Alone s (.tags f) f a t → tagsValue f t (entered s t a f) = some v →
    ∃ s', exec (.tags f) s = .next s' ∧ (s'.thread t).v = tset (s.thread t).v f.dst.toNat
        { val := BitVec.ofNat 32 v, poison := false, tags := ((s.thread t).getP f.gp.toNat).tags } ∧
      (s'.thread t).marks = ((s.pastGuard t a f).thread t).marks ∧ (s'.thread t).p = (s.thread t).p ∧
      (∀ u, u ≠ t → s'.thread u = s.thread u) ∧ (∀ c n, (s'.crew c).getS n = (s.crew c).getS n) ∧
      s' = { s with threads := s'.threads, crews := s'.crews }

/-- `affirm` and `deny` write pd: 1 and the resolution where the AID is live in the thread's context, 0 and nothing else otherwise. A
poisoned AID raises POISON_USE (R253).
An affirmation at a core frees the slot and takes its tag from every register, predicate and mark of the threads there, and changes
no value, no program counter and no memory (R360); that of a wait-form guess writes the value group with the presumption (R467).
A denial at a core sends every thread that holds a mark in the closure of the slot back to its earliest such mark, out of every
wait; the guessing thread goes on behind its guess with the denied value; the slots of the closure are free (R253, R361). That of a wait-form
guess which nothing depends on writes the value group with the denied value, and no thread goes back (R467). -/
def Obligations.Resolutions : Prop :=
  ((∀ f s a t o, (Instr.affirm f).WellFormed → Alone s (.affirm f) f a t →
     let s1 := entered s t a f
     s1.readSrc t 1 .b32 f.sa = .ok o →
     let aid := BitVec.ofNat 32 o.val
     let mine := ∃ c k, s1.guessOf aid = some (c, k) ∧ (slotAt s1 c k).ctx = (s.block (blockOf t)).ctx
     (o.poison = true → exec (.affirm f) s = .next ((s.pastGuard t a f).stopThread t a (.poison 0 o.unit o.place))) ∧ (o.poison = false →
     (mine → exec (.affirm f) s = .next ((s1.writeLoc t (.p f.dst.toNat) 1 false 0).affirm aid)) ∧
     (¬mine → exec (.affirm f) s = .next (s1.writeLoc t (.p f.dst.toNat) 0 false 0)))) ∧
   (∀ f s a t o, (Instr.deny f).WellFormed → Alone s (.deny f) f a t → (entered s t a f).readSrc t 1 .b32 f.sa = .ok o → o.poison = true →
     exec (.deny f) s = .next ((s.pastGuard t a f).stopThread t a (.poison 0 o.unit o.place))) ∧
   ∀ f s a t o x, (Instr.deny f).WellFormed → Alone s (.deny f) f a t →
     let s1 := entered s t a f
     s1.readSrc t 1 .b32 f.sa = .ok o → o.poison = false → s1.readSrc t f.ty.regs f.ty f.sb = .ok x →
     let aid := BitVec.ofNat 32 o.val
     let mine := ∃ c k, s1.guessOf aid = some (c, k) ∧ (slotAt s1 c k).ctx = (s.block (blockOf t)).ctx
     (mine → exec (.deny f) s = .next ((s1.writeLoc t (.p f.dst.toNat) 1 false 0).deny aid (BitVec.ofNat 64 x.val) x.poison)) ∧
     (¬mine → exec (.deny f) s = .next (s1.writeLoc t (.p f.dst.toNat) 0 false 0))) ∧
  ((∀ (s : State) core k aid, k < 8 → (slotAt s core k).kind = .guess → (slotAt s core k).waitForm = true → (slotAt s core k).aid = aid →
     let x := slotAt s core k
     (s.thread x.owner).exited = false → (∃ d ∈ (s.thread x.owner).deferred, d.1 = aid) →
     let s' := s.affirmAt core k
     (tget (s.core core).slots k).isSome ∧ (slotAt s' core k).kind = .free ∧ (∀ d ∈ (s'.thread x.owner).deferred, d.1 ≠ aid) ∧
     (∀ j < x.cnt, s'.getLoc x.owner (.v (x.dst + j)) =
       { val := BitVec.ofNat 32 (x.val.toNat / 2 ^ (32 * j)), poison := x.valPoison, tags := 0 }) ∧
     (∀ t, (s'.thread t).pc = (s.thread t).pc) ∧ s'.mem = s.mem) ∧
   ∀ (s : State) core k, k < 8 → (slotAt s core k).waitForm = false →
     let s' := s.affirmAt core k
     ((tget (s.core core).slots k).isSome → (slotAt s' core k).kind = .free ∧ (slotAt s' core k).gen = (slotAt s core k).gen) ∧
     (∀ t, blockOf t ∈ s.coreBlocks core → untagged s' t k) ∧
     (∀ t n, ((s'.thread t).getV n).val = ((s.thread t).getV n).val ∧ ((s'.thread t).getV n).poison = ((s.thread t).getV n).poison) ∧
     (∀ t, (s'.thread t).pc = (s.thread t).pc) ∧ s'.mem = s.mem ∧ ∀ c, c ≠ core → s'.core c = s.core c) ∧
  ((∀ (s : State) core k x poison, k < 8 → (slotAt s core k).kind = .guess → (slotAt s core k).waitForm = true →
     s.points core ((s.core core).closure k) = [] →
     let y := slotAt s core k
     (s.thread y.owner).exited = false → (∃ d ∈ (s.thread y.owner).deferred, d.1 = y.aid) →
     let s' := s.denyAt core k x poison
     (slotAt s' core k).kind = .free ∧ (∀ d ∈ (s'.thread y.owner).deferred, d.1 ≠ y.aid) ∧
     (∀ j < y.cnt, s'.getLoc y.owner (.v (y.dst + j)) = { val := BitVec.ofNat 32 (x.toNat / 2 ^ (32 * j)), poison := poison, tags := 0 }) ∧
     (∀ t, (s'.thread t).pc = (s.thread t).pc) ∧ s'.mem = s.mem) ∧
   ∀ (s : State) core k x poison, k < 8 → (slotAt s core k).kind = .guess → (slotAt s core k).waitForm = false → nothingLate s →
     let g := (s.core core).closure k
     let s' := s.denyAt core k x poison
     let owner := (slotAt s core k).owner
     (∀ t m, t ∈ s.coreThreads core → (s.thread t).exited = false → (s.thread t).earliest g = some m → t ≠ owner →
       (s'.thread t).pc = m.addr ∧ (s'.thread t).wait = .none) ∧
     (owner ∈ s.coreThreads core → (s.thread owner).exited = false →
       (∃ m ∈ (s.thread owner).marks, m.slot = k ∧ m.seq = (slotAt s core k).seq) →
       (s'.thread owner).pc = (slotAt s core k).at_ + 12 ∧ (s'.thread owner).wait = .none ∧
       ∀ j < (slotAt s core k).cnt, s'.getLoc owner (.v ((slotAt s core k).dst + j)) =
         { val := BitVec.ofNat 32 (x.toNat / 2 ^ (32 * j)), poison := poison, tags := 0 }) ∧
     (∀ j, g.getLsbD j = true → (slotAt s' core j).kind = .free) ∧
     (∀ t, t ∉ s.coreThreads core → t ≠ owner → (s'.thread t).pc = (s.thread t).pc) ∧ s'.mem = s.mem)

/-- `ctn.open` takes a free slot for its thread, marks it, and goes on; a thread already in a region raises ILLEGAL. `ctn.close` takes the
thread out of its region, and raises ILLEGAL outside one (R256 to R258). -/
def Obligations.Containment : Prop :=
  (∀ f s c a t k, (Instr.ctnOpen f).WellFormed → s.cur = some (.group c a [t]) → s.stands a t = true → s.guarded t f = some true →
    s.shadowed t = false →
    let core := (s.block (blockOf t)).core
    ((s.thread t).region = none → lowestFree s core k →
      ∃ s', exec (.ctnOpen f) s = .next s' ∧ (s'.thread t).region = some k ∧ (s'.thread t).pc = a + 12 ∧
        (slotAt s' core k).kind = .contain ∧ (slotAt s' core k).opened = [t] ∧ (slotAt s' core k).handler = a + displacement f ∧
        (∃ m ∈ (s'.thread t).marks, m.slot = k) ∧ ∀ l, s'.getLoc t l = s.getLoc t l) ∧
    ((s.thread t).region ≠ none → exec (.ctnOpen f) s = .next ((s.pastGuard t a f).raise t a .illegal a 0))) ∧
  ∀ f s a t, (Instr.ctnClose f).WellFormed → Alone s (.ctnClose f) f a t →
    ((s.thread t).region = none → exec (.ctnClose f) s = .next ((s.pastGuard t a f).raise t a .illegal a 0)) ∧
    ((s.thread t).region ≠ none → ∃ s', exec (.ctnClose f) s = .next s' ∧ (s'.thread t).region = none ∧ (s'.thread t).pc = a + 12 ∧
      ∀ l, s'.getLoc t l = s.getLoc t l)

/-- `msend` to a block of its launch delivers where the inbox has room, waits where it is full, and writes pd = 0 for a block beyond the
launch or a reserved bit; MESSAGE_DELIVERY delivers a message that waits, with ORD release behind its sender's earlier accesses; `mrecv` takes the oldest message of its block (R259 to R261,
R370). -/
def Obligations.Messages : Prop :=
  (∀ f s a t o d, (Instr.msend f).WellFormed → Alone s (.msend f) f a t →
    let s1 := entered s t a f
    let b := s.block (blockOf t)
    addressG f false t s1 = some (o, d) → (s.thread t).marks = [] → ((s.thread t).getP f.gp.toNat).tags = 0 → o.tags = 0 →
    (∀ n, ((s.thread t).getV n).tags = 0) →
    let no := exec (.msend f) s = .next (s1.writeLoc t (.p f.dst.toNat) 0 false 0)
    (d.extractLsb' 31 21 ≠ 0 → no) ∧
    (d.extractLsb' 31 21 = 0 → d.extractLsb' 52 12 = s.helm.fabDev →
      (b.launch.blocks ≤ (d.extractLsb' 0 31).toNat → no) ∧
      ∀ uid, (d.extractLsb' 0 31).toNat < b.launch.blocks → s.receiver t (d.extractLsb' 0 31).toNat = .placed uid → (tget s.blocks uid).isSome →
        (f.ord = 2 → plainLates s t) →
        ((s.block uid).inbox.length < 64 →
          (f.ord = 2 → (s.core b.core).held.any (·.t == t) = false ∧
            ∀ ml, ((({ s1 with mail := ml } : State).modThread t fun th => { th with pc := a, wait := .send }).startRelease t
              f.scope.toNat 2).performed t f.scope.toNat = true) →
          ∃ s', exec (.msend f) s = .next s' ∧ delivered s s' t uid f.dst.toNat (messageWords f t s) a) ∧
        (64 ≤ (s.block uid).inbox.length →
          ∃ s', exec (.msend f) s = .next s' ∧ (s'.thread t).pc = a ∧ (s'.thread t).wait = .send ∧ s'.blocks = s.blocks ∧
            ∃ m ∈ s'.mail, m.sender = t ∧ m.words = messageWords f t s ∧ m.idx = (d.extractLsb' 0 31).toNat))) ∧
  (∀ s t m uid, s.mail.find? (·.sender == t) = some m → (s.thread t).exited = false → s.receiver t m.idx = .placed uid →
    (tget s.blocks uid).isSome → m.aids = [] → mayLog s t 16 0 → (m.rel ≠ none → plainLates s t) →
    let s1 := match m.rel with
      | some scope => if (s.core (s.block (blockOf t)).core).held.any (·.t == t) then s else s.startRelease t scope 2
      | none => s
    ((s.block uid).inbox.length < 64 → s1.sendOrdered m = false →
      ∃ s', exec (.messageDelivery t) s = .next s' ∧ delivered s1 s' t uid m.pd m.words (s.thread t).pc) ∧
    (64 ≤ (s.block uid).inbox.length ∨ s1.sendOrdered m = true → exec (.messageDelivery t) s = .next s1)) ∧
  ∀ f s a t m rest, (Instr.mrecv f).WellFormed → Alone s (.mrecv f) f a t → (tget s.blocks (blockOf t)).isSome →
    (s.block (blockOf t)).inbox = m :: rest →
    ∃ s', exec (.mrecv f) s = .next s' ∧ (s'.block (blockOf t)).inbox = rest ∧ (s'.thread t).pc = a + 12 ∧ dataStands s s' ∧
      owes s' t (destsOf (.mrecv f)) (some ((List.range f.count).map fun k =>
        (Loc.v (f.dst.toNat + k), { val := (m.words.getD k (0, false)).1, poison := (m.words.getD k (0, false)).2, tags := 0 })))

/-- `mcg.open` leaves outstanding for its register a handle to the group it registers, NO_GROUP or BAD_RECORD; `mcg.close` closes an
open group and answers 0, and BAD_GROUP otherwise; `ldred.mc` and `stmc` stand outstanding, and when they are performed on a group of other
devices they send one request to its members, which waits where no port takes it (R211 to R217, R437, R438). -/
def Obligations.MulticastGroups : Prop :=
  (∀ f s a t o x off ms, (Instr.mcgOpen f).WellFormed → Alone s (.mcgOpen f) f a t →
    let s1 := entered s t a f
    let b := s.block (blockOf t)
    addressS f false t s1 = some (o, x) → (s1.thread t).marks = [] → s1.holds t = false → nothingLate s → o.tags = 0 →
    (s.core b.core).stags = [] →
    placeS t x (8 + 2 * ms.length) 8 s = some off → groupRecordAt (s.core b.core) off ms → (tget s.ctxs b.ctx.toNat).isSome →
    ∃ s' r, exec (.mcgOpen f) s = .next s' ∧ (s'.thread t).pc = a + 12 ∧ dataStands s s' ∧
      owes s' t (destsOf (.mcgOpen f)) (some [((destsOf (.mcgOpen f)).head?.getD (.s 0), { val := r, poison := false, tags := 0 })]) ∧
      (r = 0xFFFFFF07 ∨ ∃ k g, k < 64 ∧ tget (s.ctx b.ctx).groups k = none ∧ opens s' b.ctx r.toNat g ∧ r.toNat % 64 = k ∧
        g.members = ms ∧ g.ordered = f.xc.getLsbD 0)) ∧
  (∀ f s a t n u v, (Instr.mcgClose f).WellFormed → Alone s (.mcgClose f) f a t →
    let s1 := entered s t a f
    let b := s.block (blockOf t)
    let h := (s.crew (crewOf t)).getS n.toNat
    f.sa = .unif n u v → (s1.thread t).marks = [] → s1.holds t = false → h.poison = false → h.tags = 0 →
    let result := fun r s' => exec (.mcgClose f) s = .next s' ∧ (s'.thread t).pc = a + 12 ∧ dataStands s s' ∧
      owes s' t (destsOf (.mcgClose f)) (some [((destsOf (.mcgClose f)).head?.getD (.s 0), { val := r, poison := false, tags := 0 })])
    (∀ g, opens s b.ctx h.val.toNat g → (tget s.ctxs b.ctx.toNat).isSome →
      ∃ s', result 0 s' ∧ tget (s'.ctx b.ctx).groups (h.val.toNat % 64) = none) ∧
    ((∀ g, ¬opens s b.ctx h.val.toNat g) → ∃ s', result 6 s' ∧ s'.ctxs = s.ctxs)) ∧
  (∀ f s a t n u v o va,
    f.sb = .unif n u v → addressG f false t (entered s t a f) = some (o, va) → (s.crew (crewOf t)).getS n.toNat = { val := ((s.crew (crewOf t)).getS n.toNat).val } →
    ((Instr.ldredMc f).WellFormed → Alone s (.ldredMc f) f a t → f.ord = 0 → groupAddressOk va (4 * f.count) →
      ∃ s', exec (.ldredMc f) s = .next s' ∧ (s'.thread t).pc = a + 12 ∧ dataStands s s' ∧ owes s' t (destsOf (.ldredMc f)) none ∧
        ((entered s t a f).holds t = false → (s.thread t).marks = [] → o.tags = 0 → ∃ out sp,
          stillDue s' t (some s.seq) (.effect (.ldred f va ((s.crew (crewOf t)).getS n.toNat).val out) sp))) ∧
    ((Instr.stmc f).WellFormed →
      let s0 := if f.ord = 2 then s.startRelease t 6 2 else s
      let d := (entered s0 t a f).readV t f.dst.toNat (lsRegs f)
      Alone s (.stmc f) f a t → Alone s0 (.stmc f) f a t → s.holds t = false → plainLates s t → (f.ord = 2 → s0.performed t 6 = true) →
      addressG f false t (entered s0 t a f) = some (o, va) → groupAddressOk va (f.ty.bytes * f.count) → d.poison = false →
      ∃ s', exec (.stmc f) s = .next s' ∧ (s'.thread t).pc = a + 12 ∧ (∀ u l, s'.getLoc u l = s.getLoc u l) ∧ owes s' t (destsOf (.stmc f)) none ∧
        ((s.thread t).marks = [] → o.tags = 0 → d.tags = 0 → ((s.thread t).getP f.gp.toNat).tags = 0 → ∃ out sp,
          stillDue s' t (some s.seq) (.effect (.stmc f va ((s.crew (crewOf t)).getS n.toNat).val d.val out) sp)))) ∧
  ∀ s t id q f va h out sp g, opens s (s.block (blockOf t)).ctx (BitVec.toNat h) g → s.helm.fabValid = true → g.members ≠ [] →
    s.helm.fabDev ∉ g.members →
    (due s t id q (.effect (.ldred f va h out) sp) → ∃ s', exec (.accessPerformed t id) s = .next s' ∧ dataStands s s' ∧
      sentTo s s' t g va (leBytes (4 * f.count) 0)) ∧
    ∀ data, due s t id q (.effect (.stmc f va h data out) sp) → ∃ s', exec (.accessPerformed t id) s = .next s' ∧ dataStands s s' ∧
      sentTo s s' t g va (if f.xc.getLsbD 2 then leBytes 8 data else (dataPieces f data).flatMap (·.2))

/-- The copy words capture their record from the block's scratchpad as it stands at issue and start a command (R293). A command that moves
bytes within its block's scratchpad copies them and ends. One that has moved, was killed or has a reserved field ends with its status, 0x14 for the
last: it writes the completion word and the queue entry that it asks for, and a COPYFAIL entry where the status is not 0 (R294 to R297). -/
def Obligations.CopyCommands : Prop :=
  (∀ e ∈ copyWords, ∀ f s a t o x off n, (e.1 f).WellFormed → Alone s (e.1 f) f a t →
    let s1 := entered s t a f
    let b := s.block (blockOf t)
    let c := s.core b.core
    let h := if e.2 = 2 then (match f.sb with | .unif k _ _ => (s.crew (crewOf t)).getS k.toNat | _ => {}) else {}
    addressS f false t s1 = some (o, x) → o.tags = 0 → (s1.thread t).marks = [] → s1.holds t = false → nothingLate s →
    h.poison = false → h.tags = 0 →
    n = recordBytes e.2 (c.sByte (b.spBase + x + 17)).toNat → placeS t x (max 32 n) 8 s = some off →
    c.stags = [] → c.spoison = [] →
    ((c.sByte (off + 18)).toNat.testBit 6 = true → ofBytes (c.sRead (off + 24) 8) % 2 ^ 20 + 4 ≤ 1024 * b.launch.spKib) →
    ∃ s', exec (e.1 f) s = .next s' ∧ (s'.thread t).pc = a + 12 ∧ dataStands s s' ∧
      s'.copies = tset s.copies s.nextId { blk := blockOf t, t := t, core := b.core, ctx := b.ctx, op := e.2, record := c.sRead off n,
                                           handle := h.val, asked := s.cycle }) ∧
  (∀ s id c src dst n, tget s.copies id = some c → MovesOwn s id c src dst n →
    ∃ s', exec (.copyCompletion id) s = .next s' ∧ tget s'.copies id = none ∧ dataStands s s' ∧
      let base := (s.block c.blk).spBase
      ∀ k, (s'.core c.core).sByte k =
        if base + dst ≤ k ∧ k < base + dst + n then (s.core c.core).sByte (k - dst + src) else (s.core c.core).sByte k) ∧
  (∀ s id c st, tget s.copies id = some c → endsWith c st → c.faulted = false → c.worded = false → (s.block c.blk).stage ≠ .gone →
    (tget s.blocks c.blk).isSome → (s.allRequests.any fun r => r.kind == .cpym id) = false → c.outIds = [] →
    let b := s.block c.blk
    let q := c.ctrl 24 4
    let v := if st = 0 then c.value else 0xFFFFFF00 + st
    let entry : Report := { kind := 3, code := st, crew := crewIx c.t, tid := tidOf c.t, task := b.task, blk := b.index, value := c.cwoff,
                            value2 := 0xFFFFFF00 + st }
    ∃ s', exec (.copyCompletion id) s = .next s' ∧ (∀ u l, s'.getLoc u l = s.getLoc u l) ∧
      s'.mem = (if st = 0 then s else s.report c.ctx entry).mem ∧
      (∀ k j, (s'.core k).sByte j = if c.ctrl 22 1 = 1 ∧ k = b.core ∧ b.spBase + c.cwoff ≤ j ∧ j < b.spBase + c.cwoff + 4 then
        (leBytes 4 v).getD (j - (b.spBase + c.cwoff)) 0 else (s.core k).sByte j) ∧
      (c.ctrl 23 1 = 1 → 16 ≤ (tgetD b.queues q []).length → (tget s'.copies id).isSome ∧ (s'.block c.blk).queues = b.queues) ∧
      ((tgetD b.queues q []).length < 16 ∨ c.ctrl 23 1 = 0 → tget s'.copies id = none ∧
        ∀ j, tgetD (s'.block c.blk).queues j [] = if c.ctrl 23 1 = 1 ∧ j = q then
          tgetD b.queues q [] ++ [{ val := BitVec.ofNat 64 (c.value + st * 2 ^ 32), poison := false }] else tgetD b.queues j [])) ∧
  ∀ s id c, tget s.copies id = some c → c.faulted = true → exec (.copyCompletion id) s = .next s

/-- ISSUE_SELECTION completes in every state: where a sub-core of an active context has ready PC groups, one that R41 lets be chosen is
the group being issued, with its threads at one address, and the wait counts of the others rise by one; where it has none, nothing is
chosen. Registers, memory and program counters stay. With a `sys.reckon` of 0 the holds that end at once are ASSUME_OVERFLOW (R358). -/
def Obligations.IssueSelection : Prop :=
  (∀ s core sub, ∃ s', exec (.issueSelection core sub) s = .next s') ∧
  ∀ (s : State) core sub, (∀ c ∈ s.subCrews core sub, (s.block (c / 4)).reckon ≠ 0) →
    let crews := s.subCrews core sub
    let s1 := (crews.flatMap s.crewThreads).foldl State.countHold s
    let gs := crews.flatMap s1.crewGroups
    sameData s s1 ∧ (∀ t, s1.thread t = { s.thread t with holdSince := (s1.thread t).holdSince }) ∧
    (gs = [] → exec (.issueSelection core sub) s = .next s1) ∧
    (gs ≠ [] → ∃ g s', mayChoose gs g ∧ exec (.issueSelection core sub) s = .next s' ∧
      s'.cur = some (.group g.crew g.pc (s1.issueThreads g)) ∧ sameData s s' ∧ (∀ t, (s'.thread t).pc = (s.thread t).pc) ∧
      (s.block (g.crew / 4)).core = core ∧ (s.crew g.crew).sub = sub ∧
      (∀ t ∈ s1.issueThreads g, crewOf t = g.crew ∧ (s.thread t).pc = g.pc ∧ (s.thread t).exited = false ∧ (s.thread t).wait = .none) ∧
      ∀ h ∈ gs, (h.crew ≠ g.crew ∨ h.pc ≠ g.pc) → ∀ t ∈ h.threads, (s'.thread t).waitCnt = h.waitCnt + 1)

/-- Events of a core: a held trap is taken once its tags are gone; a result arrives in its registers, and a load whose last unit is still to be
performed is performed then (R63, R308); a hold longer than sys.reckon raises ASSUME_OVERFLOW; an access is acknowledged. -/
def Obligations.CoreEvents : Prop :=
  (∀ s t c epc bad, (s.thread t).wait = .trapHeld (Cause.code c) epc bad → (s.thread t).exited = false →
    (s.plainUnion t ≠ 0 → exec (.trapEntry t) s = .next s) ∧
    (trapsAtOnce s t → ∃ s', exec (.trapEntry t) s = .next s' ∧ inHandler s s' t c.code epc bad)) ∧
  (∀ s t k o wb, (s.thread t).out.find? (·.id == k) = some o → o.wb = some wb → (wb.map (·.1)).Nodup → (s.thread t).exited = false →
    (tget s.crews (crewOf t)).isSome →
    (∀ x ∈ (s.thread t).lates, ¬readsFor x.2.2 k) → (∀ x ∈ wb, ∀ n, x.1 = .p n → x.2.val = 0 ∨ x.2.val = 1) →
    ∃ s', exec (.longLatencyComplete t k) s = .next s' ∧ s'.mem = s.mem ∧ (∀ x ∈ (s'.thread t).out, x.id ≠ k) ∧
      (∀ x ∈ wb, x.1 ≠ .p 15 → s'.getLoc t x.1 = { x.2 with tags := x.2.tags ||| o.tags }) ∧
      (∀ l, l ∉ wb.map (·.1) → s'.getLoc t l = s.getLoc t l) ∧ ∀ u, u ≠ t → s'.thread u = s.thread u) ∧
  (∀ s t k id q u g o l, due s t id q u → pieceRead s u k 0 g → (∀ x ∈ (s.thread t).lates, readsFor x.2.2 k → x.1 = id) → resultAt s t k = some o →
    o.late = some l → l.got = [none] → l.block = false → l.f.xc.getLsbD 2 = false → (s.thread t).exited = false → (tget s.crews (crewOf t)).isSome →
    ∃ s', exec (.longLatencyComplete t k) s = .next s' ∧ s'.mem = s.mem ∧ (∀ x ∈ (s'.thread t).out, x.id ≠ k) ∧
      ∀ x ∈ groupValues (l.f.xc.getLsbD 3) l.f.dst.toNat (resultWords l [g]) g.poison, s'.getLoc t x.1 = { x.2 with tags := o.tags }) ∧
  (∀ s t c, (s.thread t).holdSince = some c → (s.thread t).exited = false → (s.thread t).handler = false → (s.thread t).region = none →
    (s.block (blockOf t)).tba ≠ 0 →
    (s.cycle - c ≤ (s.block (blockOf t)).reckon → exec (.reckonTimeout t) s = .next s) ∧
    ((s.block (blockOf t)).reckon < s.cycle - c → ∃ s', exec (.reckonTimeout t) s = .next s' ∧ (s'.thread t).cause = 9 ∧
      (s'.thread t).epc = (s.thread t).pc ∧ (s'.thread t).badaddr = 0 ∧ (s'.thread t).handler = true ∧
      (s'.thread t).pc = (s.block (blockOf t)).tba ∧ (s'.thread t).wait = .none ∧ sameData s s')) ∧
  ∀ s t k, (∀ x ∈ (s.thread t).lates, x.1 ≠ k) →
    ∃ s', exec (.accessPerformed t k) s = .next s' ∧ s'.todo = s.todo ++ [.fences] ∧ sameData s s' ∧
      (∀ p ∈ (s'.thread t).pend, p ≠ (k, .home)) ∧ ∀ p ∈ (s.thread t).pend, p ≠ (k, .home) → p ∈ (s'.thread t).pend

/-- Writes reach memory: one that leaves a die's outbound path writes its bytes, or its nibble, and no others, and an evicted line writes back
its dirty bytes and no others, and is gone (R305, R319, R331).
An uncorrectable error poisons what it strikes and keeps its value; a corrected one is counted, to no more than 0xFFFF (R408, R411,
R417). -/
def Obligations.MemoryEvents : Prop :=
  ((∀ (s : State) die k w, s.memOk → (tgetD s.outbound die []).find? (·.id == k) = some w →
     ((tgetD s.outbound die []).takeWhile (·.id != k)).all (fun x => !overlap x.pa x.data.length w.pa w.data.length) →
     ∃ s', exec (.outboundWritePerformed die k) s = .next s' ∧ (w.half = none → stored s s' w.pa w.data) ∧
       (∀ hi, w.half = some hi → let d := (w.data.getD 0 0).toNat
         stored s s' w.pa [withNibble hi (if hi then d / 16 else d) (memGet s.mem w.pa)]) ∧
       tgetD s'.outbound die [] = (tgetD s.outbound die []).filter (·.id != k)) ∧
   ∀ (s : State) core k l, s.memOk → (s.core core).l1[k]? = some l → l.red = none → l.data.length = 128 → l.hurt = 0 →
     (l.pa % 2 ^ 15 + 128 ≤ 2 ^ 14 ∨ s.ctxs = []) → (∀ j < 128, homeDie (l.pa + j) = core / 64) →
     ∃ s', exec (.eviction core k) s = .next s' ∧
       (∀ j < 128, memGet s'.mem (l.pa + j) = if l.dirty.getLsbD j then l.data.getD j 0 else memGet s.mem (l.pa + j)) ∧
       (∀ a, a < l.pa ∨ l.pa + 128 ≤ a → memGet s'.mem a = memGet s.mem a) ∧
       ∀ x ∈ (s'.core core).l1, x.ctx ≠ l.ctx ∨ x.line ≠ l.line) ∧
  ((∀ s die pa unit, ∃ s', exec (.uncorrectableError die (.sector pa unit)) s = .next s' ∧ pa / 32 ∈ s'.marked ∧ ∀ k ∈ s.marked, k ∈ s'.marked) ∧
   (∀ s die core k, ∃ s', exec (.uncorrectableError die (.scratch core k)) s = .next s' ∧ k ∈ (s'.core core).spoison ∧
     ∀ a, (s'.core core).sByte a = (s.core core).sByte a) ∧
   (∀ s die t n, (s.thread t).exited = false → ∃ s', exec (.uncorrectableError die (.vreg t n)) s = .next s' ∧
     (s'.thread t).getV n = { (s.thread t).getV n with poison := true } ∧ ∀ m, m ≠ n → (s'.thread t).getV m = (s.thread t).getV m) ∧
   (∀ s die c n, (tget s.crews c).isSome → ∃ s', exec (.uncorrectableError die (.ureg c n)) s = .next s' ∧
     (s'.crew c).getS n = { (s.crew c).getS n with poison := true } ∧ ∀ m, m ≠ n → (s'.crew c).getS m = (s.crew c).getS m) ∧
   (∀ s die t n, (s.thread t).exited = false → n ≠ 15 → ∃ s', exec (.uncorrectableError die (.pred t n)) s = .next s' ∧
     (s'.thread t).getP n = { (s.thread t).getP n with poison := true }) ∧
   (∀ s die b q k e, (tget s.blocks b).isSome → (tgetD (s.block b).queues q [])[k]? = some e →
     ∃ s', exec (.uncorrectableError die (.queue b q k)) s = .next s' ∧ (tgetD (s'.block b).queues q [])[k]? = some { e with poison := true }) ∧
   (∀ s die b acc, (tget s.blocks b).isSome → ∃ s' e, exec (.uncorrectableError die (.tile b acc)) s = .next s' ∧
     e < 16384 ∧ (tgetD (s'.block b).tiles acc {}).bad = e :: (tgetD (s.block b).tiles acc {}).bad) ∧
   ∀ s die, die < 4 → ∃ s', exec (.correctedError die) s = .next s' ∧ onlyHelm s s' ∧
     (∀ d < 4, d ≠ die → s'.helm.errCorr.extractLsb' (16 * d) 16 = s.helm.errCorr.extractLsb' (16 * d) 16) ∧
     (s'.helm.errCorr.extractLsb' (16 * die) 16).toNat = min 0xFFFF ((s.helm.errCorr.extractLsb' (16 * die) 16).toNat + 1))

/-- The host reads and writes memory of the HBM4E range at its home, while a module stands, once step 4 of the start is complete; until
then an access waits (R440, R441, R457). What a CXL memory device reports poisoned is marked, and what is read of a line that has had no
completion for the fabric timeout is poisoned (R443). -/
def Obligations.HostAndCxlMemory : Prop :=
  (∀ (s : State) pa bs, s.memOk → s.helm.modules ≠ 0 → s.helm.hdmReady = true → pa + bs.length ≤ 2 ^ 40 → s.outbound = [] →
    ∃ s', exec (.hostMemoryAccess true pa bs) s = .next s' ∧ stored s s' pa bs) ∧
  (∀ (s : State) w pa bs, s.helm.modules ≠ 0 → s.helm.hdmReady = false → pa + bs.length ≤ 2 ^ 40 →
    exec (.hostMemoryAccess w pa bs) s = .next { s with hostWaiting := s.hostWaiting ++ [(w, pa, bs)] }) ∧
  (∀ (s : State) pa bs, s.helm.modules ≠ 0 → s.helm.hdmReady = true → pa + bs.length ≤ 2 ^ 40 → s.outbound = [] → (∀ c ∈ s.cores, ∀ l ∈ c.2.l1, l.red = none) →
    ∃ s', exec (.hostMemoryAccess false pa bs) s = .next s' ∧ s'.mem = s.mem ∧ s'.hostData = seen s pa bs.length) ∧
  (∀ (s : State) w pa bs, s.helm.modules = 0 → exec (.hostMemoryAccess w pa bs) s = .next s) ∧
  (∀ s m, m < 4 → ∃ s', exec (.moduleFailure m) s = .next s' ∧ onlyHelm s s' ∧ s'.helm.modules.getLsbD m = false ∧
    ∀ j, j ≠ m → s'.helm.modules.getLsbD j = s.helm.modules.getLsbD j) ∧
  (∀ s pa, 2 ^ 40 ≤ pa → s.populated pa 1 = true → ∃ s', exec (.cxlPoison pa) s = .next s' ∧ pa / 32 ∈ s'.marked) ∧
  (∀ s pa, 2 ^ 40 ≤ pa → s.populated pa 1 = true → nothingLate s → ∃ s', exec (.cxlCompletionTimeout pa) s = .next s' ∧
    (∀ t, (s'.thread t).out.map (·.id) = (s.thread t).out.map (·.id)) ∧
    ∀ t, ∀ o ∈ (s.thread t).out, pa / 128 ∈ o.lines → stoodFor s o.asked → o.wb.isSome = true →
      ∀ x ∈ (s'.thread t).out, x.id = o.id → ∀ wb, x.wb = some wb → ∀ y ∈ wb, y.2.poison = true) ∧
  ∀ s pa t id q since out k scope va pg n o l, 2 ^ 40 ≤ pa → s.populated pa 1 = true → (∀ u, u ≠ t → (s.thread u).pend = []) →
    (s.thread t).pend = [(id, .late q since (.read out k scope va pg n))] → stoodFor s since → pg.peer = none → 0 < n → pg.pa / 128 = pa / 128 →
    resultAt s t out = some o → o.late = some l → l.got = [none] → k = 0 →
    ∃ s' o' wb, exec (.cxlCompletionTimeout pa) s = .next s' ∧ resultAt s' t out = some o' ∧ o'.wb = some wb ∧ ∀ y ∈ wb, y.2.poison = true

/-- A register of BAR 0 that may be written reads back the bits it holds; a write to a command register does what the command it names
does, and nothing where it names none; a write elsewhere changes nothing. SXVAL reads all ones where its
selection is not disclosed or not kept, and never where it is; a count of cycles has its low TIMEK bits clear. POWSTAT takes the power limit.
Firmware staging and attestation follow FWSTAT, NONCE and ATTSIG (R371, R451, R452, R458, R460). -/
def Obligations.DeviceRegisters : Prop :=
  (∀ e ∈ plainRegisters, ∀ s v, ∃ s', exec (.registerWrite e.1 v) s = .next s' ∧ onlyHelm s s' ∧ s'.barRead e.1 = v &&& e.2) ∧
  (∀ s v, ∃ s', exec (.registerWrite 0x0018 v) s = .next s' ∧ onlyHelm s s' ∧ s'.helm.ctxErr = (s.helm.ctxErr && !v.getLsbD 31)) ∧
  (∀ s off v, commandOffsets off → exec (.registerWrite off v) s = match commandOf off v with | some i => exec i s | none => .next s) ∧
  (∀ s k v, k < 32 → k % 2 = 1 → exec (.registerWrite (0x0100 + 4 * k) v) s = exec (.kick k (v.extractLsb' 0 32)) s) ∧
  (∀ s k v, k < 8 → k % 2 = 1 → exec (.registerWrite (0x0560 + 4 * k) v) s = exec (.nonce k (v.extractLsb' 0 32)) s) ∧
  (∀ s off v, ¬writable off → exec (.registerWrite off v) s = .next s) ∧
  (∀ s, let level := (s.helm.sxsel.extractLsb' 32 3).toNat
    ∃ s', exec .sxval s = .next s' ∧ s' = { s with sxval := s'.sxval, free := s'.free, ctxs := s'.ctxs } ∧
      ((level = 0 ∨ 5 ≤ level ∨ s.ctxLive (s.helm.sxsel.extractLsb' 0 16) = false ∨
        (s.ctx (s.helm.sxsel.extractLsb' 0 16)).level (s.helm.sxsel.extractLsb' 24 3).toNat < level ∨
        6 ≤ (s.helm.sxsel.extractLsb' 24 3).toNat) → s'.sxval = BitVec.allOnes 64) ∧
      (level = 1 → s.ctxLive (s.helm.sxsel.extractLsb' 0 16) = true → (s.helm.sxsel.extractLsb' 24 3).toNat < 6 →
        1 ≤ (s.ctx (s.helm.sxsel.extractLsb' 0 16)).level (s.helm.sxsel.extractLsb' 24 3).toNat → s'.sxval ≠ BitVec.allOnes 64 ∧
        ((s.helm.sxsel.extractLsb' 24 3).toNat = 2 → (s.helm.sxsel.extractLsb' 27 5).toNat = 0 →
          s'.sxval.toNat % 2 ^ (s.ctx (s.helm.sxsel.extractLsb' 0 16)).timek = 0))) ∧
  (∀ s v, clockOf s.helm < 2 ^ 16 → ∃ s', exec (.registerWrite 0x0098 v) s = .next s' ∧ onlyHelm s s' ∧
    (s'.barRead 0x0098).extractLsb' 32 32 = (v.extractLsb' 32 16).setWidth 32 ∧
    (s'.barRead 0x0098).extractLsb' 0 32 = (s.barRead 0x0098).extractLsb' 0 32) ∧
  (∀ s, ∃ s', exec .begin_ s = .next s' ∧ onlyHelm s s' ∧ staging s' = (true, false, false, false, 0)) ∧
  (∀ s v, s.helm.fwOpen = true → s.helm.fwCount + 8 ≤ 2 ^ 26 → ∃ s', exec (.fwdata v) s = .next s' ∧ onlyHelm s s' ∧
    s'.helm.fwCount = s.helm.fwCount + 8 ∧ s'.helm.fwSlot = s.helm.fwSlot ++ leBytes 8 v.toNat) ∧
  (∀ s len, ∃ s', exec (.commit len) s = .next s' ∧ onlyHelm s s' ∧ s'.helm.fwOpen = false ∧
    (s.helm.fwOpen = true → s.helm.fwError = false → len.toNat = s.helm.fwCount → s'.helm.fwStaged = true) ∧
    ((s.helm.fwOpen = false ∨ s.helm.fwError = true ∨ len.toNat ≠ s.helm.fwCount) → s'.helm.fwError = true)) ∧
  (∀ s, ∃ s', exec .abort s = .next s' ∧ onlyHelm s s' ∧ s'.helm.fwOpen = false ∧ s'.helm.fwStaged = false) ∧
  (∀ s k v, k < 8 → ∃ s', exec (.nonce k v) s = .next s' ∧ onlyHelm s s' ∧ tget s'.helm.nonce k = some v ∧ (k = 7 → s'.helm.signing = true)) ∧
  ∀ s, s.helm.signing = true → ∃ s', exec .signatureComplete s = .next s' ∧ onlyHelm s s' ∧ s'.helm.signing = false ∧
    s'.helm.attSig = Config.edSign (((List.range 8).flatMap fun k => leBytes 4 (tgetD s.helm.nonce k 0).toNat) ++
      leBytes 64 s.helm.fwMeas.toNat ++ leBytes 8 s.helm.bootStat)

/-- The arithmetic clock is the lower of what the power limit and the junction limits allow. The first falls by 50 MHz where the draw would exceed
the limit, the second at a junction limit, each to no less than 700 and with its reason; both rise again to no more than 1,400 where the draw is
below the limit. At 700 MHz a critical temperature ends every context and takes the helm down. A start leaves nothing of what ran, the CXL tier
stands, and while its step 2 runs the clock is at 700 MHz; its steps follow one another, HDM memory is open from step 4 on and the helm is active
after step 6 (R455 to R457, R459). -/
def Obligations.ClockAndStarts : Prop :=
  (∀ s, ∃ s', exec .powerLimit s = .next s' ∧ s' = { s with helm := s'.helm, free := s'.free } ∧
    ((s.draw).1 ≤ min 3200 s.helm.powLimit → s'.helm = s.helm) ∧
    (min 3200 s.helm.powLimit < (s.draw).1 → s'.helm.powClock = max 700 (s.helm.powClock - 50) ∧ s'.helm.hotClock = s.helm.hotClock ∧
      s'.helm.reason.getLsbD 0 = true ∧ s'.helm.reason.getLsbD 1 = s.helm.reason.getLsbD 1)) ∧
  (∀ s die, ∃ s', exec (.junctionLimit die) s = .next s' ∧ onlyHelm s s' ∧ s'.helm.hotClock = max 700 (s.helm.hotClock - 50) ∧
    s'.helm.powClock = s.helm.powClock ∧ s'.helm.reason.getLsbD 1 = true ∧ s'.helm.reason.getLsbD 0 = s.helm.reason.getLsbD 0) ∧
  (∀ s, ∃ s', exec .arithmeticClockRaise s = .next s' ∧ s' = { s with helm := s'.helm, free := s'.free } ∧
    (min 3200 s.helm.powLimit ≤ (s.draw).1 → s'.helm = s.helm) ∧
    ((s.draw).1 < min 3200 s.helm.powLimit → s'.helm.powClock = min 1400 (s.helm.powClock + 50) ∧
      s'.helm.hotClock = min 1400 (s.helm.hotClock + 50) ∧ s'.helm.reason = 0)) ∧
  (∀ (s : State), clockOf s.helm < 2 ^ 16 → s.helm.powLimit < 2 ^ 32 →
    ((s.barRead 0x0098).extractLsb' 16 16).toNat = clockOf s.helm ∧ (s.barRead 0x0098).extractLsb' 0 2 = s.helm.reason ∧
      (s.barRead 0x0098).getLsbD 2 = decide (s.helm.bootStep = 2)) ∧
  (∀ s die, die < 4 → clockOf s.helm = 700 → ∃ s', exec (.criticalTemperature die) s = .next s' ∧ s'.helm.hstat.getLsbD 0 = true ∧
    s'.helm.hstat.getLsbD 1 = true ∧ ∀ c x, tget s.ctxs c = some x → c < 2 ^ 16 → endedContext s' (BitVec.ofNat 16 c)) ∧
  (∀ s, ∃ s', exec .coldStart s = .next s' ∧ started s s' true) ∧ (∀ s, ∃ s', exec .warmStart s = .next s' ∧ started s s' false) ∧
  ∀ (s : State), let s' := s.startStep
    ((s.helm.bootStep < 2 ∨ 6 < s.helm.bootStep) → s' = s) ∧
    (s.helm.bootStep = 2 → clockOf s'.helm = min s.helm.powClock s.helm.hotClock ∧
      s'.helm.bootStep = if s'.helm.dieFail.getLsbD 0 then 8 else 3) ∧
    (s.helm.bootStep = 3 → s'.helm.bootStep = 4 ∧ ∀ p, (tgetD s'.ports p {}).state = 2 ∨ tgetD s'.ports p {} = tgetD s.ports p {}) ∧
    (s.helm.bootStep = 4 → s'.helm.bootStep = (if s.helm.warm then 6 else 5) ∧ s'.helm.hdmReady = true ∧ s'.hostWaiting = []) ∧
    (s.helm.bootStep = 5 → s'.helm.bootStep = if s'.helm.dieFail.getLsbD 0 then 8 else 6) ∧
    (s.helm.bootStep = 6 → s'.helm.bootStep = 7 ∧ s'.helm.hstat.getLsbD 0 = true)

/-- The answers to translation faults and invalidations: parked threads of the context issue again, or raise PAGE; no line of a
range is left in any L1, and no page-table leaf of it is kept (R54, R387, R423, R426, R427). -/
def Obligations.TranslationEvents : Prop :=
  (∀ s ctx, ∃ s', exec (.xlresUnpark ctx) s = .next s' ∧ sameData s s' ∧
    ∀ t va, (s.thread t).wait = .parked va →
      ((s.block (blockOf t)).ctx = ctx → (s'.thread t).wait = .none ∧ (s'.thread t).pc = (s.thread t).pc) ∧
      ((s.block (blockOf t)).ctx ≠ ctx → s'.thread t = s.thread t)) ∧
  (∀ s ctx t va, s.faultedStreams ctx = [] → (s.thread t).wait = .parked va → (s.block (blockOf t)).ctx = ctx → (s.thread t).exited = false →
    (s.block (blockOf t)).core < 256 → trapsAtOnce s t →
    ∃ s', exec (.xlresKill ctx) s = .next s' ∧ (s'.thread t).cause = 5 ∧ (s'.thread t).epc = (s.thread t).pc ∧ (s'.thread t).badaddr = va ∧
      (s'.thread t).handler = true ∧ (s'.thread t).pc = (s.block (blockOf t)).tba ∧ (s'.thread t).wait = .none ∧ sameData s s') ∧
  (∀ s ctx len, ∃ s', exec (.xlinvcmd ctx len) s = .next s' ∧ onlyHelm s s' ∧ s'.helm.xlBusy = true ∧
    s'.helm.xlRanges = s.helm.xlRanges ++ [(ctx, s.helm.xlBase.toNat / 2 ^ 16 * 2 ^ 16, 65536 * len.toNat)]) ∧
  ∀ s, s.helm.xlBusy = true → ∃ s', exec .invalidationComplete s = .next s' ∧ s'.helm.xlBusy = false ∧ s'.helm.xlRanges = [] ∧
    ∀ r ∈ s.helm.xlRanges,
      (∀ c, ∀ l ∈ (s'.core c).l1, l.ctx ≠ r.1 ∨ 128 * l.line + 128 ≤ r.2.1 ∨ r.2.1 + r.2.2 ≤ 128 * l.line ∨ r.2.2 = 0) ∧
      ∀ x ∈ s'.leaves, x.meets r.1 r.2.1 r.2.2 = false

/-- The debugger's commands (R277): ATTACH and DETACH set and clear DBG, and DETACH lets a thread at a `brk` go on; HALT, RESUME and STEP act on the crews of the selected block, and
are refused with ERR while DBG is 0. -/
def Obligations.DebuggerCommands : Prop :=
  (∀ s ctx, ∃ s', exec (.attach ctx) s = .next s' ∧ onlyHelm s s' ∧ ctx ∈ s'.helm.attached ∧ s'.helm.dbgCtx = ctx) ∧
  (∀ s ctx, ∃ s', exec (.detach ctx) s = .next s' ∧ ctx ∉ s'.helm.attached ∧ sameData s s' ∧
    ∀ t, (tget s.blocks (blockOf t)).isSome → (s.block (blockOf t)).ctx = ctx → (tget s.crews (crewOf t)).isSome → (s.thread t).exited = false →
      (s.thread t).wait = .brk → (s'.thread t).wait = .none ∧ (s'.thread t).pc = (s.thread t).pc + 12) ∧
  (∀ s ctx all crew, ctx ∉ s.helm.attached → ∀ i ∈ [Instr.halt ctx all, .resume ctx all, .step ctx crew],
    ∃ s', exec i s = .next s' ∧ onlyHelm s s' ∧ s'.helm.ctxErr = true) ∧
  ∀ s ctx b c, ctx ∈ s.helm.attached → (tget s.blocks b).isSome → (s.block b).ctx = ctx → (s.block b).core < 256 →
    (s.block b).task.toNat = s.helm.dbgSel.toNat / 2 ^ 32 → (s.block b).index = s.helm.dbgSel.toNat % 2 ^ 32 →
    c / 4 = b → (tget s.crews c).isSome →
    (∀ all, (s.crew c).halted = none → ∃ s', exec (.halt ctx all) s = .next s' ∧ (s'.crew c).haltReq = true ∧ sameData s s') ∧
    (∀ all, (s.crew c).halted = some .boundary → ∃ s', exec (.resume ctx all) s = .next s' ∧ (s'.crew c).halted = none ∧ sameData s s') ∧
    ∀ k : BitVec 2, k.toNat = c % 4 → ∃ s', exec (.step ctx k) s = .next s' ∧ (s'.crew c).stepReq = true ∧ (s'.crew c).halted = none ∧
      sameData s s'

/-- Queues (R371, R373, R375, R376): KICK sets kicks, a descriptor takes its fields, and a scan takes the records up to TAIL in submission
order while there is room for them, and keeps the kick of a queue whose next record has to stay, or stops a queue whose TAIL is out of range;
it is the turn of the lowest queue kicked, but for those whose records have to stay. TAKEOVER sets STATE 2 until the standby core goes on and
pays what was put off, or the helm is down (R372, R385). -/
def Obligations.QueueEvents : Prop :=
  (∀ s w bits, ∃ s', exec (.kick w bits) s = .next s' ∧ onlyHelm s s' ∧
    ∀ q, q ∈ s'.helm.kicks ↔ q ∈ s.helm.kicks ∨ ∃ i < 32, bits.getLsbD i = true ∧ q = 32 * w + i) ∧
  (∀ s q v, q < 1024 → let d := tgetD s.helm.queues q {}
    (∃ s', exec (.qdescWrite q true v) s = .next s' ∧ onlyHelm s s' ∧
      tgetD s'.helm.queues q {} = { d with base := (v.extractLsb' 12 40).toNat, stop := false, head := d.tail }) ∧
    ∃ s', exec (.qdescWrite q false v) s = .next s' ∧ onlyHelm s s' ∧ ∃ d', tgetD s'.helm.queues q {} = d' ∧
      d'.tail = v.extractLsb' 48 16 ∧ d'.ctx = v.extractLsb' 0 16 ∧ d'.prio = (v.extractLsb' 26 2).toNat ∧ d'.head = d.head ∧
      d'.base = d.base ∧ d'.stop = d.stop ∧ ((v.extractLsb' 28 4).toNat ≤ 11 → d'.logSize = (v.extractLsb' 28 4).toNat)) ∧
  (∀ s q, s.helm.hstat.extractLsb' 0 2 = 1 → q ∈ s.helm.kicks → (∀ k ∈ s.helm.kicks, k < q → s.scanStays k = true) →
    let d := tgetD s.helm.queues q {}
    let n := (d.tail - d.head).toNat
    (d.stop = false → n ≤ 2 ^ (d.logSize + 4) → settled s → s.helm.nextSeq < 2 ^ 64 →
      ∃ m ≤ n, (∀ j < m, roomFor s q j) ∧ (m < n → ¬roomFor s q m) ∧
        ∃ s', exec (.queueScan q) s = .next s' ∧ s'.helm.taken = s.helm.taken ++ (List.range m).map (ringRecord s q) ∧
          s'.helm.nextSeq = (s.helm.nextSeq + m) % 2 ^ 64 ∧ (tgetD s'.helm.queues q {}).head = d.head + BitVec.ofNat 16 m ∧
          (q ∈ s'.helm.kicks ↔ m < n) ∧ (∀ k, k ≠ q → (k ∈ s'.helm.kicks ↔ k ∈ s.helm.kicks)) ∧ s'.mem = s.mem ∧ s'.nodes = s.nodes) ∧
    (d.stop = false → 2 ^ (d.logSize + 4) < n →
      ∃ s', exec (.queueScan q) s = .next s' ∧ onlyHelm s s' ∧ (tgetD s'.helm.queues q {}).stop = true ∧ s'.helm.taken = s.helm.taken) ∧
    (d.stop = true → ∃ s', exec (.queueScan q) s = .next s' ∧ onlyHelm s s' ∧ s'.helm.taken = s.helm.taken ∧ s'.helm.queues = s.helm.queues)) ∧
  (∀ s q, (q ∉ s.helm.kicks ∨ ∃ k ∈ s.helm.kicks, k < q ∧ s.scanStays k = false) → exec (.queueScan q) s = .next s) ∧
  ∀ s, s.helm.hstat.extractLsb' 0 2 = 1 →
    (s.helm.standby = true → ∃ s', exec .takeover s = .next s' ∧ onlyHelm s s' ∧ s'.helm.hstat.extractLsb' 0 2 = 2 ∧
      s'.helm.hstat.extractLsb' 16 8 = s.helm.hstat.extractLsb' 16 8 ∧
      let s2 := s'.endTakeover
      s2.helm.hstat.extractLsb' 0 2 = 1 ∧ s2.helm.hstat.getLsbD 8 = true ∧ s2.helm.standby = false ∧
      (s2.helm.hstat.extractLsb' 16 8).toNat = min 255 ((s.helm.hstat.extractLsb' 16 8).toNat + 1) ∧ s2.helm.owed = [] ∧
      ∀ q d, tget s.helm.queues q = some d → d.head ≠ d.tail → q ∈ s2.helm.kicks) ∧
    (s.helm.standby = false → ∃ s', exec .takeover s = .next s' ∧ onlyHelm s s' ∧ s'.helm.hstat.extractLsb' 0 2 = 3)

/-- LAUNCH enters an admitted record as a node, and completes a rejected one with its STATUS and no node; HOST_RESUME lets a thread that
waits under R275 go on and completes with RESUMED (R53, R377, R378, R394). -/
def Obligations.RecordsAreActedOn : Prop :=
  (∀ (s : State) q r, nextRecord s q r → (r.bytes.getD 0 0) ≠ 2 → s.ctxLive r.ctx = true → s.memOk →
    let s1 := afterTake s
    let cpl := ofBytes ((r.bytes.drop 0x90).take 8)
    let task := ofBytes ((r.bytes.drop 4).take 4)
    (∀ l, s1.parseLaunch r.ctx r.bytes = some l →
      shadowBad (s1.readVirtual r.ctx (BitVec.ofNat 64 (ofBytes ((r.bytes.drop 8).take 8))) 192) = false →
      (s1.admission r.ctx l = none → ∃ s' n, exec (.launch q) s = .next s' ∧ tget s'.nodes r.seq = some n ∧ n.ctx = r.ctx ∧ n.launch = l ∧
        n.prio = r.prio ∧ n.seq = r.seq ∧ n.task = BitVec.ofNat 32 task ∧ n.blks = [] ∧ n.cplAddr = cpl ∧ s'.mem = s.mem) ∧
      ∀ st, s1.admission r.ctx l = some st → ∃ s', exec (.launch q) s = .next s' ∧ completed s' cpl st r.seq task 0 ∧ s'.nodes = s.nodes) ∧
    (s1.parseLaunch r.ctx r.bytes = none → ∃ s', exec (.launch q) s = .next s' ∧ completed s' cpl 4 r.seq task 0 ∧ s'.nodes = s.nodes)) ∧
  ∀ (s : State) q r t, nextRecord s q r → r.bytes.getD 0 0 = 2 → s.ctxLive r.ctx = true → s.memOk →
    zeros r.bytes 1 3 = true → zeros r.bytes 8 0x88 = true → zeros r.bytes 0x9E 0x62 = true →
    let s1 := afterTake s
    let cpl := ofBytes ((r.bytes.drop 0x90).take 8)
    let task := ofBytes ((r.bytes.drop 4).take 4)
    s1.resumeTarget r = some t → (s.block (blockOf t)).core < 256 →
    ∃ s', exec (.hostResume q) s = .next s' ∧ (s'.thread t).wait = .none ∧ (s'.thread t).pc = (s.thread t).pc + 12 ∧
      (s'.thread t).v = (s.thread t).v ∧ completed s' cpl 6 r.seq task 0

/-- A ready block whose turn it is starts on a core with its threads at the entry point and their registers zero; a block that has ended
and drained publishes and leaves; a node whose blocks have all published completes; a block passed over for 1,400,000 cycles is starved
(R35, R38, R382, R383). -/
def Obligations.BlocksComeAndGo : Prop :=
  (∀ s node n blk core sp subs, tget s.nodes node = some n → n.seq = node → n.launch.progress ≠ 2 → blk ∈ s.readyBlocks n →
    s.mayPlace (n.cand blk) = true → s.fit n.ctx n.seq n.launch core = some (sp, subs) →
    ∃ s', exec (.blockPlacement node blk core) s = .next s' ∧
      (∃ m, tget s'.nodes node = some m ∧ tget m.blks blk = some (.placed s.nextUid)) ∧
      (let b := s'.block s.nextUid
       b.ctx = n.ctx ∧ b.task = n.task ∧ b.index = blk ∧ b.node = node ∧ b.core = core ∧ b.spBase = sp ∧ b.launch = n.launch ∧
       b.tba = (s.ctx n.ctx).tba ∧ b.reckon = (s.ctx n.ctx).reckon ∧ b.bars = [] ∧ b.queues = [] ∧ b.inbox = [] ∧ b.tiles = [] ∧
       b.stage = .resident) ∧
      ∀ c < n.launch.crews, ∀ k < n.launch.threads, k < 128 → c < 4 →
        let th := s'.thread (threadKey s.nextUid c k)
        th.pc = n.launch.entry ∧ th.v = [] ∧ th.p = [] ∧ th.exited = false ∧ th.wait = .none ∧ th.handler = false) ∧
  (∀ s node n blk core sp subs s2, tget s.nodes node = some n → n.seq = node → n.launch.progress = 2 → blk ∈ s.readyBlocks n →
    s.mayPlace (n.cand blk) = true → s.fit n.ctx n.seq n.launch core = some (sp, subs) →
    (s.place n blk core sp subs).placeRest n ((s.readyBlocks n).filter (· != blk)) = some s2 →
    exec (.blockPlacement node blk core) s = .next s2) ∧
  (∀ s node n blk core, tget s.nodes node = some n → blk ∉ s.readyBlocks n → exec (.blockPlacement node blk core) s = .next s) ∧
  (∀ s node n blk p, tget s.nodes node = some n → tgetD n.blks blk (.waiting 0) = .waiting p → blk ∉ n.starved →
    (1400000 ≤ p → ∃ s', exec (.placementStarvation node blk) s = .next s' ∧ ∃ m, tget s'.nodes node = some m ∧ blk ∈ m.starved) ∧
    (p < 1400000 → exec (.placementStarvation node blk) s = .next s)) ∧
  (∀ s b n, s.helm.hstat.extractLsb' 0 2 = 1 → tget s.nodes (s.block b).node = some n →
    (s.mayPublish b = true → ∃ s', exec (.completionEvent b) s = .next s' ∧ tget s'.blocks b = none ∧
      (∀ t, blockOf t = b → tget s'.threads t = none) ∧
      ∃ m, tget s'.nodes (s.block b).node = some m ∧ tget m.blks (s.block b).index = some .published) ∧
    (s.mayPublish b = false → exec (.completionEvent b) s = .next s)) ∧
  ∀ (s : State) node n, s.helm.hstat.extractLsb' 0 2 = 1 → s.memOk → tget s.nodes node = some n →
    (n.allPublished = true → ∃ s', exec (.nodeCompletion node) s = .next s' ∧ tget s'.nodes node = none ∧
      completed s' n.cplAddr 0 n.seq n.task.toNat n.publishedCount) ∧
    (n.allPublished = false → exec (.nodeCompletion node) s = .next s)

/-- Pre-emption and the end of contexts (R389 to R393, R405, R406): PREEMPT and an expired SLICE enter stage 1 on the dies, DRAIN run down
enters stage 2, FORCE run down ends the context, and so does END; what a context's stage does not allow is refused. -/
def Obligations.PreemptionEvents : Prop :=
  (∀ s ctx, s.ctxRunning ctx = false → refused (.preempt ctx) s) ∧
  (∀ s ctx, s.ctxRunning ctx = true → (s.ctx ctx).drain ≠ 0 →
    (∃ s', exec (.preempt ctx) s = .next s' ∧ draining s s' ctx ∧ s'.helm.ctxCtx = ctx ∧ sameData s s') ∧
    ∀ die, (s.ctx ctx).slice ≠ 0 → tget (s.ctx ctx).sliceLeft die = some 0 → s.dieHalted ctx die = false →
      ∃ s', exec (.sliceExpiry die ctx) s = .next s' ∧ draining s s' ctx ∧ sameData s s') ∧
  (∀ s ctx, s.ctxRunning ctx = true → (s.ctx ctx).drain = 0 → (s.ctx ctx).force ≠ 0 →
    ∃ s', exec (.preempt ctx) s = .next s' ∧ (s'.ctx ctx).stage = 2 ∧
      ∀ d < 4, ∀ b ∈ s.dieBlocks ctx d, (s.block b).stage = .resident → (s'.block b).stage = .saving) ∧
  (∀ s ctx die, s.ctxLive ctx = true → (s.ctx ctx).stage = 1 → (s.ctx ctx).force ≠ 0 → tget (s.ctx ctx).dies die = some (.drain 0) →
    ∃ s', exec (.drainExpiry die ctx) s = .next s' ∧ (s'.ctx ctx).stage = 2 ∧ tget (s'.ctx ctx).dies die = some (.save (s.ctx ctx).force) ∧
      ∀ b ∈ s.dieBlocks ctx die, (s.block b).stage = .resident → (s'.block b).stage = .saving) ∧
  (∀ s ctx die, s.ctxLive ctx = true → tget (s.ctx ctx).dies die = some (.save 0) →
    ∃ s', exec (.forceExpiry die ctx) s = .next s' ∧ endedContext s' ctx ∧ (s'.ctx ctx).stage = 6) ∧
  (∀ s ctx, (s.ctxLive ctx = true → ∃ s', exec (.end_ ctx) s = .next s' ∧ endedContext s' ctx ∧ (s'.ctx ctx).stage = 0) ∧
    (s.ctxLive ctx = false → exec (.end_ ctx) s = .next s)) ∧
  ∀ s ctx die n, s.ctxLive ctx = true → tget (s.ctx ctx).dies die = some (.save n) →
    let bs := s.dieBlocks ctx die
    (bs.all fun b => (s.block b).stage == .saving && s.quiet b) = true →
    (∀ s2, s.saveBlocks bs = some s2 → exec (.saveComplete die ctx) s =
      .next ((s2.modCtx ctx fun c => { c with dies := tset c.dies die .done }).settleDies ctx)) ∧
    (s.saveBlocks bs = none → ∃ s', exec (.saveComplete die ctx) s = .next s' ∧ endedContext s' ctx)

/-- A restored context's blocks are in line again and take cores; an absent tile is fetched; a block is swapped out and comes back; SWITCH
makes the other context of a pair active (R400 to R404). -/
def Obligations.RestoreAndSwap : Prop :=
  (∀ s ctx, ((s.ctx ctx).stage ≠ 3 ∨ s.ctxLive ctx = false ∨ s.areaComplete ctx = false) → refused (.restore ctx) s) ∧
  (∀ s ctx, s.ctxLive ctx = true → (s.ctx ctx).stage = 3 → s.areaComplete ctx = true →
    let base := (s.ctx ctx).saveBase
    let sound := ofBytes (memRead s.mem (base + 8) 4) ≤ (s.savedBlocks ctx).length ∧ ∀ b ∈ s.savedBlocks ctx, s.recordValid base (s.block b) = true
    (sound → ∃ s', exec (.restore ctx) s = .next s' ∧ (s'.ctx ctx).stage = 4 ∧ (s'.ctx ctx).dies = [] ∧ sameData s s' ∧
      ∀ b x, tget s.blocks b = some x → (s'.block b).stage = if x.ctx = ctx ∧ x.stage = .saved then .restoring else x.stage) ∧
    (¬sound → ∃ s', exec (.restore ctx) s = .next s' ∧ endedContext s' ctx ∧ (s'.ctx ctx).stage = 0)) ∧
  (∀ s ctx k core sp subs, (tget s.blocks k).isSome → (s.block k).stage = .restoring → (s.block k).ctx = ctx →
    s.mayPlace (s.blockCand (s.block k)) = true → s.candFit (s.blockCand (s.block k)) core = some (sp, subs) →
    ∃ s', exec (.blockRestore ctx k core) s = .next s' ∧ (s'.block k).stage = .resident ∧ (s'.block k).core = core ∧
      (s'.block k).spBase = sp) ∧
  (∀ s b acc pa, (tget s.blocks b).isSome → (tgetD (s.block b).tiles acc {}).absent = some pa → (s.block b).stage = .resident →
    (s.tileWaiters b acc ≠ [] ∨ s.tileSeq b acc = true) → s.marked = [] →
    ∃ s', exec (.tileFetch b acc) s = .next s' ∧ (tgetD (s'.block b).tiles acc {}).absent = none ∧ sameData s s') ∧
  (∀ s b off, s.maySwap b = true → (tget s.blocks b).isSome →
    let s1 := (((s.fetchTiles (s.block b).ctx).settleInto b).releaseAction (s.block b).core []).drainOut (dieOf (s.block b).core)
    (s1.blockRecord b).2.swapPlace (s.block b).ctx (s1.blockRecord b).1.length = some off →
    ∃ s', exec (.swapOut b) s = .next s' ∧ (s'.block b).stage = .swapped ∧ (s'.block b).saveOff = off) ∧
  (∀ s ctx k, (s.block k).stage = .swapped → (s.block k).ctx = ctx → (s.block k).woken = true → s.placing ctx = true →
    s.mayPlace (s.blockCand (s.block k)) = true → (∃ c < 256, (s.candFit (s.blockCand (s.block k)) c).isSome) →
    ∃ s', exec (.swapIn ctx k) s = .next s' ∧ (s'.block k).stage = .resident ∧
      (s.candFit (s.blockCand (s.block k)) (s'.block k).core).isSome) ∧
  ∀ s ctx, let p := (s.ctx ctx).pair
    ((s.ctxLive ctx = false ∨ s.paired ctx p = false) → refused (.switch ctx) s) ∧
    (s.ctxLive ctx = true → s.paired ctx p = true → (∃ k < 256, ∃ b ∈ s.coreBlocks k, (s.block b).ctx = p) →
      ∃ s', exec (.switch ctx) s = .next s' ∧
        ∀ k < 256, (∃ b ∈ s.coreBlocks k, (s.block b).ctx = ctx ∨ (s.block b).ctx = p) → (s'.core k).active = some ctx)

/-- Accesses of other devices are performed at home and answered while a port is up; replies and timeouts end requests, those that no port
has taken among them; what fails lanes, pauses a class or replays a flit changes the port alone (R334 to R338, R432, R434 to R437). -/
def Obligations.FabricEvents : Prop :=
  (∀ (s : State) src ctx pa data poison, s.incoming = [] → s.helm.fabValid = true → s.ctxLive ctx = true → (s.ctx ctx).begun = true → settled s →
    s.memOk → s.repliesDue = [] → (∃ p < 32, takesReplies s p) →
    s.populated pa data.length = true → (s.ctx ctx).fwBase ≤ pa → pa + data.length ≤ (s.ctx ctx).fwBase + (s.ctx ctx).fwSize →
    ((s.ctx ctx).fwPerm.testBit 0 = true → s.marked = [] → ∃ s', exec (.fabricRequest src ctx .load pa data) s = .next s' ∧
      replied s' src 0 (seen s pa data.length) ∧ s'.mem = s.mem) ∧
    ((s.ctx ctx).fwPerm.testBit 1 = true → ∃ s', exec (.fabricRequest src ctx (.store poison) pa data) s = .next s' ∧ replied s' src 0 [] ∧
      stored s s' pa data) ∧
    ((s.ctx ctx).fwPerm.testBit 1 = false → ∃ s', exec (.fabricRequest src ctx (.store poison) pa data) s = .next s' ∧ replied s' src 5 [] ∧
      s'.mem = s.mem)) ∧
  (∀ (s : State) src ctx op pa data, (∀ p < 32, (tgetD s.ports p {}).state ≠ 2) → exec (.fabricRequest src ctx op pa data) s = .next s) ∧
  (∀ s port tag gen member leaf status data, (tgetD s.ports port {}).state ≠ 2 →
    exec (.fabricReply port tag gen member leaf status data) s = .next s) ∧
  (∀ s port tag gen member leaf status data, (tgetD s.ports port {}).state = 2 → unexpected s port tag gen member →
    ∃ s', exec (.fabricReply port tag gen member leaf status data) s = .next s' ∧ s' = { s with ports := s'.ports, ctxs := s'.ctxs } ∧
      (tgetD s'.ports port {}).stale = (tgetD s.ports port {}).stale + 1) ∧
  (∀ s port tag leaf data r out k o l, (tgetD s.ports port {}).state = 2 → s.requestOf port tag = some r → r.members.length = 1 →
    r.answers = [] → r.kind = .piece out k → resultAt s r.t out = some o → o.late = some l → k < l.got.length →
    let l' := { l with got := l.got.set k (some { bytes := data, poison := false }) }
    ∃ s' o', exec (.fabricReply port tag r.gen 0 leaf 0 data) s = .next s' ∧ s'.requestOf port tag = none ∧
      resultAt s' r.t out = some o' ∧ known l' o o') ∧
  (∀ s port tag r, s.requestOf port tag = some r → s.cycle - r.issued < r.timeout → exec (.fabricTimeout port tag) s = .next s) ∧
  (∀ s port tag r va, s.requestOf port tag = some r → r.timeout ≤ s.cycle - r.issued → r.members.length = 1 → r.answers = [] →
    r.kind = .store va → (s.thread r.t).exited = false → (s.thread r.t).postFail = none →
    ∃ s', exec (.fabricTimeout port tag) s = .next s' ∧ s'.requestOf port tag = none ∧ (s'.thread r.t).postFail = some va ∧
      tgetD (tgetD s'.ports port {}).gens tag.toNat 0 = tgetD (tgetD s.ports port {}).gens tag.toNat 0 + 1) ∧
  (∀ (s : State) r va, r.timeout ≤ s.cycle - r.issued → r.members.length = 1 → r.answers = [] → r.kind = .store va →
    (s.thread r.t).postFail = none →
    let s' := s.timeoutUnsent r
    (s'.thread r.t).postFail = some va ∧ ∀ q ∈ s'.unsent, q ∈ s.unsent ∧ q.id ≠ r.id) ∧
  (∀ s device leaf, s.helm.fabValid = false → ∃ s', exec (.fabidAssignment device leaf) s = .next s' ∧ onlyHelm s s' ∧
    s'.helm.fabValid = true ∧ s'.helm.fabDev = device ∧ s'.helm.fabLeaf = leaf) ∧
  (∀ s port lane, port < 32 → lane < 8 → (tgetD s.ports port {}).failed = 0 → (tgetD s.ports port {}).state = 2 →
    ∃ s', exec (.laneFailure port lane) s = .next s' ∧ s' = { s with ports := s'.ports } ∧
      (tgetD s'.ports port {}).failed = BitVec.ofNat 8 (2 ^ lane) ∧ (tgetD s'.ports port {}).mode = 2 ∧
      (tgetD s'.ports port {}).erase = lane ∧ (tgetD s'.ports port {}).state = 2) ∧
  (∀ s port lane k, port < 32 → lane < 8 → k < 8 → lane ≠ k → (tgetD s.ports port {}).failed = BitVec.ofNat 8 (2 ^ k) →
    (tgetD s.ports port {}).state = 2 → ∃ s', exec (.laneFailure port lane) s = .next s' ∧ s' = { s with ports := s'.ports } ∧
      (tgetD s'.ports port {}).mode = 3 ∧ (tgetD s'.ports port {}).erase = 15 ∧ (tgetD s'.ports port {}).state = 1) ∧
  (∀ s port lane j k, port < 32 → lane < 8 → j < 8 → k < 8 → j ≠ k → lane ≠ j → lane ≠ k →
    (tgetD s.ports port {}).failed = BitVec.ofNat 8 (2 ^ j + 2 ^ k) →
    ∃ s', exec (.laneFailure port lane) s = .next s' ∧ s' = { s with ports := s'.ports } ∧
      (tgetD s'.ports port {}).mode = 0 ∧ (tgetD s'.ports port {}).erase = 15 ∧ (tgetD s'.ports port {}).state = 3) ∧
  (∀ s port, (tgetD s.ports port {}).state = 1 → s.unsent = [] → s.repliesDue = [] →
    ∃ s', exec (.retrainingComplete port) s = .next s' ∧ s' = { s with ports := s'.ports } ∧ (tgetD s'.ports port {}).state = 2) ∧
  (∀ s port cls, port < 32 → cls < 4 →
    (∃ s', exec (.pause port cls) s = .next s' ∧ (tgetD s'.ports port {}).paused.getLsbD cls = true ∧ s' = { s with ports := s'.ports }) ∧
    (s.unsent = [] → s.repliesDue = [] → ∃ s', exec (.pauseEnd port cls) s = .next s' ∧ (tgetD s'.ports port {}).paused.getLsbD cls = false ∧ s' = { s with ports := s'.ports })) ∧
  ∀ s port tag gen, exec (.flitReplay port) s = .next s ∧ exec (.lateReplyDiscard port tag gen) s = .next s

/-- Encoding and decoding agree: a well-formed instruction is decoded from its word, and a word that decodes is the word of its
instruction, but for `ill.zero` and `trap.pool`, whose other bits are ignored (R59, R60, R67 to R89). -/
def Obligations.DecodeEncode : Prop :=
  (∀ i w, i.WellFormed → encode i = some w → decode w = .ok i) ∧
  (∀ w i, decode w = .ok i → i.WellFormed ∧ (i ≠ .illZero → i ≠ .trapPool → encode i = some w)) ∧
  ∀ w, decodeBytes (wordBytes w) = decode w

/-- Words written out from the spec's encodings decode to what they stand for, and words with a reserved part are refused by name. -/
def Obligations.DecodesSpecWords : Prop :=
  (∀ e ∈ specWords, decodeTableWord 96 e.1.toNat = some e.2) ∧
  (∀ e ∈ badWords, decode e.1 = .error e.2 ∧ decodeTableWord 96 e.1.toNat = none)

/-- A word that is refused raises its cause in the thread that issues it (R79 steps 1 to 5, R80): PERMISSION on a page that is not
executable, ILLEGAL for a reserved or ill-formed word and for a sequencer word, REG_RANGE for a register outside the allocation. -/
def Obligations.RefusedWords : Prop :=
  ∀ s c pc t, s.todo = [] → s.cur = some (.group c pc [t]) → crewOf t = c → (tget s.crews c).isSome → s.stands pc t = true → trapsAtOnce s t →
    (∀ p, validVa pc = true → s.translate (s.block (c / 4)).ctx pc = .ok p → p.x = false → s.standing pc (s.crewThreads c) = [t] →
      ∃ s', step s = .next s' ∧ toldOf s s' t 6 pc pc) ∧
    ∀ bs, s.fetch (s.block (c / 4)).ctx pc = .ok (bs, none) →
      (∀ r, decodeBytes bs = .error r → ∃ s', step s = .next s' ∧ toldOf s s' t 1 pc 0) ∧
      ∀ i, decodeBytes bs = .ok i →
        ((∃ mk ∈ streamWords, ∃ f, i = mk f) → ∃ s', step s = .next s' ∧ toldOf s s' t 1 pc 0) ∧
        (i.isThreadWord = true → (s.block (c / 4)).launch.holds i = false → ∃ s', step s = .next s' ∧ toldOf s s' t 3 pc 0)

/-- A step runs the instruction decoded from the bytes at the program counter: exec of it, and then what an issue leaves (R79, R80). -/
def Obligations.StepRunsWord : Prop :=
  (∀ s c pc ts bs i, s.todo = [] → s.cur = some (.group c pc ts) → s.fetch (s.block (c / 4)).ctx pc = .ok (bs, none) →
    decodeBytes bs = .ok i → i.isThreadWord = true → (s.block (c / 4)).launch.holds i = true →
    step s = andThen (exec i s) fun s' => s'.issued c pc ts i.yields) ∧
  (∀ s b bs i, s.todo = [] → s.cur = some (.stream b) → s.fetch (s.block b).ctx (s.block b).sequencer.pc = .ok (bs, none) →
    decodeBytes bs = .ok i → i.isSeqWord = true → step s = andThen (exec i s) State.endWord) ∧
  (∀ s b bs, s.todo = [] → s.cur = some (.stream b) → s.fetch (s.block b).ctx (s.block b).sequencer.pc = .ok (bs, none) →
    (∀ i, decodeBytes bs = .ok i → i.isSeqWord = false) →
    step s = .next ((s.matrixFault b 1 (s.block b).sequencer.pc 0 0).endWord)) ∧
  (∀ (s : State) c pc ts y, let s' := s.issued c pc ts y
    sameData s s' ∧ s'.cur = none ∧ s'.seq = s.seq + 1 ∧ ∀ t, (s'.thread t).pc = (s.thread t).pc ∧ (s'.thread t).wait = (s.thread t).wait) ∧
  ∀ s e r, s.todo = [] → s.cur = none → s.agenda = e :: r → (e.fromHost = false ∨ s.helm.modules ≠ 0 ∧ (s.helm.bootStep ≠ 2 ∨ e.inReducedService = true)) →
    step s = andThen (exec e { s with agenda := r }) State.bump

/-- After reset no thread, block, context, task or request is there, memory stands in its canonical form, and the registers of BAR 0 whose
reset values the tables give read as these. -/
def Obligations.ResetState : Prop :=
  State.reset.memOk ∧ State.reset.threads = [] ∧ State.reset.crews = [] ∧ State.reset.blocks = [] ∧ State.reset.ctxs = [] ∧
  State.reset.nodes = [] ∧ State.reset.copies = [] ∧ State.reset.outbound = [] ∧ State.reset.requests = [] ∧ State.reset.mail = [] ∧
  State.reset.unsent = [] ∧ State.reset.incoming = [] ∧ State.reset.replies = [] ∧ State.reset.repliesDue = [] ∧ State.reset.shadow = [] ∧
  State.reset.astray = [] ∧ State.reset.hostWaiting = [] ∧ State.reset.leaves = [] ∧
  State.reset.helm.kicks = [] ∧ State.reset.helm.taken = [] ∧
  (∀ e ∈ resetRegisters, State.reset.barRead e.1 = BitVec.ofNat 64 e.2) ∧
  (∀ q < 1024, State.reset.barRead (0x10000 + 16 * q) = 0 ∧ State.reset.barRead (0x10008 + 16 * q) = 0) ∧
  (∀ p < 32, State.reset.barRead (0x0200 + 8 * p) = 0xF00) ∧ ∀ p < 8, State.reset.barRead (0x0300 + 8 * p) = 0

/-- Every step keeps memory in its canonical form: addresses strictly rising, no byte listed that reads as an unlisted one. -/
def Obligations.MemoryCanonicalKept : Prop :=
  ∀ s : State, s.memOk → keeps State.memOk (step s)

/-- No instruction and no event stops the machine: exec answers a next state for every one of them in every state, and a step does but
where the helm has written at an address that the spec says holds no memory. -/
def Obligations.NothingElseStops : Prop :=
  (∀ i s, ∃ s', exec i s = .next s') ∧
  (∀ s, (∀ pa, s.todo.head? ≠ some (.noMemory pa)) → ∃ s', step s = .next s') ∧
  ∀ s pa r, s.todo = .noMemory pa :: r → step s = .fault (.noMemory pa)

end Statements
end

