-- ==== Sys2Proof/Laws/State.lean ====
section
/-! SUPPORT. One lemma per field of State and per update of it: each is true by unfolding, so that no later proof unfolds a record
update. -/

namespace Sys2Proof.Machine

variable (s : State)

/-! ## `setThread` -/

@[simp] theorem State.setThread_cycle (t : Nat) (x : Thread) : (s.setThread t x).cycle = s.cycle := rfl
@[simp] theorem State.setThread_dieOff (t : Nat) (x : Thread) : (s.setThread t x).dieOff = s.dieOff := rfl
@[simp] theorem State.setThread_mem (t : Nat) (x : Thread) : (s.setThread t x).mem = s.mem := rfl
@[simp] theorem State.setThread_marked (t : Nat) (x : Thread) : (s.setThread t x).marked = s.marked := rfl
@[simp] theorem State.setThread_leaves (t : Nat) (x : Thread) : (s.setThread t x).leaves = s.leaves := rfl
@[simp] theorem State.setThread_threads (t : Nat) (x : Thread) : (s.setThread t x).threads = tset s.threads t x := rfl
@[simp] theorem State.setThread_crews (t : Nat) (x : Thread) : (s.setThread t x).crews = s.crews := rfl
@[simp] theorem State.setThread_blocks (t : Nat) (x : Thread) : (s.setThread t x).blocks = s.blocks := rfl
@[simp] theorem State.setThread_cores (t : Nat) (x : Thread) : (s.setThread t x).cores = s.cores := rfl
@[simp] theorem State.setThread_ctxs (t : Nat) (x : Thread) : (s.setThread t x).ctxs = s.ctxs := rfl
@[simp] theorem State.setThread_nodes (t : Nat) (x : Thread) : (s.setThread t x).nodes = s.nodes := rfl
@[simp] theorem State.setThread_copies (t : Nat) (x : Thread) : (s.setThread t x).copies = s.copies := rfl
@[simp] theorem State.setThread_outbound (t : Nat) (x : Thread) : (s.setThread t x).outbound = s.outbound := rfl
@[simp] theorem State.setThread_ports (t : Nat) (x : Thread) : (s.setThread t x).ports = s.ports := rfl
@[simp] theorem State.setThread_requests (t : Nat) (x : Thread) : (s.setThread t x).requests = s.requests := rfl
@[simp] theorem State.setThread_unsent (t : Nat) (x : Thread) : (s.setThread t x).unsent = s.unsent := rfl
@[simp] theorem State.setThread_groupOps (t : Nat) (x : Thread) : (s.setThread t x).groupOps = s.groupOps := rfl
@[simp] theorem State.setThread_incoming (t : Nat) (x : Thread) : (s.setThread t x).incoming = s.incoming := rfl
@[simp] theorem State.setThread_mail (t : Nat) (x : Thread) : (s.setThread t x).mail = s.mail := rfl
@[simp] theorem State.setThread_helm (t : Nat) (x : Thread) : (s.setThread t x).helm = s.helm := rfl
@[simp] theorem State.setThread_replies (t : Nat) (x : Thread) : (s.setThread t x).replies = s.replies := rfl
@[simp] theorem State.setThread_repliesDue (t : Nat) (x : Thread) : (s.setThread t x).repliesDue = s.repliesDue := rfl
@[simp] theorem State.setThread_hostData (t : Nat) (x : Thread) : (s.setThread t x).hostData = s.hostData := rfl
@[simp] theorem State.setThread_hostWaiting (t : Nat) (x : Thread) : (s.setThread t x).hostWaiting = s.hostWaiting := rfl
@[simp] theorem State.setThread_sxval (t : Nat) (x : Thread) : (s.setThread t x).sxval = s.sxval := rfl
@[simp] theorem State.setThread_nextUid (t : Nat) (x : Thread) : (s.setThread t x).nextUid = s.nextUid := rfl
@[simp] theorem State.setThread_nextId (t : Nat) (x : Thread) : (s.setThread t x).nextId = s.nextId := rfl
@[simp] theorem State.setThread_seq (t : Nat) (x : Thread) : (s.setThread t x).seq = s.seq := rfl
@[simp] theorem State.setThread_free (t : Nat) (x : Thread) : (s.setThread t x).free = s.free := rfl
@[simp] theorem State.setThread_todo (t : Nat) (x : Thread) : (s.setThread t x).todo = s.todo := rfl
@[simp] theorem State.setThread_agenda (t : Nat) (x : Thread) : (s.setThread t x).agenda = s.agenda := rfl
@[simp] theorem State.setThread_cur (t : Nat) (x : Thread) : (s.setThread t x).cur = s.cur := rfl
@[simp] theorem State.setThread_stayed (t : Nat) (x : Thread) : (s.setThread t x).stayed = s.stayed := rfl
@[simp] theorem State.setThread_seqsDone (t : Nat) (x : Thread) : (s.setThread t x).seqsDone = s.seqsDone := rfl
@[simp] theorem State.setThread_subsDone (t : Nat) (x : Thread) : (s.setThread t x).subsDone = s.subsDone := rfl
@[simp] theorem State.setThread_up (t : Nat) (x : Thread) : (s.setThread t x).up = s.up := rfl
@[simp] theorem State.setThread_fired (t : Nat) (x : Thread) : (s.setThread t x).fired = s.fired := rfl
@[simp] theorem State.setThread_shadow (t : Nat) (x : Thread) : (s.setThread t x).shadow = s.shadow := rfl
@[simp] theorem State.setThread_astray (t : Nat) (x : Thread) : (s.setThread t x).astray = s.astray := rfl

/-! ## `setCrew` -/

@[simp] theorem State.setCrew_cycle (c : Nat) (x : Crew) : (s.setCrew c x).cycle = s.cycle := rfl
@[simp] theorem State.setCrew_dieOff (c : Nat) (x : Crew) : (s.setCrew c x).dieOff = s.dieOff := rfl
@[simp] theorem State.setCrew_mem (c : Nat) (x : Crew) : (s.setCrew c x).mem = s.mem := rfl
@[simp] theorem State.setCrew_marked (c : Nat) (x : Crew) : (s.setCrew c x).marked = s.marked := rfl
@[simp] theorem State.setCrew_leaves (c : Nat) (x : Crew) : (s.setCrew c x).leaves = s.leaves := rfl
@[simp] theorem State.setCrew_threads (c : Nat) (x : Crew) : (s.setCrew c x).threads = s.threads := rfl
@[simp] theorem State.setCrew_crews (c : Nat) (x : Crew) : (s.setCrew c x).crews = tset s.crews c x := rfl
@[simp] theorem State.setCrew_blocks (c : Nat) (x : Crew) : (s.setCrew c x).blocks = s.blocks := rfl
@[simp] theorem State.setCrew_cores (c : Nat) (x : Crew) : (s.setCrew c x).cores = s.cores := rfl
@[simp] theorem State.setCrew_ctxs (c : Nat) (x : Crew) : (s.setCrew c x).ctxs = s.ctxs := rfl
@[simp] theorem State.setCrew_nodes (c : Nat) (x : Crew) : (s.setCrew c x).nodes = s.nodes := rfl
@[simp] theorem State.setCrew_copies (c : Nat) (x : Crew) : (s.setCrew c x).copies = s.copies := rfl
@[simp] theorem State.setCrew_outbound (c : Nat) (x : Crew) : (s.setCrew c x).outbound = s.outbound := rfl
@[simp] theorem State.setCrew_ports (c : Nat) (x : Crew) : (s.setCrew c x).ports = s.ports := rfl
@[simp] theorem State.setCrew_requests (c : Nat) (x : Crew) : (s.setCrew c x).requests = s.requests := rfl
@[simp] theorem State.setCrew_unsent (c : Nat) (x : Crew) : (s.setCrew c x).unsent = s.unsent := rfl
@[simp] theorem State.setCrew_groupOps (c : Nat) (x : Crew) : (s.setCrew c x).groupOps = s.groupOps := rfl
@[simp] theorem State.setCrew_incoming (c : Nat) (x : Crew) : (s.setCrew c x).incoming = s.incoming := rfl
@[simp] theorem State.setCrew_mail (c : Nat) (x : Crew) : (s.setCrew c x).mail = s.mail := rfl
@[simp] theorem State.setCrew_helm (c : Nat) (x : Crew) : (s.setCrew c x).helm = s.helm := rfl
@[simp] theorem State.setCrew_replies (c : Nat) (x : Crew) : (s.setCrew c x).replies = s.replies := rfl
@[simp] theorem State.setCrew_repliesDue (c : Nat) (x : Crew) : (s.setCrew c x).repliesDue = s.repliesDue := rfl
@[simp] theorem State.setCrew_hostData (c : Nat) (x : Crew) : (s.setCrew c x).hostData = s.hostData := rfl
@[simp] theorem State.setCrew_hostWaiting (c : Nat) (x : Crew) : (s.setCrew c x).hostWaiting = s.hostWaiting := rfl
@[simp] theorem State.setCrew_sxval (c : Nat) (x : Crew) : (s.setCrew c x).sxval = s.sxval := rfl
@[simp] theorem State.setCrew_nextUid (c : Nat) (x : Crew) : (s.setCrew c x).nextUid = s.nextUid := rfl
@[simp] theorem State.setCrew_nextId (c : Nat) (x : Crew) : (s.setCrew c x).nextId = s.nextId := rfl
@[simp] theorem State.setCrew_seq (c : Nat) (x : Crew) : (s.setCrew c x).seq = s.seq := rfl
@[simp] theorem State.setCrew_free (c : Nat) (x : Crew) : (s.setCrew c x).free = s.free := rfl
@[simp] theorem State.setCrew_todo (c : Nat) (x : Crew) : (s.setCrew c x).todo = s.todo := rfl
@[simp] theorem State.setCrew_agenda (c : Nat) (x : Crew) : (s.setCrew c x).agenda = s.agenda := rfl
@[simp] theorem State.setCrew_cur (c : Nat) (x : Crew) : (s.setCrew c x).cur = s.cur := rfl
@[simp] theorem State.setCrew_stayed (c : Nat) (x : Crew) : (s.setCrew c x).stayed = s.stayed := rfl
@[simp] theorem State.setCrew_seqsDone (c : Nat) (x : Crew) : (s.setCrew c x).seqsDone = s.seqsDone := rfl
@[simp] theorem State.setCrew_subsDone (c : Nat) (x : Crew) : (s.setCrew c x).subsDone = s.subsDone := rfl
@[simp] theorem State.setCrew_up (c : Nat) (x : Crew) : (s.setCrew c x).up = s.up := rfl
@[simp] theorem State.setCrew_fired (c : Nat) (x : Crew) : (s.setCrew c x).fired = s.fired := rfl
@[simp] theorem State.setCrew_shadow (c : Nat) (x : Crew) : (s.setCrew c x).shadow = s.shadow := rfl
@[simp] theorem State.setCrew_astray (c : Nat) (x : Crew) : (s.setCrew c x).astray = s.astray := rfl

/-! ## `setBlock` -/

@[simp] theorem State.setBlock_cycle (b : Nat) (x : Block) : (s.setBlock b x).cycle = s.cycle := rfl
@[simp] theorem State.setBlock_dieOff (b : Nat) (x : Block) : (s.setBlock b x).dieOff = s.dieOff := rfl
@[simp] theorem State.setBlock_mem (b : Nat) (x : Block) : (s.setBlock b x).mem = s.mem := rfl
@[simp] theorem State.setBlock_marked (b : Nat) (x : Block) : (s.setBlock b x).marked = s.marked := rfl
@[simp] theorem State.setBlock_leaves (b : Nat) (x : Block) : (s.setBlock b x).leaves = s.leaves := rfl
@[simp] theorem State.setBlock_threads (b : Nat) (x : Block) : (s.setBlock b x).threads = s.threads := rfl
@[simp] theorem State.setBlock_crews (b : Nat) (x : Block) : (s.setBlock b x).crews = s.crews := rfl
@[simp] theorem State.setBlock_blocks (b : Nat) (x : Block) : (s.setBlock b x).blocks = tset s.blocks b x := rfl
@[simp] theorem State.setBlock_cores (b : Nat) (x : Block) : (s.setBlock b x).cores = s.cores := rfl
@[simp] theorem State.setBlock_ctxs (b : Nat) (x : Block) : (s.setBlock b x).ctxs = s.ctxs := rfl
@[simp] theorem State.setBlock_nodes (b : Nat) (x : Block) : (s.setBlock b x).nodes = s.nodes := rfl
@[simp] theorem State.setBlock_copies (b : Nat) (x : Block) : (s.setBlock b x).copies = s.copies := rfl
@[simp] theorem State.setBlock_outbound (b : Nat) (x : Block) : (s.setBlock b x).outbound = s.outbound := rfl
@[simp] theorem State.setBlock_ports (b : Nat) (x : Block) : (s.setBlock b x).ports = s.ports := rfl
@[simp] theorem State.setBlock_requests (b : Nat) (x : Block) : (s.setBlock b x).requests = s.requests := rfl
@[simp] theorem State.setBlock_unsent (b : Nat) (x : Block) : (s.setBlock b x).unsent = s.unsent := rfl
@[simp] theorem State.setBlock_groupOps (b : Nat) (x : Block) : (s.setBlock b x).groupOps = s.groupOps := rfl
@[simp] theorem State.setBlock_incoming (b : Nat) (x : Block) : (s.setBlock b x).incoming = s.incoming := rfl
@[simp] theorem State.setBlock_mail (b : Nat) (x : Block) : (s.setBlock b x).mail = s.mail := rfl
@[simp] theorem State.setBlock_helm (b : Nat) (x : Block) : (s.setBlock b x).helm = s.helm := rfl
@[simp] theorem State.setBlock_replies (b : Nat) (x : Block) : (s.setBlock b x).replies = s.replies := rfl
@[simp] theorem State.setBlock_repliesDue (b : Nat) (x : Block) : (s.setBlock b x).repliesDue = s.repliesDue := rfl
@[simp] theorem State.setBlock_hostData (b : Nat) (x : Block) : (s.setBlock b x).hostData = s.hostData := rfl
@[simp] theorem State.setBlock_hostWaiting (b : Nat) (x : Block) : (s.setBlock b x).hostWaiting = s.hostWaiting := rfl
@[simp] theorem State.setBlock_sxval (b : Nat) (x : Block) : (s.setBlock b x).sxval = s.sxval := rfl
@[simp] theorem State.setBlock_nextUid (b : Nat) (x : Block) : (s.setBlock b x).nextUid = s.nextUid := rfl
@[simp] theorem State.setBlock_nextId (b : Nat) (x : Block) : (s.setBlock b x).nextId = s.nextId := rfl
@[simp] theorem State.setBlock_seq (b : Nat) (x : Block) : (s.setBlock b x).seq = s.seq := rfl
@[simp] theorem State.setBlock_free (b : Nat) (x : Block) : (s.setBlock b x).free = s.free := rfl
@[simp] theorem State.setBlock_todo (b : Nat) (x : Block) : (s.setBlock b x).todo = s.todo := rfl
@[simp] theorem State.setBlock_agenda (b : Nat) (x : Block) : (s.setBlock b x).agenda = s.agenda := rfl
@[simp] theorem State.setBlock_cur (b : Nat) (x : Block) : (s.setBlock b x).cur = s.cur := rfl
@[simp] theorem State.setBlock_stayed (b : Nat) (x : Block) : (s.setBlock b x).stayed = s.stayed := rfl
@[simp] theorem State.setBlock_seqsDone (b : Nat) (x : Block) : (s.setBlock b x).seqsDone = s.seqsDone := rfl
@[simp] theorem State.setBlock_subsDone (b : Nat) (x : Block) : (s.setBlock b x).subsDone = s.subsDone := rfl
@[simp] theorem State.setBlock_up (b : Nat) (x : Block) : (s.setBlock b x).up = s.up := rfl
@[simp] theorem State.setBlock_fired (b : Nat) (x : Block) : (s.setBlock b x).fired = s.fired := rfl
@[simp] theorem State.setBlock_shadow (b : Nat) (x : Block) : (s.setBlock b x).shadow = s.shadow := rfl
@[simp] theorem State.setBlock_astray (b : Nat) (x : Block) : (s.setBlock b x).astray = s.astray := rfl

/-! ## `setCore` -/

@[simp] theorem State.setCore_cycle (c : Nat) (x : Core) : (s.setCore c x).cycle = s.cycle := rfl
@[simp] theorem State.setCore_dieOff (c : Nat) (x : Core) : (s.setCore c x).dieOff = s.dieOff := rfl
@[simp] theorem State.setCore_mem (c : Nat) (x : Core) : (s.setCore c x).mem = s.mem := rfl
@[simp] theorem State.setCore_marked (c : Nat) (x : Core) : (s.setCore c x).marked = s.marked := rfl
@[simp] theorem State.setCore_leaves (c : Nat) (x : Core) : (s.setCore c x).leaves = s.leaves := rfl
@[simp] theorem State.setCore_threads (c : Nat) (x : Core) : (s.setCore c x).threads = s.threads := rfl
@[simp] theorem State.setCore_crews (c : Nat) (x : Core) : (s.setCore c x).crews = s.crews := rfl
@[simp] theorem State.setCore_blocks (c : Nat) (x : Core) : (s.setCore c x).blocks = s.blocks := rfl
@[simp] theorem State.setCore_cores (c : Nat) (x : Core) : (s.setCore c x).cores = tset s.cores c x := rfl
@[simp] theorem State.setCore_ctxs (c : Nat) (x : Core) : (s.setCore c x).ctxs = s.ctxs := rfl
@[simp] theorem State.setCore_nodes (c : Nat) (x : Core) : (s.setCore c x).nodes = s.nodes := rfl
@[simp] theorem State.setCore_copies (c : Nat) (x : Core) : (s.setCore c x).copies = s.copies := rfl
@[simp] theorem State.setCore_outbound (c : Nat) (x : Core) : (s.setCore c x).outbound = s.outbound := rfl
@[simp] theorem State.setCore_ports (c : Nat) (x : Core) : (s.setCore c x).ports = s.ports := rfl
@[simp] theorem State.setCore_requests (c : Nat) (x : Core) : (s.setCore c x).requests = s.requests := rfl
@[simp] theorem State.setCore_unsent (c : Nat) (x : Core) : (s.setCore c x).unsent = s.unsent := rfl
@[simp] theorem State.setCore_groupOps (c : Nat) (x : Core) : (s.setCore c x).groupOps = s.groupOps := rfl
@[simp] theorem State.setCore_incoming (c : Nat) (x : Core) : (s.setCore c x).incoming = s.incoming := rfl
@[simp] theorem State.setCore_mail (c : Nat) (x : Core) : (s.setCore c x).mail = s.mail := rfl
@[simp] theorem State.setCore_helm (c : Nat) (x : Core) : (s.setCore c x).helm = s.helm := rfl
@[simp] theorem State.setCore_replies (c : Nat) (x : Core) : (s.setCore c x).replies = s.replies := rfl
@[simp] theorem State.setCore_repliesDue (c : Nat) (x : Core) : (s.setCore c x).repliesDue = s.repliesDue := rfl
@[simp] theorem State.setCore_hostData (c : Nat) (x : Core) : (s.setCore c x).hostData = s.hostData := rfl
@[simp] theorem State.setCore_hostWaiting (c : Nat) (x : Core) : (s.setCore c x).hostWaiting = s.hostWaiting := rfl
@[simp] theorem State.setCore_sxval (c : Nat) (x : Core) : (s.setCore c x).sxval = s.sxval := rfl
@[simp] theorem State.setCore_nextUid (c : Nat) (x : Core) : (s.setCore c x).nextUid = s.nextUid := rfl
@[simp] theorem State.setCore_nextId (c : Nat) (x : Core) : (s.setCore c x).nextId = s.nextId := rfl
@[simp] theorem State.setCore_seq (c : Nat) (x : Core) : (s.setCore c x).seq = s.seq := rfl
@[simp] theorem State.setCore_free (c : Nat) (x : Core) : (s.setCore c x).free = s.free := rfl
@[simp] theorem State.setCore_todo (c : Nat) (x : Core) : (s.setCore c x).todo = s.todo := rfl
@[simp] theorem State.setCore_agenda (c : Nat) (x : Core) : (s.setCore c x).agenda = s.agenda := rfl
@[simp] theorem State.setCore_cur (c : Nat) (x : Core) : (s.setCore c x).cur = s.cur := rfl
@[simp] theorem State.setCore_stayed (c : Nat) (x : Core) : (s.setCore c x).stayed = s.stayed := rfl
@[simp] theorem State.setCore_seqsDone (c : Nat) (x : Core) : (s.setCore c x).seqsDone = s.seqsDone := rfl
@[simp] theorem State.setCore_subsDone (c : Nat) (x : Core) : (s.setCore c x).subsDone = s.subsDone := rfl
@[simp] theorem State.setCore_up (c : Nat) (x : Core) : (s.setCore c x).up = s.up := rfl
@[simp] theorem State.setCore_fired (c : Nat) (x : Core) : (s.setCore c x).fired = s.fired := rfl
@[simp] theorem State.setCore_shadow (c : Nat) (x : Core) : (s.setCore c x).shadow = s.shadow := rfl
@[simp] theorem State.setCore_astray (c : Nat) (x : Core) : (s.setCore c x).astray = s.astray := rfl

/-! ## `setCtx` -/

@[simp] theorem State.setCtx_cycle (c : BitVec 16) (x : Context) : (s.setCtx c x).cycle = s.cycle := rfl
@[simp] theorem State.setCtx_dieOff (c : BitVec 16) (x : Context) : (s.setCtx c x).dieOff = s.dieOff := rfl
@[simp] theorem State.setCtx_mem (c : BitVec 16) (x : Context) : (s.setCtx c x).mem = s.mem := rfl
@[simp] theorem State.setCtx_marked (c : BitVec 16) (x : Context) : (s.setCtx c x).marked = s.marked := rfl
@[simp] theorem State.setCtx_leaves (c : BitVec 16) (x : Context) : (s.setCtx c x).leaves = s.leaves := rfl
@[simp] theorem State.setCtx_threads (c : BitVec 16) (x : Context) : (s.setCtx c x).threads = s.threads := rfl
@[simp] theorem State.setCtx_crews (c : BitVec 16) (x : Context) : (s.setCtx c x).crews = s.crews := rfl
@[simp] theorem State.setCtx_blocks (c : BitVec 16) (x : Context) : (s.setCtx c x).blocks = s.blocks := rfl
@[simp] theorem State.setCtx_cores (c : BitVec 16) (x : Context) : (s.setCtx c x).cores = s.cores := rfl
@[simp] theorem State.setCtx_ctxs (c : BitVec 16) (x : Context) : (s.setCtx c x).ctxs = tset s.ctxs c.toNat x := rfl
@[simp] theorem State.setCtx_nodes (c : BitVec 16) (x : Context) : (s.setCtx c x).nodes = s.nodes := rfl
@[simp] theorem State.setCtx_copies (c : BitVec 16) (x : Context) : (s.setCtx c x).copies = s.copies := rfl
@[simp] theorem State.setCtx_outbound (c : BitVec 16) (x : Context) : (s.setCtx c x).outbound = s.outbound := rfl
@[simp] theorem State.setCtx_ports (c : BitVec 16) (x : Context) : (s.setCtx c x).ports = s.ports := rfl
@[simp] theorem State.setCtx_requests (c : BitVec 16) (x : Context) : (s.setCtx c x).requests = s.requests := rfl
@[simp] theorem State.setCtx_unsent (c : BitVec 16) (x : Context) : (s.setCtx c x).unsent = s.unsent := rfl
@[simp] theorem State.setCtx_groupOps (c : BitVec 16) (x : Context) : (s.setCtx c x).groupOps = s.groupOps := rfl
@[simp] theorem State.setCtx_incoming (c : BitVec 16) (x : Context) : (s.setCtx c x).incoming = s.incoming := rfl
@[simp] theorem State.setCtx_mail (c : BitVec 16) (x : Context) : (s.setCtx c x).mail = s.mail := rfl
@[simp] theorem State.setCtx_helm (c : BitVec 16) (x : Context) : (s.setCtx c x).helm = s.helm := rfl
@[simp] theorem State.setCtx_replies (c : BitVec 16) (x : Context) : (s.setCtx c x).replies = s.replies := rfl
@[simp] theorem State.setCtx_repliesDue (c : BitVec 16) (x : Context) : (s.setCtx c x).repliesDue = s.repliesDue := rfl
@[simp] theorem State.setCtx_hostData (c : BitVec 16) (x : Context) : (s.setCtx c x).hostData = s.hostData := rfl
@[simp] theorem State.setCtx_hostWaiting (c : BitVec 16) (x : Context) : (s.setCtx c x).hostWaiting = s.hostWaiting := rfl
@[simp] theorem State.setCtx_sxval (c : BitVec 16) (x : Context) : (s.setCtx c x).sxval = s.sxval := rfl
@[simp] theorem State.setCtx_nextUid (c : BitVec 16) (x : Context) : (s.setCtx c x).nextUid = s.nextUid := rfl
@[simp] theorem State.setCtx_nextId (c : BitVec 16) (x : Context) : (s.setCtx c x).nextId = s.nextId := rfl
@[simp] theorem State.setCtx_seq (c : BitVec 16) (x : Context) : (s.setCtx c x).seq = s.seq := rfl
@[simp] theorem State.setCtx_free (c : BitVec 16) (x : Context) : (s.setCtx c x).free = s.free := rfl
@[simp] theorem State.setCtx_todo (c : BitVec 16) (x : Context) : (s.setCtx c x).todo = s.todo := rfl
@[simp] theorem State.setCtx_agenda (c : BitVec 16) (x : Context) : (s.setCtx c x).agenda = s.agenda := rfl
@[simp] theorem State.setCtx_cur (c : BitVec 16) (x : Context) : (s.setCtx c x).cur = s.cur := rfl
@[simp] theorem State.setCtx_stayed (c : BitVec 16) (x : Context) : (s.setCtx c x).stayed = s.stayed := rfl
@[simp] theorem State.setCtx_seqsDone (c : BitVec 16) (x : Context) : (s.setCtx c x).seqsDone = s.seqsDone := rfl
@[simp] theorem State.setCtx_subsDone (c : BitVec 16) (x : Context) : (s.setCtx c x).subsDone = s.subsDone := rfl
@[simp] theorem State.setCtx_up (c : BitVec 16) (x : Context) : (s.setCtx c x).up = s.up := rfl
@[simp] theorem State.setCtx_fired (c : BitVec 16) (x : Context) : (s.setCtx c x).fired = s.fired := rfl
@[simp] theorem State.setCtx_shadow (c : BitVec 16) (x : Context) : (s.setCtx c x).shadow = s.shadow := rfl
@[simp] theorem State.setCtx_astray (c : BitVec 16) (x : Context) : (s.setCtx c x).astray = s.astray := rfl

/-! ## `modThread` -/

@[simp] theorem State.modThread_cycle (t : Nat) (f : Thread → Thread) : (s.modThread t f).cycle = s.cycle := rfl
@[simp] theorem State.modThread_dieOff (t : Nat) (f : Thread → Thread) : (s.modThread t f).dieOff = s.dieOff := rfl
@[simp] theorem State.modThread_mem (t : Nat) (f : Thread → Thread) : (s.modThread t f).mem = s.mem := rfl
@[simp] theorem State.modThread_marked (t : Nat) (f : Thread → Thread) : (s.modThread t f).marked = s.marked := rfl
@[simp] theorem State.modThread_leaves (t : Nat) (f : Thread → Thread) : (s.modThread t f).leaves = s.leaves := rfl
@[simp] theorem State.modThread_threads (t : Nat) (f : Thread → Thread) : (s.modThread t f).threads = tmod s.threads t f := rfl
@[simp] theorem State.modThread_crews (t : Nat) (f : Thread → Thread) : (s.modThread t f).crews = s.crews := rfl
@[simp] theorem State.modThread_blocks (t : Nat) (f : Thread → Thread) : (s.modThread t f).blocks = s.blocks := rfl
@[simp] theorem State.modThread_cores (t : Nat) (f : Thread → Thread) : (s.modThread t f).cores = s.cores := rfl
@[simp] theorem State.modThread_ctxs (t : Nat) (f : Thread → Thread) : (s.modThread t f).ctxs = s.ctxs := rfl
@[simp] theorem State.modThread_nodes (t : Nat) (f : Thread → Thread) : (s.modThread t f).nodes = s.nodes := rfl
@[simp] theorem State.modThread_copies (t : Nat) (f : Thread → Thread) : (s.modThread t f).copies = s.copies := rfl
@[simp] theorem State.modThread_outbound (t : Nat) (f : Thread → Thread) : (s.modThread t f).outbound = s.outbound := rfl
@[simp] theorem State.modThread_ports (t : Nat) (f : Thread → Thread) : (s.modThread t f).ports = s.ports := rfl
@[simp] theorem State.modThread_requests (t : Nat) (f : Thread → Thread) : (s.modThread t f).requests = s.requests := rfl
@[simp] theorem State.modThread_unsent (t : Nat) (f : Thread → Thread) : (s.modThread t f).unsent = s.unsent := rfl
@[simp] theorem State.modThread_groupOps (t : Nat) (f : Thread → Thread) : (s.modThread t f).groupOps = s.groupOps := rfl
@[simp] theorem State.modThread_incoming (t : Nat) (f : Thread → Thread) : (s.modThread t f).incoming = s.incoming := rfl
@[simp] theorem State.modThread_mail (t : Nat) (f : Thread → Thread) : (s.modThread t f).mail = s.mail := rfl
@[simp] theorem State.modThread_helm (t : Nat) (f : Thread → Thread) : (s.modThread t f).helm = s.helm := rfl
@[simp] theorem State.modThread_replies (t : Nat) (f : Thread → Thread) : (s.modThread t f).replies = s.replies := rfl
@[simp] theorem State.modThread_repliesDue (t : Nat) (f : Thread → Thread) : (s.modThread t f).repliesDue = s.repliesDue := rfl
@[simp] theorem State.modThread_hostData (t : Nat) (f : Thread → Thread) : (s.modThread t f).hostData = s.hostData := rfl
@[simp] theorem State.modThread_hostWaiting (t : Nat) (f : Thread → Thread) : (s.modThread t f).hostWaiting = s.hostWaiting := rfl
@[simp] theorem State.modThread_sxval (t : Nat) (f : Thread → Thread) : (s.modThread t f).sxval = s.sxval := rfl
@[simp] theorem State.modThread_nextUid (t : Nat) (f : Thread → Thread) : (s.modThread t f).nextUid = s.nextUid := rfl
@[simp] theorem State.modThread_nextId (t : Nat) (f : Thread → Thread) : (s.modThread t f).nextId = s.nextId := rfl
@[simp] theorem State.modThread_seq (t : Nat) (f : Thread → Thread) : (s.modThread t f).seq = s.seq := rfl
@[simp] theorem State.modThread_free (t : Nat) (f : Thread → Thread) : (s.modThread t f).free = s.free := rfl
@[simp] theorem State.modThread_todo (t : Nat) (f : Thread → Thread) : (s.modThread t f).todo = s.todo := rfl
@[simp] theorem State.modThread_agenda (t : Nat) (f : Thread → Thread) : (s.modThread t f).agenda = s.agenda := rfl
@[simp] theorem State.modThread_cur (t : Nat) (f : Thread → Thread) : (s.modThread t f).cur = s.cur := rfl
@[simp] theorem State.modThread_stayed (t : Nat) (f : Thread → Thread) : (s.modThread t f).stayed = s.stayed := rfl
@[simp] theorem State.modThread_seqsDone (t : Nat) (f : Thread → Thread) : (s.modThread t f).seqsDone = s.seqsDone := rfl
@[simp] theorem State.modThread_subsDone (t : Nat) (f : Thread → Thread) : (s.modThread t f).subsDone = s.subsDone := rfl
@[simp] theorem State.modThread_up (t : Nat) (f : Thread → Thread) : (s.modThread t f).up = s.up := rfl
@[simp] theorem State.modThread_fired (t : Nat) (f : Thread → Thread) : (s.modThread t f).fired = s.fired := rfl
@[simp] theorem State.modThread_shadow (t : Nat) (f : Thread → Thread) : (s.modThread t f).shadow = s.shadow := rfl
@[simp] theorem State.modThread_astray (t : Nat) (f : Thread → Thread) : (s.modThread t f).astray = s.astray := rfl

/-! ## `modCrew` -/

@[simp] theorem State.modCrew_cycle (c : Nat) (f : Crew → Crew) : (s.modCrew c f).cycle = s.cycle := rfl
@[simp] theorem State.modCrew_dieOff (c : Nat) (f : Crew → Crew) : (s.modCrew c f).dieOff = s.dieOff := rfl
@[simp] theorem State.modCrew_mem (c : Nat) (f : Crew → Crew) : (s.modCrew c f).mem = s.mem := rfl
@[simp] theorem State.modCrew_marked (c : Nat) (f : Crew → Crew) : (s.modCrew c f).marked = s.marked := rfl
@[simp] theorem State.modCrew_leaves (c : Nat) (f : Crew → Crew) : (s.modCrew c f).leaves = s.leaves := rfl
@[simp] theorem State.modCrew_threads (c : Nat) (f : Crew → Crew) : (s.modCrew c f).threads = s.threads := rfl
@[simp] theorem State.modCrew_crews (c : Nat) (f : Crew → Crew) : (s.modCrew c f).crews = tmod s.crews c f := rfl
@[simp] theorem State.modCrew_blocks (c : Nat) (f : Crew → Crew) : (s.modCrew c f).blocks = s.blocks := rfl
@[simp] theorem State.modCrew_cores (c : Nat) (f : Crew → Crew) : (s.modCrew c f).cores = s.cores := rfl
@[simp] theorem State.modCrew_ctxs (c : Nat) (f : Crew → Crew) : (s.modCrew c f).ctxs = s.ctxs := rfl
@[simp] theorem State.modCrew_nodes (c : Nat) (f : Crew → Crew) : (s.modCrew c f).nodes = s.nodes := rfl
@[simp] theorem State.modCrew_copies (c : Nat) (f : Crew → Crew) : (s.modCrew c f).copies = s.copies := rfl
@[simp] theorem State.modCrew_outbound (c : Nat) (f : Crew → Crew) : (s.modCrew c f).outbound = s.outbound := rfl
@[simp] theorem State.modCrew_ports (c : Nat) (f : Crew → Crew) : (s.modCrew c f).ports = s.ports := rfl
@[simp] theorem State.modCrew_requests (c : Nat) (f : Crew → Crew) : (s.modCrew c f).requests = s.requests := rfl
@[simp] theorem State.modCrew_unsent (c : Nat) (f : Crew → Crew) : (s.modCrew c f).unsent = s.unsent := rfl
@[simp] theorem State.modCrew_groupOps (c : Nat) (f : Crew → Crew) : (s.modCrew c f).groupOps = s.groupOps := rfl
@[simp] theorem State.modCrew_incoming (c : Nat) (f : Crew → Crew) : (s.modCrew c f).incoming = s.incoming := rfl
@[simp] theorem State.modCrew_mail (c : Nat) (f : Crew → Crew) : (s.modCrew c f).mail = s.mail := rfl
@[simp] theorem State.modCrew_helm (c : Nat) (f : Crew → Crew) : (s.modCrew c f).helm = s.helm := rfl
@[simp] theorem State.modCrew_replies (c : Nat) (f : Crew → Crew) : (s.modCrew c f).replies = s.replies := rfl
@[simp] theorem State.modCrew_repliesDue (c : Nat) (f : Crew → Crew) : (s.modCrew c f).repliesDue = s.repliesDue := rfl
@[simp] theorem State.modCrew_hostData (c : Nat) (f : Crew → Crew) : (s.modCrew c f).hostData = s.hostData := rfl
@[simp] theorem State.modCrew_hostWaiting (c : Nat) (f : Crew → Crew) : (s.modCrew c f).hostWaiting = s.hostWaiting := rfl
@[simp] theorem State.modCrew_sxval (c : Nat) (f : Crew → Crew) : (s.modCrew c f).sxval = s.sxval := rfl
@[simp] theorem State.modCrew_nextUid (c : Nat) (f : Crew → Crew) : (s.modCrew c f).nextUid = s.nextUid := rfl
@[simp] theorem State.modCrew_nextId (c : Nat) (f : Crew → Crew) : (s.modCrew c f).nextId = s.nextId := rfl
@[simp] theorem State.modCrew_seq (c : Nat) (f : Crew → Crew) : (s.modCrew c f).seq = s.seq := rfl
@[simp] theorem State.modCrew_free (c : Nat) (f : Crew → Crew) : (s.modCrew c f).free = s.free := rfl
@[simp] theorem State.modCrew_todo (c : Nat) (f : Crew → Crew) : (s.modCrew c f).todo = s.todo := rfl
@[simp] theorem State.modCrew_agenda (c : Nat) (f : Crew → Crew) : (s.modCrew c f).agenda = s.agenda := rfl
@[simp] theorem State.modCrew_cur (c : Nat) (f : Crew → Crew) : (s.modCrew c f).cur = s.cur := rfl
@[simp] theorem State.modCrew_stayed (c : Nat) (f : Crew → Crew) : (s.modCrew c f).stayed = s.stayed := rfl
@[simp] theorem State.modCrew_seqsDone (c : Nat) (f : Crew → Crew) : (s.modCrew c f).seqsDone = s.seqsDone := rfl
@[simp] theorem State.modCrew_subsDone (c : Nat) (f : Crew → Crew) : (s.modCrew c f).subsDone = s.subsDone := rfl
@[simp] theorem State.modCrew_up (c : Nat) (f : Crew → Crew) : (s.modCrew c f).up = s.up := rfl
@[simp] theorem State.modCrew_fired (c : Nat) (f : Crew → Crew) : (s.modCrew c f).fired = s.fired := rfl
@[simp] theorem State.modCrew_shadow (c : Nat) (f : Crew → Crew) : (s.modCrew c f).shadow = s.shadow := rfl
@[simp] theorem State.modCrew_astray (c : Nat) (f : Crew → Crew) : (s.modCrew c f).astray = s.astray := rfl

/-! ## `modBlock` -/

@[simp] theorem State.modBlock_cycle (b : Nat) (f : Block → Block) : (s.modBlock b f).cycle = s.cycle := rfl
@[simp] theorem State.modBlock_dieOff (b : Nat) (f : Block → Block) : (s.modBlock b f).dieOff = s.dieOff := rfl
@[simp] theorem State.modBlock_mem (b : Nat) (f : Block → Block) : (s.modBlock b f).mem = s.mem := rfl
@[simp] theorem State.modBlock_marked (b : Nat) (f : Block → Block) : (s.modBlock b f).marked = s.marked := rfl
@[simp] theorem State.modBlock_leaves (b : Nat) (f : Block → Block) : (s.modBlock b f).leaves = s.leaves := rfl
@[simp] theorem State.modBlock_threads (b : Nat) (f : Block → Block) : (s.modBlock b f).threads = s.threads := rfl
@[simp] theorem State.modBlock_crews (b : Nat) (f : Block → Block) : (s.modBlock b f).crews = s.crews := rfl
@[simp] theorem State.modBlock_blocks (b : Nat) (f : Block → Block) : (s.modBlock b f).blocks = tmod s.blocks b f := rfl
@[simp] theorem State.modBlock_cores (b : Nat) (f : Block → Block) : (s.modBlock b f).cores = s.cores := rfl
@[simp] theorem State.modBlock_ctxs (b : Nat) (f : Block → Block) : (s.modBlock b f).ctxs = s.ctxs := rfl
@[simp] theorem State.modBlock_nodes (b : Nat) (f : Block → Block) : (s.modBlock b f).nodes = s.nodes := rfl
@[simp] theorem State.modBlock_copies (b : Nat) (f : Block → Block) : (s.modBlock b f).copies = s.copies := rfl
@[simp] theorem State.modBlock_outbound (b : Nat) (f : Block → Block) : (s.modBlock b f).outbound = s.outbound := rfl
@[simp] theorem State.modBlock_ports (b : Nat) (f : Block → Block) : (s.modBlock b f).ports = s.ports := rfl
@[simp] theorem State.modBlock_requests (b : Nat) (f : Block → Block) : (s.modBlock b f).requests = s.requests := rfl
@[simp] theorem State.modBlock_unsent (b : Nat) (f : Block → Block) : (s.modBlock b f).unsent = s.unsent := rfl
@[simp] theorem State.modBlock_groupOps (b : Nat) (f : Block → Block) : (s.modBlock b f).groupOps = s.groupOps := rfl
@[simp] theorem State.modBlock_incoming (b : Nat) (f : Block → Block) : (s.modBlock b f).incoming = s.incoming := rfl
@[simp] theorem State.modBlock_mail (b : Nat) (f : Block → Block) : (s.modBlock b f).mail = s.mail := rfl
@[simp] theorem State.modBlock_helm (b : Nat) (f : Block → Block) : (s.modBlock b f).helm = s.helm := rfl
@[simp] theorem State.modBlock_replies (b : Nat) (f : Block → Block) : (s.modBlock b f).replies = s.replies := rfl
@[simp] theorem State.modBlock_repliesDue (b : Nat) (f : Block → Block) : (s.modBlock b f).repliesDue = s.repliesDue := rfl
@[simp] theorem State.modBlock_hostData (b : Nat) (f : Block → Block) : (s.modBlock b f).hostData = s.hostData := rfl
@[simp] theorem State.modBlock_hostWaiting (b : Nat) (f : Block → Block) : (s.modBlock b f).hostWaiting = s.hostWaiting := rfl
@[simp] theorem State.modBlock_sxval (b : Nat) (f : Block → Block) : (s.modBlock b f).sxval = s.sxval := rfl
@[simp] theorem State.modBlock_nextUid (b : Nat) (f : Block → Block) : (s.modBlock b f).nextUid = s.nextUid := rfl
@[simp] theorem State.modBlock_nextId (b : Nat) (f : Block → Block) : (s.modBlock b f).nextId = s.nextId := rfl
@[simp] theorem State.modBlock_seq (b : Nat) (f : Block → Block) : (s.modBlock b f).seq = s.seq := rfl
@[simp] theorem State.modBlock_free (b : Nat) (f : Block → Block) : (s.modBlock b f).free = s.free := rfl
@[simp] theorem State.modBlock_todo (b : Nat) (f : Block → Block) : (s.modBlock b f).todo = s.todo := rfl
@[simp] theorem State.modBlock_agenda (b : Nat) (f : Block → Block) : (s.modBlock b f).agenda = s.agenda := rfl
@[simp] theorem State.modBlock_cur (b : Nat) (f : Block → Block) : (s.modBlock b f).cur = s.cur := rfl
@[simp] theorem State.modBlock_stayed (b : Nat) (f : Block → Block) : (s.modBlock b f).stayed = s.stayed := rfl
@[simp] theorem State.modBlock_seqsDone (b : Nat) (f : Block → Block) : (s.modBlock b f).seqsDone = s.seqsDone := rfl
@[simp] theorem State.modBlock_subsDone (b : Nat) (f : Block → Block) : (s.modBlock b f).subsDone = s.subsDone := rfl
@[simp] theorem State.modBlock_up (b : Nat) (f : Block → Block) : (s.modBlock b f).up = s.up := rfl
@[simp] theorem State.modBlock_fired (b : Nat) (f : Block → Block) : (s.modBlock b f).fired = s.fired := rfl
@[simp] theorem State.modBlock_shadow (b : Nat) (f : Block → Block) : (s.modBlock b f).shadow = s.shadow := rfl
@[simp] theorem State.modBlock_astray (b : Nat) (f : Block → Block) : (s.modBlock b f).astray = s.astray := rfl

/-! ## `modCore` -/

@[simp] theorem State.modCore_cycle (c : Nat) (f : Core → Core) : (s.modCore c f).cycle = s.cycle := rfl
@[simp] theorem State.modCore_dieOff (c : Nat) (f : Core → Core) : (s.modCore c f).dieOff = s.dieOff := rfl
@[simp] theorem State.modCore_mem (c : Nat) (f : Core → Core) : (s.modCore c f).mem = s.mem := rfl
@[simp] theorem State.modCore_marked (c : Nat) (f : Core → Core) : (s.modCore c f).marked = s.marked := rfl
@[simp] theorem State.modCore_leaves (c : Nat) (f : Core → Core) : (s.modCore c f).leaves = s.leaves := rfl
@[simp] theorem State.modCore_threads (c : Nat) (f : Core → Core) : (s.modCore c f).threads = s.threads := rfl
@[simp] theorem State.modCore_crews (c : Nat) (f : Core → Core) : (s.modCore c f).crews = s.crews := rfl
@[simp] theorem State.modCore_blocks (c : Nat) (f : Core → Core) : (s.modCore c f).blocks = s.blocks := rfl
@[simp] theorem State.modCore_cores (c : Nat) (f : Core → Core) : (s.modCore c f).cores = tset s.cores c (f (s.core c)) := rfl
@[simp] theorem State.modCore_ctxs (c : Nat) (f : Core → Core) : (s.modCore c f).ctxs = s.ctxs := rfl
@[simp] theorem State.modCore_nodes (c : Nat) (f : Core → Core) : (s.modCore c f).nodes = s.nodes := rfl
@[simp] theorem State.modCore_copies (c : Nat) (f : Core → Core) : (s.modCore c f).copies = s.copies := rfl
@[simp] theorem State.modCore_outbound (c : Nat) (f : Core → Core) : (s.modCore c f).outbound = s.outbound := rfl
@[simp] theorem State.modCore_ports (c : Nat) (f : Core → Core) : (s.modCore c f).ports = s.ports := rfl
@[simp] theorem State.modCore_requests (c : Nat) (f : Core → Core) : (s.modCore c f).requests = s.requests := rfl
@[simp] theorem State.modCore_unsent (c : Nat) (f : Core → Core) : (s.modCore c f).unsent = s.unsent := rfl
@[simp] theorem State.modCore_groupOps (c : Nat) (f : Core → Core) : (s.modCore c f).groupOps = s.groupOps := rfl
@[simp] theorem State.modCore_incoming (c : Nat) (f : Core → Core) : (s.modCore c f).incoming = s.incoming := rfl
@[simp] theorem State.modCore_mail (c : Nat) (f : Core → Core) : (s.modCore c f).mail = s.mail := rfl
@[simp] theorem State.modCore_helm (c : Nat) (f : Core → Core) : (s.modCore c f).helm = s.helm := rfl
@[simp] theorem State.modCore_replies (c : Nat) (f : Core → Core) : (s.modCore c f).replies = s.replies := rfl
@[simp] theorem State.modCore_repliesDue (c : Nat) (f : Core → Core) : (s.modCore c f).repliesDue = s.repliesDue := rfl
@[simp] theorem State.modCore_hostData (c : Nat) (f : Core → Core) : (s.modCore c f).hostData = s.hostData := rfl
@[simp] theorem State.modCore_hostWaiting (c : Nat) (f : Core → Core) : (s.modCore c f).hostWaiting = s.hostWaiting := rfl
@[simp] theorem State.modCore_sxval (c : Nat) (f : Core → Core) : (s.modCore c f).sxval = s.sxval := rfl
@[simp] theorem State.modCore_nextUid (c : Nat) (f : Core → Core) : (s.modCore c f).nextUid = s.nextUid := rfl
@[simp] theorem State.modCore_nextId (c : Nat) (f : Core → Core) : (s.modCore c f).nextId = s.nextId := rfl
@[simp] theorem State.modCore_seq (c : Nat) (f : Core → Core) : (s.modCore c f).seq = s.seq := rfl
@[simp] theorem State.modCore_free (c : Nat) (f : Core → Core) : (s.modCore c f).free = s.free := rfl
@[simp] theorem State.modCore_todo (c : Nat) (f : Core → Core) : (s.modCore c f).todo = s.todo := rfl
@[simp] theorem State.modCore_agenda (c : Nat) (f : Core → Core) : (s.modCore c f).agenda = s.agenda := rfl
@[simp] theorem State.modCore_cur (c : Nat) (f : Core → Core) : (s.modCore c f).cur = s.cur := rfl
@[simp] theorem State.modCore_stayed (c : Nat) (f : Core → Core) : (s.modCore c f).stayed = s.stayed := rfl
@[simp] theorem State.modCore_seqsDone (c : Nat) (f : Core → Core) : (s.modCore c f).seqsDone = s.seqsDone := rfl
@[simp] theorem State.modCore_subsDone (c : Nat) (f : Core → Core) : (s.modCore c f).subsDone = s.subsDone := rfl
@[simp] theorem State.modCore_up (c : Nat) (f : Core → Core) : (s.modCore c f).up = s.up := rfl
@[simp] theorem State.modCore_fired (c : Nat) (f : Core → Core) : (s.modCore c f).fired = s.fired := rfl
@[simp] theorem State.modCore_shadow (c : Nat) (f : Core → Core) : (s.modCore c f).shadow = s.shadow := rfl
@[simp] theorem State.modCore_astray (c : Nat) (f : Core → Core) : (s.modCore c f).astray = s.astray := rfl

/-! ## `modCtx` -/

@[simp] theorem State.modCtx_cycle (c : BitVec 16) (f : Context → Context) : (s.modCtx c f).cycle = s.cycle := rfl
@[simp] theorem State.modCtx_dieOff (c : BitVec 16) (f : Context → Context) : (s.modCtx c f).dieOff = s.dieOff := rfl
@[simp] theorem State.modCtx_mem (c : BitVec 16) (f : Context → Context) : (s.modCtx c f).mem = s.mem := rfl
@[simp] theorem State.modCtx_marked (c : BitVec 16) (f : Context → Context) : (s.modCtx c f).marked = s.marked := rfl
@[simp] theorem State.modCtx_leaves (c : BitVec 16) (f : Context → Context) : (s.modCtx c f).leaves = s.leaves := rfl
@[simp] theorem State.modCtx_threads (c : BitVec 16) (f : Context → Context) : (s.modCtx c f).threads = s.threads := rfl
@[simp] theorem State.modCtx_crews (c : BitVec 16) (f : Context → Context) : (s.modCtx c f).crews = s.crews := rfl
@[simp] theorem State.modCtx_blocks (c : BitVec 16) (f : Context → Context) : (s.modCtx c f).blocks = s.blocks := rfl
@[simp] theorem State.modCtx_cores (c : BitVec 16) (f : Context → Context) : (s.modCtx c f).cores = s.cores := rfl
@[simp] theorem State.modCtx_ctxs (c : BitVec 16) (f : Context → Context) : (s.modCtx c f).ctxs = tmod s.ctxs c.toNat f := rfl
@[simp] theorem State.modCtx_nodes (c : BitVec 16) (f : Context → Context) : (s.modCtx c f).nodes = s.nodes := rfl
@[simp] theorem State.modCtx_copies (c : BitVec 16) (f : Context → Context) : (s.modCtx c f).copies = s.copies := rfl
@[simp] theorem State.modCtx_outbound (c : BitVec 16) (f : Context → Context) : (s.modCtx c f).outbound = s.outbound := rfl
@[simp] theorem State.modCtx_ports (c : BitVec 16) (f : Context → Context) : (s.modCtx c f).ports = s.ports := rfl
@[simp] theorem State.modCtx_requests (c : BitVec 16) (f : Context → Context) : (s.modCtx c f).requests = s.requests := rfl
@[simp] theorem State.modCtx_unsent (c : BitVec 16) (f : Context → Context) : (s.modCtx c f).unsent = s.unsent := rfl
@[simp] theorem State.modCtx_groupOps (c : BitVec 16) (f : Context → Context) : (s.modCtx c f).groupOps = s.groupOps := rfl
@[simp] theorem State.modCtx_incoming (c : BitVec 16) (f : Context → Context) : (s.modCtx c f).incoming = s.incoming := rfl
@[simp] theorem State.modCtx_mail (c : BitVec 16) (f : Context → Context) : (s.modCtx c f).mail = s.mail := rfl
@[simp] theorem State.modCtx_helm (c : BitVec 16) (f : Context → Context) : (s.modCtx c f).helm = s.helm := rfl
@[simp] theorem State.modCtx_replies (c : BitVec 16) (f : Context → Context) : (s.modCtx c f).replies = s.replies := rfl
@[simp] theorem State.modCtx_repliesDue (c : BitVec 16) (f : Context → Context) : (s.modCtx c f).repliesDue = s.repliesDue := rfl
@[simp] theorem State.modCtx_hostData (c : BitVec 16) (f : Context → Context) : (s.modCtx c f).hostData = s.hostData := rfl
@[simp] theorem State.modCtx_hostWaiting (c : BitVec 16) (f : Context → Context) : (s.modCtx c f).hostWaiting = s.hostWaiting := rfl
@[simp] theorem State.modCtx_sxval (c : BitVec 16) (f : Context → Context) : (s.modCtx c f).sxval = s.sxval := rfl
@[simp] theorem State.modCtx_nextUid (c : BitVec 16) (f : Context → Context) : (s.modCtx c f).nextUid = s.nextUid := rfl
@[simp] theorem State.modCtx_nextId (c : BitVec 16) (f : Context → Context) : (s.modCtx c f).nextId = s.nextId := rfl
@[simp] theorem State.modCtx_seq (c : BitVec 16) (f : Context → Context) : (s.modCtx c f).seq = s.seq := rfl
@[simp] theorem State.modCtx_free (c : BitVec 16) (f : Context → Context) : (s.modCtx c f).free = s.free := rfl
@[simp] theorem State.modCtx_todo (c : BitVec 16) (f : Context → Context) : (s.modCtx c f).todo = s.todo := rfl
@[simp] theorem State.modCtx_agenda (c : BitVec 16) (f : Context → Context) : (s.modCtx c f).agenda = s.agenda := rfl
@[simp] theorem State.modCtx_cur (c : BitVec 16) (f : Context → Context) : (s.modCtx c f).cur = s.cur := rfl
@[simp] theorem State.modCtx_stayed (c : BitVec 16) (f : Context → Context) : (s.modCtx c f).stayed = s.stayed := rfl
@[simp] theorem State.modCtx_seqsDone (c : BitVec 16) (f : Context → Context) : (s.modCtx c f).seqsDone = s.seqsDone := rfl
@[simp] theorem State.modCtx_subsDone (c : BitVec 16) (f : Context → Context) : (s.modCtx c f).subsDone = s.subsDone := rfl
@[simp] theorem State.modCtx_up (c : BitVec 16) (f : Context → Context) : (s.modCtx c f).up = s.up := rfl
@[simp] theorem State.modCtx_fired (c : BitVec 16) (f : Context → Context) : (s.modCtx c f).fired = s.fired := rfl
@[simp] theorem State.modCtx_shadow (c : BitVec 16) (f : Context → Context) : (s.modCtx c f).shadow = s.shadow := rfl
@[simp] theorem State.modCtx_astray (c : BitVec 16) (f : Context → Context) : (s.modCtx c f).astray = s.astray := rfl

/-! ## `modHelm` -/

@[simp] theorem State.modHelm_cycle (f : Helm → Helm) : (s.modHelm f).cycle = s.cycle := rfl
@[simp] theorem State.modHelm_dieOff (f : Helm → Helm) : (s.modHelm f).dieOff = s.dieOff := rfl
@[simp] theorem State.modHelm_mem (f : Helm → Helm) : (s.modHelm f).mem = s.mem := rfl
@[simp] theorem State.modHelm_marked (f : Helm → Helm) : (s.modHelm f).marked = s.marked := rfl
@[simp] theorem State.modHelm_leaves (f : Helm → Helm) : (s.modHelm f).leaves = s.leaves := rfl
@[simp] theorem State.modHelm_threads (f : Helm → Helm) : (s.modHelm f).threads = s.threads := rfl
@[simp] theorem State.modHelm_crews (f : Helm → Helm) : (s.modHelm f).crews = s.crews := rfl
@[simp] theorem State.modHelm_blocks (f : Helm → Helm) : (s.modHelm f).blocks = s.blocks := rfl
@[simp] theorem State.modHelm_cores (f : Helm → Helm) : (s.modHelm f).cores = s.cores := rfl
@[simp] theorem State.modHelm_ctxs (f : Helm → Helm) : (s.modHelm f).ctxs = s.ctxs := rfl
@[simp] theorem State.modHelm_nodes (f : Helm → Helm) : (s.modHelm f).nodes = s.nodes := rfl
@[simp] theorem State.modHelm_copies (f : Helm → Helm) : (s.modHelm f).copies = s.copies := rfl
@[simp] theorem State.modHelm_outbound (f : Helm → Helm) : (s.modHelm f).outbound = s.outbound := rfl
@[simp] theorem State.modHelm_ports (f : Helm → Helm) : (s.modHelm f).ports = s.ports := rfl
@[simp] theorem State.modHelm_requests (f : Helm → Helm) : (s.modHelm f).requests = s.requests := rfl
@[simp] theorem State.modHelm_unsent (f : Helm → Helm) : (s.modHelm f).unsent = s.unsent := rfl
@[simp] theorem State.modHelm_groupOps (f : Helm → Helm) : (s.modHelm f).groupOps = s.groupOps := rfl
@[simp] theorem State.modHelm_incoming (f : Helm → Helm) : (s.modHelm f).incoming = s.incoming := rfl
@[simp] theorem State.modHelm_mail (f : Helm → Helm) : (s.modHelm f).mail = s.mail := rfl
@[simp] theorem State.modHelm_helm (f : Helm → Helm) : (s.modHelm f).helm = f s.helm := rfl
@[simp] theorem State.modHelm_replies (f : Helm → Helm) : (s.modHelm f).replies = s.replies := rfl
@[simp] theorem State.modHelm_repliesDue (f : Helm → Helm) : (s.modHelm f).repliesDue = s.repliesDue := rfl
@[simp] theorem State.modHelm_hostData (f : Helm → Helm) : (s.modHelm f).hostData = s.hostData := rfl
@[simp] theorem State.modHelm_hostWaiting (f : Helm → Helm) : (s.modHelm f).hostWaiting = s.hostWaiting := rfl
@[simp] theorem State.modHelm_sxval (f : Helm → Helm) : (s.modHelm f).sxval = s.sxval := rfl
@[simp] theorem State.modHelm_nextUid (f : Helm → Helm) : (s.modHelm f).nextUid = s.nextUid := rfl
@[simp] theorem State.modHelm_nextId (f : Helm → Helm) : (s.modHelm f).nextId = s.nextId := rfl
@[simp] theorem State.modHelm_seq (f : Helm → Helm) : (s.modHelm f).seq = s.seq := rfl
@[simp] theorem State.modHelm_free (f : Helm → Helm) : (s.modHelm f).free = s.free := rfl
@[simp] theorem State.modHelm_todo (f : Helm → Helm) : (s.modHelm f).todo = s.todo := rfl
@[simp] theorem State.modHelm_agenda (f : Helm → Helm) : (s.modHelm f).agenda = s.agenda := rfl
@[simp] theorem State.modHelm_cur (f : Helm → Helm) : (s.modHelm f).cur = s.cur := rfl
@[simp] theorem State.modHelm_stayed (f : Helm → Helm) : (s.modHelm f).stayed = s.stayed := rfl
@[simp] theorem State.modHelm_seqsDone (f : Helm → Helm) : (s.modHelm f).seqsDone = s.seqsDone := rfl
@[simp] theorem State.modHelm_subsDone (f : Helm → Helm) : (s.modHelm f).subsDone = s.subsDone := rfl
@[simp] theorem State.modHelm_up (f : Helm → Helm) : (s.modHelm f).up = s.up := rfl
@[simp] theorem State.modHelm_fired (f : Helm → Helm) : (s.modHelm f).fired = s.fired := rfl
@[simp] theorem State.modHelm_shadow (f : Helm → Helm) : (s.modHelm f).shadow = s.shadow := rfl
@[simp] theorem State.modHelm_astray (f : Helm → Helm) : (s.modHelm f).astray = s.astray := rfl

/-! ## `addTodo` -/

@[simp] theorem State.addTodo_cycle (l : List Todo) : (s.addTodo l).cycle = s.cycle := rfl
@[simp] theorem State.addTodo_dieOff (l : List Todo) : (s.addTodo l).dieOff = s.dieOff := rfl
@[simp] theorem State.addTodo_mem (l : List Todo) : (s.addTodo l).mem = s.mem := rfl
@[simp] theorem State.addTodo_marked (l : List Todo) : (s.addTodo l).marked = s.marked := rfl
@[simp] theorem State.addTodo_leaves (l : List Todo) : (s.addTodo l).leaves = s.leaves := rfl
@[simp] theorem State.addTodo_threads (l : List Todo) : (s.addTodo l).threads = s.threads := rfl
@[simp] theorem State.addTodo_crews (l : List Todo) : (s.addTodo l).crews = s.crews := rfl
@[simp] theorem State.addTodo_blocks (l : List Todo) : (s.addTodo l).blocks = s.blocks := rfl
@[simp] theorem State.addTodo_cores (l : List Todo) : (s.addTodo l).cores = s.cores := rfl
@[simp] theorem State.addTodo_ctxs (l : List Todo) : (s.addTodo l).ctxs = s.ctxs := rfl
@[simp] theorem State.addTodo_nodes (l : List Todo) : (s.addTodo l).nodes = s.nodes := rfl
@[simp] theorem State.addTodo_copies (l : List Todo) : (s.addTodo l).copies = s.copies := rfl
@[simp] theorem State.addTodo_outbound (l : List Todo) : (s.addTodo l).outbound = s.outbound := rfl
@[simp] theorem State.addTodo_ports (l : List Todo) : (s.addTodo l).ports = s.ports := rfl
@[simp] theorem State.addTodo_requests (l : List Todo) : (s.addTodo l).requests = s.requests := rfl
@[simp] theorem State.addTodo_unsent (l : List Todo) : (s.addTodo l).unsent = s.unsent := rfl
@[simp] theorem State.addTodo_groupOps (l : List Todo) : (s.addTodo l).groupOps = s.groupOps := rfl
@[simp] theorem State.addTodo_incoming (l : List Todo) : (s.addTodo l).incoming = s.incoming := rfl
@[simp] theorem State.addTodo_mail (l : List Todo) : (s.addTodo l).mail = s.mail := rfl
@[simp] theorem State.addTodo_helm (l : List Todo) : (s.addTodo l).helm = s.helm := rfl
@[simp] theorem State.addTodo_replies (l : List Todo) : (s.addTodo l).replies = s.replies := rfl
@[simp] theorem State.addTodo_repliesDue (l : List Todo) : (s.addTodo l).repliesDue = s.repliesDue := rfl
@[simp] theorem State.addTodo_hostData (l : List Todo) : (s.addTodo l).hostData = s.hostData := rfl
@[simp] theorem State.addTodo_hostWaiting (l : List Todo) : (s.addTodo l).hostWaiting = s.hostWaiting := rfl
@[simp] theorem State.addTodo_sxval (l : List Todo) : (s.addTodo l).sxval = s.sxval := rfl
@[simp] theorem State.addTodo_nextUid (l : List Todo) : (s.addTodo l).nextUid = s.nextUid := rfl
@[simp] theorem State.addTodo_nextId (l : List Todo) : (s.addTodo l).nextId = s.nextId := rfl
@[simp] theorem State.addTodo_seq (l : List Todo) : (s.addTodo l).seq = s.seq := rfl
@[simp] theorem State.addTodo_free (l : List Todo) : (s.addTodo l).free = s.free := rfl
@[simp] theorem State.addTodo_todo (l : List Todo) : (s.addTodo l).todo = s.todo ++ l := rfl
@[simp] theorem State.addTodo_agenda (l : List Todo) : (s.addTodo l).agenda = s.agenda := rfl
@[simp] theorem State.addTodo_cur (l : List Todo) : (s.addTodo l).cur = s.cur := rfl
@[simp] theorem State.addTodo_stayed (l : List Todo) : (s.addTodo l).stayed = s.stayed := rfl
@[simp] theorem State.addTodo_seqsDone (l : List Todo) : (s.addTodo l).seqsDone = s.seqsDone := rfl
@[simp] theorem State.addTodo_subsDone (l : List Todo) : (s.addTodo l).subsDone = s.subsDone := rfl
@[simp] theorem State.addTodo_up (l : List Todo) : (s.addTodo l).up = s.up := rfl
@[simp] theorem State.addTodo_fired (l : List Todo) : (s.addTodo l).fired = s.fired := rfl
@[simp] theorem State.addTodo_shadow (l : List Todo) : (s.addTodo l).shadow = s.shadow := rfl
@[simp] theorem State.addTodo_astray (l : List Todo) : (s.addTodo l).astray = s.astray := rfl

end Sys2Proof.Machine
end

