-- ==== Sys2Proof/Laws/Tab.lean ====
section
/-! SUPPORT. Reading a table after a write, a change or a removal. -/

namespace Sys2Proof.Machine

variable {α : Type}

@[simp] theorem tget_nil (k : Nat) : tget ([] : Tab α) k = none := rfl

theorem tget_cons (j : Nat) (x : α) (r : Tab α) (k : Nat) :
    tget ((j, x) :: r) k = if j = k then some x else tget r k := rfl

@[simp] theorem tget_tset_same (t : Tab α) (k : Nat) (x : α) : tget (tset t k x) k = some x := by
  induction t with
  | nil => simp [tset, tget]
  | cons e r ih =>
    obtain ⟨j, y⟩ := e
    simp only [tset]
    split
    · simp [tget]
    · split
      · simp [tget]
      · rw [tget_cons, if_neg (by omega), ih]

theorem tget_tset_other (t : Tab α) {k n : Nat} (x : α) (h : n ≠ k) : tget (tset t k x) n = tget t n := by
  induction t with
  | nil => simp [tset, tget, Ne.symm h]
  | cons e r ih =>
    obtain ⟨j, y⟩ := e
    simp only [tset]
    split
    · simp [tget, Ne.symm h]
    · split
      · subst k; simp [tget, Ne.symm h]
      · simp only [tget_cons, ih]

/-- Reading after a write: the value written at its key, the old one elsewhere. -/
theorem tget_tset (t : Tab α) (k n : Nat) (x : α) : tget (tset t k x) n = if n = k then some x else tget t n := by
  split
  · subst n; simp
  · exact tget_tset_other t x ‹_›

theorem tget_tmod (t : Tab α) (k n : Nat) (f : α → α) :
    tget (tmod t k f) n = if n = k then (tget t n).map f else tget t n := by
  induction t with
  | nil => simp [tmod]
  | cons e r ih =>
    obtain ⟨j, y⟩ := e
    have h : tmod ((j, y) :: r) k f = (if j = k then (j, f y) else (j, y)) :: tmod r k f := rfl
    rw [h]
    by_cases hj : j = k
    · by_cases hn : n = k
      · subst hj hn; simp [tget_cons]
      · subst hj; simp [tget_cons, Ne.symm hn, hn, ih]
    · simp only [if_neg hj, tget_cons]
      by_cases hn : n = k
      · subst n; simp [hj, ih]
      · simp [hn, ih]

@[simp] theorem tgetD_tset_same (t : Tab α) (k : Nat) (x d : α) : tgetD (tset t k x) k d = x := by simp [tgetD]

theorem tgetD_tset (t : Tab α) (k n : Nat) (x d : α) : tgetD (tset t k x) n d = if n = k then x else tgetD t n d := by
  simp only [tgetD, tget_tset]; split <;> rfl

theorem tgetD_tmod (t : Tab α) (k n : Nat) (f : α → α) (d : α) :
    tgetD (tmod t k f) n d = if n = k ∧ (tget t k).isSome then f (tgetD t n d) else tgetD t n d := by
  simp only [tgetD, tget_tmod]
  by_cases hn : n = k
  · subst n; cases tget t k <;> simp
  · simp [hn]

/-- A change of what stands at a key leaves the keys as they are. -/
@[simp] theorem tmod_keys (t : Tab α) (k : Nat) (f : α → α) : (tmod t k f).map (·.1) = t.map (·.1) := by
  simp only [tmod, List.map_map]; apply List.map_congr_left; rintro ⟨j, x⟩ _; dsimp; split <;> rfl

@[simp] theorem tget_tmod_isSome (t : Tab α) (k n : Nat) (f : α → α) : (tget (tmod t k f) n).isSome = (tget t n).isSome := by
  rw [tget_tmod]; split <;> simp

end Sys2Proof.Machine
end

