-- ==== Sys2Proof/Laws/Registers.lean ====
section
/-! SUPPORT. Threads, crews, blocks and cores after an update, and the registers of a thread after a write (R30, R35, R65). -/

namespace Sys2Proof.Machine

/-! ## Reading back -/

theorem State.thread_modThread (s : State) (t u : Nat) (f : Thread → Thread) :
    (s.modThread t f).thread u = if u = t ∧ (tget s.threads t).isSome then f (s.thread u) else s.thread u := by
  simp only [State.thread, State.modThread_threads, tgetD_tmod]

theorem State.crew_modCrew (s : State) (c d : Nat) (f : Crew → Crew) :
    (s.modCrew c f).crew d = if d = c ∧ (tget s.crews c).isSome then f (s.crew d) else s.crew d := by
  simp only [State.crew, State.modCrew_crews, tgetD_tmod]

theorem State.block_modBlock (s : State) (b d : Nat) (f : Block → Block) :
    (s.modBlock b f).block d = if d = b ∧ (tget s.blocks b).isSome then f (s.block d) else s.block d := by
  simp only [State.block, State.modBlock_blocks, tgetD_tmod]

theorem State.core_setCore (s : State) (c d : Nat) (x : Core) : (s.setCore c x).core d = if d = c then x else s.core d := by
  simp only [State.core, State.setCore_cores, tgetD_tset]

theorem State.core_modCore (s : State) (c d : Nat) (f : Core → Core) :
    (s.modCore c f).core d = if d = c then f (s.core d) else s.core d := by
  simp only [State.core, State.modCore_cores, tgetD_tset]; split <;> simp_all

/-- A thread that has not exited is listed. -/
theorem State.listed_of_live {s : State} {t : Nat} (h : (s.thread t).exited = false) : (tget s.threads t).isSome := by
  cases hg : tget s.threads t with
  | none => simp [State.thread, tgetD, hg] at h
  | some x => rfl

/-! ## What an update of one kind leaves -/

@[simp] theorem State.thread_setCrew (s : State) (c : Nat) (x : Crew) (t : Nat) : (s.setCrew c x).thread t = s.thread t := rfl
@[simp] theorem State.thread_modCrew (s : State) (c : Nat) (f : Crew → Crew) (t : Nat) : (s.modCrew c f).thread t = s.thread t := rfl
@[simp] theorem State.thread_modBlock (s : State) (b : Nat) (f : Block → Block) (t : Nat) : (s.modBlock b f).thread t = s.thread t := rfl
@[simp] theorem State.thread_modCore (s : State) (c : Nat) (f : Core → Core) (t : Nat) : (s.modCore c f).thread t = s.thread t := rfl
@[simp] theorem State.thread_addTodo (s : State) (l : List Todo) (t : Nat) : (s.addTodo l).thread t = s.thread t := rfl
@[simp] theorem State.crew_modThread (s : State) (t : Nat) (f : Thread → Thread) (c : Nat) : (s.modThread t f).crew c = s.crew c := rfl
@[simp] theorem State.crew_modBlock (s : State) (b : Nat) (f : Block → Block) (c : Nat) : (s.modBlock b f).crew c = s.crew c := rfl
@[simp] theorem State.crew_modCore (s : State) (k : Nat) (f : Core → Core) (c : Nat) : (s.modCore k f).crew c = s.crew c := rfl
@[simp] theorem State.crew_addTodo (s : State) (l : List Todo) (c : Nat) : (s.addTodo l).crew c = s.crew c := rfl
@[simp] theorem State.block_modThread (s : State) (t : Nat) (f : Thread → Thread) (b : Nat) : (s.modThread t f).block b = s.block b := rfl
@[simp] theorem State.block_modCrew (s : State) (c : Nat) (f : Crew → Crew) (b : Nat) : (s.modCrew c f).block b = s.block b := rfl
@[simp] theorem State.block_modCore (s : State) (k : Nat) (f : Core → Core) (b : Nat) : (s.modCore k f).block b = s.block b := rfl
@[simp] theorem State.block_addTodo (s : State) (l : List Todo) (b : Nat) : (s.addTodo l).block b = s.block b := rfl
@[simp] theorem State.core_modThread (s : State) (t : Nat) (f : Thread → Thread) (k : Nat) : (s.modThread t f).core k = s.core k := rfl
@[simp] theorem State.core_modCrew (s : State) (c : Nat) (f : Crew → Crew) (k : Nat) : (s.modCrew c f).core k = s.core k := rfl
@[simp] theorem State.core_modBlock (s : State) (b : Nat) (f : Block → Block) (k : Nat) : (s.modBlock b f).core k = s.core k := rfl
@[simp] theorem State.core_addTodo (s : State) (l : List Todo) (k : Nat) : (s.addTodo l).core k = s.core k := rfl

/-! ## The zero registers -/

/-- p15 reads as true, with no poison and no tags (R61). -/
@[simp] theorem Thread.getP_true (th : Thread) : th.getP 15 = { val := true, poison := false, tags := 0 } := rfl

/-- A register that nothing has written is 0, not poisoned and untagged (R35). -/
theorem Thread.getV_unwritten {th : Thread} {n : Nat} (h : tget th.v n = none) : th.getV n = Reg.zero := by
  simp [Thread.getV, tgetD, h]

/-! ## Marks and the log change no register -/

theorem Thread.mark_eq (th : Thread) (a : W64) (p q : Nat) (g : Tags) :
    th.mark a p q g = { th with marks := (th.mark a p q g).marks } := rfl

/-- Consumption changes the marks of its thread and nothing else (R352). -/
theorem State.consume_eq (s : State) (t : Nat) (a : W64) (g : Tags) :
    s.consume t a g = s ∨
      s.consume t a g = s.modThread t fun th => { th with marks := (th.mark a (s.crew (crewOf t)).logTail s.seq g).marks } := by
  unfold State.consume; split
  · exact .inl rfl
  · exact .inr rfl

@[simp] theorem State.consume_zero (s : State) (t : Nat) (a : W64) : s.consume t a 0 = s := if_pos rfl

/-- A fold whose every part leaves something leaves it. -/
theorem foldl_keeps {α β γ : Type} (p : β → γ) (f : β → α → β) (h : ∀ b a, p (f b a) = p b) (l : List α) (b : β) :
    p (l.foldl f b) = p b := by
  induction l generalizing b with
  | nil => rfl
  | cons a l ih => rw [List.foldl_cons, ih, h]

/-! ## Fields that consumption, the log and a register write leave -/

@[simp] theorem State.consume_cycle (s : State) (t : Nat) (a : W64) (g : Tags) : (s.consume t a g).cycle = s.cycle := by
  unfold State.consume; split <;> rfl
@[simp] theorem State.consume_dieOff (s : State) (t : Nat) (a : W64) (g : Tags) : (s.consume t a g).dieOff = s.dieOff := by
  unfold State.consume; split <;> rfl
@[simp] theorem State.consume_mem (s : State) (t : Nat) (a : W64) (g : Tags) : (s.consume t a g).mem = s.mem := by
  unfold State.consume; split <;> rfl
@[simp] theorem State.consume_marked (s : State) (t : Nat) (a : W64) (g : Tags) : (s.consume t a g).marked = s.marked := by
  unfold State.consume; split <;> rfl
@[simp] theorem State.consume_crews (s : State) (t : Nat) (a : W64) (g : Tags) : (s.consume t a g).crews = s.crews := by
  unfold State.consume; split <;> rfl
@[simp] theorem State.consume_blocks (s : State) (t : Nat) (a : W64) (g : Tags) : (s.consume t a g).blocks = s.blocks := by
  unfold State.consume; split <;> rfl
@[simp] theorem State.consume_cores (s : State) (t : Nat) (a : W64) (g : Tags) : (s.consume t a g).cores = s.cores := by
  unfold State.consume; split <;> rfl
@[simp] theorem State.consume_ctxs (s : State) (t : Nat) (a : W64) (g : Tags) : (s.consume t a g).ctxs = s.ctxs := by
  unfold State.consume; split <;> rfl
@[simp] theorem State.consume_nodes (s : State) (t : Nat) (a : W64) (g : Tags) : (s.consume t a g).nodes = s.nodes := by
  unfold State.consume; split <;> rfl
@[simp] theorem State.consume_copies (s : State) (t : Nat) (a : W64) (g : Tags) : (s.consume t a g).copies = s.copies := by
  unfold State.consume; split <;> rfl
@[simp] theorem State.consume_outbound (s : State) (t : Nat) (a : W64) (g : Tags) : (s.consume t a g).outbound = s.outbound := by
  unfold State.consume; split <;> rfl
@[simp] theorem State.consume_ports (s : State) (t : Nat) (a : W64) (g : Tags) : (s.consume t a g).ports = s.ports := by
  unfold State.consume; split <;> rfl
@[simp] theorem State.consume_requests (s : State) (t : Nat) (a : W64) (g : Tags) : (s.consume t a g).requests = s.requests := by
  unfold State.consume; split <;> rfl
@[simp] theorem State.consume_groupOps (s : State) (t : Nat) (a : W64) (g : Tags) : (s.consume t a g).groupOps = s.groupOps := by
  unfold State.consume; split <;> rfl
@[simp] theorem State.consume_incoming (s : State) (t : Nat) (a : W64) (g : Tags) : (s.consume t a g).incoming = s.incoming := by
  unfold State.consume; split <;> rfl
@[simp] theorem State.consume_mail (s : State) (t : Nat) (a : W64) (g : Tags) : (s.consume t a g).mail = s.mail := by
  unfold State.consume; split <;> rfl
@[simp] theorem State.consume_helm (s : State) (t : Nat) (a : W64) (g : Tags) : (s.consume t a g).helm = s.helm := by
  unfold State.consume; split <;> rfl
@[simp] theorem State.consume_replies (s : State) (t : Nat) (a : W64) (g : Tags) : (s.consume t a g).replies = s.replies := by
  unfold State.consume; split <;> rfl
@[simp] theorem State.consume_hostData (s : State) (t : Nat) (a : W64) (g : Tags) : (s.consume t a g).hostData = s.hostData := by
  unfold State.consume; split <;> rfl
@[simp] theorem State.consume_sxval (s : State) (t : Nat) (a : W64) (g : Tags) : (s.consume t a g).sxval = s.sxval := by
  unfold State.consume; split <;> rfl
@[simp] theorem State.consume_unsent (s : State) (t : Nat) (a : W64) (g : Tags) : (s.consume t a g).unsent = s.unsent := by
  unfold State.consume; split <;> rfl
@[simp] theorem State.consume_hostWaiting (s : State) (t : Nat) (a : W64) (g : Tags) : (s.consume t a g).hostWaiting = s.hostWaiting := by
  unfold State.consume; split <;> rfl
@[simp] theorem State.consume_leaves (s : State) (t : Nat) (a : W64) (g : Tags) : (s.consume t a g).leaves = s.leaves := by
  unfold State.consume; split <;> rfl
@[simp] theorem State.consume_nextUid (s : State) (t : Nat) (a : W64) (g : Tags) : (s.consume t a g).nextUid = s.nextUid := by
  unfold State.consume; split <;> rfl
@[simp] theorem State.consume_nextId (s : State) (t : Nat) (a : W64) (g : Tags) : (s.consume t a g).nextId = s.nextId := by
  unfold State.consume; split <;> rfl
@[simp] theorem State.consume_seq (s : State) (t : Nat) (a : W64) (g : Tags) : (s.consume t a g).seq = s.seq := by
  unfold State.consume; split <;> rfl
@[simp] theorem State.consume_free (s : State) (t : Nat) (a : W64) (g : Tags) : (s.consume t a g).free = s.free := by
  unfold State.consume; split <;> rfl
@[simp] theorem State.consume_todo (s : State) (t : Nat) (a : W64) (g : Tags) : (s.consume t a g).todo = s.todo := by
  unfold State.consume; split <;> rfl
@[simp] theorem State.consume_agenda (s : State) (t : Nat) (a : W64) (g : Tags) : (s.consume t a g).agenda = s.agenda := by
  unfold State.consume; split <;> rfl
@[simp] theorem State.consume_cur (s : State) (t : Nat) (a : W64) (g : Tags) : (s.consume t a g).cur = s.cur := by
  unfold State.consume; split <;> rfl
@[simp] theorem State.consume_seqsDone (s : State) (t : Nat) (a : W64) (g : Tags) : (s.consume t a g).seqsDone = s.seqsDone := by
  unfold State.consume; split <;> rfl
@[simp] theorem State.consume_subsDone (s : State) (t : Nat) (a : W64) (g : Tags) : (s.consume t a g).subsDone = s.subsDone := by
  unfold State.consume; split <;> rfl
@[simp] theorem State.putLoc_cycle (s : State) (t : Nat) (l : Loc) (r : Reg) : (s.putLoc t l r).cycle = s.cycle := by
  unfold State.putLoc; repeat' (first | rfl | split)
@[simp] theorem State.logWrite_cycle (s : State) (t : Nat) (x : LogOld) : (s.logWrite t x).cycle = s.cycle := by
  unfold State.logWrite; split <;> rfl
@[simp] theorem State.writeLoc_cycle (s : State) (t : Nat) (l : Loc) (x : W32) (p : Bool) (g : Tags) :
    (s.writeLoc t l x p g).cycle = s.cycle := by
  unfold State.writeLoc; split <;> simp
@[simp] theorem State.writeGroup_cycle (s : State) (t : Nat) (mk : Nat → Loc) (n : Nat) (ws : List W32) (p : Bool) (g : Tags) :
    (s.writeGroup t mk n ws p g).cycle = s.cycle :=
  foldl_keeps (fun x : State => x.cycle) _ (by intro s k; simp) _ _
@[simp] theorem State.putLoc_dieOff (s : State) (t : Nat) (l : Loc) (r : Reg) : (s.putLoc t l r).dieOff = s.dieOff := by
  unfold State.putLoc; repeat' (first | rfl | split)
@[simp] theorem State.logWrite_dieOff (s : State) (t : Nat) (x : LogOld) : (s.logWrite t x).dieOff = s.dieOff := by
  unfold State.logWrite; split <;> rfl
@[simp] theorem State.writeLoc_dieOff (s : State) (t : Nat) (l : Loc) (x : W32) (p : Bool) (g : Tags) :
    (s.writeLoc t l x p g).dieOff = s.dieOff := by
  unfold State.writeLoc; split <;> simp
@[simp] theorem State.writeGroup_dieOff (s : State) (t : Nat) (mk : Nat → Loc) (n : Nat) (ws : List W32) (p : Bool) (g : Tags) :
    (s.writeGroup t mk n ws p g).dieOff = s.dieOff :=
  foldl_keeps (fun x : State => x.dieOff) _ (by intro s k; simp) _ _
@[simp] theorem State.putLoc_mem (s : State) (t : Nat) (l : Loc) (r : Reg) : (s.putLoc t l r).mem = s.mem := by
  unfold State.putLoc; repeat' (first | rfl | split)
@[simp] theorem State.logWrite_mem (s : State) (t : Nat) (x : LogOld) : (s.logWrite t x).mem = s.mem := by
  unfold State.logWrite; split <;> rfl
@[simp] theorem State.writeLoc_mem (s : State) (t : Nat) (l : Loc) (x : W32) (p : Bool) (g : Tags) :
    (s.writeLoc t l x p g).mem = s.mem := by
  unfold State.writeLoc; split <;> simp
@[simp] theorem State.writeGroup_mem (s : State) (t : Nat) (mk : Nat → Loc) (n : Nat) (ws : List W32) (p : Bool) (g : Tags) :
    (s.writeGroup t mk n ws p g).mem = s.mem :=
  foldl_keeps (fun x : State => x.mem) _ (by intro s k; simp) _ _
@[simp] theorem State.putLoc_marked (s : State) (t : Nat) (l : Loc) (r : Reg) : (s.putLoc t l r).marked = s.marked := by
  unfold State.putLoc; repeat' (first | rfl | split)
@[simp] theorem State.logWrite_marked (s : State) (t : Nat) (x : LogOld) : (s.logWrite t x).marked = s.marked := by
  unfold State.logWrite; split <;> rfl
@[simp] theorem State.writeLoc_marked (s : State) (t : Nat) (l : Loc) (x : W32) (p : Bool) (g : Tags) :
    (s.writeLoc t l x p g).marked = s.marked := by
  unfold State.writeLoc; split <;> simp
@[simp] theorem State.writeGroup_marked (s : State) (t : Nat) (mk : Nat → Loc) (n : Nat) (ws : List W32) (p : Bool) (g : Tags) :
    (s.writeGroup t mk n ws p g).marked = s.marked :=
  foldl_keeps (fun x : State => x.marked) _ (by intro s k; simp) _ _
@[simp] theorem State.putLoc_blocks (s : State) (t : Nat) (l : Loc) (r : Reg) : (s.putLoc t l r).blocks = s.blocks := by
  unfold State.putLoc; repeat' (first | rfl | split)
@[simp] theorem State.logWrite_blocks (s : State) (t : Nat) (x : LogOld) : (s.logWrite t x).blocks = s.blocks := by
  unfold State.logWrite; split <;> rfl
@[simp] theorem State.writeLoc_blocks (s : State) (t : Nat) (l : Loc) (x : W32) (p : Bool) (g : Tags) :
    (s.writeLoc t l x p g).blocks = s.blocks := by
  unfold State.writeLoc; split <;> simp
@[simp] theorem State.writeGroup_blocks (s : State) (t : Nat) (mk : Nat → Loc) (n : Nat) (ws : List W32) (p : Bool) (g : Tags) :
    (s.writeGroup t mk n ws p g).blocks = s.blocks :=
  foldl_keeps (fun x : State => x.blocks) _ (by intro s k; simp) _ _
@[simp] theorem State.putLoc_cores (s : State) (t : Nat) (l : Loc) (r : Reg) : (s.putLoc t l r).cores = s.cores := by
  unfold State.putLoc; repeat' (first | rfl | split)
@[simp] theorem State.logWrite_cores (s : State) (t : Nat) (x : LogOld) : (s.logWrite t x).cores = s.cores := by
  unfold State.logWrite; split <;> rfl
@[simp] theorem State.writeLoc_cores (s : State) (t : Nat) (l : Loc) (x : W32) (p : Bool) (g : Tags) :
    (s.writeLoc t l x p g).cores = s.cores := by
  unfold State.writeLoc; split <;> simp
@[simp] theorem State.writeGroup_cores (s : State) (t : Nat) (mk : Nat → Loc) (n : Nat) (ws : List W32) (p : Bool) (g : Tags) :
    (s.writeGroup t mk n ws p g).cores = s.cores :=
  foldl_keeps (fun x : State => x.cores) _ (by intro s k; simp) _ _
@[simp] theorem State.putLoc_ctxs (s : State) (t : Nat) (l : Loc) (r : Reg) : (s.putLoc t l r).ctxs = s.ctxs := by
  unfold State.putLoc; repeat' (first | rfl | split)
@[simp] theorem State.logWrite_ctxs (s : State) (t : Nat) (x : LogOld) : (s.logWrite t x).ctxs = s.ctxs := by
  unfold State.logWrite; split <;> rfl
@[simp] theorem State.writeLoc_ctxs (s : State) (t : Nat) (l : Loc) (x : W32) (p : Bool) (g : Tags) :
    (s.writeLoc t l x p g).ctxs = s.ctxs := by
  unfold State.writeLoc; split <;> simp
@[simp] theorem State.writeGroup_ctxs (s : State) (t : Nat) (mk : Nat → Loc) (n : Nat) (ws : List W32) (p : Bool) (g : Tags) :
    (s.writeGroup t mk n ws p g).ctxs = s.ctxs :=
  foldl_keeps (fun x : State => x.ctxs) _ (by intro s k; simp) _ _
@[simp] theorem State.putLoc_nodes (s : State) (t : Nat) (l : Loc) (r : Reg) : (s.putLoc t l r).nodes = s.nodes := by
  unfold State.putLoc; repeat' (first | rfl | split)
@[simp] theorem State.logWrite_nodes (s : State) (t : Nat) (x : LogOld) : (s.logWrite t x).nodes = s.nodes := by
  unfold State.logWrite; split <;> rfl
@[simp] theorem State.writeLoc_nodes (s : State) (t : Nat) (l : Loc) (x : W32) (p : Bool) (g : Tags) :
    (s.writeLoc t l x p g).nodes = s.nodes := by
  unfold State.writeLoc; split <;> simp
@[simp] theorem State.writeGroup_nodes (s : State) (t : Nat) (mk : Nat → Loc) (n : Nat) (ws : List W32) (p : Bool) (g : Tags) :
    (s.writeGroup t mk n ws p g).nodes = s.nodes :=
  foldl_keeps (fun x : State => x.nodes) _ (by intro s k; simp) _ _
@[simp] theorem State.putLoc_copies (s : State) (t : Nat) (l : Loc) (r : Reg) : (s.putLoc t l r).copies = s.copies := by
  unfold State.putLoc; repeat' (first | rfl | split)
@[simp] theorem State.logWrite_copies (s : State) (t : Nat) (x : LogOld) : (s.logWrite t x).copies = s.copies := by
  unfold State.logWrite; split <;> rfl
@[simp] theorem State.writeLoc_copies (s : State) (t : Nat) (l : Loc) (x : W32) (p : Bool) (g : Tags) :
    (s.writeLoc t l x p g).copies = s.copies := by
  unfold State.writeLoc; split <;> simp
@[simp] theorem State.writeGroup_copies (s : State) (t : Nat) (mk : Nat → Loc) (n : Nat) (ws : List W32) (p : Bool) (g : Tags) :
    (s.writeGroup t mk n ws p g).copies = s.copies :=
  foldl_keeps (fun x : State => x.copies) _ (by intro s k; simp) _ _
@[simp] theorem State.putLoc_outbound (s : State) (t : Nat) (l : Loc) (r : Reg) : (s.putLoc t l r).outbound = s.outbound := by
  unfold State.putLoc; repeat' (first | rfl | split)
@[simp] theorem State.logWrite_outbound (s : State) (t : Nat) (x : LogOld) : (s.logWrite t x).outbound = s.outbound := by
  unfold State.logWrite; split <;> rfl
@[simp] theorem State.writeLoc_outbound (s : State) (t : Nat) (l : Loc) (x : W32) (p : Bool) (g : Tags) :
    (s.writeLoc t l x p g).outbound = s.outbound := by
  unfold State.writeLoc; split <;> simp
@[simp] theorem State.writeGroup_outbound (s : State) (t : Nat) (mk : Nat → Loc) (n : Nat) (ws : List W32) (p : Bool) (g : Tags) :
    (s.writeGroup t mk n ws p g).outbound = s.outbound :=
  foldl_keeps (fun x : State => x.outbound) _ (by intro s k; simp) _ _
@[simp] theorem State.putLoc_ports (s : State) (t : Nat) (l : Loc) (r : Reg) : (s.putLoc t l r).ports = s.ports := by
  unfold State.putLoc; repeat' (first | rfl | split)
@[simp] theorem State.logWrite_ports (s : State) (t : Nat) (x : LogOld) : (s.logWrite t x).ports = s.ports := by
  unfold State.logWrite; split <;> rfl
@[simp] theorem State.writeLoc_ports (s : State) (t : Nat) (l : Loc) (x : W32) (p : Bool) (g : Tags) :
    (s.writeLoc t l x p g).ports = s.ports := by
  unfold State.writeLoc; split <;> simp
@[simp] theorem State.writeGroup_ports (s : State) (t : Nat) (mk : Nat → Loc) (n : Nat) (ws : List W32) (p : Bool) (g : Tags) :
    (s.writeGroup t mk n ws p g).ports = s.ports :=
  foldl_keeps (fun x : State => x.ports) _ (by intro s k; simp) _ _
@[simp] theorem State.putLoc_requests (s : State) (t : Nat) (l : Loc) (r : Reg) : (s.putLoc t l r).requests = s.requests := by
  unfold State.putLoc; repeat' (first | rfl | split)
@[simp] theorem State.logWrite_requests (s : State) (t : Nat) (x : LogOld) : (s.logWrite t x).requests = s.requests := by
  unfold State.logWrite; split <;> rfl
@[simp] theorem State.writeLoc_requests (s : State) (t : Nat) (l : Loc) (x : W32) (p : Bool) (g : Tags) :
    (s.writeLoc t l x p g).requests = s.requests := by
  unfold State.writeLoc; split <;> simp
@[simp] theorem State.writeGroup_requests (s : State) (t : Nat) (mk : Nat → Loc) (n : Nat) (ws : List W32) (p : Bool) (g : Tags) :
    (s.writeGroup t mk n ws p g).requests = s.requests :=
  foldl_keeps (fun x : State => x.requests) _ (by intro s k; simp) _ _
@[simp] theorem State.putLoc_groupOps (s : State) (t : Nat) (l : Loc) (r : Reg) : (s.putLoc t l r).groupOps = s.groupOps := by
  unfold State.putLoc; repeat' (first | rfl | split)
@[simp] theorem State.logWrite_groupOps (s : State) (t : Nat) (x : LogOld) : (s.logWrite t x).groupOps = s.groupOps := by
  unfold State.logWrite; split <;> rfl
@[simp] theorem State.writeLoc_groupOps (s : State) (t : Nat) (l : Loc) (x : W32) (p : Bool) (g : Tags) :
    (s.writeLoc t l x p g).groupOps = s.groupOps := by
  unfold State.writeLoc; split <;> simp
@[simp] theorem State.writeGroup_groupOps (s : State) (t : Nat) (mk : Nat → Loc) (n : Nat) (ws : List W32) (p : Bool) (g : Tags) :
    (s.writeGroup t mk n ws p g).groupOps = s.groupOps :=
  foldl_keeps (fun x : State => x.groupOps) _ (by intro s k; simp) _ _
@[simp] theorem State.putLoc_incoming (s : State) (t : Nat) (l : Loc) (r : Reg) : (s.putLoc t l r).incoming = s.incoming := by
  unfold State.putLoc; repeat' (first | rfl | split)
@[simp] theorem State.logWrite_incoming (s : State) (t : Nat) (x : LogOld) : (s.logWrite t x).incoming = s.incoming := by
  unfold State.logWrite; split <;> rfl
@[simp] theorem State.writeLoc_incoming (s : State) (t : Nat) (l : Loc) (x : W32) (p : Bool) (g : Tags) :
    (s.writeLoc t l x p g).incoming = s.incoming := by
  unfold State.writeLoc; split <;> simp
@[simp] theorem State.writeGroup_incoming (s : State) (t : Nat) (mk : Nat → Loc) (n : Nat) (ws : List W32) (p : Bool) (g : Tags) :
    (s.writeGroup t mk n ws p g).incoming = s.incoming :=
  foldl_keeps (fun x : State => x.incoming) _ (by intro s k; simp) _ _
@[simp] theorem State.putLoc_mail (s : State) (t : Nat) (l : Loc) (r : Reg) : (s.putLoc t l r).mail = s.mail := by
  unfold State.putLoc; repeat' (first | rfl | split)
@[simp] theorem State.logWrite_mail (s : State) (t : Nat) (x : LogOld) : (s.logWrite t x).mail = s.mail := by
  unfold State.logWrite; split <;> rfl
@[simp] theorem State.writeLoc_mail (s : State) (t : Nat) (l : Loc) (x : W32) (p : Bool) (g : Tags) :
    (s.writeLoc t l x p g).mail = s.mail := by
  unfold State.writeLoc; split <;> simp
@[simp] theorem State.writeGroup_mail (s : State) (t : Nat) (mk : Nat → Loc) (n : Nat) (ws : List W32) (p : Bool) (g : Tags) :
    (s.writeGroup t mk n ws p g).mail = s.mail :=
  foldl_keeps (fun x : State => x.mail) _ (by intro s k; simp) _ _
@[simp] theorem State.putLoc_helm (s : State) (t : Nat) (l : Loc) (r : Reg) : (s.putLoc t l r).helm = s.helm := by
  unfold State.putLoc; repeat' (first | rfl | split)
@[simp] theorem State.logWrite_helm (s : State) (t : Nat) (x : LogOld) : (s.logWrite t x).helm = s.helm := by
  unfold State.logWrite; split <;> rfl
@[simp] theorem State.writeLoc_helm (s : State) (t : Nat) (l : Loc) (x : W32) (p : Bool) (g : Tags) :
    (s.writeLoc t l x p g).helm = s.helm := by
  unfold State.writeLoc; split <;> simp
@[simp] theorem State.writeGroup_helm (s : State) (t : Nat) (mk : Nat → Loc) (n : Nat) (ws : List W32) (p : Bool) (g : Tags) :
    (s.writeGroup t mk n ws p g).helm = s.helm :=
  foldl_keeps (fun x : State => x.helm) _ (by intro s k; simp) _ _
@[simp] theorem State.putLoc_replies (s : State) (t : Nat) (l : Loc) (r : Reg) : (s.putLoc t l r).replies = s.replies := by
  unfold State.putLoc; repeat' (first | rfl | split)
@[simp] theorem State.logWrite_replies (s : State) (t : Nat) (x : LogOld) : (s.logWrite t x).replies = s.replies := by
  unfold State.logWrite; split <;> rfl
@[simp] theorem State.writeLoc_replies (s : State) (t : Nat) (l : Loc) (x : W32) (p : Bool) (g : Tags) :
    (s.writeLoc t l x p g).replies = s.replies := by
  unfold State.writeLoc; split <;> simp
@[simp] theorem State.writeGroup_replies (s : State) (t : Nat) (mk : Nat → Loc) (n : Nat) (ws : List W32) (p : Bool) (g : Tags) :
    (s.writeGroup t mk n ws p g).replies = s.replies :=
  foldl_keeps (fun x : State => x.replies) _ (by intro s k; simp) _ _
@[simp] theorem State.putLoc_hostData (s : State) (t : Nat) (l : Loc) (r : Reg) : (s.putLoc t l r).hostData = s.hostData := by
  unfold State.putLoc; repeat' (first | rfl | split)
@[simp] theorem State.logWrite_hostData (s : State) (t : Nat) (x : LogOld) : (s.logWrite t x).hostData = s.hostData := by
  unfold State.logWrite; split <;> rfl
@[simp] theorem State.writeLoc_hostData (s : State) (t : Nat) (l : Loc) (x : W32) (p : Bool) (g : Tags) :
    (s.writeLoc t l x p g).hostData = s.hostData := by
  unfold State.writeLoc; split <;> simp
@[simp] theorem State.writeGroup_hostData (s : State) (t : Nat) (mk : Nat → Loc) (n : Nat) (ws : List W32) (p : Bool) (g : Tags) :
    (s.writeGroup t mk n ws p g).hostData = s.hostData :=
  foldl_keeps (fun x : State => x.hostData) _ (by intro s k; simp) _ _
@[simp] theorem State.putLoc_sxval (s : State) (t : Nat) (l : Loc) (r : Reg) : (s.putLoc t l r).sxval = s.sxval := by
  unfold State.putLoc; repeat' (first | rfl | split)
@[simp] theorem State.putLoc_unsent (s : State) (t : Nat) (l : Loc) (r : Reg) : (s.putLoc t l r).unsent = s.unsent := by
  unfold State.putLoc; repeat' (first | rfl | split)
@[simp] theorem State.putLoc_hostWaiting (s : State) (t : Nat) (l : Loc) (r : Reg) : (s.putLoc t l r).hostWaiting = s.hostWaiting := by
  unfold State.putLoc; repeat' (first | rfl | split)
@[simp] theorem State.putLoc_leaves (s : State) (t : Nat) (l : Loc) (r : Reg) : (s.putLoc t l r).leaves = s.leaves := by
  unfold State.putLoc; repeat' (first | rfl | split)
@[simp] theorem State.logWrite_sxval (s : State) (t : Nat) (x : LogOld) : (s.logWrite t x).sxval = s.sxval := by
  unfold State.logWrite; split <;> rfl
@[simp] theorem State.logWrite_unsent (s : State) (t : Nat) (x : LogOld) : (s.logWrite t x).unsent = s.unsent := by
  unfold State.logWrite; split <;> rfl
@[simp] theorem State.logWrite_hostWaiting (s : State) (t : Nat) (x : LogOld) : (s.logWrite t x).hostWaiting = s.hostWaiting := by
  unfold State.logWrite; split <;> rfl
@[simp] theorem State.logWrite_leaves (s : State) (t : Nat) (x : LogOld) : (s.logWrite t x).leaves = s.leaves := by
  unfold State.logWrite; split <;> rfl
@[simp] theorem State.writeLoc_sxval (s : State) (t : Nat) (l : Loc) (x : W32) (p : Bool) (g : Tags) :
    (s.writeLoc t l x p g).sxval = s.sxval := by
  unfold State.writeLoc; split <;> simp
@[simp] theorem State.writeLoc_unsent (s : State) (t : Nat) (l : Loc) (x : W32) (p : Bool) (g : Tags) :
    (s.writeLoc t l x p g).unsent = s.unsent := by
  unfold State.writeLoc; split <;> simp
@[simp] theorem State.writeLoc_hostWaiting (s : State) (t : Nat) (l : Loc) (x : W32) (p : Bool) (g : Tags) :
    (s.writeLoc t l x p g).hostWaiting = s.hostWaiting := by
  unfold State.writeLoc; split <;> simp
@[simp] theorem State.writeLoc_leaves (s : State) (t : Nat) (l : Loc) (x : W32) (p : Bool) (g : Tags) :
    (s.writeLoc t l x p g).leaves = s.leaves := by
  unfold State.writeLoc; split <;> simp
@[simp] theorem State.writeGroup_sxval (s : State) (t : Nat) (mk : Nat → Loc) (n : Nat) (ws : List W32) (p : Bool) (g : Tags) :
    (s.writeGroup t mk n ws p g).sxval = s.sxval :=
  foldl_keeps (fun x : State => x.sxval) _ (by intro s k; simp) _ _
@[simp] theorem State.writeGroup_unsent (s : State) (t : Nat) (mk : Nat → Loc) (n : Nat) (ws : List W32) (p : Bool) (g : Tags) :
    (s.writeGroup t mk n ws p g).unsent = s.unsent :=
  foldl_keeps (fun x : State => x.unsent) _ (by intro s k; simp) _ _
@[simp] theorem State.writeGroup_hostWaiting (s : State) (t : Nat) (mk : Nat → Loc) (n : Nat) (ws : List W32) (p : Bool) (g : Tags) :
    (s.writeGroup t mk n ws p g).hostWaiting = s.hostWaiting :=
  foldl_keeps (fun x : State => x.hostWaiting) _ (by intro s k; simp) _ _
@[simp] theorem State.writeGroup_leaves (s : State) (t : Nat) (mk : Nat → Loc) (n : Nat) (ws : List W32) (p : Bool) (g : Tags) :
    (s.writeGroup t mk n ws p g).leaves = s.leaves :=
  foldl_keeps (fun x : State => x.leaves) _ (by intro s k; simp) _ _
@[simp] theorem State.putLoc_nextUid (s : State) (t : Nat) (l : Loc) (r : Reg) : (s.putLoc t l r).nextUid = s.nextUid := by
  unfold State.putLoc; repeat' (first | rfl | split)
@[simp] theorem State.logWrite_nextUid (s : State) (t : Nat) (x : LogOld) : (s.logWrite t x).nextUid = s.nextUid := by
  unfold State.logWrite; split <;> rfl
@[simp] theorem State.writeLoc_nextUid (s : State) (t : Nat) (l : Loc) (x : W32) (p : Bool) (g : Tags) :
    (s.writeLoc t l x p g).nextUid = s.nextUid := by
  unfold State.writeLoc; split <;> simp
@[simp] theorem State.writeGroup_nextUid (s : State) (t : Nat) (mk : Nat → Loc) (n : Nat) (ws : List W32) (p : Bool) (g : Tags) :
    (s.writeGroup t mk n ws p g).nextUid = s.nextUid :=
  foldl_keeps (fun x : State => x.nextUid) _ (by intro s k; simp) _ _
@[simp] theorem State.putLoc_nextId (s : State) (t : Nat) (l : Loc) (r : Reg) : (s.putLoc t l r).nextId = s.nextId := by
  unfold State.putLoc; repeat' (first | rfl | split)
@[simp] theorem State.logWrite_nextId (s : State) (t : Nat) (x : LogOld) : (s.logWrite t x).nextId = s.nextId := by
  unfold State.logWrite; split <;> rfl
@[simp] theorem State.writeLoc_nextId (s : State) (t : Nat) (l : Loc) (x : W32) (p : Bool) (g : Tags) :
    (s.writeLoc t l x p g).nextId = s.nextId := by
  unfold State.writeLoc; split <;> simp
@[simp] theorem State.writeGroup_nextId (s : State) (t : Nat) (mk : Nat → Loc) (n : Nat) (ws : List W32) (p : Bool) (g : Tags) :
    (s.writeGroup t mk n ws p g).nextId = s.nextId :=
  foldl_keeps (fun x : State => x.nextId) _ (by intro s k; simp) _ _
@[simp] theorem State.putLoc_seq (s : State) (t : Nat) (l : Loc) (r : Reg) : (s.putLoc t l r).seq = s.seq := by
  unfold State.putLoc; repeat' (first | rfl | split)
@[simp] theorem State.logWrite_seq (s : State) (t : Nat) (x : LogOld) : (s.logWrite t x).seq = s.seq := by
  unfold State.logWrite; split <;> rfl
@[simp] theorem State.writeLoc_seq (s : State) (t : Nat) (l : Loc) (x : W32) (p : Bool) (g : Tags) :
    (s.writeLoc t l x p g).seq = s.seq := by
  unfold State.writeLoc; split <;> simp
@[simp] theorem State.writeGroup_seq (s : State) (t : Nat) (mk : Nat → Loc) (n : Nat) (ws : List W32) (p : Bool) (g : Tags) :
    (s.writeGroup t mk n ws p g).seq = s.seq :=
  foldl_keeps (fun x : State => x.seq) _ (by intro s k; simp) _ _
@[simp] theorem State.putLoc_free (s : State) (t : Nat) (l : Loc) (r : Reg) : (s.putLoc t l r).free = s.free := by
  unfold State.putLoc; repeat' (first | rfl | split)
@[simp] theorem State.logWrite_free (s : State) (t : Nat) (x : LogOld) : (s.logWrite t x).free = s.free := by
  unfold State.logWrite; split <;> rfl
@[simp] theorem State.writeLoc_free (s : State) (t : Nat) (l : Loc) (x : W32) (p : Bool) (g : Tags) :
    (s.writeLoc t l x p g).free = s.free := by
  unfold State.writeLoc; split <;> simp
@[simp] theorem State.writeGroup_free (s : State) (t : Nat) (mk : Nat → Loc) (n : Nat) (ws : List W32) (p : Bool) (g : Tags) :
    (s.writeGroup t mk n ws p g).free = s.free :=
  foldl_keeps (fun x : State => x.free) _ (by intro s k; simp) _ _
@[simp] theorem State.putLoc_todo (s : State) (t : Nat) (l : Loc) (r : Reg) : (s.putLoc t l r).todo = s.todo := by
  unfold State.putLoc; repeat' (first | rfl | split)
@[simp] theorem State.logWrite_todo (s : State) (t : Nat) (x : LogOld) : (s.logWrite t x).todo = s.todo := by
  unfold State.logWrite; split <;> rfl
@[simp] theorem State.writeLoc_todo (s : State) (t : Nat) (l : Loc) (x : W32) (p : Bool) (g : Tags) :
    (s.writeLoc t l x p g).todo = s.todo := by
  unfold State.writeLoc; split <;> simp
@[simp] theorem State.writeGroup_todo (s : State) (t : Nat) (mk : Nat → Loc) (n : Nat) (ws : List W32) (p : Bool) (g : Tags) :
    (s.writeGroup t mk n ws p g).todo = s.todo :=
  foldl_keeps (fun x : State => x.todo) _ (by intro s k; simp) _ _
@[simp] theorem State.putLoc_agenda (s : State) (t : Nat) (l : Loc) (r : Reg) : (s.putLoc t l r).agenda = s.agenda := by
  unfold State.putLoc; repeat' (first | rfl | split)
@[simp] theorem State.logWrite_agenda (s : State) (t : Nat) (x : LogOld) : (s.logWrite t x).agenda = s.agenda := by
  unfold State.logWrite; split <;> rfl
@[simp] theorem State.writeLoc_agenda (s : State) (t : Nat) (l : Loc) (x : W32) (p : Bool) (g : Tags) :
    (s.writeLoc t l x p g).agenda = s.agenda := by
  unfold State.writeLoc; split <;> simp
@[simp] theorem State.writeGroup_agenda (s : State) (t : Nat) (mk : Nat → Loc) (n : Nat) (ws : List W32) (p : Bool) (g : Tags) :
    (s.writeGroup t mk n ws p g).agenda = s.agenda :=
  foldl_keeps (fun x : State => x.agenda) _ (by intro s k; simp) _ _
@[simp] theorem State.putLoc_cur (s : State) (t : Nat) (l : Loc) (r : Reg) : (s.putLoc t l r).cur = s.cur := by
  unfold State.putLoc; repeat' (first | rfl | split)
@[simp] theorem State.logWrite_cur (s : State) (t : Nat) (x : LogOld) : (s.logWrite t x).cur = s.cur := by
  unfold State.logWrite; split <;> rfl
@[simp] theorem State.writeLoc_cur (s : State) (t : Nat) (l : Loc) (x : W32) (p : Bool) (g : Tags) :
    (s.writeLoc t l x p g).cur = s.cur := by
  unfold State.writeLoc; split <;> simp
@[simp] theorem State.writeGroup_cur (s : State) (t : Nat) (mk : Nat → Loc) (n : Nat) (ws : List W32) (p : Bool) (g : Tags) :
    (s.writeGroup t mk n ws p g).cur = s.cur :=
  foldl_keeps (fun x : State => x.cur) _ (by intro s k; simp) _ _
@[simp] theorem State.putLoc_seqsDone (s : State) (t : Nat) (l : Loc) (r : Reg) : (s.putLoc t l r).seqsDone = s.seqsDone := by
  unfold State.putLoc; repeat' (first | rfl | split)
@[simp] theorem State.putLoc_subsDone (s : State) (t : Nat) (l : Loc) (r : Reg) : (s.putLoc t l r).subsDone = s.subsDone := by
  unfold State.putLoc; repeat' (first | rfl | split)
@[simp] theorem State.logWrite_seqsDone (s : State) (t : Nat) (x : LogOld) : (s.logWrite t x).seqsDone = s.seqsDone := by
  unfold State.logWrite; split <;> rfl
@[simp] theorem State.logWrite_subsDone (s : State) (t : Nat) (x : LogOld) : (s.logWrite t x).subsDone = s.subsDone := by
  unfold State.logWrite; split <;> rfl
@[simp] theorem State.writeLoc_seqsDone (s : State) (t : Nat) (l : Loc) (x : W32) (p : Bool) (g : Tags) :
    (s.writeLoc t l x p g).seqsDone = s.seqsDone := by
  unfold State.writeLoc; split <;> simp
@[simp] theorem State.writeLoc_subsDone (s : State) (t : Nat) (l : Loc) (x : W32) (p : Bool) (g : Tags) :
    (s.writeLoc t l x p g).subsDone = s.subsDone := by
  unfold State.writeLoc; split <;> simp
@[simp] theorem State.writeGroup_seqsDone (s : State) (t : Nat) (mk : Nat → Loc) (n : Nat) (ws : List W32) (p : Bool) (g : Tags) :
    (s.writeGroup t mk n ws p g).seqsDone = s.seqsDone :=
  foldl_keeps (fun x : State => x.seqsDone) _ (by intro s k; simp) _ _
@[simp] theorem State.writeGroup_subsDone (s : State) (t : Nat) (mk : Nat → Loc) (n : Nat) (ws : List W32) (p : Bool) (g : Tags) :
    (s.writeGroup t mk n ws p g).subsDone = s.subsDone :=
  foldl_keeps (fun x : State => x.subsDone) _ (by intro s k; simp) _ _
@[simp] theorem State.logWrite_threads (s : State) (t : Nat) (x : LogOld) : (s.logWrite t x).threads = s.threads := by
  unfold State.logWrite; split <;> rfl

end Sys2Proof.Machine
end

