-- ==== Sys2Proof/Laws/Issue.lean ====
section
/-! SUPPORT. What an instruction does in the threads of its group: one lemma for a thread that performs it, one for a group thread by
thread, one for a group once. -/

namespace Sys2Proof.Machine

/-! ## Standing and guards -/

theorem State.stands_iff {s : State} {a : W64} {t : Nat} :
    s.stands a t = true ↔
      (s.thread t).exited = false ∧ (s.thread t).pc = a ∧ (s.thread t).wait = .none ∧ (s.thread t).matrixOwed = none := by
  simp [State.stands, and_assoc]

theorem State.guard_of_guarded {s : State} {t : Nat} {f : Fields} {b : Bool} (h : s.guarded t f = some b) :
    s.guard t f = .ok b := by
  unfold State.guarded at h
  split at h
  · cases h
  · rename_i hp
    cases h
    simp [State.guard, hp]

/-! ## Shadows -/

/-- Where no shadow differs, a word that issues once brings no shadow of its group anywhere (R414). -/
theorem State.followAll_of_equal {s : State} {i : Instr} {f : Fields} {a : W64} {ls : List Loc} (ts : List Nat)
    (h : ∀ t ∈ ts, s.shadowed t = false) (s2 : State) : s.followAll i f a ts ls s2 = s2 := by
  unfold State.followAll
  induction ts with
  | nil => rfl
  | cons t ts ih => simpa [h t (by simp)] using ih (fun u hu => h u (by simp [hu]))

/-- A thread that performs an instruction: guard true, nothing to wait for, no difference of its shadow. -/
theorem State.stepThread_ok {i : Instr} {f : Fields} {a : W64} {body : Nat → State → Except Stop State} {s s' : State}
    {t : Nat} (fs : List FaultAt) (hs : s.stands a t = true) (hg : s.guarded t f = some true) (hw : s.issueWaits t i = false)
    (hd : s.shadowed t = false) (hb : body t ((s.pastGuard t a f).advance t a) = .ok s') :
    State.stepThread i f a body (s, fs) t = (s', fs) := by
  obtain ⟨h1, h2, h3, h4⟩ := State.stands_iff.1 hs
  unfold State.pastGuard at hb
  simp only [State.stepThread, h1, h2, h3, h4, State.guard_of_guarded hg, hw, hd]
  simp [hb]

/-- A thread whose guard is false only moves past the word (R61). -/
theorem State.stepThread_false {i : Instr} {f : Fields} {a : W64} {body : Nat → State → Except Stop State} {s : State}
    {t : Nat} (fs : List FaultAt) (hs : s.stands a t = true) (hg : s.guarded t f = some false) (hd : s.shadowed t = false) :
    State.stepThread i f a body (s, fs) t = ((s.pastGuard t a f).advance t a, fs) := by
  obtain ⟨h1, h2, h3, h4⟩ := State.stands_iff.1 hs
  simp only [State.stepThread, h1, h2, h3, h4, State.guard_of_guarded hg, State.pastGuard, hd]
  simp

theorem State.foldl_stepThread {i : Instr} {f : Fields} {a : W64} {body : Nat → State → Except Stop State}
    {part : Nat → State → Option State} (h : ∀ t s s', part t s = some s' → body t s = .ok s') (ts : List Nat) :
    ∀ (s s' : State) (fs : List FaultAt), State.runGroup i f a part ts s = some s' →
      ts.foldl (State.stepThread i f a body) (s, fs) = (s', fs) := by
  induction ts with
  | nil => intro s s' fs hr; simp only [State.runGroup, Option.some.injEq] at hr; simp [hr]
  | cons t ts ih =>
    intro s s' fs hr
    simp only [State.runGroup] at hr
    split at hr
    · cases hr
    · rename_i hs
      simp only [Bool.or_eq_true, Bool.not_eq_true', not_or, Bool.not_eq_false, Bool.not_eq_true] at hs
      obtain ⟨hs, hd⟩ := hs
      split at hr
      · cases hr
      · rename_i hg
        rw [List.foldl_cons, State.stepThread_false fs hs hg hd]
        exact ih _ _ _ hr
      · rename_i hg
        split at hr
        · cases hr
        · rename_i hw
          simp only [Bool.not_eq_true] at hw
          split at hr
          · cases hr
          · rename_i s1 hp
            rw [List.foldl_cons, State.stepThread_ok fs hs hg hw hd (h _ _ _ hp)]
            exact ih _ _ _ hr

/-- A group that performs an instruction thread by thread reaches the state that its parts give. -/
theorem State.threadOp_completes {i : Instr} {f : Fields} {body : Nat → State → Except Stop State}
    {part : Nat → State → Option State} (h : ∀ t s s', part t s = some s' → body t s = .ok s') {s s' : State} {c : Nat}
    {a : W64} {ts : List Nat} (hc : s.cur = some (.group c a ts)) (hr : State.runGroup i f a part ts s = some s') :
    s.threadOp i f body = .next s' := by
  have hf := State.foldl_stepThread (body := body) h ts s s' [] hr
  simp only [State.threadOp, State.group, hc, hf]
  rfl

/-! ## Once for the group -/

theorem State.thread_admit_ne {s : State} {t u : Nat} {a : W64} {f : Fields} (h : u ≠ t) :
    (s.pastGuard t a f).thread u = s.thread u := by
  unfold State.pastGuard State.consume
  split
  · rfl
  · rw [State.thread_modThread, if_neg (by simp [h])]

theorem State.thread_advance_ne {s : State} {t u : Nat} {a : W64} (h : u ≠ t) : (s.advance t a).thread u = s.thread u := by
  unfold State.advance
  rw [State.thread_modThread, if_neg (by simp [h])]

theorem State.guarded_congr {s s' : State} {t : Nat} {f : Fields} (h : s'.thread t = s.thread t) :
    s'.guarded t f = s.guarded t f := by
  simp only [State.guarded, h]

theorem State.guardAll_eq (f : Fields) (a : W64) (ts : List Nat) :
    ∀ (s s0 : State), ts.Nodup → (∀ t ∈ ts, s.thread t = s0.thread t ∧ (s0.guarded t f).isSome) →
      s.guardAll f a ts =
        (s.admitAll a f ts, ts.filter fun t => s0.guarded t f == some true) := by
  unfold State.admitAll
  induction ts with
  | nil => intro s s0 _ _; rfl
  | cons t ts ih =>
    intro s s0 hn hp
    obtain ⟨ht, hs⟩ := hp t (by simp)
    have hg := State.guarded_congr (f := f) ht
    obtain ⟨b, hb⟩ := Option.isSome_iff_exists.1 hs
    have hgo := State.guard_of_guarded (hg.trans hb)
    have hn' := (List.nodup_cons.1 hn)
    have hne : ∀ u ∈ ts, u ≠ t := fun u hu he => hn'.1 (he ▸ hu)
    cases b with
    | true =>
      have key := ih (s.pastGuard t a f) s0 hn'.2 (fun u hu => ⟨(State.thread_admit_ne (hne u hu)).trans (hp u (by simp [hu])).1,
        (hp u (by simp [hu])).2⟩)
      unfold State.pastGuard at key
      simp [State.guardAll, hgo, hg, hb, key, State.pastGuard]
    | false =>
      have key := ih ((s.pastGuard t a f).advance t a) s0 hn'.2 (fun u hu =>
        ⟨(State.thread_advance_ne (hne u hu)).trans ((State.thread_admit_ne (hne u hu)).trans (hp u (by simp [hu])).1),
          (hp u (by simp [hu])).2⟩)
      unfold State.pastGuard at key
      simp [State.guardAll, hgo, hg, hb, key, State.pastGuard]

theorem State.standing_eq {s : State} {a : W64} {ts : List Nat} (h : ∀ t ∈ ts, s.stands a t = true) : s.standing a ts = ts :=
  List.filter_eq_self.2 h

/-- A group that performs an instruction once reaches the state that its part gives. -/
theorem State.onceOp_completes {i : Instr} {f : Fields} {body : Nat → State → Except Stop State}
    {part : Nat → State → Option State} (h : ∀ t s s', part t s = some s' → body t s = .ok s') {s s' : State} {c : Nat}
    {a : W64} {ts : List Nat} (hc : s.cur = some (.group c a ts)) (hr : s.runOnce i f a part ts = some s') :
    s.onceOp i f body = .next s' := by
  unfold State.runOnce at hr
  split at hr
  · cases hr
  · rename_i hp
    simp only [Bool.or_eq_true, Bool.not_eq_true', not_or, Bool.not_eq_false, List.all_eq_true, Bool.and_eq_true,
      decide_eq_false_iff_not, Classical.not_not] at hp
    have hst := State.standing_eq (fun t ht => (hp.1 t ht).1.1)
    have hga := State.guardAll_eq f a ts s s hp.2 (fun t ht => ⟨rfl, (hp.1 t ht).1.2⟩)
    have hsh : ∀ t ∈ ts, s.shadowed t = false := fun t ht => (hp.1 t ht).2
    simp only [State.onceOp, State.group, hc, hst, hga]
    dsimp only at hr
    split at hr
    · rename_i hfil; try rw [hfil]
      cases hr; simp [State.followAll_of_equal ts hsh]
    · rename_i t rest hfil
      try rw [hfil]
      split at hr
      · cases hr
      · rename_i hw
        have ht : t ∈ ts := (List.mem_filter.1 (hfil ▸ List.mem_cons_self : t ∈ _)).1
        simp only [if_neg hw, h _ _ _ hr, hsh t ht]
        simp [State.followAll_of_equal (s := s) (ts.filter (· != t)) (fun u hu => hsh u (List.mem_filter.1 hu).1)]

/-- An instruction whose meaning is performed by its group completes with the parts its threads do. -/
theorem Completes.of_perform {i : Instr} {f : Fields} {body : Nat → State → Except Stop State}
    {part : Nat → State → Option State} (he : ∀ s, exec i s = s.perform i f body)
    (h : ∀ t s s', part t s = some s' → body t s = .ok s') : Completes i f part := by
  intro s s' c a ts hc hr
  rw [he, State.perform]
  split at hr
  · rename_i ho; rw [if_pos ho]; exact State.onceOp_completes h hc hr
  · rename_i ho; rw [if_neg ho]; exact State.threadOp_completes h hc hr

end Sys2Proof.Machine
end

