-- ==== Sys2Proof/Laws/Operands.lean ====
section
/-! SUPPORT. The size of an operand: a source read as n registers holds at most 32 n bits. -/

namespace Sys2Proof.Machine

theorem ofWords_lt (ws : List W32) : ofWords ws < 2 ^ (32 * ws.length) := by
  induction ws with
  | nil => simp [ofWords]
  | cons w ws ih =>
    have hw := w.isLt
    have h : ofWords (w :: ws) = w.toNat + 2 ^ 32 * ofWords ws := rfl
    have hp : 2 ^ (32 * (w :: ws).length) = 2 ^ 32 * 2 ^ (32 * ws.length) := by
      rw [← pow_add]; congr 1; simp; ring
    rw [h, hp]
    have : 2 ^ 32 * (ofWords ws + 1) ≤ 2 ^ 32 * 2 ^ (32 * ws.length) := Nat.mul_le_mul_left _ ih
    omega

theorem ofBytes_lt (bs : List Byte) : ofBytes bs < 2 ^ (8 * bs.length) := by
  induction bs with
  | nil => simp [ofBytes]
  | cons b bs ih =>
    have hb := b.isLt
    have h : ofBytes (b :: bs) = b.toNat + 256 * ofBytes bs := rfl
    have hp : 2 ^ (8 * (b :: bs).length) = 256 * 2 ^ (8 * bs.length) := by
      rw [show (256 : Nat) = 2 ^ 8 by norm_num, ← pow_add]; congr 1; simp; ring
    rw [h, hp]
    have : 256 * (ofBytes bs + 1) ≤ 256 * 2 ^ (8 * bs.length) := Nat.mul_le_mul_left _ ih
    omega

theorem State.readV_lt (s : State) (t first n : Nat) : (s.readV t first n).val < 2 ^ (32 * n) := by
  have h := ofWords_lt (((List.range n).map fun k => ((s.thread t).getV (first + k), s.regPlace t (first + k))).map (·.1.val))
  rw [List.length_map, List.length_map, List.length_range] at h
  exact h

theorem State.readS_lt (s : State) (t first n : Nat) : (s.readS t first n).val < 2 ^ (32 * n) := by
  have h := ofWords_lt (((List.range n).map fun k => ((s.crew (crewOf t)).getS (first + k), 0)).map (·.1.val))
  rw [List.length_map, List.length_map, List.length_range] at h
  exact h

theorem modElem_lt {w x : Nat} (b n a : Bool) (hw : 0 < w) (hx : x < 2 ^ w) : modElem b n a w x < 2 ^ w := by
  obtain ⟨v, rfl⟩ : ∃ v, w = v + 1 := ⟨w - 1, by omega⟩
  have hp : (2 : Nat) ^ (v + 1) = 2 * 2 ^ v := by ring
  have h0 : 0 < (2 : Nat) ^ v := by positivity
  have hm : ∀ y, y % 2 ^ (v + 1) < 2 ^ (v + 1) := fun y => Nat.mod_lt _ (by omega)
  have hh : x % 2 ^ v < 2 ^ v := Nat.mod_lt _ h0
  have hb : (2 ^ (v + 1) - x) % 2 ^ (v + 1) < 2 ^ (v + 1) := hm _
  simp only [modElem, Nat.add_sub_cancel]
  split
  · split
    · exact hm _
    · split
      · exact hb
      · exact hx
  · split <;> split <;> (try split) <;> omega

/-- A sum of n elements of w bits, each in its place, has at most w n bits. -/
theorem packed_lt (w n : Nat) (g : Nat → Nat) (hg : ∀ k, g k < 2 ^ w) :
    (List.range n).foldl (fun acc k => acc + g k * 2 ^ (w * k)) 0 < 2 ^ (w * n) := by
  induction n with
  | zero => simp
  | succ n ih =>
    rw [List.range_succ, List.foldl_append]
    simp only [List.foldl_cons, List.foldl_nil]
    have h1 : (g n + 1) * 2 ^ (w * n) ≤ 2 ^ w * 2 ^ (w * n) := Nat.mul_le_mul_right _ (hg n)
    have h2 : 2 ^ (w * (n + 1)) = 2 ^ w * 2 ^ (w * n) := by rw [← pow_add]; congr 1; ring
    rw [h2]
    have h3 : (g n + 1) * 2 ^ (w * n) = g n * 2 ^ (w * n) + 2 ^ (w * n) := by ring
    omega

theorem applyMods_lt {ty : Ty} {n x : Nat} (neg abs : Bool) (hx : x < 2 ^ (32 * n)) : applyMods ty n neg abs x < 2 ^ (32 * n) := by
  unfold applyMods
  split
  · exact hx
  · have hw : 0 < modWidth ty := by cases ty <;> decide
    refine lt_of_lt_of_le (packed_lt (modWidth ty) (32 * n / modWidth ty) _ fun k =>
      modElem_lt _ _ _ hw (Nat.mod_lt _ (by positivity))) ?_
    exact Nat.pow_le_pow_right (by norm_num) (Nat.mul_div_le _ _)

theorem immVal_lt (ty : Ty) (p : BitVec 20) : immVal ty p < 2 ^ (32 * ty.regs) := by
  have hp := p.isLt
  have h1 := (p.signExtend 32).isLt
  have h2 := (p.signExtend 64).isLt
  have e1 := Nat.mod_lt p.toNat (show 0 < 2 ^ 16 by norm_num)
  have e2 := Nat.mod_lt p.toNat (show 0 < 2 ^ 8 by norm_num)
  have e3 := Nat.mod_lt p.toNat (show 0 < 2 ^ 4 by norm_num)
  cases ty <;> simp only [immVal, Ty.regs, Nat.mul_one] <;> norm_num at * <;> omega

/-- A word of a constant window holds at most 32 bits. -/
theorem State.readWindowWord_lt (s : State) (blk w off : Nat) {o : Opd} (h : s.readWindowWord blk w off = .ok o) :
    o.val < 2 ^ 32 := by
  unfold State.readWindowWord at h
  dsimp only at h
  split at h
  · cases h
  · rename_i pg _
    split at h
    · cases h
    · split at h
      · cases h
        exact (Config.peerWord ..).isLt
      · cases h
        have := ofBytes_lt (s.keptRead pg.pa 4)
        simpa [State.keptRead] using this

theorem State.windowWords_lt (s : State) (blk w off n : Nat) {o : Opd} (h : s.windowWords blk w off n = .ok o) :
    o.val < 2 ^ (32 * n) := by
  induction n generalizing o with
  | zero => cases h; simp
  | succ n ih =>
    unfold State.windowWords at h
    split at h
    · cases h
    · rename_i lo hlo
      split at h
      · cases h
      · rename_i hi hhi
        have hl := ih hlo
        have hh : hi.val < 2 ^ 32 := s.readWindowWord_lt _ _ _ hhi
        cases h
        have h1 : (hi.val + 1) * 2 ^ (32 * n) ≤ 2 ^ 32 * 2 ^ (32 * n) := Nat.mul_le_mul_right _ hh
        rw [show 32 * (n + 1) = 32 + 32 * n by ring, pow_add]
        rw [Nat.add_mul, Nat.one_mul] at h1
        generalize 2 ^ (32 * n) = q at hl h1 ⊢
        exact lt_of_lt_of_le (by show lo.val + hi.val * q < hi.val * q + q; omega) h1

/-- An operand of n words of a constant window holds at most 32 n bits. -/
theorem State.readWindow_lt (s : State) (blk w off n : Nat) {o : Opd} (h : s.readWindow blk w off n = .ok o) :
    o.val < 2 ^ (32 * n) := by
  unfold State.readWindow at h
  split at h
  split at h
  · cases h
  · exact s.windowWords_lt _ _ _ _ h

/-- A source of n registers holds at most 32 n bits. -/
theorem State.readSrc_lt {s : State} {t n : Nat} {ty : Ty} {src : Src} {o : Opd} (hn : 0 < n) (hty : ty.regs ≤ n)
    (h : s.readSrc t n ty src = .ok o) : o.val < 2 ^ (32 * n) := by
  have h1 : 1 < 2 ^ (32 * n) := Nat.one_lt_pow (by omega) (by norm_num)
  unfold State.readSrc at h
  split at h <;> try (cases h; first | exact applyMods_lt _ _ (State.readV_lt ..) | exact applyMods_lt _ _ (State.readS_lt ..))
  · exact State.readWindow_lt _ _ _ _ _ h
  · cases h
    exact lt_of_lt_of_le (immVal_lt ..) (Nat.pow_le_pow_right (by norm_num) (by omega))
  · cases h
    simp only [State.readP]
    split <;> omega
  · cases h
    exact Nat.mod_lt _ (by positivity)
  · cases h
    show 0 < _
    omega

end Sys2Proof.Machine
end

