-- ==== Sys2Proof/Laws/Alu.lean ====
section
/-! SUPPORT. The operations of classes 0 to 2 complete with the value they compute: what a value must agree with, given how large the
operands are. -/

namespace Sys2Proof.Machine

theorem words_congr {n x y : Nat} (h : x % 2 ^ (32 * n) = y % 2 ^ (32 * n)) : words n x = words n y := by
  unfold words
  apply List.map_congr_left
  intro k hk
  have hk := List.mem_range.1 hk
  apply BitVec.eq_of_toNat_eq
  rw [BitVec.toNat_ofNat, BitVec.toNat_ofNat]
  have e : (2 : Nat) ^ (32 * n) = 2 ^ (32 * k) * (2 ^ 32 * 2 ^ (32 * (n - k - 1))) := by
    rw [← pow_add, ← pow_add]; congr 1; omega
  have key : ∀ z : Nat, z / 2 ^ (32 * k) % 2 ^ 32 = z % 2 ^ (32 * n) / 2 ^ (32 * k) % 2 ^ 32 := by
    intro z
    rw [e, Nat.mod_mul_right_div_self, Nat.mod_mul_right_mod]
  rw [key x, key y, h]

/-- Bits of a destination: 32 a register, one a predicate. -/
def dstBits : DstShape → Nat
  | .v n | .s n => 32 * n
  | .p => 1
  | _ => 0

theorem State.writeDst_congr {s : State} {t : Nat} {sh : Shape} {f : Fields} {x y : Nat} {p : Bool} {g : Tags} {a : W64}
    (h : x % 2 ^ dstBits sh.dst = y % 2 ^ dstBits sh.dst) : s.writeDst t sh f x p g a = s.writeDst t sh f y p g a := by
  unfold State.writeDst
  dsimp only
  split
  · rename_i n hd; rw [hd] at h; rw [words_congr h]
  · rename_i n hd; rw [hd] at h; rw [words_congr h]
  · rename_i hd; rw [hd] at h; simp only [dstBits, pow_one] at h; rw [h]
  · rfl

/-- What the sources of a form hold: no more bits than their registers. -/
theorem State.sources_lt {s : State} {t : Nat} {f : Fields} {na nb nx : Nat} {ta tb : Ty} {a b x : Opd}
    (ha : ta.regs ≤ na ∨ na = 0) (hb : tb.regs ≤ nb ∨ nb = 0) (h : s.sources t f na ta nb tb nx = .ok (a, b, x)) :
    a.val < 2 ^ (32 * na) ∧ b.val < 2 ^ (32 * nb) ∧ x.val < 2 ^ (32 * nx) := by
  have hr : ∀ {n : Nat} {ty : Ty} {src : Src} {o : Opd}, ty.regs ≤ n ∨ n = 0 →
      (if n = 0 then Except.ok { val := 0 } else s.readSrc t n ty src) = .ok o → o.val < 2 ^ (32 * n) := by
    intro n ty src o hn h
    split at h
    · cases h; positivity
    · rename_i h0; exact State.readSrc_lt (by omega) (by omega) h
  unfold State.sources at h
  split at h
  · cases h
  · rename_i a' ha'
    split at h
    · cases h
    · rename_i b' hb'
      cases h
      refine ⟨hr ha ha', hr hb hb', ?_⟩
      split
      · positivity
      · exact State.readV_lt ..

/-- An operation of classes 0 to 2 completes with any value that agrees with the one it computes in the bits of its destination. -/
theorem Completes.of_alu {i : Instr} {f : Fields} {g value : Nat → Nat → Nat → Nat}
    (he : ∀ s, exec i s = s.alu i f (formOf i) g)
    (ha : (formOf i).a.valueOf.2.regs ≤ (formOf i).a.valueOf.1 ∨ (formOf i).a.valueOf.1 = 0)
    (hb : (formOf i).b.valueOf.2.regs ≤ (formOf i).b.valueOf.1 ∨ (formOf i).b.valueOf.1 = 0)
    (hv : ∀ a b x, a < 2 ^ (32 * (formOf i).a.valueOf.1) → b < 2 ^ (32 * (formOf i).b.valueOf.1) →
      x < 2 ^ (32 * (formOf i).xcRegs) →
      g a b x % 2 ^ dstBits (formOf i).dst = value a b x % 2 ^ dstBits (formOf i).dst) :
    Completes i f (aluPart i f value) := by
  refine Completes.of_perform he ?_
  intro t s s' hp
  unfold aluPart at hp
  dsimp only at hp ⊢
  split at hp
  · cases hp
  · rename_i a b x hs
    obtain ⟨h1, h2, h3⟩ := State.sources_lt ha hb hs
    try rw [hs]
    cases hp
    try dsimp only
    rw [State.writeDst_congr (hv _ _ _ h1 h2 h3)]

end Sys2Proof.Machine
end

