-- ==== Sys2Proof/Laws/Memory.lean ====
section
/-! SUPPORT. Physical memory: a write is read back, leaves every other byte alone, and keeps the canonical form. -/

namespace Sys2Proof.Machine

/-- Below the bound of a rising memory nothing is listed. -/
theorem memGet_below {lo a : Nat} {m : List Host.Cell} (h : memRising lo m = true) (ha : a < lo) : memGet m a = memDefault a := by
  induction m generalizing lo with
  | nil => rfl
  | cons e r ih =>
    obtain ⟨j, x⟩ := e
    simp only [memRising, Bool.and_eq_true, decide_eq_true_eq] at h
    rw [memGet, if_neg (by omega)]
    exact ih h.2 (by omega)

theorem memRising_mono {lo hi : Nat} {m : List Host.Cell} (h : memRising hi m = true) (hl : lo ≤ hi) : memRising lo m = true := by
  cases m with
  | nil => rfl
  | cons e r =>
    obtain ⟨j, x⟩ := e
    simp only [memRising, Bool.and_eq_true, decide_eq_true_eq] at h ⊢
    exact ⟨⟨by omega, h.1.2⟩, h.2⟩

/-- A write keeps the addresses rising, above the lower of the bound and the address written. -/
theorem memRising_memSet {lo a : Nat} {m : List Host.Cell} (x : Byte) (h : memRising lo m = true) (ha : lo ≤ a) :
    memRising lo (memSet m a x) = true := by
  induction m generalizing lo with
  | nil => by_cases hx : x = memDefault a <;> simp [memSet, memRising, hx, ha]
  | cons e r ih =>
    obtain ⟨j, y⟩ := e
    have h' := h
    simp only [memRising, Bool.and_eq_true, decide_eq_true_eq] at h
    simp only [memSet]
    split
    · split
      · exact h'
      · rename_i hx
        simp only [memRising, Bool.and_eq_true, decide_eq_true_eq]
        exact ⟨⟨ha, by simpa using hx⟩, ⟨by omega, h.1.2⟩, h.2⟩
    · split
      · split
        · exact memRising_mono h.2 (by omega)
        · rename_i hx
          subst a
          simp only [memRising, Bool.and_eq_true, decide_eq_true_eq]
          exact ⟨⟨ha, by simpa using hx⟩, h.2⟩
      · simp only [memRising, Bool.and_eq_true, decide_eq_true_eq]
        exact ⟨⟨by omega, h.1.2⟩, ih h.2 (by omega)⟩

/-- A byte written is read back, and every other byte is as before. -/
theorem memGet_memSet {lo : Nat} {m : List Host.Cell} (h : memRising lo m = true) (a : Nat) (x : Byte) (b : Nat) :
    memGet (memSet m a x) b = if b = a then x else memGet m b := by
  induction m generalizing lo with
  | nil =>
    by_cases hx : x = memDefault a
    · by_cases hb : b = a
      · subst b; simp [memSet, memGet, hx]
      · simp [memSet, memGet, hx, hb]
    · by_cases hb : b = a
      · simp [memSet, memGet, hx, hb]
      · simp [memSet, memGet, hx, hb, Ne.symm hb]
  | cons e r ih =>
    obtain ⟨j, y⟩ := e
    simp only [memRising, Bool.and_eq_true, decide_eq_true_eq] at h
    simp only [memSet]
    split
    · rename_i haj
      split
      · rename_i hx
        split
        · subst b; rw [memGet, if_neg (by omega), memGet_below h.2 (by omega), hx]
        · rfl
      · rw [memGet]
        by_cases hb : b = a
        · simp [hb]
        · rw [if_neg (Ne.symm hb), if_neg hb]
    · split
      · rename_i hj
        subst hj
        split
        · rename_i hx
          split
          · subst b; rw [memGet_below h.2 (by omega), hx]
          · rename_i hb; rw [memGet, if_neg (by omega)]
        · rw [memGet]; by_cases hb : b = a
          · simp [hb]
          · rw [if_neg (Ne.symm hb), if_neg hb, memGet, if_neg (Ne.symm hb)]
      · rw [memGet, ih h.2, memGet]
        by_cases hb : b = a
        · subst b; simp; omega
        · simp [hb]

theorem memRising_memWrite {m : List Host.Cell} (a : Nat) (bs : List Byte) (h : memRising 0 m = true) :
    memRising 0 (memWrite m a bs) = true := by
  induction bs generalizing a m with
  | nil => exact h
  | cons b bs ih => exact ih _ (memRising_memSet b h (Nat.zero_le a))

/-- A write of bytes keeps the canonical form. -/
theorem memWrite_wf {m : List Host.Cell} (a : Nat) (bs : List Byte) (h : Memory.wf m = true) : Memory.wf (memWrite m a bs) = true :=
  memRising_memWrite a bs h

theorem memSet_wf {m : List Host.Cell} (a : Nat) (x : Byte) (h : Memory.wf m = true) : Memory.wf (memSet m a x) = true :=
  memRising_memSet x h (Nat.zero_le a)

/-- Bytes written are read back, and every byte outside them is as before. -/
theorem memGet_memWrite {m : List Host.Cell} (h : Memory.wf m = true) (a : Nat) (bs : List Byte) (b : Nat) :
    memGet (memWrite m a bs) b = if a ≤ b ∧ b < a + bs.length then bs.getD (b - a) 0 else memGet m b := by
  induction bs generalizing a m with
  | nil => rw [memWrite, if_neg (by simp only [List.length_nil]; omega)]
  | cons x bs ih =>
    rw [memWrite, ih (memSet_wf a x h), memGet_memSet h]
    simp only [List.length_cons]
    by_cases h1 : a + 1 ≤ b ∧ b < a + 1 + bs.length
    · have hb : b - a = b - (a + 1) + 1 := by omega
      rw [if_pos h1, if_pos (by omega), hb, List.getD_cons_succ]
    · rw [if_neg h1]
      by_cases h2 : b = a
      · subst b; simp
      · rw [if_neg h2, if_neg (by omega)]

@[simp] theorem leBytes_length (n x : Nat) : (leBytes n x).length = n := by simp [leBytes]

@[simp] theorem memRead_length (m : List Host.Cell) (a n : Nat) : (memRead m a n).length = n := by simp [memRead]

/-- A range written is read back whole. -/
theorem memRead_memWrite {m : List Host.Cell} (h : Memory.wf m = true) (a : Nat) (bs : List Byte) :
    memRead (memWrite m a bs) a bs.length = bs := by
  apply List.ext_getElem (by simp)
  intro k h1 h2
  simp only [memRead, List.getElem_map, List.getElem_range, memGet_memWrite h]
  rw [if_pos (by omega)]
  have : a + k - a = k := by omega
  rw [this, List.getD_eq_getElem?_getD, List.getElem?_eq_getElem h2]
  rfl

/-- Removing entries keeps the canonical form. -/
theorem memRising_filter {lo : Nat} {m : List Host.Cell} (p : Host.Cell → Bool) (h : memRising lo m = true) :
    memRising lo (m.filter p) = true := by
  induction m generalizing lo with
  | nil => rfl
  | cons e r ih =>
    obtain ⟨j, x⟩ := e
    simp only [memRising, Bool.and_eq_true, decide_eq_true_eq] at h
    simp only [List.filter_cons]
    split
    · simp only [memRising, Bool.and_eq_true, decide_eq_true_eq]
      exact ⟨h.1, ih h.2⟩
    · exact memRising_mono (ih h.2) (by omega)

theorem filter_wf {m : List Host.Cell} (p : Host.Cell → Bool) (h : Memory.wf m = true) : Memory.wf (m.filter p) = true :=
  memRising_filter p h

end Sys2Proof.Machine
end

