-- ==== Sys2Proof/Laws/Home.lean ====
section
/-! SUPPORT. The operations that write memory at the home slices keep its canonical form: what an agent of a die writes, what leaves an
outbound path, and what the helm writes into its rings. -/

namespace Sys2Proof.Machine

theorem State.memOk_of_mem {s s' : State} (h : s'.mem = s.mem) (hs : s.memOk) : s'.memOk := by
  unfold State.memOk at hs ⊢; rw [h]; exact hs

theorem State.helmTouch_mem (s : State) (pa n : Nat) : (s.helmTouch pa n).mem = s.mem := by
  unfold State.helmTouch; split <;> rfl

theorem State.writeHome_mem (s : State) (pa : Nat) (bs : List Byte) (cl mk : List Nat) : (s.writeHome pa bs cl mk).mem =
    memWrite s.mem pa (s.keptBytes pa bs) := by
  unfold State.writeHome; dsimp only; split <;> rfl

theorem State.writeHome_memOk {s : State} (pa : Nat) (bs : List Byte) (cl mk : List Nat) (h : s.memOk) : (s.writeHome pa bs cl mk).memOk := by
  unfold State.memOk at h ⊢; rw [State.writeHome_mem]; exact memWrite_wf _ _ h

theorem State.landWrite_memOk {s : State} (w : OutWrite) (h : s.memOk) : (s.landWrite w).memOk := by
  unfold State.landWrite; split <;> exact State.writeHome_memOk _ _ _ _ h

theorem State.performOut_mem (s : State) (die : Nat) (w : OutWrite) : (s.performOut die w).mem = (s.landWrite w).mem := rfl

theorem State.performOut_memOk {s : State} (die : Nat) (w : OutWrite) (h : s.memOk) : (s.performOut die w).memOk :=
  State.memOk_of_mem (State.performOut_mem s die w) (State.landWrite_memOk w h)

/-- A fold whose every part keeps the form keeps it. -/
theorem foldl_memOk {α : Type} (f : State → α → State) (h : ∀ s a, s.memOk → (f s a).memOk) (l : List α) (s : State) (hs : s.memOk) :
    (l.foldl f s).memOk := by
  induction l generalizing s with
  | nil => exact hs
  | cons a l ih => exact ih _ (h s a hs)

theorem State.flush_memOk {s : State} (die pa n : Nat) (h : s.memOk) : (s.flush die pa n).memOk := by
  unfold State.flush; dsimp only
  split
  · exact h
  · exact foldl_memOk _ (fun _ w hs => State.performOut_memOk die w hs) _ _ (State.memOk_of_mem rfl h)

theorem State.storeHome_memOk {s : State} (die : Nat) (ts : List Nat) (pa : Nat) (bs : List Byte) (cl mk : List Nat) (half : Option Bool)
    (core : Option Nat) (h : s.memOk) : (s.storeHome die ts pa bs cl mk half core).memOk := by
  unfold State.storeHome; dsimp only
  have h1 : ∀ (l : List Nat) (s : State) (k : Nat × PendKind), s.memOk →
      (l.foldl (fun s t => s.modThread t fun th => { th with pend := th.pend ++ [k] }) s).memOk := fun l s k hs =>
    foldl_memOk _ (fun s t hs => State.memOk_of_mem (State.modThread_mem ..) hs) l s hs
  split
  · exact State.landWrite_memOk _ (h1 _ _ _ (State.memOk_of_mem rfl h))
  · exact State.memOk_of_mem rfl (h1 ts _ _ (State.memOk_of_mem rfl h))

theorem State.pushReport_memOk {s : State} (c : BitVec 16) (bs : List Byte) (h : s.memOk) : (s.pushReport c bs).memOk := by
  unfold State.memOk at h ⊢
  unfold State.pushReport
  simp only [State.addTodo_mem, State.helmTouch_mem, State.modHelm_mem]
  exact memWrite_wf _ _ (memWrite_wf _ _ h)

theorem State.reportLost_memOk {s : State} (c : BitVec 16) (h : s.memOk) : (s.reportLost c).memOk := by
  unfold State.reportLost; dsimp only
  split
  · exact State.memOk_of_mem (State.modCtx_mem ..) (State.pushReport_memOk _ _ h)
  · exact h

theorem State.report_memOk {s : State} (c : BitVec 16) (r : Report) (h : s.memOk) : (s.report c r).memOk := by
  unfold State.report; dsimp only
  split
  · exact h
  · split
    · exact State.memOk_of_mem (State.modHelm_mem ..) h
    · split
      · exact h
      · split
        · exact State.pushReport_memOk _ _ (State.reportLost_memOk _ h)
        · exact State.memOk_of_mem (State.modCtx_mem ..) (State.reportLost_memOk _ h)

theorem State.drainOut_memOk {s : State} (die : Nat) (h : s.memOk) : (s.drainOut die).memOk :=
  foldl_memOk _ (fun _ w hs => State.performOut_memOk die w hs) _ _ (State.memOk_of_mem rfl h)

theorem State.helmWrite_memOk {s : State} (pa : Nat) (bs : List Byte) (h : s.memOk) : (s.helmWrite pa bs).memOk :=
  State.writeHome_memOk _ _ _ _ (State.flush_memOk _ _ _ (State.memOk_of_mem (State.helmTouch_mem ..) h))

theorem State.complete_memOk {s : State} (a n task seq status : Nat) (h : s.memOk) : (s.complete a n task seq status).memOk := by
  unfold State.complete; dsimp only
  split
  · exact State.memOk_of_mem (State.modHelm_mem ..) h
  · exact h
  · exact State.memOk_of_mem (State.modHelm_mem ..) (State.helmWrite_memOk _ _ h)

theorem memOk_ite {c : Prop} [Decidable c] {s s' : State} (h : s.memOk) (h' : s'.memOk) : (if c then s else s').memOk := by
  split
  · exact h
  · exact h'

theorem State.errorRecord_memOk {s : State} (e : ErrRec) (h : s.memOk) : (s.errorRecord e).memOk := by
  unfold State.errorRecord
  refine memOk_ite h (memOk_ite h ?_)
  unfold State.memOk at h ⊢
  simp only [State.addTodo_mem, State.helmTouch_mem, State.modHelm_mem]
  exact memWrite_wf _ _ h

theorem State.traceContents_mem (s : State) (cls : Nat) (ctx : BitVec 16) : (s.traceContents cls ctx).2.mem = s.mem := rfl

theorem State.traceRecord_memOk {s : State} (cls : Nat) (ctx : BitVec 16) (h : s.memOk) : (s.traceRecord cls ctx).memOk := by
  have h1 : (s.traceContents cls ctx).2.memOk := State.memOk_of_mem (State.traceContents_mem ..) h
  unfold State.traceRecord
  generalize s.traceContents cls ctx = r at h1
  dsimp only
  split
  · exact h1
  · unfold State.memOk at h1 ⊢
    simp only [State.addTodo_mem, State.helmTouch_mem, State.modHelm_mem]
    exact memWrite_wf _ _ h1

theorem State.traced_memOk {s : State} (h : s.memOk) : s.traced.memOk := by
  unfold State.traced
  refine foldl_memOk _ (fun s cls hs => ?_) _ _ h
  dsimp only
  split
  · split
    · exact State.traceRecord_memOk _ _ (State.memOk_of_mem rfl hs)
    · exact State.memOk_of_mem rfl hs
  · exact hs

theorem State.restarted_memOk {s : State} (cold : Bool) (h : s.memOk) : (s.restarted cold).memOk := filter_wf _ h

end Sys2Proof.Machine
end

