-- ==== Sys2Proof/Laws/Int.lean ====
section
/-! SUPPORT. The integer functions of class 0 as operations on bit vectors (R139 to R149). -/

namespace Sys2Proof.Machine

theorem toSigned_eq (w x : Nat) (hw : 0 < w) : toSigned w x = (BitVec.ofNat w x).toInt := by
  obtain ⟨v, rfl⟩ : ∃ v, w = v + 1 := ⟨w - 1, by omega⟩
  have hp : (2 : Nat) ^ (v + 1) = 2 * 2 ^ v := by ring
  simp only [toSigned, BitVec.toInt_eq_toNat_cond, BitVec.toNat_ofNat, Nat.add_sub_cancel]
  split <;> split <;> first | rfl | (exfalso; omega)

theorem ofSigned_eq (w : Nat) (x : Int) : ofSigned w x = (BitVec.ofInt w x).toNat := by
  simp [ofSigned, BitVec.toNat_ofInt]

theorem clamp_eq {x lo hi : Int} (h : lo ≤ hi) : clamp x lo hi = max lo (min hi x) := by
  unfold clamp; split
  · omega
  · split <;> omega

theorem intOf_b32 (x : Nat) : intOf .b32 x = ((BitVec.ofNat 32 x).toNat : Int) := by simp [intOf]
theorem intOf_s32 (x : Nat) : intOf .s32 x = (BitVec.ofNat 32 x).toInt := toSigned_eq 32 x (by norm_num)
theorem intOf_u64 (x : Nat) : intOf .u64 x = ((BitVec.ofNat 64 x).toNat : Int) := by simp [intOf]
theorem intOf_s64 (x : Nat) : intOf .s64 x = (BitVec.ofNat 64 x).toInt := toSigned_eq 64 x (by norm_num)

/-- `shl` (R144). -/
theorem shlBits_eq {w a : Nat} (n : Nat) : shlBits w a n = (BitVec.ofNat w a <<< n).toNat := by
  simp only [shlBits, BitVec.toNat_shiftLeft, BitVec.toNat_ofNat, Nat.shiftLeft_eq]
  split
  · rename_i h
    obtain ⟨k, rfl⟩ := Nat.exists_eq_add_of_le h
    rw [pow_add]
    simp [← mul_assoc, Nat.mul_mod]
  · rw [Nat.mod_mul_mod]

/-- `shr` (R144). -/
theorem shrBits_eq {w a : Nat} (n : Nat) : shrBits w a n = (BitVec.ofNat w a >>> n).toNat := by
  simp only [shrBits, BitVec.toNat_ushiftRight, BitVec.toNat_ofNat, Nat.shiftRight_eq_div_pow]
  split
  · rename_i h
    rw [Nat.div_eq_of_lt]
    exact lt_of_lt_of_le (Nat.mod_lt _ (by positivity)) (Nat.pow_le_pow_right (by norm_num) h)
  · rfl

/-- `sar` (R144). -/
theorem sarBits_eq {w a : Nat} (n : Nat) (hw : 0 < w) : sarBits w a n = ((BitVec.ofNat w a).sshiftRight n).toNat := by
  have key : toSigned w a / ((2 ^ min n w : Nat) : Int) = toSigned w a / ((2 ^ n : Nat) : Int) := by
    rcases Nat.le_total n w with h | h
    · rw [min_eq_left h]
    · rw [min_eq_right h, toSigned_eq w a hw]
      have h1 := BitVec.toInt_lt (x := BitVec.ofNat w a)
      have h2 := BitVec.le_toInt (x := BitVec.ofNat w a)
      have h3 : ((2 ^ (w - 1) : Nat) : Int) ≤ ((2 ^ w : Nat) : Int) := by
        exact_mod_cast Nat.pow_le_pow_right (by norm_num) (by omega)
      have h4 : ((2 ^ w : Nat) : Int) ≤ ((2 ^ n : Nat) : Int) := by exact_mod_cast Nat.pow_le_pow_right (by norm_num) h
      have h5 : (0 : Int) < ((2 ^ w : Nat) : Int) := by positivity
      push_cast at *
      rcases lt_or_ge (BitVec.ofNat w a).toInt 0 with h6 | h6
      · have e1 : (BitVec.ofNat w a).toInt / 2 ^ w = -1 := by
          rw [Int.ediv_eq_iff_of_pos h5]; constructor <;> linarith
        have e2 : (BitVec.ofNat w a).toInt / 2 ^ n = -1 := by
          rw [Int.ediv_eq_iff_of_pos (by linarith)]; constructor <;> linarith
        rw [e1, e2]
      · rw [Int.ediv_eq_zero_of_lt h6 (by linarith), Int.ediv_eq_zero_of_lt h6 (by linarith)]
  rw [sarBits, key, ofSigned_eq, toSigned_eq w a hw]
  congr 1
  rw [BitVec.sshiftRight, Int.shiftRight_eq_div_pow]

/-- `rot` (R144). -/
theorem rotBits_eq {w a : Nat} (n : Nat) (ha : a < 2 ^ w) : rotBits w a n = ((BitVec.ofNat w a).rotateLeft n).toNat := by
  rcases Nat.eq_zero_or_pos w with h0 | h0
  · subst h0; simp [rotBits, Nat.mod_one]
  have hk : n % w < w := Nat.mod_lt _ h0
  have e1 : (2 : Nat) ^ (n % w) * 2 ^ (w - n % w) = 2 ^ w := by rw [← pow_add]; congr 1; omega
  have e2 : a / 2 ^ (w - n % w) < 2 ^ (n % w) := by
    rw [Nat.div_lt_iff_lt_mul (by positivity), e1]; exact ha
  have e3 : a * 2 ^ (n % w) % 2 ^ w = a % 2 ^ (w - n % w) * 2 ^ (n % w) := by
    rw [← e1, mul_comm (2 ^ (n % w)) (2 ^ (w - n % w)), Nat.mul_mod_mul_right]
  have e4 : a % 2 ^ (w - n % w) * 2 ^ (n % w) + a / 2 ^ (w - n % w) < 2 ^ w := by
    have h5 : a % 2 ^ (w - n % w) < 2 ^ (w - n % w) := Nat.mod_lt _ (by positivity)
    have h6 : (a % 2 ^ (w - n % w) + 1) * 2 ^ (n % w) ≤ 2 ^ (w - n % w) * 2 ^ (n % w) := Nat.mul_le_mul_right _ h5
    have h7 : 2 ^ (w - n % w) * 2 ^ (n % w) = 2 ^ w := by rw [mul_comm, e1]
    have h8 : (a % 2 ^ (w - n % w) + 1) * 2 ^ (n % w) = a % 2 ^ (w - n % w) * 2 ^ (n % w) + 2 ^ (n % w) := by ring
    omega
  simp only [rotBits, BitVec.toNat_rotateLeft, BitVec.toNat_ofNat, Nat.mod_eq_of_lt ha, Nat.shiftLeft_eq,
    Nat.shiftRight_eq_div_pow]
  rw [Nat.add_mod, e3, Nat.mod_eq_of_lt (lt_of_lt_of_le e2 (Nat.pow_le_pow_right (by norm_num) hk.le)),
    Nat.mod_eq_of_lt e4, mul_comm, ← Nat.two_pow_add_eq_or_of_lt e2]

/-- Two words side by side. -/
theorem append_toNat (hi lo : Nat) (h1 : hi < 2 ^ 32) (h2 : lo < 2 ^ 32) :
    (BitVec.ofNat 32 hi ++ BitVec.ofNat 32 lo).toNat = hi * 2 ^ 32 + lo := by
  rw [BitVec.toNat_append, BitVec.toNat_ofNat, BitVec.toNat_ofNat, Nat.mod_eq_of_lt h1, Nat.mod_eq_of_lt h2,
    ← Nat.shiftLeft_add_eq_or_of_lt h2, Nat.shiftLeft_eq]

/-- `shf.r` (R145). -/
theorem funnel_right {hi lo : Nat} (n : Nat) (h1 : hi < 2 ^ 32) (h2 : lo < 2 ^ 32) :
    funnel true hi n lo = (((BitVec.ofNat 32 hi ++ BitVec.ofNat 32 lo) >>> min n 32).extractLsb' 0 32).toNat := by
  simp only [funnel, if_true, BitVec.extractLsb'_toNat, BitVec.toNat_ushiftRight, append_toNat hi lo h1 h2,
    Nat.shiftRight_eq_div_pow, pow_zero, Nat.div_one]

/-- `shf.l` (R145). -/
theorem funnel_left {hi lo : Nat} (n : Nat) (h1 : hi < 2 ^ 32) (h2 : lo < 2 ^ 32) :
    funnel false hi n lo = (((BitVec.ofNat 32 hi ++ BitVec.ofNat 32 lo) <<< min n 32).extractLsb' 32 32).toNat := by
  have e : (2 : Nat) ^ 64 = 2 ^ 32 * 2 ^ 32 := by norm_num
  simp only [funnel, Bool.false_eq_true, if_false, BitVec.extractLsb'_toNat, BitVec.toNat_shiftLeft,
    append_toNat hi lo h1 h2, Nat.shiftLeft_eq, Nat.shiftRight_eq_div_pow]
  rw [show 32 + 32 = 64 from rfl, e, Nat.mod_mul_right_div_self, Nat.mod_mod]

/-- `bfe.b32` (R146). -/
theorem bitExtract_b32 (a b : Nat) (ha : a < 2 ^ 32) :
    bitExtract .b32 a b = (((((BitVec.ofNat 32 a).setWidth 64) >>> min (b % 256) 32).setWidth (min (b / 256 % 256) 32)).setWidth
      32).toNat := by
  have hl : 2 ^ min (b / 256 % 256) 32 ≤ 2 ^ 32 := Nat.pow_le_pow_right (by norm_num) (min_le_right _ _)
  unfold bitExtract fieldOf
  dsimp only
  rw [if_neg (by simp), intOf_b32]
  simp only [BitVec.toNat_setWidth, BitVec.toNat_ushiftRight, BitVec.toNat_ofNat, Nat.mod_eq_of_lt ha,
    Nat.shiftRight_eq_div_pow, Nat.mod_eq_of_lt (show a < 2 ^ 64 by omega)]
  norm_cast

/-- A field of a sign-extended word, as a number. -/
theorem signed_field (x : W32) {pos len : Nat} (hp : pos ≤ 32) (hl : len ≤ 32) :
    (x.toInt / (2 ^ pos : Nat) % (2 ^ len : Nat)).toNat = (((x.signExtend 64) >>> pos).setWidth len).toNat := by
  have e64 : ((x.signExtend 64).toNat : Int) = x.toInt % (2 ^ 64 : Nat) := by
    rw [BitVec.signExtend, BitVec.toNat_ofInt, Int.toNat_of_nonneg (Int.emod_nonneg _ (by norm_num))]
  have hd : ((2 ^ 64 : Nat) : Int) = (2 ^ pos : Nat) * ((2 ^ len : Nat) * (2 ^ (64 - pos - len) : Nat)) := by
    norm_cast; rw [← pow_add, ← pow_add]; congr 1; omega
  have key : x.toInt / (2 ^ pos : Nat) % (2 ^ len : Nat) =
      (x.toInt % (2 ^ 64 : Nat)) / (2 ^ pos : Nat) % (2 ^ len : Nat) := by
    have h3 : x.toInt = x.toInt % (2 ^ 64 : Nat) +
        (2 ^ pos : Nat) * ((2 ^ len : Nat) * (2 ^ (64 - pos - len) : Nat) * (x.toInt / (2 ^ 64 : Nat))) := by
      have h4 := Int.emod_add_mul_ediv x.toInt ((2 ^ 64 : Nat) : Int)
      have h5 : ((2 ^ 64 : Nat) : Int) * (x.toInt / ((2 ^ 64 : Nat) : Int)) =
          (2 ^ pos : Nat) * ((2 ^ len : Nat) * (2 ^ (64 - pos - len) : Nat) * (x.toInt / (2 ^ 64 : Nat))) := by
        generalize x.toInt / ((2 ^ 64 : Nat) : Int) = q
        rw [hd]
        ring
      linarith
    conv_lhs => rw [h3]
    rw [Int.add_mul_ediv_left _ _ (by positivity), mul_assoc, Int.add_mul_emod_self_left]
  rw [key, ← e64, BitVec.toNat_setWidth, BitVec.toNat_ushiftRight, Nat.shiftRight_eq_div_pow]
  norm_cast

/-- `bfe.s32` (R146). -/
theorem bitExtract_s32 (a b : Nat) :
    bitExtract .s32 a b = (((((BitVec.ofNat 32 a).signExtend 64) >>> min (b % 256) 32).setWidth (min (b / 256 % 256) 32)).signExtend
      32).toNat := by
  unfold bitExtract fieldOf
  dsimp only
  rw [intOf_s32, signed_field _ (min_le_right _ _) (min_le_right _ _)]
  generalize (((BitVec.ofNat 32 a).signExtend 64) >>> min (b % 256) 32).setWidth (min (b / 256 % 256) 32) = z
  rw [BitVec.signExtend, ← ofSigned_eq, BitVec.toInt_eq_toNat_cond]
  have hz := z.isLt
  have hl : min (b / 256 % 256) 32 ≤ 32 := min_le_right _ _
  generalize min (b / 256 % 256) 32 = len at *
  have h32 : (2 : Nat) ^ len ≤ 2 ^ 32 := Nat.pow_le_pow_right (by norm_num) hl
  have h2 : 0 < len → (2 : Nat) ^ len = 2 * 2 ^ (len - 1) := by
    intro h; obtain ⟨k, rfl⟩ : ∃ k, len = k + 1 := ⟨len - 1, by omega⟩; simp; ring
  by_cases h0 : 0 < len
  · have h3 := h2 h0
    by_cases hy : 2 ^ (len - 1) ≤ z.toNat
    · rw [if_pos (by simp [h0, hy]), if_neg (by omega)]
    · rw [if_neg (by simp [hy]), if_pos (by omega)]
      simp only [ofSigned]; norm_cast
  · rw [if_neg (by simp [h0]), if_pos (by
      obtain rfl : len = 0 := by omega
      simp at hz ⊢; exact hz)]
    simp only [ofSigned]; norm_cast

/-- A number put together from bits. -/
theorem testBit_sum_bits (w : Nat) (bit : Nat → Bool) (j : Nat) :
    ((List.range w).map fun k => if bit k then 2 ^ k else 0).sum.testBit j = (decide (j < w) && bit j) := by
  have hlt : ∀ w, ((List.range w).map fun k => if bit k then 2 ^ k else 0).sum < 2 ^ w := by
    intro w
    induction w with
    | zero => simp
    | succ w ih => rw [List.range_succ, List.map_append, List.sum_append, pow_succ]; simp; split <;> omega
  induction w with
  | zero => simp
  | succ w ih =>
    rw [List.range_succ, List.map_append, List.sum_append]
    simp only [List.map_cons, List.map_nil, List.sum_cons, List.sum_nil, Nat.add_zero]
    have hw := hlt w
    split
    · rename_i hb
      rw [add_comm]
      rcases Nat.lt_trichotomy j w with h | h | h
      · rw [Nat.testBit_two_pow_add_gt h, ih]; simp [h, Nat.lt_succ_of_lt h]
      · subst h; rw [Nat.testBit_two_pow_add_eq, Nat.testBit_lt_two_pow hw]; simp [hb]
      · rw [Nat.testBit_lt_two_pow]
        · simp [show ¬j < w + 1 by omega]
        · have h1 : 2 ^ (w + 1) ≤ 2 ^ j := Nat.pow_le_pow_right (by norm_num) h
          rw [pow_succ] at h1; omega
    · rename_i hb
      rw [Nat.add_zero, ih]
      rcases Nat.lt_trichotomy j w with h | h | h
      · simp [h, Nat.lt_succ_of_lt h]
      · subst h; simp [hb]
      · simp [show ¬j < w by omega, show ¬j < w + 1 by omega]

/-- `bfi` (R147), bit by bit. -/
theorem bitInsert_eq (a b base : Nat) (hb : base < 2 ^ 32) :
    bitInsert a b base = ((List.range 32).map fun k =>
      if (if min (b % 256) 32 ≤ k ∧ k < min (b % 256) 32 + min (b / 256 % 256) 32 then a.testBit (k - min (b % 256) 32)
        else base.testBit k) then 2 ^ k else 0).sum := by
  apply Nat.eq_of_testBit_eq
  intro j
  rw [testBit_sum_bits]
  unfold bitInsert fieldOf
  dsimp only
  generalize min (b % 256) 32 = pos
  generalize min (b / 256 % 256) 32 = len
  have hm : ((2 ^ len - 1) * 2 ^ pos % 2 ^ 32).testBit j = decide (j < 32 ∧ pos ≤ j ∧ j < pos + len) := by
    rw [Nat.testBit_mod_two_pow, Nat.testBit_mul_two_pow, Nat.testBit_two_pow_sub_one]
    by_cases h1 : j < 32 <;> by_cases h2 : pos ≤ j <;> by_cases h3 : j < pos + len <;> simp [h1, h2, h3] <;> omega
  have hm' : (2 ^ 32 - 1 - (2 ^ len - 1) * 2 ^ pos % 2 ^ 32).testBit j = decide (j < 32 ∧ ¬(pos ≤ j ∧ j < pos + len)) := by
    have h := Nat.mod_lt ((2 ^ len - 1) * 2 ^ pos) (show 0 < 2 ^ 32 by norm_num)
    rw [Nat.sub_sub, add_comm 1, Nat.testBit_two_pow_sub_succ h, hm]
    by_cases h1 : j < 32 <;> by_cases h2 : pos ≤ j <;> by_cases h3 : j < pos + len <;> simp [h1, h2, h3]
  rw [Nat.testBit_or, Nat.testBit_and, Nat.testBit_and, hm, hm', Nat.testBit_mod_two_pow, Nat.testBit_mul_two_pow]
  by_cases h1 : j < 32
  · by_cases h2 : pos ≤ j ∧ j < pos + len
    · simp [h1, h2]
    · simp [h1, h2]
  · have : base.testBit j = false := Nat.testBit_lt_two_pow (lt_of_lt_of_le hb (Nat.pow_le_pow_right (by norm_num) (by omega)))
    simp [h1]

/-- The length of the longest initial run of a property that holds below m and stops there. -/
theorem length_takeWhile_range {w m : Nat} {q : Nat → Bool} (hm : m ≤ w) (h1 : ∀ k < m, q k = true)
    (h2 : m = w ∨ q m = false) : ((List.range w).takeWhile q).length = m := by
  obtain ⟨d, rfl⟩ := Nat.exists_eq_add_of_le hm
  rw [List.range_add, List.takeWhile_append_of_pos (by intro a ha; exact h1 a (List.mem_range.1 ha))]
  cases d with
  | zero => simp
  | succ d =>
    have h3 : q m = false := by rcases h2 with h | h; omega; exact h
    rw [List.range_succ_eq_map]
    simp [h3]

/-- The number of positions below w that satisfy a property that holds exactly below m. -/
theorem length_filter_range_lt {w m : Nat} {q : Nat → Bool} (hm : m ≤ w) (h : ∀ k < w, q k = decide (k < m)) :
    ((List.range w).filter q).length = m := by
  rw [List.filter_congr (q := fun k => decide (k < m)) (by intro k hk; exact h k (List.mem_range.1 hk))]
  obtain ⟨d, rfl⟩ := Nat.exists_eq_add_of_le hm
  rw [List.range_add, List.filter_append, List.length_append, List.filter_eq_self.2 (by intro k hk; simpa using hk),
    List.filter_eq_nil_iff.2 (by simp)]
  simp

theorem length_filter_range_ge {w m : Nat} {q : Nat → Bool} (hm : m ≤ w) (h : ∀ k < w, q k = decide (m ≤ k)) :
    ((List.range w).filter q).length = w - m := by
  rw [List.filter_congr (q := fun k => decide (m ≤ k)) (by intro k hk; exact h k (List.mem_range.1 hk))]
  obtain ⟨d, rfl⟩ := Nat.exists_eq_add_of_le hm
  rw [List.range_add, List.filter_append, List.length_append,
    List.filter_eq_nil_iff.2 (by intro k hk; simpa using hk), List.filter_eq_self.2 (by simp)]
  simp

/-- `clz` (R148). -/
theorem leadZeros_eq (w a : Nat) (ha : a < 2 ^ w) : leadZeros w a = ((List.range w).filter fun k => decide (a < 2 ^ k)).length := by
  have hs : Nat.size a ≤ w := Nat.size_le.2 ha
  rw [length_filter_range_ge hs (by intro k _; simp [Nat.size_le]), leadZeros,
    length_takeWhile_range (m := w - Nat.size a) (by omega)]
  · intro k hk
    simp only [Bool.not_eq_true']
    exact Nat.testBit_lt_two_pow (Nat.size_le.1 (by omega))
  · rcases Nat.eq_zero_or_pos (Nat.size a) with h | h
    · left; omega
    · right
      simp only [Bool.not_eq_false']
      rw [show w - 1 - (w - Nat.size a) = Nat.size a - 1 by omega]
      have h1 : 2 ^ (Nat.size a - 1) ≤ a := Nat.lt_size.1 (by omega)
      have h2 : a < 2 ^ (Nat.size a - 1 + 1) := by
        rw [Nat.sub_add_cancel h]; exact Nat.lt_size_self a
      rw [Nat.testBit_eq_decide_div_mod_eq, decide_eq_true_eq]
      have : a / 2 ^ (Nat.size a - 1) = 1 := Nat.div_eq_of_lt_le (by omega) (by rw [pow_succ] at h2; omega)
      rw [this]

/-- The bits below m are zero exactly when the number is a multiple of a power of two. -/
theorem low_zero_iff (a m : Nat) : (∀ k < m, a.testBit k = false) ↔ a % 2 ^ m = 0 := by
  constructor
  · intro h
    apply Nat.eq_of_testBit_eq
    intro k
    rw [Nat.testBit_mod_two_pow, Nat.zero_testBit]
    by_cases hk : k < m
    · simp [h k hk]
    · simp [hk]
  · intro h k hk
    have := congrArg (·.testBit k) h
    simpa [Nat.testBit_mod_two_pow, hk] using this

/-- `ctz` (R148). -/
theorem trailZeros_eq (w a : Nat) : trailZeros w a = ((List.range w).filter fun k => a % 2 ^ (k + 1) == 0).length := by
  obtain ⟨m, hm, h1, h2⟩ : ∃ m ≤ w, (∀ k < m, a.testBit k = false) ∧ (m = w ∨ a.testBit m = true) := by
    induction w with
    | zero => exact ⟨0, le_refl _, by simp, .inl rfl⟩
    | succ w ih =>
      obtain ⟨m, hm, h1, h2⟩ := ih
      rcases h2 with rfl | h2
      · by_cases hb : a.testBit m = true
        · exact ⟨m, by omega, h1, .inr hb⟩
        · refine ⟨m + 1, le_refl _, ?_, .inl rfl⟩
          intro k hk
          rcases Nat.lt_succ_iff_lt_or_eq.1 hk with h | rfl
          · exact h1 k h
          · simpa using hb
      · exact ⟨m, by omega, h1, .inr h2⟩
  rw [trailZeros, length_takeWhile_range hm (by intro k hk; simp [h1 k hk]) (by rcases h2 with h | h <;> simp [h]),
    length_filter_range_lt hm]
  intro k hk
  by_cases hkm : k < m
  · simp only [hkm, decide_true, beq_iff_eq]
    exact (low_zero_iff a (k + 1)).1 (fun j hj => h1 j (by omega))
  · simp only [hkm, decide_false, beq_eq_false_iff_ne, ne_eq]
    intro h0
    have := (low_zero_iff a (k + 1)).2 h0 m (by omega)
    rcases h2 with h | h
    · omega
    · simp [h] at this

/-- `brev` (R148), bit by bit. -/
theorem bitReverse_eq (w a : Nat) :
    bitReverse w a = ((List.range w).map fun k => if a.testBit (w - 1 - k) then 2 ^ k else 0).sum := by
  have h1 : ∀ (l : List Nat) (acc : Nat), l.foldl (fun acc k => if a.testBit k then acc + 2 ^ (w - 1 - k) else acc) acc =
      acc + (l.map fun k => if a.testBit k then 2 ^ (w - 1 - k) else 0).sum := by
    intro l
    induction l with
    | nil => simp
    | cons k l ih => intro acc; rw [List.foldl_cons, ih, List.map_cons, List.sum_cons]; split <;> omega
  have h2 : (List.range w).reverse = (List.range w).map (fun k => w - 1 - k) := by
    apply List.ext_getElem <;> simp
  rw [bitReverse, h1, Nat.zero_add, ← List.sum_reverse, ← List.map_reverse, h2, List.map_map]
  congr 1
  apply List.map_congr_left
  intro k hk
  have hk := List.mem_range.1 hk
  simp only [Function.comp_apply, show w - 1 - (w - 1 - k) = k by omega]

/-- One byte of `prmt` (R149): a byte of the pool under the action of its control. -/
theorem permuteByte_eq {a b : Nat} (c : Nat) (ha : a < 2 ^ 32) (hc : c < 32) :
    permuteByte (b * 2 ^ 32 + a) c =
      (let y := ((leBytes 4 a ++ leBytes 4 b).map (·.toNat)).getD (c % 8) 0
       if c < 8 then y else if c < 16 then 0 else if c < 24 then (if y < 128 then 0 else 255) else 255) := by
  have hy : (b * 2 ^ 32 + a) / 2 ^ (8 * (c % 8)) % 256 = ((leBytes 4 a ++ leBytes 4 b).map (·.toNat)).getD (c % 8) 0 := by
    have h8 : c % 8 < 8 := Nat.mod_lt _ (by norm_num)
    generalize c % 8 = j at *
    have e : (leBytes 4 a ++ leBytes 4 b).map (·.toNat) =
        [a % 256, a / 2 ^ 8 % 256, a / 2 ^ 16 % 256, a / 2 ^ 24 % 256, b % 256, b / 2 ^ 8 % 256, b / 2 ^ 16 % 256,
          b / 2 ^ 24 % 256] := by simp [leBytes, List.range_succ]
    rw [e]
    interval_cases j <;> simp <;> omega
  simp only [permuteByte, hy]
  generalize ((leBytes 4 a ++ leBytes 4 b).map (·.toNat)).getD (c % 8) 0 = y
  have h4 : c / 8 % 4 = c / 8 := Nat.mod_eq_of_lt (by omega)
  rw [h4]
  by_cases h1 : c < 8
  · rw [show c / 8 = 0 by omega]; simp [h1]
  · by_cases h2 : c < 16
    · rw [show c / 8 = 1 by omega]; simp [h1, h2]
    · by_cases h3 : c < 24
      · rw [show c / 8 = 2 by omega]; simp only [h1, h2, h3, if_true, if_false]; split <;> split <;> omega
      · rw [show c / 8 = 3 by omega]; simp [h1, h2, h3]

theorem permuteByte_lt (pool c : Nat) : permuteByte pool c < 256 := by
  have : pool / 2 ^ (8 * (c % 8)) % 256 < 256 := Nat.mod_lt _ (by norm_num)
  simp only [permuteByte]
  split
  · exact this
  · norm_num
  · split <;> norm_num
  · norm_num

/-- Four bytes, each in its place. -/
theorem ofBytes_four (g : Nat → Nat) (h : ∀ k, g k < 256) :
    (List.range 4).foldl (fun acc k => acc + g k * 2 ^ (8 * k)) 0 = ofBytes ((List.range 4).map fun k => BitVec.ofNat 8 (g k)) := by
  have h' : ∀ k, (BitVec.ofNat 8 (g k)).toNat = g k := fun k => by
    rw [BitVec.toNat_ofNat]; exact Nat.mod_eq_of_lt (h k)
  have sums : ∀ w x y z : Nat, 0 + w * 2 ^ (8 * 0) + x * 2 ^ (8 * 1) + y * 2 ^ (8 * 2) + z * 2 ^ (8 * 3) =
      w + 256 * (x + 256 * (y + 256 * (z + 256 * 0))) := by intros; norm_num; ring
  have e : List.range 4 = [0, 1, 2, 3] := rfl
  rw [e, List.foldl_cons, List.foldl_cons, List.foldl_cons, List.foldl_cons, List.foldl_nil, sums]
  unfold ofBytes
  simp only [List.map_cons, List.map_nil, List.foldr_cons, List.foldr_nil, h']

/-- `prmt` (R149), byte by byte. -/
theorem permute_eq (a sel b : Nat) :
    permute a sel b = ofBytes ((List.range 4).map fun k => BitVec.ofNat 8 (permuteByte (b * 2 ^ 32 + a) (sel / 2 ^ (5 * k) % 32))) := by
  unfold permute
  exact ofBytes_four (fun k => permuteByte (b * 2 ^ 32 + a) (sel / 2 ^ (5 * k) % 32)) (fun _ => permuteByte_lt _ _)

end Sys2Proof.Machine
end

