-- ==== Sys2Proof/Laws/Late.lean ====
section
/-! SUPPORT. What comes of a unit of an access that its thread has issued and that is performed later: a read of a scratchpad changes the
results outstanding in its thread, and nothing else; a unit that nothing stands before is performed alone. -/

namespace Sys2Proof.Machine

/-- Two states differ in the results and the accesses that threads have outstanding, at most. -/
def onlyResults (s s' : State) : Prop :=
  s' = { s with threads := s'.threads } ∧ ∀ u, s'.thread u = { s.thread u with out := (s'.thread u).out, pend := (s'.thread u).pend }

theorem onlyResults_refl (s : State) : onlyResults s s := ⟨rfl, fun _ => rfl⟩

theorem onlyResults_trans {s s1 s2 : State} (h : onlyResults s s1) (h1 : onlyResults s1 s2) : onlyResults s s2 :=
  ⟨by rw [h1.1, h.1], fun u => by rw [h1.2 u, h.2 u]⟩

/-- A fold whose every part changes results at most changes results at most. -/
theorem onlyResults_foldl {α : Type} (f : State → α → State) (l : List α) (h : ∀ s, ∀ a ∈ l, onlyResults s (f s a)) (s : State) :
    onlyResults s (l.foldl f s) := by
  induction l generalizing s with
  | nil => exact onlyResults_refl s
  | cons a l ih =>
    exact onlyResults_trans (h s a (List.mem_cons_self ..)) (ih (fun s b hb => h s b (List.mem_cons_of_mem _ hb)) _)

theorem onlyResults_modThread (s : State) (t : Nat) (f : Thread → Thread) (h : ∀ th, f th = { th with out := (f th).out, pend := (f th).pend }) :
    onlyResults s (s.modThread t f) := by
  refine ⟨rfl, fun u => ?_⟩
  rw [State.thread_modThread]
  split
  · rename_i hu; rw [hu.1]; exact h _
  · rfl

theorem State.answer_onlyResults (s : State) (t id : Nat) (wb : List (Loc × Reg)) : onlyResults s (s.answer t id wb) :=
  onlyResults_modThread _ _ _ fun _ => rfl

theorem State.dropLate_onlyResults (s : State) (t id : Nat) : onlyResults s (s.dropLate t id) := onlyResults_modThread _ _ _ fun _ => rfl

theorem State.modLate_onlyResults (s : State) (t id : Nat) (g : LateUnit → LateUnit) : onlyResults s (s.modLate t id g) :=
  onlyResults_modThread _ _ _ fun _ => rfl

/-- A unit with nothing before it in its thread or its issue group, which is no encode store, is performed alone (R302, R305). -/
theorem State.performLate_eq {s : State} {t id n : Nat} {w : Bool} {q : Option Nat} {u : LateUnit}
    (h : (s.thread t).lates.find? (·.1 == id) = some (id, q, u)) (ha : s.ahead t id q u = [])
    (hu : ∀ f pc va pg sp bp d x sc bd, u ≠ .encode f pc va pg sp bp d x sc bd) :
    State.performLate (n + 1) s t id w = (s.dropLate t id).performUnit t u := by
  unfold State.performLate
  simp only [h, ha, List.foldl_nil, List.isEmpty_nil, Bool.not_true, Bool.false_eq_true, if_false]

end Sys2Proof.Machine
end

