-- ==== Sys2Proof/Tests/Slice0.lean ====
section
/-! SUPPORT. Tests of single steps with results taken from the examples of spec/, and for every statement a state and operands that meet
its hypotheses. -/

set_option Elab.async false

namespace Sys2Proof.Tests

open Sys2Proof Sys2Proof.Machine Sys2Proof.Claim

/-! ## Small states -/

/-- The address of the tested word. -/
def at0 : W64 := 0x40000000

/-- A launch of one block whose allocation holds whatever a word names. -/
def launch0 : Launch :=
  { entry := 0x40000000, regs := 1024, uregs := 256, threads := 32, crews := 1, tiles := 8, spKib := 64, blocks := 2, undolog := 4096,
    regions := [{ base := 0x10000, extent := 0x10000, stride := 0, acc := .rw }] }

/-- A block with a handler at 0x40000100. -/
def block0 : Block :=
  { ctx := 1, task := 7, index := 0, node := 0, core := 0, tba := 0x40000100, reckon := 65536, launch := launch0,
    sequencer := { pc := 0x40000000, st := .running } }

/-- A register with a value, no poison and no tags. -/
def reg (x : W32) : Reg := { val := x }

/-- Threads 0 to n − 1 of crew 0 of block 0, all at the word, each with its vector registers and predicates, chosen for issue. -/
def crew (n : Nat) (v : Nat → Tab Reg) (p : Nat → Tab PReg := fun _ => []) : State :=
  { threads := (List.range n).map fun t => (t, { pc := at0, v := v t, p := p t }), crews := [(0, { sub := 0 })], blocks := [(0, block0)],
    cores := [(0, { carve := some 0, active := some 1 })], ctxs := [(1, { begun := true })], nextUid := 1,
    cur := some (.group 0 at0 (List.range n)) }

/-- One thread at the word, with vector registers. -/
def one (v : Tab Reg) : State := crew 1 fun _ => v

/-- Thread 0, block 0 and core 0 of a small state, changed. -/
def inThread (s : State) (g : Thread → Thread) : State := s.modThread 0 g
/-- Block 0 changed. -/
def inBlock (s : State) (g : Block → Block) : State := s.modBlock 0 g
/-- Core 0 changed. -/
def inCore (s : State) (g : Core → Core) : State := s.modCore 0 g

/-- What exec answers, where it answers a next state. -/
def after (i : Instr) (s : State) : State := match exec i s with | .next s' => s' | _ => {}

/-- Vector register n of thread t after an instruction. -/
def vAfter (i : Instr) (s : State) (t n : Nat) : W32 := (((after i s).thread t).getV n).val

/-- Predicate n of thread t after an instruction. -/
def pAfter (i : Instr) (s : State) (t n : Nat) : Bool := (((after i s).thread t).getP n).val

/-- `Alone`, as a check. -/
def alone (s : State) (i : Instr) (f : Fields) : Bool :=
  s.cur == some (.group 0 at0 [0]) && s.stands at0 0 && s.guarded 0 f == some true && !s.issueWaits 0 i && !(s.pastGuard 0 at0 f).issueWaits 0 i &&
    !s.shadowed 0

theorem alone_of {s : State} {i : Instr} {f : Fields} (h : alone s i f = true) : Alone s i f at0 0 := by
  simp only [alone, Bool.and_eq_true, Bool.not_eq_true', beq_iff_eq] at h
  exact ⟨⟨0, h.1.1.1.1.1⟩, h.1.1.1.1.2, h.1.1.1.2, h.1.1.2, h.1.2, h.2⟩

/-- A group performs an instruction with a part. -/
def ran (s : State) (i : Instr) (f : Fields) (part : Nat → State → Option State) (ts : List Nat) : Bool :=
  (if i.once then s.runOnce i f at0 part ts else State.runGroup i f at0 part ts s).isSome

theorem performs_of {s : State} {i : Instr} {f : Fields} {part : Nat → State → Option State} {ts : List Nat}
    (h : s.cur = some (.group 0 at0 ts)) (h2 : ran s i f part ts = true) : ∃ s', performs s i f part ts s' := by
  obtain ⟨s', h'⟩ := Option.isSome_iff_exists.mp h2
  exact ⟨s', 0, at0, h, h'⟩

/-- The hypotheses of a completion statement, met by a well-formed instruction in a small state. -/
def meets (i : Instr) (f : Fields) (part : Nat → State → Option State) (s : State) (ts : List Nat) : Prop :=
  i.WellFormed ∧ ∃ s', performs s i f part ts s'

theorem wf {i : Instr} (h : i.wellFormed = true) : i.WellFormed := by
  simpa [Instr.wellFormed, Instr.WellFormed] using h

theorem meets_of {i : Instr} {f : Fields} {part : Nat → State → Option State} {s : State} {ts : List Nat}
    (h : i.wellFormed = true) (h1 : s.cur = some (.group 0 at0 ts)) (h2 : ran s i f part ts = true) : meets i f part s ts :=
  ⟨wf h, performs_of h1 h2⟩

/-! ## Words of the spec's examples -/

/-- A word as the spec prints it: bits 95 to 64, 63 to 32, 31 to 0. -/
def printed (hi mid lo : Nat) : Nat := hi * 2 ^ 64 + mid * 2 ^ 32 + lo

/-- Uniform group n as a source. -/
def ur (n : BitVec 8) : Src := .unif n false false
/-- Stream register n as a source. -/
def xr (n : BitVec 5) : Src := .special (.stream n)
/-- The zero source. -/
def no : Src := vr 0

theorem test_spec_words : ∀ e ∈ specWords, decodeTableWord 96 e.1.toNat = some e.2 := by decide +kernel

theorem test_refused_words : ∀ e ∈ badWords, decodeTableWord 96 e.1.toNat = none := by decide +kernel

/-- Classes 0 to 2 (files 06, 11, 13, 14, 18, 24). -/
theorem test_decode_classes_0_to_2 : ∀ e ∈
    [(printed 0x00C00400 0x00600001 0x00803C33, Instr.lea { plain .s32 8 (vr 4) (vr 6) with xc := 3 }),
     (printed 0x00800600 0x00000001 0x40203C29, .icmp { plain .s32 2 (vr 5) (.imm 0) with xc := 2 }),
     (printed 0x00000200 0x002C0010 0x00483C18, .shl { plain .b32 4 (.special (.sr .tid)) (.imm 2) with y := true }),
     (printed 0x00020A00 0x00CC0045 0x01403C08, .iadd64 { plain .u64 20 (ur 20) (.imm 12) with scope := 1 }),
     (printed 0x05400229 0x02000005 0x01603C26, .prmt { plain .b32 22 (vr 20) (.imm 0x29020) with xc := 21 }),
     (printed 0x0002D000 0x40900000 0xC0503C82, .fmul { plain .f32 5 (vr 3) (.reg 9 true false) with rnd := .rup, scope := 1 }),
     (printed 0x00C0D000 0x40200000 0x40403C83, .ffma { plain .f32 4 (vr 1) (.reg 2 true false) with rnd := .rup, xc := 3 }),
     (printed 0x01002800 0x00000000 0x00803D01, .cvtx { plain .fp4x8 8 (vr 0) (vr 0) with xc := 4 }),
     (printed 0x00001000 0x01400000 0x00A03D08, .q4enc (plain .f32 10 (vr 0) (vr 20)))],
    decodeTableWord 96 e.1 = some e.2 := by decide +kernel

/-- Class 3 (files 15, 16, 18, 24, 32, 40). -/
theorem test_decode_class_3 : ∀ e ∈
    [(printed 0x024C1F00 0x10400000 0x80803DA0, Instr.ldredMc { plain .bf16x2 8 (vr 2) (ur 4) with xc := 9, scope := 6 }),
     (printed 0x00040000 0x00400002 0x00003D8C, .redG { plain .b32 0 (vr 8) (vr 4) with scope := 2 }),
     (printed 0x00220000 0x00000000 0x00003D90, .fence { plain .b32 0 no no with ord := 2, scope := 1 }),
     (printed 0x00C00200 0x04800000 0x40000983, .ldC { plain .b32 0 (vr 1) (.imm 0x48) with gp := 2, xc := 3 }),
     (printed 0x00C01000 0x012C0008 0x00003D98, .accld { plain .f32 0 (.special (.acc 0)) (vr 18) with xc := 3 }),
     (printed 0x00400000 0x00000000 0x40403DA2, .mcgOpen { plain .b32 4 (vr 1) no with xc := 1 }),
     (printed 0x00CC0200 0x00000003 0x81000584, .stG { plain .b32 16 (vr 14) (.imm 0) with gp := 1, xc := 3, scope := 6 }),
     (printed 0x020C0200 0x40000002 0x80500D84, .stG { plain .b32 5 (vr 10) (.imm 1024) with gp := 3, xc := 8, scope := 6 }),
     (printed 0x000A2E00 0x00000002 0x00403D80, .ldG { plain .u8 4 (vr 8) (.imm 0) with scope := 5 }),
     (printed 0x00040000 0x00600002 0x80700589, .atomS { plain .b32 7 (vr 10) (vr 6) with gp := 1, scope := 2 })],
    decodeTableWord 96 e.1 = some e.2 := by decide +kernel

/-- Class 4 (files 06, 17, 40). -/
theorem test_decode_class_4 : ∀ e ∈
    [(printed 0x00400000 0x00000000 0x00203E08, Instr.mkj { plain .b32 2 no no with xc := 1 }),
     (printed 0x00000000 0x00000000 0x00203E09, .join (plain .b32 2 no no)),
     (printed 0x00000000 0x00000002 0x00003E02, .brx (plain .b32 0 (vr 8) no)),
     (printed 0x00000000 0x000C0045 0x00003E02, .brx (plain .b32 0 (ur 20) no)),
     (printed 0x0FC002FF 0xFC000000 0x00003E01, .bra { plain .b32 0 no (.imm 0xFFFC0) with xc := 63 }),
     (printed 0x00000000 0x00000000 0x00003E06, .exit (plain .b32 0 no no)),
     (printed 0x01C00000 0x000C0000 0xC0603E10, .vote { plain .b32 6 (.special (.pred 3)) no with xc := 7 }),
     (printed 0x00000000 0x00000001 0x00503E12, .match_ (plain .b32 5 (vr 4) no)),
     (printed 0x00000000 0x00000000 0x40703E13, .redux (plain .b32 7 (vr 1) no)),
     (printed 0x00400000 0x00000000 0x80303E14, .elect { plain .b32 3 (vr 2) no with xc := 1 })],
    decodeTableWord 96 e.1 = some e.2 := by decide +kernel

/-- Class 5 (files 19, 36). -/
theorem test_decode_class_5 : ∀ e ∈
    [(printed 0x005A0200 0x00000002 0x00403E84, Instr.waitc { plain .b32 4 (vr 8) (.imm 0) with ord := 1, scope := 5, xc := 1 }),
     (printed 0x00140200 0x00100001 0x00903E85, .waitw { plain .b32 9 (vr 4) (.imm 1) with ord := 1, scope := 2 }),
     (printed 0x00000200 0x00100000 0x00C03E88, .guess (plain .b32 12 no (.imm 1))),
     (printed 0x00000000 0x00000005 0x40403E8A, .affirm (plain .b32 4 (vr 21) no)),
     (printed 0x00000000 0x01400003 0x40203E8B, .deny (plain .b32 2 (vr 13) (vr 20))),
     (printed 0x00800000 0x00080000 0x01403E8C, .tags { plain .b32 20 (.imm 0) no with xc := 2 }),
     (printed 0x00000200 0x00A00000 0x00003E90, .ctnOpen (plain .b32 0 no (.imm 10))),
     (printed 0x006A0000 0x00A00002 0x00103E98, .msend { plain .b32 1 (vr 8) (vr 10) with ord := 2, scope := 5, xc := 1 })],
    decodeTableWord 96 e.1 = some e.2 := by decide +kernel

/-- Class 6 (file 23). -/
theorem test_decode_class_6 : ∀ e ∈
    [(printed 0x0A002B00 0x206C0081 0x00203F00, Instr.mma { plain .fp4x8 2 (xr 4) (xr 6) with xc := 40 }),
     (printed 0x00400200 0x04100000 0x00103F02, .mbar { plain .b32 1 no (.imm 65) with xc := 1 }),
     (printed 0x0FC002FF 0xFF700000 0x00903F08, .mloop { plain .b32 9 no (.imm 0xFFFF7) with xc := 63 }),
     (printed 0x00000800 0x00040001 0x00403F09, .mset (plain .u64 4 (.cwin 0 4) no)),
     (printed 0x00000800 0x000C0004 0x00503F09, .mset (plain .u64 5 (.special (.queue 0)) no)),
     (printed 0x00000800 0x00000001 0x80303F10, .qpush (plain .u64 3 (vr 6) no)),
     (printed 0x00400000 0x00000000 0x00303F12, .qstat { plain .b32 3 no no with xc := 1 }),
     (printed 0x00000000 0x00000001 0x00003F18, .cpyt (plain .b32 0 (vr 4) no)),
     (printed 0x00000300 0x10600001 0x00003F1A, .cpym (plain .b32 0 (vr 4) (ur 6)))],
    decodeTableWord 96 e.1 = some e.2 := by decide +kernel

/-- Class 7 (file 21). -/
theorem test_decode_class_7 : ∀ e ∈
    [(printed 0x00000200 0x04200000 0x00003F80, Instr.trap (plain .b32 0 no (.imm 0x42))),
     (printed 0x00000000 0x00000000 0x00003F88, .rtt (plain .b32 0 no no)),
     (printed 0x00800800 0x00000000 0x00803F90, .csrr { plain .u64 8 no no with xc := 2 }),
     (printed 0x02000000 0x00000000 0xC0003F91, .csrw { plain .b32 0 (vr 3) no with xc := 8 })],
    decodeTableWord 96 e.1 = some e.2 := by decide +kernel

/-! ## Ill-formed terms -/

theorem test_refuses_type : (Instr.iadd (plain .f32 1 no no)).illegal = some .type := by decide +kernel
/-- `call v31:v32` names an odd pair (file 17). -/
theorem test_refuses_destination : (Instr.call (plain .b32 31 no (.imm 0))).illegal = some .destination := by decide +kernel
/-- `vote` with a v register as SA, `join` with DST = 16, `trap` with SB of kind 00 (files 17, 21). -/
theorem test_refuses_source : (Instr.vote (plain .b32 1 (vr 1) no)).illegal = some .source ∧
    (Instr.trap (plain .b32 0 no no)).illegal = some .source := by decide +kernel
theorem test_refuses_join_16 : (Instr.join (plain .b32 16 no no)).illegal = some .destination := by decide +kernel
/-- `redux` with OP 6, `shfl` with SEG 6, register number 0x020 (files 17, 21). -/
theorem test_refuses_extension : (Instr.redux { plain .b32 7 (vr 1) no with xc := 6 }).illegal = some .extension ∧
    (Instr.shfl { plain .b32 5 (vr 4) (.imm 1) with xc := 24 }).illegal = some .extension ∧
    (Instr.csrr { plain .b32 5 no no with xc := 0x20 }).illegal = some .extension := by decide +kernel
/-- `csrr.b32` of sys.epc and `csrw` of sys.fair (file 21). -/
theorem test_refuses_width : (Instr.csrr { plain .b32 5 no no with xc := 2 }).wellFormed = false ∧
    (Instr.csrw { plain .b32 0 (vr 3) no with xc := 5 }).wellFormed = false := by decide +kernel
theorem test_refuses_order : (Instr.mov { plain .b32 1 (vr 2) no with ord := 1 }).illegal = some .order := by decide +kernel
/-- `ld.s` at SCOPE 3 and `atom.x` at SCOPE 4 (file 15). -/
theorem test_refuses_scope : (Instr.ldS { plain .b32 4 (vr 8) (.imm 0) with scope := 3 }).illegal = some .scope ∧
    (Instr.atomX { plain .b32 4 (vr 8) (vr 6) with scope := 4 }).illegal = some .scope := by decide +kernel
/-- `ld.g.b128.x4`, `ld.g` with ORD release, `red.g` with `.exch`, `atom.g.f32` with `.and` (file 15). -/
theorem test_refuses_memory_forms : (Instr.ldG { plain .b128 16 (vr 8) (.imm 0) with xc := 2 }).wellFormed = false ∧
    (Instr.ldG { plain .b32 16 (vr 8) (.imm 0) with ord := 2 }).illegal = some .order ∧
    (Instr.redG { plain .b32 0 (vr 8) (vr 4) with xc := 6 }).illegal = some .extension ∧
    (Instr.atomG { plain .f32 4 (vr 8) (vr 6) with xc := 3 }).wellFormed = false := by decide +kernel
theorem test_refuses_saturation : (Instr.and { plain .b32 1 (vr 2) (vr 3) with sat := true }).illegal = some .saturate := by decide +kernel
theorem test_refuses_rounding : (Instr.and { plain .b32 1 (vr 2) (vr 3) with rnd := .rup }).illegal = some .rounding := by decide +kernel
/-- A sequencer word has G = 0x0F, LA = 0 and Y = 0 (R80). -/
theorem test_refuses_agent : (Instr.mend { plain .b32 0 no no with la := 1 }).illegal = some .agent := by decide +kernel

/-! ## Classes 0 to 2 -/

def fAdd : Fields := plain .s32 12 (vr 3) (.imm 5)
def fFadd : Fields := plain .f32 4 (vr 1) (vr 2)
def fFscale : Fields := plain .f32 4 (vr 1) (.imm 3)
def fFrcp : Fields := plain .f32 4 (vr 1) no
def fCvt : Fields := { plain .f32 4 (vr 1) no with xc := 1 }
def fIaddc : Fields := { plain .b32 10 (vr 0) (vr 4) with xc := 0x111 }
def fIsubb : Fields := { plain .b32 10 (vr 0) (vr 4) with xc := 1 }
def fSel : Fields := { plain .b32 1 (vr 2) (vr 3) with xc := 5 }
def fPlop : Fields := { plain .b32 1 (.special (.pred 2)) (.special (.pred 3)) with xc := 6 }
def fMov : Fields := plain .b32 1 (vr 2) no
def fMovq : Fields := plain .b32 1 (.special (.queue 3)) no
def fMovsr : Fields := { plain .b32 3 no no with xc := 1 }
/-- One thread, whose block holds 9 in q3. -/
def oneQ : State := inBlock (one []) fun b => { b with queues := [(3, [{ val := 9, poison := false }])] }

theorem wit_IntegerResults : ∃ e ∈ intTable, meets (e.1 fAdd) fAdd (aluPart (e.1 fAdd) fAdd (e.2 fAdd)) (one [(3, reg 7)]) [0] :=
  ⟨intTable[0], List.getElem_mem _, meets_of (by decide +kernel) rfl (by decide +kernel)⟩

theorem wit_CarrySelectAndMove :
    meets (.iaddc fIaddc) fIaddc (iaddcPart fIaddc) (one []) [0] ∧ meets (.isubb fIsubb) fIsubb (isubbPart fIsubb) (one []) [0] ∧
    meets (.sel fSel) fSel (selPart fSel) (one []) [0] ∧ meets (.plop fPlop) fPlop (plopPart fPlop) (one []) [0] ∧
    meets (.mov fMov) fMov (movPart fMov) (one []) [0] ∧ meets (.mov fMovq) fMovq (movPart fMovq) oneQ [0] ∧
    meets (.movsr fMovsr) fMovsr (movsrPart fMovsr) (one []) [0] := by
  refine ⟨?_, ?_, ?_, ?_, ?_, ?_, ?_⟩ <;> exact meets_of (by decide +kernel) rfl (by decide +kernel)

theorem wit_FloatResults :
    (∃ e ∈ floatTable, meets (e.1 fFadd) fFadd (aluPart (e.1 fFadd) fFadd (e.2 fFadd)) (one []) [0]) ∧
    meets (.fscale fFscale) fFscale (aluPart (.fscale fFscale) fFscale fun a b _ => scaled fFscale a b) (one []) [0] :=
  ⟨⟨floatTable[0], List.getElem_mem _, meets_of (by decide +kernel) rfl (by decide +kernel)⟩,
    meets_of (by decide +kernel) rfl (by decide +kernel)⟩

/-- 1/3 + −1/3, the sum of a zero sign that is not both terms' own; and −0 + −0. -/
theorem wit_ExactSumsAndProducts : (3 : Nat) ≠ 0 ∧ (7 : Nat) ≠ 0 ∧ rat (FV.add .rne (.fin false 1 3) (.fin true 1 3)) = some 0 ∧
    rat (FV.add .rne (.fin true 0 1) (.fin true 0 1)) = some 0 := by decide +kernel

/-- 65,504, the greatest of binary16, which is in range; 65,520, from which it rounds to infinity; the codes about the top of its range. -/
theorem wit_RoundsToNeighbour : ∃ e ∈ formatCodes, e.1 = fmtF16 ∧ e.1 ≠ fmtE3m5 ∧ e.2.1 < 0x7C00 ∧ 0x7C00 < 2 ^ (e.1.width - 1) ∧
    ¬roundsOver e.1 e.2.1 .rne false ((65504 : Nat) / (1 : Nat)) ∧ roundsOver e.1 e.2.1 .rne false ((65520 : Nat) / (1 : Nat)) := by
  refine ⟨formatCodes[0], List.getElem_mem _, rfl, by decide, by decide, by decide, ?_, ?_⟩ <;>
    norm_num [formatCodes, roundsOver, level, fmtF16]

/-- 448 + 16 in E4M3, from which it rounds out of its range to NaN; 7 in FP4 and E3M5's 63/4, which do not. -/
theorem wit_RoundsToNeighbour_small : ¬roundsOver fmtE4m3 0x7E .rne false 464 ∧ roundsOver fmtE4m3 0x7E .rne false 465 ∧
    roundsOver fmtFp4 7 .rne false 7 ∧ ¬roundsOver fmtFp4 7 .rne false 6 ∧ roundsOver fmtE3m5 255 .rup false 32 := by
  norm_num [roundsOver, level, fmtE4m3, fmtFp4, fmtE3m5]

theorem wit_LongFunctions :
    (∃ e ∈ longTable, meets (e.1 fFrcp) fFrcp (longPart fFrcp (e.2 fFrcp)) (one []) [0]) ∧
    (∃ e ∈ specialTable, (0x80000000 : Nat) < 2 ^ 32 ∧ specialColumn 0x80000000 = some 3 ∧ e.2.getD 3 none = some 0xFF800000) :=
  ⟨⟨longTable[0], List.getElem_mem _, meets_of (by decide +kernel) rfl (by decide +kernel)⟩,
    specialTable[0], List.getElem_mem _, by decide +kernel⟩

theorem wit_ConversionResults : ∃ e ∈ convTable, meets (e.1 fCvt) fCvt (aluPart (e.1 fCvt) fCvt (e.2 fCvt)) (one []) [0] :=
  ⟨convTable[0], List.getElem_mem _, meets_of (by decide +kernel) rfl (by decide +kernel)⟩

theorem wit_ArithmeticFrame :
    (∃ e ∈ intTable ++ floatTable ++ convTable, meets (e.1 fAdd) fAdd (aluPart (e.1 fAdd) fAdd (e.2 fAdd)) (one []) [0]) ∧
    meets (.fscale fFscale) fFscale (aluPart (.fscale fFscale) fFscale fun a b _ => scaled fFscale a b) (one []) [0] ∧
    meets (.sel fSel) fSel (selPart fSel) (one []) [0] ∧ meets (.plop fPlop) fPlop (plopPart fPlop) (one []) [0] ∧
    meets (.movsr fMovsr) fMovsr (movsrPart fMovsr) (one []) [0] ∧
    ((∀ q, fMov.sa ≠ .special (.queue q)) ∧ meets (.mov fMov) fMov (movPart fMov) (one []) [0]) :=
  ⟨⟨intTable[0], List.mem_append_left _ (List.mem_append_left _ (List.getElem_mem _)), meets_of (by decide +kernel) rfl (by decide +kernel)⟩,
    wit_FloatResults.2, wit_CarrySelectAndMove.2.2.1, wit_CarrySelectAndMove.2.2.2.1, wit_CarrySelectAndMove.2.2.2.2.2.2,
    fun _ => by simp [fMov, plain, vr], wit_CarrySelectAndMove.2.2.2.2.1⟩

theorem wit_CarryQueueAndLongFrame :
    meets (.iaddc fIaddc) fIaddc (iaddcPart fIaddc) (one []) [0] ∧ meets (.isubb fIsubb) fIsubb (isubbPart fIsubb) (one []) [0] ∧
    (fMovq.sa = .special (.queue 3) ∧ meets (.mov fMovq) fMovq (movPart fMovq) oneQ [0]) ∧
    ∃ e ∈ longTable, meets (e.1 fFrcp) fFrcp (longPart fFrcp (e.2 fFrcp)) (one []) [0] :=
  ⟨wit_CarrySelectAndMove.1, wit_CarrySelectAndMove.2.1, ⟨rfl, wit_CarrySelectAndMove.2.2.2.2.2.1⟩, wit_LongFunctions.1⟩

theorem wit_GroupWrite : ((Loc.v = Loc.v ∨ Loc.v = Loc.s) ∧ (Loc.s = Loc.v ∨ Loc.s = Loc.s)) ∧ ((one []).thread 0).exited = false ∧
    (tget (one []).crews (crewOf 0)).isSome := ⟨⟨.inl rfl, .inr rfl⟩, rfl, rfl⟩

/-- The chain of file 11: low, middle and high words of a 96-bit sum. -/
theorem test_iaddc_chain :
    vAfter (.iaddc { fIaddc with xc := 1 }) (one [(0, reg 0xFFFFFFFF), (4, reg 1)]) 0 10 = 0 ∧
    pAfter (.iaddc { fIaddc with xc := 1 }) (one [(0, reg 0xFFFFFFFF), (4, reg 1)]) 0 1 = true ∧
    vAfter (.iaddc { fIaddc with xc := 0x11F }) (crew 1 (fun _ => [(0, reg 1)]) fun _ => [(1, { val := true })]) 0 10 = 2 := by decide +kernel

/-- `iabs` of 0x8000_0000 with and without SAT (R142). -/
theorem test_iabs : vAfter (.iabs (plain .s32 1 (vr 2) no)) (one [(2, reg 0x80000000)]) 0 1 = 0x80000000 ∧
    vAfter (.iabs { plain .s32 1 (vr 2) no with sat := true }) (one [(2, reg 0x80000000)]) 0 1 = 0x7FFFFFFF := by decide +kernel

/-- `plop` with table 0xE, OR, of 0 and 1 (R152). -/
theorem test_plop_or : pAfter (.plop { fPlop with xc := 0xE }) (crew 1 (fun _ => []) fun _ => [(3, { val := true })]) 0 1 = true := by
  decide +kernel

/-- `sel` with `!p5` (R150): a poisoned predicate poisons the result. -/
theorem test_sel : vAfter (.sel { fSel with xc := 0x15 }) (one [(2, reg 4), (3, reg 9)]) 0 1 = 4 ∧
    (((after (.sel fSel) (crew 1 (fun _ => []) fun _ => [(5, { val := true, poison := true })])).thread 0).getV 1).poison = true := by
  decide +kernel

/-- A subnormal is greater than +0, and `fround.rtz` of −0.7 gives −0 (file 14, R167). -/
theorem test_float_edges : vAfter (.fmax (plain .f32 4 (vr 1) (vr 2))) (one [(1, reg 1)]) 0 4 = 1 ∧
    vAfter (.fround { plain .f32 4 (vr 1) no with rnd := .rtz }) (one [(1, reg 0xBF333333)]) 0 4 = 0x80000000 := by decide +kernel

/-- The rows of file 14: `fmin` of NaN and 3.0, of two NaNs, of +0 and −0; `ffma` of 1.0 × −1.0 + 1.0 under two roundings, and an
overflow with `.sat`. -/
theorem test_special_values :
    vAfter (.fmin fFadd) (one [(1, reg 0x7F800001), (2, reg 0x40400000)]) 0 4 = 0x40400000 ∧
    vAfter (.fmin fFadd) (one [(1, reg 0x7FC00000), (2, reg 0xFFC00001)]) 0 4 = 0x7FC00000 ∧
    vAfter (.fmin fFadd) (one [(2, reg 0x80000000)]) 0 4 = 0x80000000 := by decide +kernel

theorem test_ffma :
    vAfter (.ffma { fFadd with xc := 3, rnd := .rdn }) (one [(1, reg 0x3F800000), (2, reg 0xBF800000), (3, reg 0x3F800000)]) 0 4 = 0x80000000 ∧
    vAfter (.ffma { fFadd with xc := 3, sat := true }) (one [(1, reg 0x7F000000), (2, reg 0x40800000)]) 0 4 = 0x7F7FFFFF := by decide +kernel

/-- `cvtx.e4m3x4.sat.f32` of 1.0, 500.0, −0.3 and a NaN (file 13). -/
theorem test_cvtx_e4m3 : vAfter (.cvtx { plain .e4m3x4 8 (vr 0) (vr 0) with sat := true, xc := 4 })
    (one [(0, reg 0x3F800000), (1, reg 0x43FA0000), (2, reg 0xBE99999A), (3, reg 0x7FC00000)]) 0 8 = 0x7FAA7E38 := by decide +kernel

/-- `cvtx.fp4x8.f32` of eight values (file 14). -/
theorem test_cvtx_fp4 : vAfter (.cvtx { plain .fp4x8 8 (vr 0) (vr 0) with xc := 4 })
    (one [(0, reg 0x3FA00000), (1, reg 0xBE4CCCCD), (2, reg 0x7F800000), (3, reg 0x7FC00000), (4, reg 0x40E00000), (5, reg 0xC0600000),
      (6, reg 0x3F400000), (7, reg 0x80000000)]) 0 8 = 0x82E70782 := by decide +kernel

/-- `q4enc.f32 v10:v11, v0:v7, v20` of eight values under a band of 2.0 (file 14). -/
theorem test_q4enc : let s := one [(0, reg 0x41200000), (1, reg 0xC0400000), (2, reg 0x3F000000), (3, reg 0x41C40000), (4, reg 0xC0E00000),
      (6, reg 0x3F800000), (7, reg 0xC1500000), (20, reg 0x40000000)]
    vAfter (.q4enc (plain .f32 10 (vr 0) (vr 20))) s 0 10 = 0xD00B7094 ∧ vAfter (.q4enc (plain .f32 10 (vr 0) (vr 20))) s 0 11 = 0x81 := by
  decide +kernel

/-! ## Guards, control, traps -/

def fNo : Fields := plain .b32 0 no no
def fGuard : Fields := { fNo with gp := 1 }
def fBra : Fields := plain .b32 0 no (.imm 4)
def fCall : Fields := plain .b32 30 no (.imm 40)
def fBrx : Fields := plain .b32 0 (vr 8) no
def fCallx : Fields := plain .b32 30 (vr 8) no
def fMkj : Fields := plain .b32 2 no no
/-- One thread whose v8:v9 hold an address. -/
def target (lo hi : W32) : State := one [(8, reg lo), (9, reg hi)]
/-- One thread whose v8:v9 are poisoned. -/
def badTargetState : State := one [(8, { val := 0x40001000, poison := true })]
/-- Uniform registers of crew 0. -/
def inCrew (s : State) (l : Tab Reg) : State := s.modCrew 0 fun c => { c with s := l }
/-- Two threads that have arrived at a join of j2 at the word. -/
def arrived2 : State :=
  inCrew { crew 2 (fun _ => []) with threads := (List.range 2).map fun t => (t, { pc := at0, wait := .join 2 0 }) } [(200, reg 3)]

theorem wit_Guards :
    (∃ f sh, (Instr.iadd { fNo with gneg := true }).shape = some (f, sh) ∧ sh.seq = false ∧ (one []).cur = some (.group 0 at0 [0]) ∧
      (one []).stands at0 0 = true ∧ (one []).shadowed 0 = false ∧ (one []).guarded 0 f = some false) ∧
    ∃ f sh, (Instr.iadd fGuard).shape = some (f, sh) ∧ sh.seq = false ∧
      let s := crew 1 (fun _ => []) fun _ => [(1, { val := true, poison := true })]
      s.cur = some (.group 0 at0 [0]) ∧ s.stands at0 0 = true ∧ s.shadowed 0 = false ∧ s.guarded 0 f = none :=
  ⟨⟨_, _, rfl, by decide +kernel⟩, _, _, rfl, by decide +kernel⟩

theorem wit_BranchesAndCalls :
    (∃ e ∈ controlTable, meets (e.1 fNo) fNo (e.2 fNo) (one []) [0]) ∧ (∃ e ∈ controlTable, meets (e.1 fBra) fBra (e.2 fBra) (one []) [0]) ∧
    (∃ e ∈ controlTable, meets (e.1 fBrx) fBrx (e.2 fBrx) (target 0x40001000 0) [0]) ∧
    (∃ e ∈ controlTable, meets (e.1 fCall) fCall (e.2 fCall) (one []) [0]) ∧
    (∃ e ∈ controlTable, meets (e.1 fCallx) fCallx (e.2 fCallx) (target 0x40001000 0) [0]) :=
  ⟨⟨controlTable[0], List.getElem_mem _, meets_of (by decide +kernel) rfl (by decide +kernel)⟩,
    ⟨controlTable[2], List.getElem_mem _, meets_of (by decide +kernel) rfl (by decide +kernel)⟩,
    ⟨controlTable[3], List.getElem_mem _, meets_of (by decide +kernel) rfl (by decide +kernel)⟩,
    ⟨controlTable[5], List.getElem_mem _, meets_of (by decide +kernel) rfl (by decide +kernel)⟩,
    ⟨controlTable[6], List.getElem_mem _, meets_of (by decide +kernel) rfl (by decide +kernel)⟩⟩

/-- A target that ends in 0x6, one that is not canonical, a poisoned one (file 17). -/
theorem wit_TargetChecks : (Instr.brx fBrx).WellFormed ∧
    ∀ e ∈ [(target 0x40001006 0, Cause.misalign), (target 0x40001000 0x01000000, .permission), (badTargetState, .poisonUse)],
      alone e.1 (.brx fBrx) fBrx = true ∧ ∃ o x, (entered e.1 0 at0 fBrx).readSrc 0 2 .u64 fBrx.sa = .ok o ∧ badTarget o = some x := by
  refine ⟨wf (by decide +kernel), ?_⟩
  intro e he
  fin_cases he <;> exact ⟨by decide +kernel, _, _, rfl, rfl⟩

theorem wit_ExitEndsThread : (Instr.exit fNo).WellFormed ∧ Alone (one []) (.exit fNo) fNo at0 0 ∧ ((one []).thread 0).region = none ∧
    (tget (one []).crews (crewOf 0)).isSome ∧ ((one []).thread 0).lates = [] := ⟨wf (by decide +kernel), alone_of (by decide +kernel), rfl, rfl, rfl⟩

theorem wit_RejoinMasks_mkj : let s := crew 2 fun _ => []
    (Instr.mkj fMkj).WellFormed ∧ s.cur = some (.group 0 at0 [0, 1]) ∧ [0, 1].Nodup ∧ [0, 1] ≠ [] ∧
    (∀ t ∈ [0, 1], s.stands at0 t = true ∧ s.guarded t fMkj = some true ∧ s.shadowed t = false ∧ crewOf t = 0) ∧ (tget s.crews 0).isSome ∧
    ∀ t ∈ [0, 1], (s.admitAll at0 fMkj [0, 1]).issueWaits t (.mkj fMkj) = false := ⟨wf (by decide +kernel), by decide +kernel⟩

/-- j2 poisoned, with the bit clear, with the bit set. -/
theorem wit_RejoinMasks_join : (Instr.join fMkj).WellFormed ∧
    ∀ e ∈ [([(200, { val := 1, poison := true })], true, true), ([(200, reg 2)], false, false), ([(200, reg 1)], false, true)],
      let s := inCrew (one []) e.1
      Alone s (.join fMkj) fMkj at0 0 ∧ ((List.range 4).any fun k => ((s.crew 0).getS (192 + 4 * 2 + k)).poison) = e.2.1 ∧
      maskBit s 0 2 0 = e.2.2 := by
  refine ⟨wf (by decide +kernel), ?_⟩
  intro e he
  fin_cases he <;> exact ⟨alone_of (by decide +kernel), by decide +kernel, by decide +kernel⟩

/-- Two threads of the mask that have both arrived; and one of them that has not. -/
theorem wit_RejoinMasks_release :
    (∀ t ∈ arrived2.crewThreads 0, maskBit arrived2 0 2 (tidOf t) = true → (arrived2.thread t).exited = true ∨
      ((arrived2.thread t).pc = at0 ∧ ∃ g, (arrived2.thread t).wait = .join 2 g)) ∧
    let s := arrived2.modThread 1 fun th => { th with wait := .none }
    ¬∀ t ∈ s.crewThreads 0, maskBit s 0 2 (tidOf t) = true → (s.thread t).exited = true ∨
      ((s.thread t).pc = at0 ∧ ∃ g, (s.thread t).wait = .join 2 g) := by
  constructor
  · intro t ht _
    have h : ∀ t ∈ arrived2.crewThreads 0, (arrived2.thread t).pc = at0 ∧ (arrived2.thread t).wait = .join 2 0 := by decide +kernel
    exact .inr ⟨(h t ht).1, 0, (h t ht).2⟩
  · intro s h
    have h1 : 1 ∈ s.crewThreads 0 ∧ maskBit s 0 2 (tidOf 1) = true ∧ (s.thread 1).exited = false ∧ (s.thread 1).wait = .none := by
      decide +kernel
    rcases h 1 h1.1 h1.2.1 with h2 | ⟨-, g, hg⟩
    · rw [h1.2.2.1] at h2; cases h2
    · rw [h1.2.2.2] at hg; cases hg

def fVote : Fields := { plain .b32 6 (.special (.pred 1)) no with xc := 3 }
def fShfl : Fields := { plain .b32 4 (vr 1) (.imm 1) with xc := 3 }
def fMatch : Fields := plain .b32 2 (vr 1) no
def fRedux : Fields := plain .b32 7 (vr 1) no
def fElect : Fields := { plain .b32 3 (vr 2) no with xc := 1 }
/-- The quarter of file 17: threads 0 to 7 without 5, v1, p1 and, for `elect`, v2. -/
def quarter : State :=
  let s := crew 8 (fun t => [(1, reg ([7, 3, 7, 9, 3, 0, 7, 9].getD t 0)), (2, reg ([0x45, 0x12, 0x45, 0x88, 0x12, 0, 0x45, 0x88].getD t 0))])
    fun t => [(1, { val := [true, false, true, true, false, false, true, true].getD t false })]
  { s.modThread 5 fun th => { th with exited := true } with cur := some (.group 0 at0 [0, 1, 2, 3, 4, 6, 7]) }
/-- The threads of the quarter. -/
def lanes : List Nat := [0, 1, 2, 3, 4, 6, 7]

theorem wit_CrewOperations : quarter.cur = some (.group 0 at0 lanes) ∧
    (Instr.vote fVote).wellFormed ∧ (crewRun (.vote fVote) fVote 1 .b32 0 .b32 (voteResult fVote) at0 lanes quarter).isSome ∧
    (Instr.shfl fShfl).wellFormed ∧ (crewRun (.shfl fShfl) fShfl 1 .b32 1 .b32 (shflResult fShfl) at0 lanes quarter).isSome ∧
    (Instr.match_ fMatch).wellFormed ∧ (crewRun (.match_ fMatch) fMatch 1 .b32 0 .b32 (matchResult fMatch) at0 lanes quarter).isSome ∧
    (Instr.redux fRedux).wellFormed ∧ (crewRun (.redux fRedux) fRedux 1 .b32 0 .b32 (reduxResult fRedux) at0 lanes quarter).isSome ∧
    (Instr.elect fElect).wellFormed ∧ (crewRun (.elect fElect) fElect 1 .b32 0 .b32 (electResult fElect) at0 lanes quarter).isSome := by
  decide +kernel

/-- The results of file 17: the mask 0xCD, the classes, one leader of each, the sum 45, the values of the neighbours. -/
theorem test_vote : ∀ t ∈ lanes, vAfter (.vote fVote) quarter t 6 = 0xCD := by decide +kernel
theorem test_match : lanes.map (vAfter (.match_ fMatch) quarter · 2) = [0x45, 0x12, 0x45, 0x88, 0x12, 0x45, 0x88] := by decide +kernel
theorem test_elect : lanes.map (pAfter (.elect fElect) quarter · 3) = [true, true, false, true, false, false, false] := by decide +kernel
theorem test_redux : ∀ t ∈ lanes, vAfter (.redux fRedux) quarter t 7 = 45 := by decide +kernel
theorem test_shfl : lanes.map (vAfter (.shfl fShfl) quarter · 4) = [3, 7, 9, 7, 3, 9, 7] ∧
    lanes.map (vAfter (.shfl { fShfl with xc := 1 }) quarter · 4) = [3, 7, 9, 3, 3, 9, 9] := by decide +kernel

/-! ## Traps and system registers -/

def fTrap : Fields := plain .b32 0 no (.imm 0x42)
def fHost : Fields := { plain .b32 0 no (.imm 9) with xc := 1 }
def fCsrr : Fields := { plain .u64 8 no no with xc := 2 }
def fCsrw : Fields := { plain .u64 0 (vr 8) no with xc := 4 }
def fSleep : Fields := plain .b32 0 no (.imm 100)
/-- A mark in slot 3. -/
def mark3 : Mark := { slot := 3, addr := 0x3FFFFFF4, logPos := 0, seq := 0 }
/-- One thread with a mark in slot 3. -/
def tainted : State := inThread (one []) fun th => { th with marks := [mark3] }
/-- One thread in its handler. -/
def handling : State := inThread (one []) fun th => { th with handler := true, epc := 0x40000200 }
/-- One thread of a context with a debugger. -/
def debugged : State := (one []).modHelm fun h => { h with attached := [1] }
/-- Thread 0 has a long-latency result to come. -/
def working (s : State) : State := inThread s fun th => { th with out := [{ id := 5, dests := [.v 20], seq := 0 }] }

theorem traps : trapsAtOnce (one []) 0 := by unfold trapsAtOnce; decide +kernel

theorem wit_TrapEntry : (((one []).thread 0).exited = false ∧ trapsAtOnce (one []) 0) ∧
    ((tainted.thread 0).exited = false ∧ (tainted.thread 0).region = none ∧ tainted.plainUnion 0 ≠ 0) ∧
    ((handling.thread 0).exited = false ∧ (handling.thread 0).region = none ∧ handling.plainUnion 0 = 0 ∧ (handling.thread 0).handler = true) ∧
    let s := inBlock (one []) fun b => { b with tba := 0 }
    (s.thread 0).exited = false ∧ (s.thread 0).region = none ∧ s.plainUnion 0 = 0 ∧ (s.block (blockOf 0)).tba = 0 :=
  ⟨⟨rfl, traps⟩, by decide +kernel⟩

theorem wit_TrapWords :
    (∃ w ∈ trapWords, (w.1 fTrap).WellFormed ∧ Alone (one []) (w.1 fTrap) fTrap at0 0 ∧ trapsAtOnce ((one []).pastGuard 0 at0 fTrap) 0 ∧
      (one []).helm.attached.contains ((one []).block (blockOf 0)).ctx = false) ∧
    ((one []).cur = some (.group 0 at0 [0]) ∧ ((one []).thread 0).exited = false ∧ trapsAtOnce (one []) 0) ∧
    (Instr.brk fTrap).WellFormed ∧ ∀ e ∈ [(debugged, false), (working debugged, true)],
      Alone e.1 (.brk fTrap) fTrap at0 0 ∧ (tget e.1.crews (crewOf 0)).isSome ∧ (e.1.crew (crewOf 0)).halted = none ∧
        e.1.helm.attached.contains (e.1.block (blockOf 0)).ctx = true ∧
        ((entered e.1 0 at0 fTrap).modThread 0 fun th => { th with pc := at0, wait := .brk }).longDue (crewOf 0) = e.2 := by
  refine
  ⟨⟨trapWords[0], List.getElem_mem _, wf (by decide +kernel), alone_of (by decide +kernel), by unfold trapsAtOnce; decide +kernel, rfl⟩,
    ⟨rfl, rfl, traps⟩, wf (by decide +kernel), fun e he => ?_⟩
  fin_cases he <;> exact ⟨alone_of (by decide +kernel), by decide +kernel⟩

theorem wit_ReturnFromTrap : (Instr.rtt fNo).WellFormed ∧ (Alone handling (.rtt fNo) fNo at0 0 ∧ (handling.thread 0).handler = true) ∧
    Alone (one []) (.rtt fNo) fNo at0 0 ∧ ((one []).thread 0).handler = false :=
  ⟨wf (by decide +kernel), ⟨alone_of (by decide +kernel), rfl⟩, alone_of (by decide +kernel), rfl⟩

theorem wit_SystemRegisters :
    (∀ g : State → List W32, meets (.csrr fCsrr) fCsrr (fun t s => some (s.writeGroup t .v fCsrr.dst.toNat (g s) false 0)) (one []) [0]) ∧
    ∀ e ∈ [(target 0x40001000 0, fCsrw, true), (target 0x40001002 0, fCsrw, false), (target 0x40001000 0, { fCsrw with xc := 2 }, true)],
      (Instr.csrw e.2.1).WellFormed ∧ Alone e.1 (.csrw e.2.1) e.2.1 at0 0 ∧
      ∃ o, (entered e.1 0 at0 e.2.1).readSrc 0 e.2.1.ty.regs e.2.1.ty e.2.1.sa = .ok o ∧ o.poison = false ∧ (badTarget o = none ↔ e.2.2 = true) ∧
        (tget e.1.blocks (blockOf 0)).isSome := by
  refine ⟨fun g => meets_of (by decide +kernel) rfl rfl, ?_⟩
  intro e he
  fin_cases he <;> exact ⟨wf (by decide +kernel), alone_of (by decide +kernel), _, rfl, by decide +kernel⟩

theorem wit_SleepAndHostTrap :
    (∀ e ∈ [(one [], (0 : BitVec 20)), (one [], 1), (inThread (one []) fun th => { th with slept := some at0 }, 1)], let f := plain .b32 0 no (.imm e.2)
      (Instr.sleep f).WellFormed ∧ Alone e.1 (.sleep f) f at0 0 ∧ ∃ o, (entered e.1 0 at0 f).readSrc 0 1 .b32 f.sb = .ok o ∧
        o.poison = false ∧ o.val = e.2.toNat) ∧
    (let s := inThread (one []) fun th => { th with wait := .asleep 0 }
     (s.thread 0).wait = .asleep 0 ∧ (s.thread 0).exited = false) ∧
    (Instr.trapHost fHost).WellFormed ∧ ∀ s ∈ [one [], tainted], Alone s (.trapHost fHost) fHost at0 0 ∧
      (((entered s 0 at0 fHost).modThread 0 fun th => { th with pc := at0, wait := .host 9 }).holds 0 = false ↔ s = one []) := by
  refine ⟨?_, by decide +kernel, wf (by decide +kernel), ?_⟩
  · intro n hn
    fin_cases hn <;> exact ⟨wf (by decide +kernel), alone_of (by decide +kernel), _, rfl, by decide +kernel⟩
  · intro s hs
    fin_cases hs <;> exact ⟨alone_of (by decide +kernel), by decide +kernel⟩

/-- The rows of file 21: `rtt` outside a handler, `csrw` of sys.epc outside a handler, of sys.tba with a datum ending in 0x2, `(!p15) ill`,
`(!p15) ill.zero`, `trap 0x42`. -/
theorem test_rtt_outside : ((after (.rtt fNo) (one [])).thread 0).cause = 1 := by decide +kernel
theorem test_csrw_epc_outside : ((after (.csrw { fCsrw with xc := 2 }) (target 0x40001000 0)).thread 0).cause = 6 := by decide +kernel
theorem test_csrw_tba_misaligned : ((after (.csrw fCsrw) (target 0x40001002 0)).thread 0).cause = 4 ∧
    ((after (.csrw fCsrw) (target 0x40001002 0)).block 0).tba = 0x40000100 := by decide +kernel
theorem test_ill_guarded : ((after (.ill { fTrap with gneg := true }) (one [])).thread 0).pc = 0x4000000C ∧
    ((after (.ill { fTrap with gneg := true }) (one [])).thread 0).handler = false := by decide +kernel
theorem test_ill_zero : ((after .illZero (one [])).thread 0).cause = 1 ∧ ((after .illZero (one [])).thread 0).epc = at0 := by decide +kernel
theorem test_trap : ((after (.trap fTrap) (one [])).thread 0).cause = 15 ∧ ((after (.trap fTrap) (one [])).thread 0).badaddr = 0x42 ∧
    ((after (.trap fTrap) (one [])).thread 0).epc = 0x4000000C ∧ ((after (.trap fTrap) (one [])).thread 0).pc = 0x40000100 := by decide +kernel
theorem test_rtt : ((after (.rtt fNo) handling).thread 0).pc = 0x40000200 ∧ ((after (.rtt fNo) handling).thread 0).handler = false := by
  decide +kernel
/-- The link of a call, and its target 480 bytes ahead (file 17). -/
theorem test_call : vAfter (.call fCall) (one []) 0 30 = 0x4000000C ∧ vAfter (.call fCall) (one []) 0 31 = 0 ∧
    ((after (.call fCall) (one [])).thread 0).pc = 0x400000A0 := by decide +kernel

/-! ## Memory -/

/-- The entry of a table or of a page of this device: readable, writable, executable. -/
def tableOf (pa : Nat) : List Byte := leBytes 16 (pa + 1)
/-- A leaf of this device with some more bits. -/
def leafOf (pa bits : Nat) : List Byte := leBytes 16 (pa + 0x1F + bits)

/-- Page tables of context 1: 0 and 0x40000000 on pages of 1 GiB of this device, 0x80000000 on a page of device 5, 0xC0000000 on an fp4bs
page whose frame lies at 0x8000. -/
def tables : List Host.Cell :=
  let put := fun m (e : Nat × List Byte) => memWrite m e.1 e.2
  [(0x1008, leBytes 8 0x2000), (0x2000, tableOf 0x4000), (0x4000, tableOf 0x6000), (0x6000, leafOf 0x40000000 0),
   (0x6010, leafOf 0x80000000 0), (0x6020, leBytes 16 (0x40000000 + 0x4F + 5 * 2 ^ 52)), (0x6030, tableOf 0x8000), (0x8000, tableOf 0xA000),
   (0xA000, leBytes 16 (0xC0000000 + 0xF + 2 ^ 8 + 1 * 2 ^ 64))].foldl put []

/-- A small state with the page tables, whose block may access the pages. -/
def paged (s : State) : State :=
  inBlock { s with mem := tables, helm := { s.helm with trtab := 0x1000, fabValid := true } } fun b =>
    { b with launch := { launch0 with
        windows := [(0x40000200, 64)],
        regions := [0x10000, 0x40000000, 0x80000000, 0xC0000000].map fun x => { base := x, extent := 0x10000, stride := 0, acc := .rw } } }

/-- Thread 0 with an address in v8:v9 and data in v10 and v11. -/
def addressed (x : W32) : State := paged (one [(8, reg x), (10, reg 0x11223344), (11, reg 0x55667788)])

def fLd : Fields := plain .b32 20 (vr 8) (.imm 0)
def fSt : Fields := plain .b32 10 (vr 8) (.imm 0)
def fStRel : Fields := { fSt with ord := 2, scope := 5 }
def fLdC : Fields := { plain .b32 20 (vr 8) (.imm 4) with xc := 0 }
def fBscale : Fields := plain .f32 20 (vr 8) (vr 10)
def fAtom : Fields := plain .b32 20 (vr 8) (vr 10)
def fRed : Fields := plain .b32 0 (vr 8) (vr 10)
theorem wit_Loads :
    meets (.ldG fLd) fLd (loadGlobalPart fLd) (addressed 0x10000) [0] ∧ meets (.ldG fLd) fLd (loadGlobalPart fLd) (addressed 0x80000000) [0] ∧
    meets (.ldS fLd) fLd (fun t => loadScratchPart (.ldS fLd) fLd
      (fun x n size s => (placeS t x n size s).map fun off => ((s.block (blockOf t)).core, off)) true t) (addressed 0xFFFC) [0] ∧
    meets (.ldX fLd) fLd (fun t => loadScratchPart (.ldX fLd) fLd (placeX t) false t) (addressed 0xFFFC) [0] ∧
    meets (.ldC fLdC) fLdC (loadConstPart fLdC) (addressed 56) [0] := by
  refine ⟨?_, ?_, ?_, ?_, ?_⟩ <;> exact meets_of (by decide +kernel) rfl (by decide +kernel)

theorem wit_Stores :
    meets (.stG fSt) fSt (storeGlobalPart fSt) (addressed 0x1FFFC) [0] ∧ meets (.stG fStRel) fStRel (storeGlobalPart fStRel) (addressed 0x10000) [0] ∧
    meets (.stG fSt) fSt (storeGlobalPart fSt) (addressed 0x80000000) [0] ∧
    meets (.stS fSt) fSt (storeSPart fSt) (addressed 0xFFFC) [0] ∧ meets (.stX fSt) fSt (storeXPart fSt) (addressed 0xFFFC) [0] ∧
    meets (.bscale fBscale) fBscale (bscalePart fBscale) (addressed 0xC0000000) [0] := by
  refine ⟨?_, ?_, ?_, ?_, ?_, ?_⟩ <;> exact meets_of (by decide +kernel) rfl (by decide +kernel)

theorem wit_AtomicsAndReductions :
    meets (.atomG fAtom) fAtom (atomGlobalPart fAtom false) (addressed 0x1FFFC) [0] ∧
    meets (.redG fRed) fRed (atomGlobalPart fRed true) (addressed 0x10000) [0] ∧
    meets (.atomS fAtom) fAtom (atomScratchPart fAtom false) (addressed 0xFFFC) [0] ∧
    meets (.redS fRed) fRed (atomScratchPart fRed true) (addressed 0) [0] ∧
    meets (.atomX fAtom) fAtom (atomPeerPart fAtom) (addressed 0xFFFC) [0] := by
  refine ⟨?_, ?_, ?_, ?_, ?_⟩ <;> exact meets_of (by decide +kernel) rfl (by decide +kernel)

theorem nothingLate_of {s : State} (h : s.threads.all (fun e => e.2.lates.isEmpty) = true) : nothingLate s := by
  intro u
  show (tgetD s.threads u { pc := 0, exited := true }).lates = []
  generalize s.threads = l at h
  induction l with
  | nil => rfl
  | cons e r ih =>
    simp only [List.all_cons, Bool.and_eq_true, List.isEmpty_iff] at h
    by_cases hu : e.1 = u
    · simp [tgetD, tget, hu, h.1]
    · simpa [tgetD, tget, hu] using ih h.2

/-- Every load, at a word in reach of it. -/
theorem wit_Loads_stands : ∀ e ∈ [(loadParts[0], fLd, 0x10000), (loadParts[0], fLd, 0x80000000), (loadParts[1], fLdC, 56), (loadParts[2], fLd, 0xFFFC),
      (loadParts[3], fLd, 0xFFFC)],
    (e.1.1 e.2.1).WellFormed ∧ e.2.1.ord = 0 ∧ Alone (addressed e.2.2) (e.1.1 e.2.1) e.2.1 at0 0 ∧ nothingLate (addressed e.2.2) ∧
      (e.1.2 e.2.1 0 (entered (addressed e.2.2) 0 at0 e.2.1)).isSome = true := by
  intro e he
  fin_cases he <;> exact ⟨wf (by decide +kernel), rfl, alone_of (by decide +kernel), nothingLate_of (by decide +kernel), by decide +kernel⟩

/-- Thread 0 with one unit to perform, and its results. -/
def lateOf (u : LateUnit) (o : List Outstanding := []) : State := inThread (one []) fun th => { th with pend := [(1, .late none 0 u)], out := o }
theorem due_lateOf (u : LateUnit) (o : List Outstanding) : due (lateOf u o) 0 1 none u :=
  ⟨rfl, fun _ h => absurd h (List.not_mem_nil), fun h => absurd rfl h⟩
/-- A page of this device at a word. -/
def page0 : Page := { pa := 0x40010000, r := true, w := true, x := true, fmt := 0, peer := none, frame := 0, synonym := none, size := 2 ^ 30 }
/-- The last byte of a line. -/
def pageEnd : Page := { page0 with pa := 0x4001007F }
/-- A load of one word that has still to read it. -/
def result0 : Outstanding := { id := 5, dests := [.v 20], seq := 0, late := some { f := fLd, block := false, got := [none] } }
theorem uncached_of {s : State} (h : s.outbound = []) (h1 : s.cores.all (fun c => c.2.l1.isEmpty) = true) : uncached s :=
  ⟨h, fun c hc => List.isEmpty_iff.mp (List.all_eq_true.mp h1 c hc)⟩

/-- A unit of memory and one of a scratchpad, the last of their result; the part of the result that is read. -/
theorem wit_Loads_performed :
    (let u := LateUnit.read 5 0 2 0x10000 page0 4
     due (lateOf u [result0]) 0 1 none u ∧ (∃ g, pieceRead (lateOf u [result0]) u 5 0 g) ∧ resultAt (lateOf u [result0]) 0 5 = some result0) ∧
    (let u := LateUnit.readS 5 0 0 0xFFFC 4
     due (lateOf u [result0]) 0 1 none u ∧ (∃ g, pieceRead (lateOf u [result0]) u 5 0 g) ∧ resultAt (lateOf u [result0]) 0 5 = some result0) ∧
    (result0.late = some { f := fLd, block := false, got := [none] } ∧ 0 < ([none] : List (Option Got)).length ∧ fLd.xc.getLsbD 2 = false) :=
  ⟨⟨due_lateOf _ _, ⟨_, rfl, rfl, rfl, uncached_of rfl rfl, ⟨by decide, by decide⟩, by decide, rfl⟩, rfl⟩,
    ⟨due_lateOf _ _, ⟨_, rfl, rfl, rfl⟩, rfl⟩, rfl, by decide, rfl⟩

/-- Every store, of one page. -/
theorem wit_Stores_stands :
    (∀ e ∈ [(storeParts[0], 0x10000), (storeParts[0], 0x80000000), (storeParts[1], 0xFFFC)],
      (e.1.1 fSt).WellFormed ∧ Alone (addressed e.2) (e.1.1 fSt) fSt at0 0 ∧ (e.1.2 fSt 0 (entered (addressed e.2) 0 at0 fSt)).isSome = true) ∧
    (fSt.ord = 0 ∧ fBscale.ord = 0) ∧
    ((Instr.stS fSt).WellFormed ∧ Alone (addressed 0xFFFC) (.stS fSt) fSt at0 0 ∧ nothingLate (addressed 0xFFFC) ∧
      (storeSPart fSt 0 (entered (addressed 0xFFFC) 0 at0 fSt)).isSome = true ∧
      (addressS fSt true 0 (entered (addressed 0xFFFC) 0 at0 fSt)).map (·.2) = some 0xFFFC ∧
      placeS 0 0xFFFC (bytesAt fSt) fSt.ty.bytes (entered (addressed 0xFFFC) 0 at0 fSt) = some 0xFFFC) ∧
    ((Instr.bscale fBscale).WellFormed ∧ Alone (addressed 0xC0000000) (.bscale fBscale) fBscale at0 0 ∧
      (bscalePart fBscale 0 (entered (addressed 0xC0000000) 0 at0 fBscale)).isSome = true) := by
  refine ⟨fun e he => ?_, ⟨rfl, rfl⟩, ⟨wf (by decide +kernel), alone_of (by decide +kernel), nothingLate_of (by decide +kernel), by decide +kernel,
    by decide +kernel, by decide +kernel⟩, wf (by decide +kernel), alone_of (by decide +kernel), by decide +kernel⟩
  fin_cases he <;> exact ⟨wf (by decide +kernel), alone_of (by decide +kernel), by decide +kernel⟩

/-- A page of this device under each element; a byte of memory at home, at a line's end, and in the L1; a nibble; an encode store. -/
theorem wit_Stores_performed :
    ((∀ p ∈ [page0], p.peer = none) ∧ [page0].length = fSt.count) ∧
    (let u := LateUnit.scratch 0 0xFFFF [7] true false
     due (lateOf u) 0 1 none u) ∧
    (∀ scope ∈ [2, 3], let u := LateUnit.mem scope 0x1007F pageEnd [7] false
     due (lateOf u) 0 1 none u ∧ uncached (lateOf u) ∧ (lateOf u).memOk ∧ inLine 0x1007F pageEnd 1 ∧ (goesHome scope pageEnd ↔ scope = 3) ∧
       homeDie pageEnd.pa = dieOf ((lateOf u).coreOf 0)) ∧
    (let u := LateUnit.nibble 3 0x10000 page0 true 9
     due (lateOf u) 0 1 none u ∧ uncached (lateOf u) ∧ (lateOf u).memOk ∧ goesHome 3 page0 ∧ homeDie page0.pa = dieOf ((lateOf u).coreOf 0)) ∧
    let f : Fields := { plain .f32 10 (vr 8) (.imm 0) with scope := 3 }
    let u := LateUnit.encode f at0 0x10000 page0 page0 page0 0x3F800000 false none none
    due (lateOf u) 0 1 none u ∧ page0.peer = none ∧ uncached (lateOf u) ∧ 3 ≤ f.scope.toNat ∧
      writesSpecial f 0x3F800000 0 = false ∧ writesSpecial f 0x7F800000 0 = true ∧ page0.w = true := by
  refine ⟨by decide, due_lateOf _ _, fun scope h => ?_,
    ⟨due_lateOf _ _, uncached_of rfl rfl, rfl, .inl (by decide), by decide +kernel⟩,
    due_lateOf _ _, rfl, uncached_of rfl rfl, by decide, by decide +kernel, by decide +kernel, rfl⟩
  fin_cases h
  · exact ⟨due_lateOf _ _, uncached_of rfl rfl, rfl, ⟨by decide, by decide⟩, by simp [goesHome, pageEnd, page0], by decide +kernel⟩
  · exact ⟨due_lateOf _ _, uncached_of rfl rfl, rfl, ⟨by decide, by decide⟩, by simp [goesHome], by decide +kernel⟩

theorem addressed_mem (x : W32) : (addressed x).mem = tables := by simp only [addressed, paged, inBlock, State.modBlock]
theorem tables_wf : Memory.wf tables = true := by decide +kernel
theorem addressed_memOk (x : W32) : (addressed x).memOk := by
  rw [State.memOk, addressed_mem]
  exact tables_wf

/-- Every read-modify-write, here and on another device. -/
theorem wit_AtomicsAndReductions_stands :
    ∀ e ∈ [(atomicParts[0], fAtom, (0x10000 : W32)), (atomicParts[1], fRed, 0x10000), (atomicParts[1], fRed, 0x80000000), (atomicParts[2], fAtom, 0xFFFC),
        (atomicParts[3], fRed, 0xFFFC), (atomicParts[4], fAtom, 0xFFFC)],
      (e.1.1 e.2.1).WellFormed ∧ e.2.1.ord = 0 ∧ Alone (addressed e.2.2) (e.1.1 e.2.1) e.2.1 at0 0 ∧
        (e.1.2 e.2.1 0 (entered (addressed e.2.2) 0 at0 e.2.1)).isSome = true := by
  intro e he
  fin_cases he <;> exact ⟨wf (by decide +kernel), rfl, alone_of (by decide +kernel), by decide +kernel⟩

/-- An atomic and a reduction still to be performed, at the last word of a scratchpad part and in memory, here and on another device. -/
theorem wit_AtomicsAndReductions_performed :
    (∀ eff ∈ [Effect.atomL fAtom 0 0xFFFC 1 true 0 5, .redS fRed 0 0xFFFC 1 0], let s := lateOf (.effect eff [])
      due s 0 1 none (.effect eff []) ∧ (s.core 0).sectorPoison 0xFFFC 4 = false) ∧
    ∀ eff ∈ [Effect.atomG fAtom 0x10000 page0 1 5, .redG fRed 0x10000 page0 1, .redG fRed 0x80000000 { page0 with peer := some 5 } 1],
      let s := (lateOf (.effect eff [])).modHelm fun h => { h with fabValid := true }
      due s 0 1 none (.effect eff []) ∧ s.memOk ∧ uncached s ∧ s.helm.fabValid = true ∧ s.poisoned page0.pa 4 = false := by
  refine ⟨fun eff h => ⟨due_lateOf _ _, ?_⟩, fun eff h => ⟨⟨rfl, fun _ h => absurd h (List.not_mem_nil), fun h => absurd rfl h⟩, ?_⟩⟩
  · fin_cases h <;> decide +kernel
  · fin_cases h <;> exact ⟨rfl, uncached_of rfl rfl, rfl, by decide +kernel⟩

def fCas : Fields := { fAtom with xc := 7 }

/-- A sound word and a poisoned one; a compare that succeeds and one that fails. -/
theorem wit_AtomicOperations :
    (∀ f ∈ [fAtom, fCas], f.ty ∈ atomTypes f.aop ∧ (0xFFFFFFFF : Nat) < 2 ^ atomBits f ∧
      (0xFFFFFFFF : Nat) < 2 ^ (if f.aop = 7 then 2 * atomBits f else atomBits f)) ∧
    (∀ e ∈ [(one [], false), ({ one [] with marked := [0x40010000 / 32] }, true)], e.1.memOk ∧ settled e.1 ∧ e.1.poisoned 0x40010000 4 = e.2) ∧
    (atomNew fCas 5 (6 * 2 ^ 32 + 5) = 6 ∧ atomNew fCas 5 (6 * 2 ^ 32 + 4) = 5) ∧
    ((addressed 0).core 0).sectorPoison 0 4 = false ∧
    ((inCore (addressed 0) fun c => { c with spoison := [0] }).core 0).sectorPoison 0 4 = true := by
  refine ⟨by decide +kernel, fun e he => ?_, by decide +kernel, by decide +kernel, by decide +kernel⟩
  fin_cases he <;> exact ⟨rfl, by unfold settled; decide +kernel, by decide +kernel⟩

/-- A line of die 0 and one of die 1. -/
theorem wit_ReadBack : nothingLate (one []) ∧ (one []).memOk ∧ homeDie 0x40010000 = 0 ∧ homeDie 0x4000000000 ≠ 0 ∧ (tget (one []).threads 0).isSome ∧
    (2 : Nat) < 3 ∧ (0x1007C : W64).toNat % 128 + 4 ≤ 128 ∧ (∀ l ∈ ((one []).core 0).l1, l.data.length = 128 ∧ l.red = none) ∧
    ((one []).core 0).l1.length < ((one []).core 0).l1Lines ∧ (∀ l, ((one []).core 0).line 1 0x1007C = some l → l.pa + 0x7C = 0x4001007C) ∧
    (0x1007C : W64).toNat % 128 ≤ 0x4001007C :=
  ⟨nothingLate_of (by decide +kernel), rfl, by decide, by decide, by decide, by decide, by decide, (fun l h => by cases h), by decide +kernel,
    (fun l h => by cases h), by decide⟩

/-- An address in v8:v9, poisoned; not canonical; not aligned; not declared; past the scratchpad. -/
theorem wit_AddressChecks :
    (∀ e ∈ [(one [(8, { val := 0, poison := true })], true), (addressed 0x10002, false), (addressed 0x20000, false)],
      (Instr.ldG fLd).WellFormed ∧ Alone e.1 (.ldG fLd) fLd at0 0 ∧ ∃ o, (entered e.1 0 at0 fLd).readSrc 0 2 .u64 fLd.sa = .ok o ∧ o.poison = e.2) ∧
    (∀ e ∈ [((0x10002 : W64), Cause.misalign), (0x20000, .undeclared), (0x00FFFFFFFFFFFFFE, .permission)],
      (addressed 0).locate 0 e.1 4 1 .load (fmtOk fLd) = .error (.trap e.2 e.1)) ∧
    (validVa (0x00FFFFFFFFFFFFFE + 2) = false ∧ validVa (0x1FFFE + 1) = true ∧
      ((addressed 0).block (blockOf 0)).accessAt (0x20000 : W64).toNat = none) ∧
    ∀ e ∈ [(one [(8, { val := 0, poison := true })], true, (0 : Nat)), (one [(8, reg 0xFFFD)], false, 1), (one [(8, reg 0xFFFE)], false, 1),
        (one [(8, reg 0xFFFA)], false, 2)],
      (Instr.ldS fLd).WellFormed ∧ Alone e.1 (.ldS fLd) fLd at0 0 ∧ ∃ o, (entered e.1 0 at0 fLd).readSrc 0 1 .b32 fLd.sa = .ok o ∧
        o.poison = e.2.1 ∧ (e.2.2 = 1 → 1024 * (e.1.block (blockOf 0)).launch.spKib < o.val + bytesAt fLd) ∧
        (e.2.2 = 2 → o.val + bytesAt fLd ≤ 1024 * (e.1.block (blockOf 0)).launch.spKib ∧ o.val % 4 ≠ 0) := by
  refine ⟨?_, by decide +kernel, by decide +kernel, ?_⟩
  · intro e he
    fin_cases he <;> exact ⟨wf (by decide +kernel), alone_of (by decide +kernel), _, rfl, rfl⟩
  · intro e he
    fin_cases he <;> exact ⟨wf (by decide +kernel), alone_of (by decide +kernel), _, rfl, by decide +kernel⟩

/-! ## Queues, tiles, barriers, the matrix sequencer -/

/-- One thread whose block holds n entries in q3. -/
def queued (n : Nat) : State :=
  inBlock (one [(2, reg 9)]) fun b => { b with queues := [(3, (List.range n).map fun k => { val := BitVec.ofNat 64 k, poison := false })] }
def fPush : Fields := plain .u64 3 (vr 2) no
def fPop : Fields := plain .u64 4 (.special (.queue 3)) no
def fStat : Fields := { plain .b32 4 no no with xc := 12 }
def fFence : Fields := { plain .b32 0 no no with ord := 3, scope := 6 }
def fPref : Fields := plain .b32 0 (vr 8) (.imm 4)
/-- One thread with a write that is not yet performed; one with a failed posted write; one with a mark. -/
def pending : State := inThread (one []) fun th => { th with pend := [(1, .home)] }
def failedPost (s : State) : State := inThread s fun th => { th with postFail := some 0x123 }

theorem wit_QueuesAndFences :
    meets (.qpush fPush) fPush (qpushPart fPush) (queued 15) [0] ∧ meets (.qpop fPop) fPop (qpopPart fPop 3) (queued 1) [0] ∧
    meets (.qstat fStat) fStat (fun t s =>
      some (s.writeLoc t (.v fStat.dst.toNat) (BitVec.ofNat 32 (queueStatus fStat (s.block (blockOf t)))) false 0)) (queued 16) [0] ∧
    (Instr.fence fFence).WellFormed ∧
    (∀ e ∈ [(one [], false, true, none), (failedPost (one []), false, true, some 0x123), (pending, false, false, none), (tainted, true, true, none),
        (failedPost tainted, true, true, some 0x123)],
      Alone e.1 (.fence fFence) fFence at0 0 ∧ (entered e.1 0 at0 fFence).holds 0 = e.2.1 ∧
        (e.2.1 = false → (fenceDone ((entered e.1 0 at0 fFence).startRelease 0 6 3) 0 6 3 ↔ e.2.2.1 = true)) ∧
        ((entered e.1 0 at0 fFence).thread 0).postFail = e.2.2.2 ∧
        (((entered e.1 0 at0 fFence).startRelease 0 6 3).thread 0).postFail = e.2.2.2) ∧
    (Instr.prefetch fPref).WellFormed ∧ Alone (addressed 0x10000) (.prefetch fPref) fPref at0 0 ∧
      ((addressed 0x10000).core 0).l1.length < ((addressed 0x10000).core 0).l1Lines := by
  refine ⟨meets_of (by decide +kernel) rfl (by decide +kernel), meets_of (by decide +kernel) rfl (by decide +kernel),
    meets_of (by decide +kernel) rfl (by decide +kernel), wf (by decide +kernel), ?_, wf (by decide +kernel), alone_of (by decide +kernel), by decide +kernel⟩
  intro e he
  unfold fenceDone
  fin_cases he <;> exact ⟨alone_of (by decide +kernel), by decide +kernel⟩

def fAccld : Fields := plain .f32 8 (.special (.acc 2)) (vr 1)
def fAccst : Fields := { plain .f32 2 (vr 1) (vr 4) with xc := 1 }
/-- One thread with a position in v1, over a tile 2. -/
def tiled (pos : W32) (x : Tile) : State := inBlock (one [(1, reg pos), (4, reg 0x3F800000)]) fun b => { b with tiles := [(2, x)] }
/-- A tile in fixed point with 2.0 in row 3, column 8. -/
def tile38 : Tile := { mode := .fix64, bandA0 := some 0x3F80, bandB0 := some 0x3F80, kcount := 8, el := [(392, 0x20000)] }

theorem wit_TileTransfers :
    (fAccld.sa = .special (.acc 2) ∧ meets (.accld fAccld) fAccld (accldPart fAccld 2) (tiled 0x803 tile38) [0]) ∧
    (Instr.accst fAccst).WellFormed ∧ fAccst.sb = .reg 4 false false ∧
    ∀ e ∈ [(tiled 0x803 tile38, true), (tiled 0x703 tile38, false), (tiled 0x7F7F {}, false), (tiled 0x7E7F {}, true)],
      Alone e.1 (.accst fAccst) fAccst at0 0 ∧ (tget e.1.blocks (blockOf 0)).isSome ∧ ∃ o, (entered e.1 0 at0 fAccst).readSrc 0 1 .b32 fAccst.sa = .ok o ∧
        o.poison = false ∧ ((entered e.1 0 at0 fAccst).readV 0 4 2).poison = false ∧ (o.val / 2 ^ 8 % 2 ^ 7 % 2 = 0 ↔ e.2 = true) ∧
        (tgetD (e.1.block (blockOf 0)).tiles 2 {}).bad = [] := by
  refine ⟨⟨rfl, meets_of (by decide +kernel) rfl (by decide +kernel)⟩, wf (by decide +kernel), rfl, ?_⟩
  intro e he
  fin_cases he <;> exact ⟨alone_of (by decide +kernel), by decide +kernel, _, rfl, by decide +kernel⟩

def fBar : Fields := { plain .b32 3 no (.imm 2) with ord := 3, scope := 2 }
def fMbar : Fields := { plain .b32 3 no (.imm 2) with xc := 1 }
/-- The stream of block 0 at its word, with stream registers. -/
def stream (x : Tab W64) : State :=
  { inBlock (one []) (fun b => { b with sequencer := { pc := at0, st := .running, x := x } }) with cur := some (.stream 0) }
/-- Two threads, one of which waits at b3, where EXPECT is n. -/
def barred (n : Nat) : State :=
  inBlock { crew 2 (fun _ => []) with threads := [(0, { pc := at0 }), (1, { pc := at0, wait := .bar 3, arrived := 8 })] } fun b =>
    { b with bars := [(3, { arrived := 1, expect := some n })] }

theorem wit_Barriers :
    ((Instr.bar fBar).WellFormed ∧ Alone (one []) (.bar fBar) fBar at0 0 ∧
      ((entered (one []) 0 at0 fBar).startRelease 0 fBar.scope.toNat 2).performed 0 fBar.scope.toNat = true) ∧
    ((Instr.mbar fMbar).WellFormed ∧ (stream []).cur = some (.stream 0) ∧ ∀ n, ((stream []).core ((stream []).block 0).core).engine ≠ some (0, n)) ∧
    (3 : Nat) < 16 ∧ (tget (barred 2).blocks 0).isSome ∧ ((barred 2).thread 0).exited = false ∧
    phaseDone (barred 2) 0 3 (arrivedBarrier (barred 2) (tgetD ((barred 2).block 0).bars 3 {}) 2 (some 0)) (some 0) ∧
    phaseDone (barred 0) 0 3 (arrivedBarrier (barred 0) (tgetD ((barred 0).block 0).bars 3 {}) 0 (some 0)) (some 0) ∧
    ¬phaseDone (barred 3) 0 3 (arrivedBarrier (barred 3) (tgetD ((barred 3).block 0).bars 3 {}) 3 (some 0)) (some 0) := by
  refine ⟨⟨wf (by decide +kernel), alone_of (by decide +kernel), by decide +kernel⟩, ⟨wf (by decide +kernel), rfl, ?_⟩, by decide,
    by decide +kernel, by decide +kernel, ?_, ?_, ?_⟩
  · intro n h; cases h
  · show (2 : Nat) ≤ 2; exact Nat.le_refl 2
  · intro u hu
    have h : ∀ u ∈ (barred 0).blockThreads 0, ((barred 0).thread u).arrived.getLsbD 3 = true ∨ some 0 = some u := by decide +kernel
    exact .inr (h u hu)
  · show ¬(3 : Nat) ≤ 2; decide

theorem wit_SequencerWords : (stream []).cur = some (.stream 0) ∧
    (∃ v s2, streamSource (enteredStream (stream []) 0) 0 .u64 (.imm 5) = some (v, s2)) ∧
    ((2 : Nat) < ((stream []).block 0).launch.tiles ∧ ((stream []).core ((stream []).block 0).core).engine = none) ∧
    Instr.mma ∈ streamWords ∧ (one []).cur = some (.group 0 at0 [0]) :=
  ⟨rfl, ⟨_, _, rfl⟩, by decide +kernel, List.mem_cons_self .., rfl⟩

/-- Descriptors of one row at 0 with its scale at 512, and of one column at 96 with its scale at 540; M = N = 1, K = 8. -/
def mmaStream (x : Tile) : State :=
  inBlock (stream [(2, 0x20000000000 * 256), (3, 0x3F80), (4, 96 + 540 * 0x10000000000), (5, 0x3F80), (6, 0x80101)]) fun b => { b with tiles := [(2, x)] }
def fMma (ty : Ty) : Fields := { plain ty 2 (xr 2) (xr 4) with xc := 6 }
def rowA : Operand := operandOf 0x2000000000000 0x3F80
def colB : Operand := operandOf (96 + 540 * 0x10000000000) 0x3F80

theorem mma_ready (ty : Ty) (x : Tile) (h : ty = .fp4x8 ∨ ty = .e4m3x4) (h1 : x = tile38 ∨ x = {}) :
    MmaReady (mmaStream x) (fMma ty) 0 1 1 8 rowA colB 0 0 0 0 := by
  rcases h with rfl | rfl <;> rcases h1 with rfl | rfl <;>
    exact { stream := rfl, shape := by decide +kernel, rows := by decide, tile := by decide +kernel, here := by decide +kernel,
            sa := ⟨2, rfl, by decide +kernel, by decide +kernel⟩, sb := ⟨4, rfl, by decide +kernel, by decide +kernel⟩, home := by decide +kernel,
            bounds := by decide +kernel, engine := by decide +kernel, sectors := by decide +kernel, sound := by decide +kernel }

theorem wit_MatrixMultiplyFixed : (Instr.mma (fMma .fp4x8)).WellFormed ∧ MmaReady (mmaStream tile38) (fMma .fp4x8) 0 1 1 8 rowA colB 0 0 0 0 ∧
    (mmaFrom (mmaStream tile38) (fMma .fp4x8) 0).mode = .fix64 ∧ (mmaFrom (mmaStream tile38) (fMma .fp4x8) 0).kcount + 8 ≤ 2 ^ 20 ∧
    bandsAgree (mmaFrom (mmaStream tile38) (fMma .fp4x8) 0) rowA colB ∧
    ((inCore (stream []) fun c => { c with engine := some (0, 2) }).core 0).engine.isSome := by
  refine ⟨wf (by decide +kernel), mma_ready _ _ (.inl rfl) (.inl rfl), by decide +kernel, by decide +kernel, ?_, by decide +kernel⟩
  refine ⟨?_, ?_, ?_, ?_⟩ <;> intro w hw <;> cases hw <;> decide +kernel

theorem wit_MatrixMultiplyFloating : (Instr.mma (fMma .e4m3x4)).WellFormed ∧ MmaReady (mmaStream {}) (fMma .e4m3x4) 0 1 1 8 rowA colB 0 0 0 0 ∧
    (mmaFrom (mmaStream {}) (fMma .e4m3x4) 0).mode = .empty ∧ (fMma .e4m3x4).ty ≠ .fp4x8 :=
  ⟨wf (by decide +kernel), mma_ready _ _ (.inr rfl) (.inr rfl), by decide +kernel, by decide⟩

/-! ## Monitors, reckoning, messages, groups, copies -/

def fWait : Fields := { plain .b32 20 (vr 8) (vr 10) with scope := 5 }
def fWaitw : Fields := { plain .b32 20 (vr 8) (vr 10) with scope := 2 }
/-- The page of the byte of 0x0 to 0x3FFFFFFF at a physical address. -/
def pageAt (pa : Nat) : Page := { pa := pa, r := true, w := true, x := true, fmt := 0, peer := none, frame := 0, synonym := none, size := 2 ^ 30 }
/-- A monitor of a wait at 0x40010000. -/
def monitor (armed : Bool) : Watch :=
  { global := true, pa := 0x40010000, va := 0x10000, bytes := 4, signed := false, cond := 0, cmp := 1, dst := 20, acq := false, scope := 5, tags := 0,
    armed := armed }
/-- Thread 0 waits on a monitor. -/
def watching (w : Watch) : State := inThread (addressed 0x10000) fun th => { th with wait := .watch w }

theorem plainLates_of {s : State} (t : Nat) (h : s.threads.all (fun e => e.2.lates.isEmpty) = true) : plainLates s t := by
  intro u _ x hx
  rw [nothingLate_of h u] at hx
  cases hx

theorem wit_MonitorWaits :
    ((Instr.waitc fWait).WellFormed ∧ Alone (addressed 0x1FFFC) (.waitc fWait) fWait at0 0 ∧ ∃ o va b p,
      addressG fWait false 0 (entered (addressed 0x1FFFC) 0 at0 fWait) = some (o, va) ∧
      (entered (addressed 0x1FFFC) 0 at0 fWait).readSrc 0 1 .b32 fWait.sb = .ok b ∧
      (entered (addressed 0x1FFFC) 0 at0 fWait).locate 0 va 4 1 .load (fun p => p.fmt == 0 && p.peer.isNone) = .ok [p] ∧
      (entered (addressed 0x1FFFC) 0 at0 fWait).monitorsAt p.pa < 1024 ∧ ((addressed 0x1FFFC).block (blockOf 0)).stage ≠ .swapped ∧ plainLates (addressed 0x1FFFC) 0 ∧
      mayLog ((((entered (addressed 0x1FFFC) 0 at0 fWait).settleAt 0 [spanG va 4]).modThread 0 fun th => { th with pc := at0 }).recall p.pa) 0 16
        (o.tags ||| b.tags)) ∧
    ((Instr.waitw fWaitw).WellFormed ∧ Alone (addressed 0xFFFC) (.waitw fWaitw) fWaitw at0 0 ∧ ∃ o x b off,
      addressS fWaitw false 0 (entered (addressed 0xFFFC) 0 at0 fWaitw) = some (o, x) ∧
      (entered (addressed 0xFFFC) 0 at0 fWaitw).readSrc 0 1 .b32 fWaitw.sb = .ok b ∧ placeS 0 x 4 4 (addressed 0xFFFC) = some off ∧ plainLates (addressed 0xFFFC) 0 ∧
      let s2 := (entered (addressed 0xFFFC) 0 at0 fWaitw).settleAt 0 [spanS 0 off 4]
      mayLog s2 0 16 (o.tags ||| b.tags ||| (s2.core 0).sectorTags off 4)) ∧
    ((watching (monitor true)).thread 0).wait = .watch (monitor true) ∧ ((watching (monitor false)).thread 0).wait = .watch (monitor false) ∧
    ((watching (monitor false)).thread 0).exited = false ∧ (watching (monitor false)).monitorsAt (monitor false).pa < 1024 ∧
    ((watching (monitor false)).core 0).slots = [] ∧ mayLog (watching (monitor false)) 0 16 (monitor false).tags :=
  ⟨⟨wf (by decide +kernel), alone_of (by decide +kernel), _, _, _, pageAt 0x4001FFFC, rfl, rfl, by decide +kernel, by decide +kernel, by decide,
      plainLates_of 0 (by decide +kernel), .inl ⟨by decide +kernel, by decide⟩⟩,
    ⟨wf (by decide +kernel), alone_of (by decide +kernel), _, _, _, _, rfl, rfl, rfl, plainLates_of 0 (by decide +kernel),
      .inl ⟨by decide +kernel, by decide +kernel⟩⟩, rfl, rfl, rfl,
    by decide +kernel, rfl, .inl ⟨rfl, rfl⟩⟩

def fGuess : Fields := plain .b32 20 no (vr 10)
def fGuessW : Fields := { plain .b32 20 (vr 8) (vr 10) with xc := 30, scope := 5 }
def fTags : Fields := { plain .b32 20 (vr 8) no with xc := 0 }
/-- The word at v8:v9 reads 0; v30 is the pending value. -/
def pendingIs (x : W32) : State := inThread (addressed 0x10000) fun th => { th with v := tset th.v 30 (reg x) }

theorem wit_Guesses :
    (∀ s ∈ [one [], inThread (one []) fun th => { th with settled := [at0] }], (Instr.guess fGuess).WellFormed ∧
      Alone s (.guess fGuess) fGuess at0 0 ∧ ∃ b, (entered s 0 at0 fGuess).readSrc 0 1 .b32 fGuess.sb = .ok b ∧ lowestFree (entered s 0 at0 fGuess) 0 0 ∧
        mayGuess (entered s 0 at0 fGuess) 0 at0 fGuess b) ∧
    (∀ e ∈ [(pendingIs 1, false), (pendingIs 0, true)], (Instr.guessW fGuessW).WellFormed ∧ Alone e.1 (.guessW fGuessW) fGuessW at0 0 ∧ plainLates e.1 0 ∧
      ∃ o va b p, addressG fGuessW false 0 (entered e.1 0 at0 fGuessW) = some (o, va) ∧
        (entered e.1 0 at0 fGuessW).readSrc 0 1 .b32 fGuessW.sb = .ok b ∧
        (entered e.1 0 at0 fGuessW).locate 0 va 4 1 .load (fun p => p.fmt == 0 && p.peer.isNone) = .ok [p] ∧
        let s2 := ((entered e.1 0 at0 fGuessW).settleAt 0 [spanG va 4]).recall p.pa
        (ofBytes (s2.homeRead 0 p.pa 4) = ((entered e.1 0 at0 fGuessW).readXc 0 1 fGuessW).val ↔ e.2 = true) ∧ lowestFree s2 0 0 ∧
          mayGuess s2 0 at0 fGuessW b) ∧
    (Instr.tags fTags).WellFormed ∧ Alone (one []) (.tags fTags) fTags at0 0 ∧ ∃ v, tagsValue fTags 0 (entered (one []) 0 at0 fTags) = some v := by
  refine ⟨?_, ?_, wf (by decide +kernel), alone_of (by decide +kernel), _, rfl⟩
  · intro s hs
    unfold mayGuess
    fin_cases hs <;> exact ⟨wf (by decide +kernel), alone_of (by decide +kernel), _, rfl,
      ⟨by decide, by decide +kernel, fun j hj => absurd hj (Nat.not_lt_zero j)⟩, by decide +kernel⟩
  · intro e he
    unfold mayGuess
    fin_cases he <;> exact ⟨wf (by decide +kernel), alone_of (by decide +kernel), plainLates_of 0 (by decide +kernel), _, _, _, pageAt 0x40010000, rfl, rfl,
      by decide +kernel, by decide +kernel, ⟨by decide, by decide +kernel, fun j hj => absurd hj (Nat.not_lt_zero j)⟩, by decide +kernel⟩

def fAffirm : Fields := plain .b32 3 (vr 8) no
def fDeny : Fields := plain .b32 3 (vr 8) (vr 10)
/-- The mark of a guess at 0x3FFFFFF4 in slot 0. -/
def mark0 : Mark := { slot := 0, addr := 0x3FFFFFF4, logPos := 0, seq := 2 }
/-- Thread 0 has guessed in slot 0 with AID 5, its value group v20; v8 holds an AID; thread 1 has consumed the tag. -/
def guessing (aid : W32) : State :=
  let s := crew 2 fun t => [(8, reg aid), (20, if t = 0 then { val := 7, tags := 1 } else {})]
  let s := { s with cur := some (.group 0 at0 [0]), seq := 10 }
  let s := (inThread s fun th => { th with marks := [mark0] }).modThread 1 fun th => { th with marks := [{ mark0 with addr := 0x40000030, seq := 4 }] }
  inCore s fun c => { c with slots := [(0, { kind := .guess, aid := 5, ctx := 1, owner := 0, gen := 5, at_ := 0x3FFFFFF4, dst := 20, cnt := 1, seq := 2 })] }

theorem wit_Resolutions :
    (∀ e ∈ [(guessing 5, true), (one [(8, reg 6)], false)], ∀ i ∈ [(Instr.affirm fAffirm, fAffirm), (.deny fDeny, fDeny)],
      i.1.WellFormed ∧ Alone e.1 i.1 i.2 at0 0 ∧ ∃ o x, (entered e.1 0 at0 i.2).readSrc 0 1 .b32 i.2.sa = .ok o ∧ o.poison = false ∧
        (entered e.1 0 at0 i.2).readSrc 0 1 .b32 i.2.sb = .ok x ∧ (entered e.1 0 at0 i.2).guessOf (BitVec.ofNat 32 o.val) = if e.2 then some (0, 0) else none) ∧
    ((slotAt (guessing 5) 0 0).ctx = ((guessing 5).block (blockOf 0)).ctx) ∧
    ((0 : Nat) < 8 ∧ (slotAt (guessing 5) 0 0).waitForm = false ∧ (tget ((guessing 5).core 0).slots 0).isSome ∧ blockOf 0 ∈ (guessing 5).coreBlocks 0) ∧
    (slotAt (guessing 5) 0 0).kind = .guess ∧ nothingLate (guessing 5) ∧
    (1 ∈ (guessing 5).coreThreads 0 ∧ ((guessing 5).thread 1).exited = false ∧
      ((guessing 5).thread 1).earliest (((guessing 5).core 0).closure 0) = some { mark0 with addr := 0x40000030, seq := 4 } ∧
      1 ≠ (slotAt (guessing 5) 0 0).owner) ∧
    (0 ∈ (guessing 5).coreThreads 0 ∧ ((guessing 5).thread 0).exited = false ∧
      ∃ m ∈ ((guessing 5).thread 0).marks, m.slot = 0 ∧ m.seq = (slotAt (guessing 5) 0 0).seq) := by
  refine ⟨?_, rfl, by decide +kernel, rfl, nothingLate_of (by decide +kernel), by decide +kernel, by decide +kernel⟩
  intro e he i hi
  fin_cases he <;> fin_cases hi <;> exact ⟨wf (by decide +kernel), alone_of (by decide +kernel), _, _, rfl, by decide +kernel, rfl, by decide +kernel⟩

/-- The same guess in the wait form, which nothing depends on: v20 is still to be written. -/
def waitGuess : State :=
  let s := { one [(8, reg 5)] with seq := 10 }
  inCore (inThread s fun th => { th with deferred := [(5, 20, 1)] }) fun c =>
    { c with slots := [(7, { kind := .guess, aid := 5, ctx := 1, owner := 0, gen := 5, at_ := 0x3FFFFFF4, dst := 20, cnt := 1, seq := 2, waitForm := true })] }

theorem wit_Resolutions_waitForm : (7 : Nat) < 8 ∧ (slotAt waitGuess 0 7).kind = .guess ∧ (slotAt waitGuess 0 7).waitForm = true ∧
    (slotAt waitGuess 0 7).aid = 5 ∧ (waitGuess.thread 0).exited = false ∧ (∃ d ∈ (waitGuess.thread 0).deferred, d.1 = 5) ∧
    waitGuess.points 0 ((waitGuess.core 0).closure 7) = [] := by decide +kernel

/-- A poisoned AID. -/
theorem wit_Resolutions_poisoned : let s := one [(8, { val := 5, poison := true })]
    ∀ i ∈ [(Instr.affirm fAffirm, fAffirm), (.deny fDeny, fDeny)], i.1.WellFormed ∧ Alone s i.1 i.2 at0 0 ∧
      ∃ o, (entered s 0 at0 i.2).readSrc 0 1 .b32 i.2.sa = .ok o ∧ o.poison = true := by
  intro s i hi
  fin_cases hi <;> exact ⟨wf (by decide +kernel), alone_of (by decide +kernel), _, rfl, rfl⟩

def fOpen : Fields := plain .b32 0 no (.imm 8)
/-- Thread 0 in a region, by slot 2. -/
def contained : State :=
  inCore (inThread (one []) fun th => { th with region := some 2, marks := [{ slot := 2, addr := 0x3FFFFFF4, logPos := 0, seq := 0 }] }) fun c =>
    { c with slots := [(2, { kind := .contain, aid := 7, ctx := 1, group := [0], opened := [0] })] }

theorem wit_Containment :
    ((Instr.ctnOpen fOpen).WellFormed ∧ ∀ s ∈ [one [], contained], s.cur = some (.group 0 at0 [0]) ∧ s.stands at0 0 = true ∧
      s.guarded 0 fOpen = some true ∧ s.shadowed 0 = false) ∧
    ((one []).thread 0).region = none ∧ lowestFree (one []) 0 0 ∧ (contained.thread 0).region = some 2 ∧
    (Instr.ctnClose fNo).WellFormed ∧ Alone (one []) (.ctnClose fNo) fNo at0 0 ∧ Alone contained (.ctnClose fNo) fNo at0 0 := by
  refine ⟨⟨wf (by decide +kernel), by decide +kernel⟩, rfl, ⟨by decide, rfl, fun j hj => absurd hj (Nat.not_lt_zero j)⟩, rfl, wf (by decide +kernel),
    alone_of (by decide +kernel), alone_of (by decide +kernel)⟩

def fSend : Fields := { plain .b32 3 (vr 8) (vr 10) with scope := 2 }
def fSendRel : Fields := { fSend with ord := 2 }
def fRecv : Fields := { plain .b32 20 no no with scope := 2 }
/-- Blocks 0 and 1 of a node, the second on core 3 with n messages; the destination in v8:v9. -/
def mailing (n : Nat) (lo hi : W32) : State :=
  { one [(8, reg lo), (9, reg hi), (10, reg 7)] with
    blocks := [(0, block0), (1, { block0 with index := 1, core := 3, inbox := List.replicate n { words := [], tags := 0, sender := none, seq := 0 } })],
    nodes := [(0, { ctx := 1, task := 7, seq := 0, prio := 0, launch := launch0, cplAddr := 0, blks := [(0, .placed 0), (1, .placed 1)] })] }
/-- Thread 0 waits in its `msend` to block 1. -/
def waitingMail (n : Nat) : State :=
  { inThread (mailing n 1 0) fun th => { th with wait := .send } with
    mail := [{ sender := 0, idx := 1, words := [(7, false)], aids := [], pd := 3, seq := 0 }] }
/-- A block whose inbox holds a message. -/
def letter : State := inBlock (one []) fun b => { b with inbox := [{ words := [(7, false)], tags := 0, sender := none, seq := 0 }] }

theorem mail_untagged (n : Nat) (lo hi : W32) : ∀ k, (((mailing n lo hi).thread 0).getV k).tags = 0 := by
  intro k
  have h : (((mailing n lo hi).thread 0).getV k).tags = (tgetD [(8, reg lo), (9, reg hi), (10, reg 7)] k ({} : Reg)).tags := rfl
  rw [h]
  simp only [tgetD, tget]
  split
  · rfl
  · split
    · rfl
    · split <;> rfl

/-- A bit of the reserved field set; a block beyond the launch; block 1 with room for one, and with none. -/
theorem wit_Messages :
    (∀ e ∈ [((0x80000000 : W32), (0 : W32), true), (0, 0x80000, true), (2, 0, false), (1, 0, false)],
      let s := mailing 0 e.1 e.2.1
      (Instr.msend fSend).WellFormed ∧ Alone s (.msend fSend) fSend at0 0 ∧ ∃ o d, addressG fSend false 0 (entered s 0 at0 fSend) = some (o, d) ∧
        fSend.ord = 0 ∧ (s.thread 0).marks = [] ∧ ((s.thread 0).getP fSend.gp.toNat).tags = 0 ∧ o.tags = 0 ∧ (∀ n, ((s.thread 0).getV n).tags = 0) ∧
        (d.extractLsb' 31 21 ≠ 0 ↔ e.2.2 = true) ∧ d.extractLsb' 52 12 = s.helm.fabDev) ∧
    (∀ n ∈ [63, 64], (mailing n 1 0).receiver 0 1 = .placed 1 ∧ (tget (mailing n 1 0).blocks 1).isSome ∧ ((mailing n 1 0).block 1).inbox.length = n ∧
      ∃ m, (waitingMail n).mail.find? (·.sender == 0) = some m ∧ ((waitingMail n).thread 0).exited = false ∧
        (waitingMail n).receiver 0 m.idx = .placed 1 ∧ (tget (waitingMail n).blocks 1).isSome ∧ m.aids = [] ∧ m.rel = none ∧
        mayLog (waitingMail n) 0 16 0 ∧ (waitingMail n).sendOrdered m = false) ∧
    (let s := mailing 0 1 0
     let s1 := entered s 0 at0 fSendRel
     (Instr.msend fSendRel).WellFormed ∧ Alone s (.msend fSendRel) fSendRel at0 0 ∧ plainLates s 0 ∧ (s.core 0).held.any (·.t == 0) = false ∧
       ∀ ml, ((({ s1 with mail := ml } : State).modThread 0 fun th => { th with pc := at0, wait := .send }).startRelease 0
         fSendRel.scope.toNat 2).performed 0 fSendRel.scope.toNat = true) ∧
    (Instr.mrecv fRecv).WellFormed ∧ Alone letter (.mrecv fRecv) fRecv at0 0 ∧ (tget letter.blocks (blockOf 0)).isSome ∧
    ∃ m, (letter.block (blockOf 0)).inbox = m :: [] := by
  refine ⟨?_, ?_, ⟨wf (by decide +kernel), alone_of (by decide +kernel), plainLates_of 0 (by decide +kernel), by decide +kernel,
    fun _ => rfl⟩, wf (by decide +kernel), alone_of (by decide +kernel), by decide +kernel, _, rfl⟩
  · intro e he
    fin_cases he <;> exact ⟨wf (by decide +kernel), alone_of (by decide +kernel), _, _, rfl, by decide +kernel, by decide +kernel, by decide +kernel,
      by decide +kernel, mail_untagged _ _ _, by decide +kernel, by decide +kernel⟩
  · intro n hn
    fin_cases hn <;> exact ⟨by decide +kernel, by decide +kernel, by decide +kernel, _, rfl, by decide +kernel, by decide +kernel, by decide +kernel, rfl, rfl,
      .inl ⟨by decide +kernel, rfl⟩, by decide +kernel⟩

def fMcg : Fields := plain .b32 20 (vr 8) no
def fMcgClose : Fields := plain .b32 30 (ur 20) no
def fLdred : Fields := { plain .f32 32 (vr 8) (ur 20) with scope := 6 }
def fStmc : Fields := { plain .b32 10 (vr 8) (ur 20) with scope := 6 }
/-- A block's scratchpad with bytes at 0. -/
def withBytes (s : State) (bs : List Byte) : State := inCore s fun c => { c with scratch := bs.mapIdx fun k b => (k, { val := b, ctx := 1 }) }
/-- A group record of devices 5 and 6. -/
def record56 : State := withBytes (one []) [2, 0, 0, 0, 0, 0, 0, 0, 5, 0, 6, 0]
/-- The group of the handle 3 + 64 × 9. -/
def group9 : Group := { gen := 9, members := [5, 6], ordered := false }
/-- The handle in s20, and an address in v8:v9. -/
def grouped (h va : W32) : State :=
  { inCrew (one [(8, reg va)]) [(20, reg h)] with ctxs := [(1, { begun := true, groups := [(3, group9)] })], helm := { fabValid := true, fabDev := 3 } }

/-- A unit of thread 0 under a group, with some ports. -/
def groupDue (eff : Effect) (ports : Tab Port) : State :=
  { inThread (grouped 579 0x1FFFC) fun th => { th with pend := [(1, .late none 0 (.effect eff []))] } with ports := ports }

theorem wit_MulticastGroups :
    (∃ o x off, (Instr.mcgOpen fMcg).WellFormed ∧ Alone record56 (.mcgOpen fMcg) fMcg at0 0 ∧
      addressS fMcg false 0 (entered record56 0 at0 fMcg) = some (o, x) ∧ ((entered record56 0 at0 fMcg).thread 0).marks = [] ∧
      (entered record56 0 at0 fMcg).holds 0 = false ∧ nothingLate record56 ∧ o.tags = 0 ∧ (record56.core 0).stags = [] ∧ placeS 0 x (8 + 2 * 2) 8 record56 = some off ∧
      groupRecordAt (record56.core 0) off [5, 6] ∧ (tget record56.ctxs (record56.block 0).ctx.toNat).isSome) ∧
    (∀ e ∈ [((579 : W32), true), (643, false)],
      let s := grouped e.1 0x10000
      (Instr.mcgClose fMcgClose).WellFormed ∧ Alone s (.mcgClose fMcgClose) fMcgClose at0 0 ∧ fMcgClose.sa = .unif 20 false false ∧
      ((entered s 0 at0 fMcgClose).thread 0).marks = [] ∧ (entered s 0 at0 fMcgClose).holds 0 = false ∧ ((s.crew 0).getS 20).poison = false ∧
      ((s.crew 0).getS 20).tags = 0 ∧ (e.2 = true → opens s 1 ((s.crew 0).getS 20).val.toNat group9 ∧ (tget s.ctxs 1).isSome) ∧
      (e.2 = false → ∀ g, ¬opens s 1 ((s.crew 0).getS 20).val.toNat g)) ∧
    (let s := grouped 579 0x1FFFC
     ∃ o va, fLdred.sb = .unif 20 false false ∧ fStmc.sb = .unif 20 false false ∧ addressG fLdred false 0 (entered s 0 at0 fLdred) = some (o, va) ∧
      (s.crew 0).getS 20 = { val := ((s.crew 0).getS 20).val } ∧ (Instr.ldredMc fLdred).WellFormed ∧ Alone s (.ldredMc fLdred) fLdred at0 0 ∧
      fLdred.ord = 0 ∧ groupAddressOk va (4 * fLdred.count) ∧ (entered s 0 at0 fLdred).holds 0 = false ∧ (s.thread 0).marks = [] ∧ o.tags = 0 ∧
      ∀ f ∈ [fStmc, { fStmc with ord := 2 }], let s0 := if f.ord = 2 then s.startRelease 0 6 2 else s
        let d := (entered s0 0 at0 f).readV 0 10 1
        (Instr.stmc f).WellFormed ∧ Alone s (.stmc f) f at0 0 ∧ Alone s0 (.stmc f) f at0 0 ∧ s.holds 0 = false ∧ plainLates s 0 ∧
        s0.performed 0 6 = true ∧ addressG f false 0 (entered s0 0 at0 f) = some (o, va) ∧ groupAddressOk va (f.ty.bytes * f.count) ∧
        d.poison = false ∧ d.tags = 0 ∧ ((s.thread 0).getP f.gp.toNat).tags = 0) ∧
    ∀ eff ∈ [Effect.ldred fLdred 0x1FFFC 579 5, .stmc fStmc 0x1FFFC 579 7 5], ∀ ports ∈ [([] : Tab Port), [(31, { state := 2 })]],
      let s := groupDue eff ports
      due s 0 1 none (.effect eff []) ∧ opens s 1 579 group9 ∧ s.helm.fabValid = true ∧ group9.members ≠ [] ∧ s.helm.fabDev ∉ group9.members ∧
        (groupPort s ↔ ports ≠ []) := by
  refine ⟨⟨_, _, _, wf (by decide +kernel), alone_of (by decide +kernel), rfl, by decide +kernel, by decide +kernel,
    nothingLate_of (by decide +kernel), by decide +kernel, by decide +kernel, rfl,
    ⟨by decide, by decide, by decide, by decide +kernel, by decide +kernel⟩, by decide +kernel⟩, ?_, ?_, ?_⟩
  · intro e he
    fin_cases he
    · refine ⟨wf (by decide +kernel), alone_of (by decide +kernel), rfl, by decide +kernel, by decide +kernel, by decide +kernel, by decide +kernel,
        fun _ => ⟨⟨by decide +kernel, by decide +kernel, by decide⟩, by decide +kernel⟩, fun h => by cases h⟩
    · refine ⟨wf (by decide +kernel), alone_of (by decide +kernel), rfl, by decide +kernel, by decide +kernel, by decide +kernel, by decide +kernel,
        (fun h => by cases h), fun _ g h => ?_⟩
      have h1 : tget ((grouped 643 0x10000).ctx 1).groups 3 = some group9 := by decide +kernel
      have h2 : (((grouped 643 0x10000).crew 0).getS 20).val.toNat = 643 := by decide +kernel
      obtain ⟨ha, hb, -⟩ := h
      rw [h2] at ha hb
      have hg : some group9 = some g := h1.symm.trans ha
      cases hg
      revert hb
      decide
  · refine ⟨_, _, rfl, rfl, rfl, by decide +kernel, wf (by decide +kernel), alone_of (by decide +kernel), rfl, ⟨by decide +kernel, by decide +kernel⟩,
      by decide +kernel, by decide +kernel, by decide +kernel, fun f hf => ?_⟩
    fin_cases hf <;> exact ⟨wf (by decide +kernel), alone_of (by decide +kernel), alone_of (by decide +kernel), by decide +kernel,
      plainLates_of 0 (by decide +kernel), by decide +kernel, rfl, ⟨by decide +kernel, by decide +kernel⟩, by decide +kernel, by decide +kernel, by decide +kernel⟩
  · intro eff he ports hp
    refine ⟨⟨rfl, fun _ h => absurd h (List.not_mem_nil), fun h => absurd rfl h⟩, ⟨rfl, rfl, by decide⟩, rfl, by decide, ?_, ?_⟩
    · fin_cases he <;> fin_cases hp <;> decide +kernel
    · unfold groupPort
      fin_cases he <;> fin_cases hp <;> decide +kernel

def fCopy : Fields := plain .b32 0 (vr 8) no
/-- A command record that moves n bytes from 0 to 64 in the own scratchpad, with CTRL. -/
def command (ctrl n : Nat) : List Byte := leBytes 8 0 ++ leBytes 8 64 ++ leBytes 8 ctrl ++ leBytes 8 0 ++ leBytes 8 n ++ leBytes 16 0
/-- A started command of thread 0. -/
def started0 (r : List Byte) : Copy := { blk := 0, t := 0, core := 0, ctx := 1, op := 0, record := r }
/-- A state with the command 4. -/
def copying (c : Copy) : State := { one [] with copies := [(4, c)] }
/-- The same, with n entries in q3. -/
def copyingFull (c : Copy) (n : Nat) : State :=
  inBlock (copying c) fun b => { b with queues := [(3, List.replicate n { val := 0, poison := false })] }
/-- A command that asks for a completion word and an entry of q3. -/
def reporting (more : Nat) : List Byte := command (273 + 2 ^ 22 + 2 ^ 23 + 3 * 2 ^ 24 + more) 64

theorem wit_CopyCommands :
    (∀ e ∈ copyWords, let s := withBytes (one []) (command 273 64)
      let f := if e.2 = 2 then { fCopy with sb := ur 20 } else fCopy
      (e.1 f).WellFormed ∧ Alone s (e.1 f) f at0 0 ∧ ∃ o x off, addressS f false 0 (entered s 0 at0 f) = some (o, x) ∧ o.tags = 0 ∧
      ((entered s 0 at0 f).thread 0).marks = [] ∧ (entered s 0 at0 f).holds 0 = false ∧ nothingLate s ∧
      placeS 0 x (max 32 (recordBytes e.2 ((s.core 0).sByte ((s.block 0).spBase + x + 17)).toNat)) 8 s = some off ∧ (s.core 0).stags = [] ∧
      (s.core 0).spoison = [] ∧ ((s.core 0).sByte (off + 18)).toNat.testBit 6 = false) ∧
    (let c := started0 (command 273 64)
     tget (copying c).copies 4 = some c ∧ MovesOwn (copying c) 4 c 0 64 64) ∧
    (∀ e ∈ [({ started0 (reporting 0) with moved := true }, 0), ({ started0 (reporting 0) with moved := true, result := 0x10 }, 0x10),
          ({ started0 (reporting 0) with killed := true }, 0x12), (started0 (reporting (2 ^ 12)), 0x14)], ∀ n ∈ [15, 16],
      let s := copyingFull e.1 n
      tget s.copies 4 = some e.1 ∧ endsWith e.1 e.2 ∧ e.1.faulted = false ∧ e.1.worded = false ∧ (s.block e.1.blk).stage ≠ .gone ∧
        (tget s.blocks e.1.blk).isSome ∧ (s.allRequests.any fun r => r.kind == .cpym 4) = false ∧ e.1.outIds = [] ∧
        (tgetD (s.block e.1.blk).queues (e.1.ctrl 24 4) []).length = n ∧ e.1.ctrl 23 1 = 1 ∧ e.1.ctrl 22 1 = 1) ∧
    let c := { started0 (command 273 64) with faulted := true }
    tget (copying c).copies 4 = some c ∧ c.faulted = true := by
  refine ⟨fun e he => ?_, ⟨rfl, ?_⟩, fun e he n hn => ?_, rfl, rfl⟩
  · fin_cases he <;> exact ⟨wf (by decide +kernel), alone_of (by decide +kernel), _, _, _, rfl, by decide +kernel, by decide +kernel, by decide +kernel,
      nothingLate_of (by decide +kernel), rfl, rfl, rfl, by decide +kernel⟩
  · exact { op := rfl, ctrl := by decide +kernel, words := by decide +kernel, length := by decide +kernel, core := rfl, here := by decide,
            bounds := by decide +kernel, apart := by decide, clean := ⟨rfl, rfl⟩, fresh := by decide +kernel, idle := rfl }
  · unfold endsWith reservedIn
    fin_cases he <;> fin_cases hn <;> decide +kernel

/-! ## Events of cores, memory, registers, translation, debugging -/

/-- Thread 0 with a trap that is held. -/
def heldTrap (s : State) : State := inThread s fun th => { th with wait := .trapHeld 3 0x1234 0x77 }
/-- A result in v3, one that a predicate receives, and one not yet known. -/
def outs : List Outstanding :=
  [{ id := 5, dests := [.v 3], wb := some [(.v 3, reg 9)], seq := 0 }, { id := 6, dests := [.p 2, .s 20], wb := some [(.p 2, reg 1), (.s 20, reg 4)], seq := 0 },
   { id := 7, dests := [.v 4], seq := 0 }]
def owing : State := inThread (one []) fun th => { th with out := outs }
/-- Thread 0 has been held since cycle 0, for 65,536 cycles and for one more. -/
def heldFor (n : Nat) : State := { inThread (one []) fun th => { th with holdSince := some 0 } with cycle := n }

/-- Thread 0, ready as the cycle began. -/
def ready0 : State := { one [] with up := [0] }

/-- A sub-core with a ready group whose sys.reckon is not 0, and one without. -/
theorem wit_IssueSelection :
    (∀ c ∈ ready0.subCrews 0 0, (ready0.block (c / 4)).reckon ≠ 0) ∧ ready0.subCrews 0 0 = [0] ∧
    (([0] : List Nat).flatMap ((ready0.crewThreads 0).foldl State.countHold ready0).crewGroups) ≠ [] ∧ State.reset.subCrews 0 0 = [] := by
  decide +kernel

/-- A result of one part, the last unit of which is a unit of thread 0. -/
def lastRead : State := lateOf (.readS 5 0 0 0xFFFC 4) [result0]

theorem wit_CoreEvents :
    (((heldTrap tainted).thread 0).wait = .trapHeld (Cause.code .regRange) 0x1234 0x77 ∧ ((heldTrap tainted).thread 0).exited = false ∧
      (heldTrap tainted).plainUnion 0 ≠ 0) ∧
    (((heldTrap (one [])).thread 0).wait = .trapHeld (Cause.code .regRange) 0x1234 0x77 ∧ trapsAtOnce (heldTrap (one [])) 0) ∧
    (∀ k ∈ [5, 6], ∃ o wb, (owing.thread 0).out.find? (·.id == k) = some o ∧ o.wb = some wb ∧ (wb.map (·.1)).Nodup ∧ (owing.thread 0).exited = false ∧
      (tget owing.crews (crewOf 0)).isSome ∧ (owing.thread 0).lates = [] ∧ ∀ x ∈ wb, ∀ n, x.1 = .p n → x.2.val = 0 ∨ x.2.val = 1) ∧
    (due lastRead 0 1 none (.readS 5 0 0 0xFFFC 4) ∧ (∃ g, pieceRead lastRead (.readS 5 0 0 0xFFFC 4) 5 0 g) ∧
      (∀ x ∈ (lastRead.thread 0).lates, x.1 = 1) ∧ resultAt lastRead 0 5 = some result0 ∧ (lastRead.thread 0).exited = false ∧
      (tget lastRead.crews (crewOf 0)).isSome) ∧
    (∀ n ∈ [65536, 65537], ((heldFor n).thread 0).holdSince = some 0 ∧ ((heldFor n).thread 0).exited = false ∧ ((heldFor n).thread 0).handler = false ∧
      ((heldFor n).thread 0).region = none ∧ ((heldFor n).block (blockOf 0)).tba ≠ 0 ∧
      ((heldFor n).cycle - 0 ≤ ((heldFor n).block (blockOf 0)).reckon ↔ n = 65536)) ∧
    ∀ x ∈ (pending.thread 0).lates, x.1 ≠ 1 := by
  refine ⟨by decide +kernel, ⟨rfl, by unfold trapsAtOnce; decide +kernel⟩, ?_,
    ⟨due_lateOf _ _, ⟨_, rfl, rfl, rfl⟩, by decide +kernel, rfl, rfl, by decide +kernel⟩, by decide +kernel, by decide +kernel⟩
  intro k hk
  fin_cases hk
  · refine ⟨_, _, rfl, rfl, by decide, rfl, by decide +kernel, rfl, ?_⟩
    intro x hx n hn
    simp at hx; subst hx; cases hn
  · refine ⟨_, _, rfl, rfl, by decide, rfl, by decide +kernel, rfl, ?_⟩
    intro x hx n hn
    simp at hx; rcases hx with rfl | rfl
    · exact .inr rfl
    · cases hn

/-- A write of die 1 to a byte of die 0, whole or a nibble, behind one to another line. -/
def leaving (half : Option Bool) : State :=
  { one [] with outbound := [(1, [{ id := 2, pa := 0x40020000, data := [1] }, { id := 3, pa := 0x40010000, data := [7], half := half }])] }
/-- A dirty line in the L1 of core 0. -/
def dirtyLine : L1Line :=
  { ctx := 1, line := 0x10000 / 128, pa := 0x40010000, leaf := pageAt 0x40010000, data := List.replicate 128 5, dirty := 3 }
def cached : State := inCore (one []) fun c => { c with l1 := [dirtyLine] }
/-- A block with an entry in q3 and a tile. -/
def struck : State := inBlock (queued 1) fun b => { b with tiles := [(2, tile38)] }

theorem wit_MemoryEvents :
    (∀ h ∈ [none, some true], let s := leaving h
      s.memOk ∧ ∃ w, (tgetD s.outbound 1 []).find? (·.id == 3) = some w ∧ w.half = h ∧
      ((tgetD s.outbound 1 []).takeWhile (·.id != 3)).all (fun x => !overlap x.pa x.data.length w.pa w.data.length) = true) ∧
    (cached.memOk ∧ (cached.core 0).l1[0]? = some dirtyLine ∧ dirtyLine.red = none ∧ dirtyLine.data.length = 128 ∧
      dirtyLine.hurt = 0 ∧ dirtyLine.pa % 2 ^ 15 + 128 ≤ 2 ^ 14 ∧ ∀ j < 128, homeDie (dirtyLine.pa + j) = 0 / 64) ∧
    (struck.thread 0).exited = false ∧ (tget struck.crews 0).isSome ∧ (3 : Nat) ≠ 15 ∧ (tget struck.blocks 0).isSome ∧
    (tgetD (struck.block 0).queues 3 [])[0]? = some { val := 0, poison := false } ∧ (3 : Nat) < 4 := by
  refine ⟨fun h hh => ?_, ⟨rfl, rfl, rfl, by decide +kernel, by decide +kernel⟩, by decide +kernel⟩
  fin_cases hh <;> exact ⟨rfl, _, rfl, rfl, by decide +kernel⟩

/-- A device with 1 MiB behind CXL port 1. -/
def cxl1 : State := { one [] with helm := { cxlCap := [(1, 256)] } }
/-- Step 4 of a start is complete. -/
def open0 : State := { one [] with helm := { hdmReady := true } }

/-- The last word of the CXL memory. -/
def pageCxl : Page := { page0 with pa := 0x80100000FFFFC }
/-- A read of it that has longOn since cycle 0. -/
def unit0 : Nat × PendKind := (1, .late none 0 (.read 5 0 5 0x10000 pageCxl 4))
/-- A result that is known, of its line. -/
def known0 : Outstanding := { id := 6, dests := [.v 3], wb := some [(.v 3, reg 9)], seq := 0, lines := [0x80100000FFFFC / 128] }
/-- Thread 0 of the device, a long time on. -/
def longOn (ps : List (Nat × PendKind)) (o : Outstanding) : State :=
  { inThread cxl1 fun th => { th with pend := ps, out := [o] } with cycle := 2 ^ 20 }

theorem wit_HostAndCxlMemory :
    (open0.memOk ∧ open0.helm.modules ≠ 0 ∧ open0.helm.hdmReady = true ∧ 0xFFFFFFFFFE + 2 ≤ 2 ^ 40 ∧ open0.outbound = [] ∧
      ∀ c ∈ open0.cores, ∀ l ∈ c.2.l1, l.red = none) ∧ (one []).helm.hdmReady = false ∧
    ({ one [] with helm := { modules := 0 } } : State).helm.modules = 0 ∧ (3 : Nat) < 4 ∧
    2 ^ 40 ≤ 0x80100000FFFFF ∧ cxl1.populated 0x80100000FFFFF 1 = true ∧
    (nothingLate (longOn [] known0) ∧ ∃ o ∈ ((longOn [] known0).thread 0).out, 0x80100000FFFFF / 128 ∈ o.lines ∧ stoodFor (longOn [] known0) o.asked ∧
      o.wb.isSome = true) ∧
    ((∀ u, u ≠ 0 → ((longOn [unit0] result0).thread u).pend = []) ∧ ((longOn [unit0] result0).thread 0).pend = [unit0] ∧
      stoodFor (longOn [unit0] result0) 0 ∧ pageCxl.peer = none ∧ pageCxl.pa / 128 = 0x80100000FFFFF / 128 ∧
      resultAt (longOn [unit0] result0) 0 5 = some result0 ∧ (longOn [unit0] result0).populated 0x80100000FFFFF 1 = true) := by
  refine ⟨⟨rfl, by decide, rfl, by decide, rfl, by decide⟩, rfl, rfl, by decide, by decide, by decide +kernel,
    ⟨nothingLate_of (by decide +kernel), known0, List.mem_cons_self .., by decide +kernel, by unfold stoodFor; decide +kernel, rfl⟩,
    fun u hu => ?_, rfl, by unfold stoodFor; decide +kernel, rfl, by decide, rfl, by decide +kernel⟩
  show (tgetD [(0, (longOn [unit0] result0).thread 0)] u { pc := 0, exited := true }).pend = []
  simp only [tgetD, tget, if_neg (Ne.symm hu)]
  rfl

/-- Firmware staging: open with n bytes. -/
def stage0 (n : Nat) : State := { one [] with helm := { fwOpen := true, fwCount := n } }

/-- SXSEL selects a group of context 1 at a level. -/
def extents (sel : W64) : State := { one [] with helm := { sxsel := sel } }
theorem wit_DeviceRegisters_levels :
    ((extents 0x106000001).helm.sxsel.extractLsb' 24 3).toNat = 6 ∧
    let s := extents 0x105000001
    (s.helm.sxsel.extractLsb' 32 3).toNat = 1 ∧ s.ctxLive (s.helm.sxsel.extractLsb' 0 16) = true ∧ (s.helm.sxsel.extractLsb' 24 3).toNat < 6 ∧
    1 ≤ (s.ctx (s.helm.sxsel.extractLsb' 0 16)).level (s.helm.sxsel.extractLsb' 24 3).toNat := by decide +kernel

theorem wit_DeviceRegisters :
    (0x0028, 0xF) ∈ plainRegisters ∧ ¬writable 0x0000 ∧ commandOffsets 0x0010 ∧ commandOf 0x0010 0x10007 = some (.preempt 7) ∧
    commandOf 0x0010 7 = none ∧ commandOffsets 0x13FF8 ∧ ((0 : W64).extractLsb' 32 3).toNat = 0 ∧
    ((stage0 (2 ^ 26 - 8)).helm.fwOpen = true ∧ (stage0 (2 ^ 26 - 8)).helm.fwCount + 8 ≤ 2 ^ 26) ∧
    ((stage0 16).helm.fwOpen = true ∧ (stage0 16).helm.fwError = false ∧ (16 : W32).toNat = (stage0 16).helm.fwCount ∧
      (17 : W32).toNat ≠ (stage0 16).helm.fwCount) ∧
    (7 : Nat) < 8 ∧ ({ one [] with helm := { signing := true } } : State).helm.signing = true := by
  unfold writable commandOffsets; decide +kernel

/-- A power limit of n watts and a clock at its lowest. -/
def limited (n : Nat) : Helm := { powLimit := n, powClock := 700 }
/-- The draw is a free value: it is within the limit or above it. -/
theorem wit_ClockAndStarts : (3 : Nat) < 4 ∧ clockOf (limited 0) = 700 ∧ (limited 0).powLimit < 2 ^ 32 ∧
    ((({ one [] with helm := limited 0 } : State).draw).1 ≤ min 3200 0 ∨ min 3200 0 < (({ one [] with helm := limited 0 } : State).draw).1) ∧
    tget (one []).ctxs 1 = some { begun := true } ∧
    ∀ n ∈ [1, 2, 3, 4, 5, 6, 7], ({ one [] with helm := { bootStep := n } } : State).helm.bootStep = n :=
  ⟨by decide, by decide, by decide, (Nat.lt_or_ge _ _).symm, rfl, by decide⟩

/-- Thread 0 is parked on a translation fault of its context. -/
def parked : State := inThread (one []) fun th => { th with wait := .parked 0x123 }

/-- An invalidation of 64 KiB is under way, of which an entry is kept. -/
def invalidating : State :=
  { one [] with helm := { xlBusy := true, xlRanges := [(1, 0x10000, 0x10000)] }, leaves := [{ ctx := 1, page := 1, level := 0, entry := 0x4001001F }] }

theorem wit_TranslationEvents :
    (parked.thread 0).wait = .parked 0x123 ∧ (parked.block (blockOf 0)).ctx = 1 ∧ (parked.block (blockOf 0)).ctx ≠ 2 ∧ parked.faultedStreams 1 = [] ∧
    (parked.thread 0).exited = false ∧ (parked.block (blockOf 0)).core < 256 ∧ trapsAtOnce parked 0 ∧
    invalidating.helm.xlBusy = true ∧ invalidating.helm.xlRanges ≠ [] ∧ invalidating.leaves ≠ [] :=
  ⟨rfl, rfl, by decide, by decide +kernel, rfl, by decide, by unfold trapsAtOnce; decide +kernel, rfl, by decide, by decide⟩

/-- A context with a debugger, block 0 of task 7 selected, its crew halted or not. -/
def halted (h : Option Halt) : State :=
  { one [] with helm := { attached := [1], dbgSel := 0x700000000 }, crews := [(0, { sub := 0, halted := h })] }

theorem wit_DebuggerCommands :
    (2 : BitVec 16) ∉ (halted none).helm.attached ∧
    (∀ h ∈ [none, some Halt.boundary], (1 : BitVec 16) ∈ (halted h).helm.attached ∧ (tget (halted h).blocks 0).isSome ∧ ((halted h).block 0).ctx = 1 ∧
      ((halted h).block 0).core < 256 ∧ ((halted h).block 0).task.toNat = (halted h).helm.dbgSel.toNat / 2 ^ 32 ∧
      ((halted h).block 0).index = (halted h).helm.dbgSel.toNat % 2 ^ 32 ∧ 0 / 4 = 0 ∧ (tget (halted h).crews 0).isSome ∧
      ((halted h).crew 0).halted = h) ∧ (0 : BitVec 2).toNat = 0 % 4 := by decide +kernel

/-! ## The helm, contexts, the fabric -/

/-- The bytes of a descriptor of 32 threads with a number of registers that are not zero. -/
def descriptor (regs : Nat) : List Host.Cell :=
  [(18, 1), (26, 1), (27, 32), (28, 16), (30, BitVec.ofNat 8 regs), (33, 16), (40, 64), (48, 255), (49, 255), (50, 255), (51, 255), (52, 255), (53, 255),
    (54, 255), (55, 255)].map fun e => (0x40011000 + e.1, e.2)
/-- Cells of page tables of context 1 in which 0 is on a page of 1 GiB at 0x40000000. -/
def lowPage : List Host.Cell :=
  [(0x1009, 0x20), (0x2000, 1), (0x2001, 0x40), (0x4000, 1), (0x4001, 0x60), (0x6000, 0x1F), (0x6003, 0x40)]
/-- A task record of a kind, with three blocks of task 7. -/
def taskRecord (kind : Nat) : List Byte :=
  leBytes 256 (kind + 7 * 2 ^ 32 + 0x11000 * 2 ^ 64 + 0x40000000 * 2 ^ 128 + 3 * 2 ^ 256 + 4 * 2 ^ 288 + 0x11400 * 2 ^ 320 + 0x300000 * 2 ^ 1152)
/-- A record as the helm has taken it from queue 4. -/
def taken (bytes : List Byte) : TakenRec := { q := 4, seq := 9, prio := 2, ctx := 1, bytes := bytes }
/-- The helm runs, with a record taken, and a descriptor in memory. -/
def helmed (regs : Nat) (r : List Byte) : State :=
  { State.reset with
    mem := lowPage ++ descriptor regs, nextUid := 5,
    helm := { State.reset.helm with hstat := 1, trtab := 0x1000, taken := [taken r], nextSeq := 10 },
    ctxs := [(1, { tba := 0x40000100, cores := BitVec.allOnes 256, begun := true, reckon := 1000 })] }
/-- A queue with TAIL n past HEAD, kicked. -/
def kicked (n : BitVec 16) : State :=
  { State.reset with helm := { State.reset.helm with hstat := 1, kicks := [4], queues := [(4, { base := 0x200, tail := n, ctx := 1 })] } }

/-- The outstanding records of q4. -/
def outstanding4 (s : State) : Nat := ((tgetD s.helm.queues 4 {}).tail - (tgetD s.helm.queues 4 {}).head).toNat
/-- A ring of 16 that is full, of which all may be taken. -/
theorem wit_QueueEvents_ring :
    (kicked 16).helm.hstat.extractLsb' 0 2 = 1 ∧ 4 ∈ (kicked 16).helm.kicks ∧ (∀ k ∈ (kicked 16).helm.kicks, k < 4 → (kicked 16).scanStays k = true) ∧
    (tgetD (kicked 16).helm.queues 4 {}).stop = false ∧ outstanding4 (kicked 16) = 2 ^ ((tgetD (kicked 16).helm.queues 4 {}).logSize + 4) ∧
    (kicked 16).helm.nextSeq < 2 ^ 64 ∧ (1023 : Nat) < 1024 := by decide +kernel
theorem wit_QueueEvents_room : settled (kicked 16) ∧ roomFor (kicked 16) 4 15 := ⟨⟨rfl, by decide +kernel⟩, by unfold roomFor; decide +kernel⟩
/-- The ready pool holds 4,095 records: one more is taken and the next stays. -/
def poolFull : State := { kicked 2 with helm := { (kicked 2).helm with taken := List.replicate 4095 (taken []) } }
theorem wit_QueueEvents_full : settled poolFull ∧ roomFor poolFull 4 0 ∧ ¬roomFor poolFull 4 1 :=
  ⟨⟨rfl, by decide +kernel⟩, by unfold roomFor; decide +kernel, by unfold roomFor; decide +kernel⟩
/-- A TAIL out of range; a queue that has stopped; a queue that waits for a lower one. -/
theorem wit_QueueEvents_stops :
    2 ^ ((tgetD (kicked 17).helm.queues 4 {}).logSize + 4) < outstanding4 (kicked 17) ∧
    (tgetD ({ kicked 1 with helm := { (kicked 1).helm with queues := [(4, { stop := true })] } } : State).helm.queues 4 {}).stop = true ∧
    4 ∈ (kicked 1).helm.kicks ∧ 4 < 5 ∧ (kicked 1).scanStays 4 = false := by decide +kernel
theorem wit_QueueEvents_standby :
    (kicked 1).helm.standby = true ∧ ({ kicked 1 with helm := { (kicked 1).helm with standby := false } } : State).helm.standby = false := by decide +kernel

/-- No scale frame is mapped. -/
def noFrames (s : State) : Prop := ∀ base, s.isFrame base = false

/-- The walk of every byte of the lowest GiB is that of byte 0, its page is at 0x40000000, no entry is kept, and no scale frame is mapped. -/
def lowWalk (s : State) : Prop :=
  ofBytes (memRead s.mem (s.helm.trtab + 8) 8) = 0x2000 ∧ s.entryAt 0 0x2000 4 = some ⟨0x4001⟩ ∧ s.entryAt 0 0x4000 3 = some ⟨0x6001⟩ ∧
  s.entryAt 0 0x6000 2 = some ⟨0x4000001F⟩ ∧ s.out 0 = [] ∧ s.leaves = [] ∧ noFrames s

/-- A walk reads the same entry for two bytes of one index. -/
theorem entryAt_index (s : State) (va table level : Nat) (h : va / 2 ^ levelShift level = 0) : s.entryAt va table level = s.entryAt 0 table level := by
  simp [State.entryAt, h]

/-- What the helm reads in the lowest GiB is memory from 0x40000000 on. -/
theorem readVirtual_low {s : State} (h : lowWalk s) (va : W64) :
    ∀ n, va.toNat + n ≤ 2 ^ 30 → s.readVirtual 1 va n = some ((List.range n).map fun k => memGet s.mem (0x40000000 + (va.toNat + k)))
  | 0, _ => rfl
  | n + 1, hn => by
    obtain ⟨h0, h4, h3, h2, ho, hk, hf⟩ := h
    have h1 := readVirtual_low ⟨h0, h4, h3, h2, ho, hk, hf⟩ va n (by omega)
    have ha : (va + BitVec.ofNat 64 n).toNat = va.toNat + n := by rw [BitVec.toNat_add, BitVec.toNat_ofNat]; omega
    have hl : s.leaf 1 (va + BitVec.ofNat 64 n).toNat = .ok (⟨0x4000001F⟩, 2) := by
      have e4 := (entryAt_index s (va.toNat + n) 0x2000 4 (by simp [levelShift]; omega)).trans h4
      have e3 := (entryAt_index s (va.toNat + n) 0x4000 3 (by simp [levelShift]; omega)).trans h3
      have e2 := (entryAt_index s (va.toNat + n) 0x6000 2 (by simp [levelShift]; omega)).trans h2
      have hb : (⟨0x4001⟩ : Pte).bit 1 = false ∧ (⟨0x4001⟩ : Pte).paddr = 0x4000 ∧ (⟨0x6001⟩ : Pte).bit 1 = false ∧ (⟨0x6001⟩ : Pte).paddr = 0x6000 ∧
        (⟨0x4000001F⟩ : Pte).bit 1 = true := by decide
      simp [State.leaf, hk, h0, State.walk, ha, e4, e3, e2, hb]
    have hv : validVa (va + BitVec.ofNat 64 n) = true := by
      simp [validVa, ha]; omega
    have ht : s.translate 1 (va + BitVec.ofNat 64 n) =
        .ok { pa := 0x40000000 + (va.toNat + n), r := true, w := true, x := true, fmt := 0, peer := none, frame := 0, synonym := none, size := 2 ^ 30 } := by
      have hp : (⟨0x4000001F⟩ : Pte).bit 2 = true ∧ (⟨0x4000001F⟩ : Pte).bit 3 = true ∧ (⟨0x4000001F⟩ : Pte).bit 4 = true ∧
        (⟨0x4000001F⟩ : Pte).bit 5 = false ∧ (⟨0x4000001F⟩ : Pte).bit 6 = false ∧ (⟨0x4000001F⟩ : Pte).bits 8 4 = 0 ∧
        (⟨0x4000001F⟩ : Pte).paddr = 0x40000000 := by decide
      obtain ⟨p2, p3, p4, p5, p6, p8, pa⟩ := hp
      unfold State.translate
      rw [hl]
      simp [p2, p3, p4, p5, p6, p8, pa, pageSize, levelShift, ha, Nat.mod_eq_of_lt (show va.toNat + n < 1073741824 by omega)]
    unfold State.readVirtual
    rw [h1]
    dsimp only
    rw [ht]
    simp [hv, State.homeByte, State.kept, hf _, ho, List.range_succ]

/-- A table of which only the first entry is listed reaches the frames that this entry reaches. -/
theorem tableFrames_one {s : State} {ctx : BitVec 16} {l table : Nat} {e : Pte} (h0 : s.entryAt 0 table (l + 1) = some e)
    (hm : ∀ c ∈ s.mem, c.1 < table + 16 ∨ table + 8192 ≤ c.1) (ht : table % 8192 = 0)
    (he : e.bit 1 = true ∨ s.tableFrames ctx l e.paddr = []) : s.tableFrames ctx (l + 1) table = [] := by
  have hz : ∀ (m : List Host.Cell), (∀ c ∈ m, c.1 < table + 16 ∨ table + 8192 ≤ c.1) →
      ∀ a, table + 16 ≤ a → a < table + 8192 → memGet m a = 0 := by
    intro m
    induction m with
    | nil => intro _ a h1 h2; simp only [memGet, memDefault]; rw [if_neg (by omega), if_neg (by omega)]
    | cons c r ih =>
      intro h a h1 h2
      have := h c List.mem_cons_self
      rw [memGet, if_neg (by omega)]
      exact ih (fun d hd => h d (List.mem_cons_of_mem _ hd)) a h1 h2
  simp only [State.tableFrames, List.flatMap_eq_nil_iff, List.mem_range]
  intro k hk
  rcases Nat.eq_zero_or_pos k with rfl | hp
  · rw [Nat.zero_mul, h0]
    rcases he with h | h <;> simp [h]
  · have hk : k < 512 := by simpa [levelCount] using hk
    have hi : k * 2 ^ levelShift (l + 1) / 2 ^ levelShift (l + 1) % levelCount (l + 1) = k := by
      rw [Nat.mul_div_cancel _ (Nat.two_pow_pos _), levelCount, if_neg (Nat.succ_ne_zero l), Nat.mod_eq_of_lt hk]
    have hr : memRead s.mem (table + 16 * k) 16 = List.replicate 16 0 := by
      rw [memRead, List.eq_replicate_iff]
      refine ⟨by simp, fun b hb => ?_⟩
      obtain ⟨j, hj, rfl⟩ := List.mem_map.mp hb
      exact hz s.mem hm _ (by omega) (by have := List.mem_range.mp hj; omega)
    have hn : s.entryAt (k * 2 ^ levelShift (l + 1)) table (l + 1) = none := by
      simp only [State.entryAt, hi, hr]
      rw [if_neg]
      have hb : (⟨ofBytes (List.replicate 16 0)⟩ : Pte).bit 0 = false := by decide
      simp only [State.pteOk, hb, Bool.false_and, Bool.and_false, Bool.false_eq_true, not_false_eq_true]
    rw [hn]

/-- A context whose tables reach no fp4bs leaf has no scale frame. -/
theorem noFrames_of {s : State} (h : s.ctxs.map (·.1) = [1]) (h0 : ofBytes (memRead s.mem (s.helm.trtab + 8) 8) = 0x2000)
    (h1 : s.tableFrames (BitVec.ofNat 16 1) 4 0x2000 = []) : noFrames s := by
  intro b
  unfold State.isFrame
  rw [List.any_eq_false]
  intro c hc
  have h2 : c.1 = 1 := by
    have : c.1 ∈ s.ctxs.map (·.1) := List.mem_map_of_mem hc
    rw [h] at this; simpa using this
  simp [h2, h0, h1]

/-- The state in which the helm acts on a task of a number of registers a thread. -/
def acting (regs : Nat) : State := afterTake (helmed regs (taskRecord 1))
theorem acting_noFrames (regs : Nat) (h : regs = 8 ∨ regs = 9) : noFrames (acting regs) := by
  have h1 : (acting regs).ctxs.map (·.1) = [1] := by obtain rfl | rfl := h <;> decide +kernel
  have h2 : ofBytes (memRead (acting regs).mem ((acting regs).helm.trtab + 8) 8) = 0x2000 := by obtain rfl | rfl := h <;> decide +kernel
  have hm : ∀ c ∈ (acting regs).mem, c.1 < 0x2010 ∨ (0x4000 ≤ c.1 ∧ c.1 < 0x4010) ∨ (0x6000 ≤ c.1 ∧ c.1 < 0x6010) ∨ 0x8000 ≤ c.1 := by
    obtain rfl | rfl := h <;> decide +kernel
  have h4 : (acting regs).entryAt 0 0x2000 4 = some ⟨0x4001⟩ := by obtain rfl | rfl := h <;> decide +kernel
  have h5 : (acting regs).entryAt 0 0x4000 3 = some ⟨0x6001⟩ := by obtain rfl | rfl := h <;> decide +kernel
  have h6 : (acting regs).entryAt 0 0x6000 2 = some ⟨0x4000001F⟩ := by obtain rfl | rfl := h <;> decide +kernel
  refine noFrames_of h1 h2 (tableFrames_one h4 (fun c hc => ?_) (by decide) (.inr ?_))
  · rcases hm c hc with h | h | h | h <;> omega
  · rw [show (⟨0x4001⟩ : Pte).paddr = 0x4000 by decide]
    refine tableFrames_one h5 (fun c hc => ?_) (by decide) (.inr ?_)
    · rcases hm c hc with h | h | h | h <;> omega
    · rw [show (⟨0x6001⟩ : Pte).paddr = 0x6000 by decide]
      refine tableFrames_one h6 (fun c hc => ?_) (by decide) (.inl (by decide))
      rcases hm c hc with h | h | h | h <;> omega
theorem acting_lowWalk (regs : Nat) (h : regs = 8 ∨ regs = 9) : lowWalk (acting regs) := by
  obtain rfl | rfl := h
  · exact ⟨by decide +kernel, by decide +kernel, by decide +kernel, by decide +kernel, by decide +kernel, rfl, acting_noFrames 8 (.inl rfl)⟩
  · exact ⟨by decide +kernel, by decide +kernel, by decide +kernel, by decide +kernel, by decide +kernel, rfl, acting_noFrames 9 (.inr rfl)⟩
/-- The bytes of the descriptor. -/
def descBytes (regs : Nat) : List Byte := (List.range 192).map fun k => memGet (acting regs).mem (0x40000000 + (0x11000 + k))
theorem acting_descriptor (regs : Nat) (h : regs = 8 ∨ regs = 9) :
    (acting regs).readVirtual 1 (BitVec.ofNat 64 (field (taskRecord 1) 8 8)) 192 = some (descBytes regs) := by
  rw [show field (taskRecord 1) 8 8 = 0x11000 by decide +kernel]; exact readVirtual_low (acting_lowWalk regs h) 0x11000 192 (by decide)
/-- The bytes of the constant window. -/
def windowBytes (regs : Nat) : List Byte := (List.range 64).map fun k => memGet (acting regs).mem (0x40000000 + (0x11400 + k))
theorem acting_window (regs : Nat) (h : regs = 8 ∨ regs = 9) :
    (acting regs).readVirtual 1 (BitVec.ofNat 64 (field (taskRecord 1) 0x28 8)) (field (descBytes regs) 40 4) = some (windowBytes regs) := by
  rw [show field (taskRecord 1) 0x28 8 = 0x11400 by decide +kernel, show field (descBytes regs) 40 4 = 64 by obtain rfl | rfl := h <;> decide +kernel]
  exact readVirtual_low (acting_lowWalk regs h) 0x11400 64 (by decide)

theorem wit_RecordsAreActedOn_admitted :
    nextRecord (helmed 8 (taskRecord 1)) 4 (taken (taskRecord 1)) ∧ (taskRecord 1).getD 0 0 ≠ 2 ∧ (helmed 8 (taskRecord 1)).ctxLive 1 = true ∧
    ((acting 8).parseLaunch 1 (taskRecord 1)).map (fun l => (acting 8).admission 1 l) = some none ∧
    shadowBad ((acting 8).readVirtual 1 (BitVec.ofNat 64 (field (taskRecord 1) 8 8)) 192) = false := by
  refine ⟨⟨by decide +kernel, rfl, rfl⟩, by decide +kernel, by decide +kernel, ?_, ?_⟩
  · unfold State.parseLaunch
    simp only [acting_descriptor 8 (.inl rfl), acting_window 8 (.inl rfl)]
    decide +kernel
  · rw [acting_descriptor 8 (.inl rfl)]; decide +kernel
/-- Nine registers a thread: LAUNCH_SHAPE. -/
theorem wit_RecordsAreActedOn_rejected :
    nextRecord (helmed 9 (taskRecord 1)) 4 (taken (taskRecord 1)) ∧
    ((acting 9).parseLaunch 1 (taskRecord 1)).map (fun l => (acting 9).admission 1 l) = some (some 1) := by
  refine ⟨⟨by decide +kernel, rfl, rfl⟩, ?_⟩
  unfold State.parseLaunch
  simp only [acting_descriptor 9 (.inr rfl), acting_window 9 (.inr rfl)]
  decide +kernel
/-- Kind 0: BAD_RECORD. -/
theorem wit_RecordsAreActedOn_bad :
    nextRecord (helmed 8 (taskRecord 0)) 4 (taken (taskRecord 0)) ∧ (afterTake (helmed 8 (taskRecord 0))).parseLaunch 1 (taskRecord 0) = none ∧
    Memory.wf (helmed 8 (taskRecord 0)).mem = true := by
  unfold nextRecord; decide +kernel

/-- A host resume record for thread 0 of block 0 of task 7. -/
def resumeRecord : List Byte := leBytes 256 (2 + 7 * 2 ^ 32 + 0x300000 * 2 ^ 1152)
/-- Thread 0 waits for the host. -/
def forHost : State :=
  { inThread (one []) (fun th => { th with wait := .host 9 }) with helm := { hstat := 1, taken := [taken resumeRecord] } }

theorem wit_RecordsAreActedOn_resume :
    nextRecord forHost 4 (taken resumeRecord) ∧ resumeRecord.getD 0 0 = 2 ∧ forHost.ctxLive 1 = true ∧ Memory.wf forHost.mem = true ∧
    zeros resumeRecord 1 3 = true ∧ zeros resumeRecord 8 0x88 = true ∧ zeros resumeRecord 0x9E 0x62 = true ∧
    (afterTake forHost).resumeTarget (taken resumeRecord) = some 0 ∧ (forHost.block (blockOf 0)).core < 256 := by
  unfold nextRecord; decide +kernel

/-- A node of three blocks in the given states. -/
def node3 (blks : Tab BlkState) : Node :=
  { ctx := 1, task := 7, seq := 9, prio := 2, launch := { threads := 32, blocks := 3, spKib := 4, undolog := 0 }, cplAddr := 0x300000, blks := blks }
/-- The helm runs, with one node. -/
def noded (n : Node) : State := { helmed 8 [] with helm := { (helmed 8 []).helm with taken := [] }, nodes := [(9, n)] }
/-- A block of the node whose only thread has exited. -/
def endingBlock (st : BlockStage) : State :=
  { noded (node3 [(0, .placed 0)]) with blocks := [(0, { block0 with node := 9, stage := st })], threads := [(0, { pc := at0, exited := true })] }

theorem wit_BlocksComeAndGo :
    (let s := noded (node3 [])
     tget s.nodes 9 = some (node3 []) ∧ (node3 []).seq = 9 ∧ (node3 []).launch.progress ≠ 2 ∧ 0 ∈ s.readyBlocks (node3 []) ∧
     s.mayPlace ((node3 []).cand 0) = true ∧ (s.fit (node3 []).ctx (node3 []).seq (node3 []).launch 255).isSome ∧ 3 ∉ s.readyBlocks (node3 [])) ∧
    (let n : Node := { node3 [] with launch := { threads := 32, blocks := 2, progress := 2 } }
     let s := noded n
     0 ∈ s.readyBlocks n ∧ s.mayPlace (n.cand 0) = true ∧ s.fit n.ctx n.seq n.launch 255 = some (0, [0]) ∧
     ((s.place n 0 255 0 [0]).placeRest n ((s.readyBlocks n).filter (· != 0))).isSome) ∧
    (∀ p ∈ [1399999, 1400000], tgetD (node3 [(1, .waiting p)]).blks 1 (.waiting 0) = .waiting p ∧ 1 ∉ (node3 [(1, .waiting p)]).starved) ∧
    (∀ e ∈ [(BlockStage.ending, true), (.resident, false)], (endingBlock e.1).helm.hstat.extractLsb' 0 2 = 1 ∧
      (tget (endingBlock e.1).nodes ((endingBlock e.1).block 0).node).isSome ∧ (endingBlock e.1).mayPublish 0 = e.2) ∧
    (node3 [(0, .published), (1, .published), (2, .published)]).allPublished = true ∧ (node3 []).allPublished = false ∧
    Memory.wf (noded (node3 [])).mem = true := by decide +kernel

/-- A launch of few bytes. -/
def small : Launch := { launch0 with regs := 8, uregs := 16, threads := 1, spKib := 0, tiles := 0, undolog := 0 }
/-- Context 1 with four blocks of a stage, one on each die. -/
def spread (st : BlockStage) (c : Context) : State :=
  { State.reset with
    blocks := (List.range 4).map fun d => (d, { block0 with core := 64 * d, index := d, stage := st, launch := small })
    threads := (List.range 4).map fun d => (512 * d, { pc := at0 })
    crews := (List.range 4).map fun d => (4 * d, { sub := 0 })
    ctxs := [(1, { c with begun := true, saveBase := 0x500000, saveUsed := 64 })] }

theorem wit_PreemptionEvents_refused : State.reset.ctxRunning 1 = false ∧ State.reset.ctxLive 1 = false := by decide +kernel
/-- Context 1 runs, with a drain count and a slice that has run out on die 3. -/
def running1 : State := spread .resident { drain := 5, slice := 7, sliceLeft := [(3, 0)] }
theorem wit_PreemptionEvents_running :
    running1.ctxRunning 1 = true ∧ (running1.ctx 1).drain ≠ 0 ∧ (running1.ctx 1).slice ≠ 0 ∧
    tget (running1.ctx 1).sliceLeft 3 = some 0 ∧ running1.dieHalted 1 3 = false := by decide +kernel
theorem wit_PreemptionEvents_at_once : let s := spread .resident { force := 6 }
    s.ctxRunning 1 = true ∧ (s.ctx 1).drain = 0 ∧ (s.ctx 1).force ≠ 0 ∧ s.dieBlocks 1 3 = [3] ∧ (s.block 3).stage = .resident := by decide +kernel
/-- Context 1 drains, and die 2 has no cycles left. -/
def draining1 : State := spread .resident { stage := 1, force := 6, dies := [(2, .drain 0)] }
theorem wit_PreemptionEvents_draining :
    draining1.ctxLive 1 = true ∧ (draining1.ctx 1).stage = 1 ∧ (draining1.ctx 1).force ≠ 0 ∧ tget (draining1.ctx 1).dies 2 = some (.drain 0) := by
  decide +kernel
/-- Context 1 saves, in an area of a size, and die 2 has a number of cycles left. -/
def saving1 (size left : Nat) : State := spread .saving { stage := 2, saveSize := size, dies := [(2, .save left)] }
/-! The length of a record whose RSEC is free. -/

theorem leBytes_len (n x : Nat) : (leBytes n x).length = n := by simp [leBytes]
theorem sections_length (s : State) (uid : Nat) (r : List Byte) :
    (s.sections uid r).flatten.length = (s.sections uid []).flatten.length + r.length := by
  simp only [State.sections, List.flatten_cons, List.flatten_nil, List.length_append, List.length_nil]
  omega
theorem offsets_length (a b c d e f g : List Byte) : ((sectionOffsets [a, b, c, d, e, f, g]).flatMap (leBytes 4)).length = 28 := by
  simp [sectionOffsets, leBytes_len]
theorem blockRecord_length (s : State) (uid : Nat) : (s.blockRecord uid).1.length ≤ 64 + (s.sections uid []).flatten.length + 16384 := by
  have hn : Config.freeChoice s.free 16384 % 16385 ≤ 16384 := by omega
  have hs : ∀ (f : Nat) r, ({ s with free := f } : State).sections uid r = s.sections uid r := fun _ _ => rfl
  unfold State.blockRecord State.choose State.freeBytes
  simp only [hs]
  rw [List.length_append, sections_length]
  have hr : ∀ m g, ((List.range m).map fun k => (Config.freeValue (g + k)).setWidth 8 : List Byte).length = m := by simp
  rw [hr]
  have ho : ∀ r, ((sectionOffsets (s.sections uid r)).flatMap (leBytes 4)).length = 28 := fun r => offsets_length ..
  simp only [List.length_append, leBytes_len, ho]
  omega

theorem blockRecord_ctx (s : State) (uid : Nat) (x : BitVec 16) : (s.blockRecord uid).2.ctx x = s.ctx x := rfl
/-- The state in which a block's record is formed for a save. -/
def toSave (s : State) (uid : Nat) : State :=
  let s := (s.settleInto uid).stopForSave uid
  (s.releaseAction (s.block uid).core []).drainOut (dieOf (s.block uid).core)
theorem saveBlock_isSome {s : State} {uid : Nat} {x : BitVec 16} (hx : (s.block uid).ctx = x)
    (h : (((toSave s uid).ctx x).saveUsed + 63) / 64 * 64 + (64 + ((toSave s uid).sections uid []).flatten.length + 16384) ≤
      ((toSave s uid).ctx x).saveSize) : (s.saveBlock uid).isSome := by
  unfold toSave at h
  simp only [State.saveBlock, hx]
  generalize State.drainOut _ _ = s1 at h ⊢
  have hl := blockRecord_length s1 uid
  rcases hr : s1.blockRecord uid with ⟨r, s2⟩
  have hc : s2.ctx x = s1.ctx x := by rw [← blockRecord_ctx s1 uid x, hr]
  rw [hr] at hl
  simp only [hc]
  rw [if_neg (by simp only at hl; omega)]
  rfl

theorem wit_PreemptionEvents_forced : (saving1 64 0).ctxLive 1 = true ∧ tget ((saving1 64 0).ctx 1).dies 2 = some (.save 0) := by decide +kernel
theorem wit_PreemptionEvents_no_room :
    (saving1 64 9).ctxLive 1 = true ∧ tget ((saving1 64 9).ctx 1).dies 2 = some (.save 9) ∧
    (((saving1 64 9).dieBlocks 1 2).all fun b => ((saving1 64 9).block b).stage == .saving && (saving1 64 9).quiet b) = true ∧
    ((saving1 64 9).saveBlocks ((saving1 64 9).dieBlocks 1 2)).isNone = true := by decide +kernel
/-- A record of any length of RSEC fits in the larger area. -/
theorem wit_PreemptionEvents_room :
    (((saving1 0x100000 9).dieBlocks 1 2).all fun b => ((saving1 0x100000 9).block b).stage == .saving && (saving1 0x100000 9).quiet b) = true ∧
    ((saving1 0x100000 9).saveBlocks ((saving1 0x100000 9).dieBlocks 1 2)).isSome = true := by
  have hd : (saving1 0x100000 9).dieBlocks 1 2 = [2] := by decide +kernel
  refine ⟨by decide +kernel, ?_⟩
  have h : ((saving1 0x100000 9).saveBlock 2).isSome := saveBlock_isSome (x := 1) (by decide +kernel) (by decide +kernel)
  rw [hd, State.saveBlocks]
  obtain ⟨s2, h2⟩ := Option.isSome_iff_exists.mp h
  rw [h2]
  rfl

/-- A context with a save area that is complete and holds no block. -/
def savedCtx : State :=
  { State.reset with mem := memWrite [] 0x500000 (leBytes 4 0x31564153 ++ leBytes 8 0 ++ leBytes 4 1),
                     ctxs := [(1, { stage := 3, saveBase := 0x500000, saveSize := 64 })] }
/-- A block in line for a core. -/
def comingBack (st : BlockStage) : State :=
  { State.reset with
    helm := { State.reset.helm with hstat := 1 }, ctxs := [(1, { cores := BitVec.allOnes 256 })],
    blocks := [(0, { block0 with core := 256, stage := st, woken := true, launch := small })] }
/-- Thread 0 stands at `accld v8, acc2`, whose tile is absent. -/
def fetching : State :=
  inBlock { paged (one [(1, reg 0)]) with mem := memWrite tables 0x80000000 (wordBytes ((encode (.accld fAccld)).getD 0)) } fun b =>
    { b with tiles := [(2, { absent := some 0x600000 })] }
/-- A block whose thread waits on a monitor, in the way of another. -/
def inTheWay : State :=
  { noded (node3 [(0, .placed 0)]) with
    nodes := [(9, { node3 [(0, .placed 0)] with launch := { threads := 32, blocks := 3, tiles := 8 } })],
    blocks := [(0, { block0 with node := 9, launch := { small with tiles := 8 } })],
    ctxs := [(1, { cores := 1, swapBase := 0x700000, swapSize := 0x20000 })], cores := [(0, { carve := some 0, active := some 1 })],
    crews := [(0, { sub := 0 })], threads := [(0, { pc := at0, wait := .watch (monitor true) })] }
/-- Contexts 1 and 2 are a pair; one block of the second. -/
def pair12 : State :=
  { State.reset with ctxs := [(1, { pair := 2 }), (2, { pair := 1 })], blocks := [(0, { block0 with ctx := 2, core := 3 })] }

theorem firstGap_isSome {m : Nat} (h : 64 + m ≤ 0x20000) : (firstGap [(0, 64)] m 0x20000).isSome := by
  rw [firstGap, List.find?_isSome]
  refine ⟨64, by decide, ?_⟩
  simp [overlap]
  omega
/-- The block in the way as its record is formed. -/
def toSwap : State :=
  (((inTheWay.fetchTiles (inTheWay.block 0).ctx).settleInto 0).releaseAction (inTheWay.block 0).core []).drainOut (dieOf (inTheWay.block 0).core)
theorem toSwap_fits : ((toSwap.blockRecord 0).2.swapPlace (inTheWay.block 0).ctx (toSwap.blockRecord 0).1.length).isSome := by
  have hl := blockRecord_length toSwap 0
  have hn : (toSwap.sections 0 []).flatten.length ≤ 0x10000 := by decide +kernel
  have hu : (toSwap.blockRecord 0).2.swapUsed (inTheWay.block 0).ctx = toSwap.swapUsed (inTheWay.block 0).ctx := rfl
  have hu2 : toSwap.swapUsed (inTheWay.block 0).ctx = [] := by decide +kernel
  have hz : ((toSwap.ctx (inTheWay.block 0).ctx)).swapSize / 64 * 64 = 0x20000 := by decide +kernel
  unfold State.swapPlace
  rw [hu, hu2, blockRecord_ctx, hz]
  refine firstGap_isSome ?_
  beta_reduce
  omega

/-- A save area whose header names a block that is not there. -/
def unsoundCtx : State := { savedCtx with mem := memWrite savedCtx.mem 0x500008 (leBytes 4 1) }

theorem wit_RestoreAndSwap :
    ((State.reset.ctx 1).stage ≠ 3 ∧ State.reset.ctxLive 1 = false) ∧
    (∀ s ∈ [savedCtx, unsoundCtx], s.ctxLive 1 = true ∧ (s.ctx 1).stage = 3 ∧ s.areaComplete 1 = true ∧
      (∀ b ∈ s.savedBlocks 1, s.recordValid (s.ctx 1).saveBase (s.block b) = true)) ∧
    (ofBytes (memRead savedCtx.mem 0x500008 4) ≤ (savedCtx.savedBlocks 1).length ∧
      ¬ofBytes (memRead unsoundCtx.mem 0x500008 4) ≤ (unsoundCtx.savedBlocks 1).length) ∧
    (let s := comingBack .restoring
     (tget s.blocks 0).isSome ∧ (s.block 0).stage = .restoring ∧ (s.block 0).ctx = 1 ∧ s.mayPlace (s.blockCand (s.block 0)) = true ∧
     (s.candFit (s.blockCand (s.block 0)) 255).isSome) ∧
    ((tget fetching.blocks 0).isSome ∧ (tgetD (fetching.block 0).tiles 2 {}).absent = some 0x600000 ∧ (fetching.block 0).stage = .resident ∧
      fetching.tileWaiters 0 2 ≠ [] ∧ fetching.marked = []) ∧
    (inTheWay.maySwap 0 = true ∧ (tget inTheWay.blocks 0).isSome ∧
      ((toSwap.blockRecord 0).2.swapPlace (inTheWay.block 0).ctx (toSwap.blockRecord 0).1.length).isSome) ∧
    (let s := comingBack .swapped
     (s.block 0).stage = .swapped ∧ (s.block 0).ctx = 1 ∧ (s.block 0).woken = true ∧ s.placing 1 = true ∧ s.mayPlace (s.blockCand (s.block 0)) = true ∧
     ∃ c < 256, (s.candFit (s.blockCand (s.block 0)) c).isSome) ∧
    (pair12.ctxLive 1 = true ∧ pair12.paired 1 (pair12.ctx 1).pair = true ∧
      ∃ k < 256, ∃ b ∈ pair12.coreBlocks k, (pair12.block b).ctx = (pair12.ctx 1).pair) := by
  refine ⟨by decide +kernel, by decide +kernel, by decide +kernel, by decide +kernel, by decide +kernel, ⟨by decide +kernel, by decide +kernel,
    toSwap_fits⟩, ⟨by decide +kernel, by decide +kernel,
    by decide +kernel, by decide +kernel, by decide +kernel, 0, by decide, by decide +kernel⟩, by decide +kernel, by decide +kernel, 3, by decide, 0,
    by decide +kernel, by decide +kernel⟩

/-- Another device may access a page of context 1, to read and write or to read alone; port 31 is up. -/
def windowed (perm : Nat) : State :=
  { one [] with helm := { fabValid := true }, ctxs := [(1, { begun := true, fwBase := 0x40000000, fwSize := 0x20000, fwPerm := perm })],
                ports := [(31, { state := 2 })] }
/-- A request of thread 0 to device 9, issued in cycle 10 with 20 cycles to wait. -/
def request0 (k : ReqKind) : Request :=
  { id := 4, task := 7, index := 0, port := 2, tag := 7, gen := 5, t := 0, ctx := 1, kind := k, members := [9], pa := 0x100, data := [0, 0, 0, 0], issued := 10, timeout := 20 }
/-- The request is out on port 2, which is in a state; its thread waits for a load. -/
def asking (k : ReqKind) (now : Nat) (st : Nat := 2) : State :=
  { inThread (one []) (fun th => { th with out := [result0] }) with requests := [request0 k], cycle := now, ports := [(2, { state := st })] }

/-- Lanes of port 2 have failed. -/
def failedLanes (mask : Nat) : State :=
  { one [] with ports := [(2, { state := 2, failed := BitVec.ofNat 8 mask, mode := 2, erase := 5 })] }

theorem wit_FabricEvents :
    (∀ p ∈ [1, 3], (windowed p).incoming = [] ∧ (windowed p).helm.fabValid = true ∧ (windowed p).ctxLive 1 = true ∧ ((windowed p).ctx 1).begun = true ∧
      Memory.wf (windowed p).mem = true ∧ (windowed p).repliesDue = [] ∧ (windowed p).populated 0x4001FFFC 4 = true ∧
      ((windowed p).ctx 1).fwBase ≤ 0x4001FFFC ∧ 0x4001FFFC + 4 ≤ ((windowed p).ctx 1).fwBase + ((windowed p).ctx 1).fwSize ∧
      ((windowed p).ctx 1).fwPerm.testBit 0 = true ∧ (windowed p).marked = [] ∧ ((windowed p).ctx 1).fwPerm.testBit 1 = decide (p = 3)) ∧
    settled (windowed 3) ∧ (∃ p < 32, takesReplies (windowed 3) p) ∧ (one []).unsent = [] ∧ (one []).repliesDue = [] ∧
    (∀ p < 32, (tgetD (one []).ports p {}).state ≠ 2) ∧ (tgetD (asking (.store 0) 0 1).ports 2 {}).state = 1 ∧
    (unexpected (asking (.store 0) 0) 2 8 5 0 ∧ unexpected (asking (.store 0) 0) 2 7 4 0) ∧
    ((asking (.piece 5 0) 0).requestOf 2 7 = some (request0 (.piece 5 0)) ∧ (request0 (.piece 5 0)).members.length = 1 ∧
      (request0 (.piece 5 0)).answers = [] ∧ resultAt (asking (.piece 5 0) 0) 0 5 = some result0) ∧
    ((asking (.store 0) 29).requestOf 2 7 = some (request0 (.store 0)) ∧ (asking (.store 0) 29).cycle - (request0 (.store 0)).issued < 20) ∧
    ((asking (.store 0) 30).requestOf 2 7 = some (request0 (.store 0)) ∧ 20 ≤ (asking (.store 0) 30).cycle - (request0 (.store 0)).issued ∧
      ((asking (.store 0) 30).thread (request0 (.store 0)).t).exited = false ∧ ((asking (.store 0) 30).thread (request0 (.store 0)).t).postFail = none) ∧
    (one []).helm.fabValid = false ∧ (2 : Nat) < 32 ∧ (7 : Nat) < 8 ∧ (tgetD (asking (.store 0) 0).ports 2 {}).failed = 0 ∧
    (tgetD (asking (.store 0) 0).ports 2 {}).state = 2 ∧
    (∀ m ∈ [2 ^ 5, 2 ^ 0 + 2 ^ 5], (tgetD (failedLanes m).ports 2 {}).failed = BitVec.ofNat 8 m ∧ (tgetD (failedLanes m).ports 2 {}).state = 2) := by
  refine ⟨by decide +kernel, ⟨rfl, by decide⟩, ⟨31, by decide, by unfold takesReplies; decide +kernel⟩, rfl, rfl, by decide +kernel, rfl, ⟨?_, ?_⟩, ?_⟩
  · intro r h; cases h
  · intro r h; cases h; exact .inl (by decide)
  · decide +kernel

/-! ## Encoding, stepping, the whole machine -/

theorem reset_inv : State.reset.memOk := by unfold State.memOk; decide +kernel
theorem wit_MemoryCanonicalKept : State.reset.memOk ∧ ({ State.reset with agenda := [.takeover] } : State).memOk := ⟨reset_inv, reset_inv⟩

/-- A word with its highest operands: both directions of the codec. -/
theorem wit_DecodeEncode :
    (∀ i ∈ [Instr.iadd fAdd, .ldG fLd, .mma (fMma .fp4x8), .mcgClose fMcgClose, .ill fTrap], i.wellFormed = true ∧
      (encode i).map (fun w => decide (decode w = .ok i ∧ decodeBytes (wordBytes w) = .ok i)) = some true) ∧
    Instr.iadd fAdd ≠ .illZero ∧ Instr.iadd fAdd ≠ .trapPool ∧ decode 0 = .ok .illZero := by decide +kernel

/-- Thread 0 stands at a word in memory. -/
def wordAt (w : BitVec 96) : State := let s := paged (one []); { s with mem := memWrite s.mem 0x80000000 (wordBytes w) }
/-- Its page may not be executed. -/
def noExec : State := let s := paged (one []); { s with mem := memWrite s.mem 0x6010 (leBytes 16 (0x80000000 + 0xF)) }
/-- The word a core would issue. -/
def wordOf (i : Instr) : BitVec 96 := (encode i).getD 0
/-- A core issues the word of thread 0 alone, and the word reads so. -/
def stood (s : State) (i : Except Illegal Instr) : Bool :=
  decide (s.todo = [] ∧ s.cur = some (.group 0 at0 [0]) ∧ crewOf 0 = 0 ∧ (tget s.crews 0).isSome = true) && s.stands at0 0 &&
  match s.fetch (s.block (0 / 4)).ctx at0 with
  | .ok (bs, none) => decide (decodeBytes bs = i)
  | _ => false

theorem wit_RefusedWords :
    stood (wordAt 0x3C0D) (decode 0x3C0D) = true ∧ (decode 0x3C0D).isOk = false ∧
    stood (wordAt (wordOf (.mend (plain .b32 0 no no)))) (.ok (.mend (plain .b32 0 no no))) = true ∧
    stood (inBlock (wordAt (wordOf (.iadd (plain .s32 500 no no)))) fun b => { b with launch := { b.launch with regs := 496 } })
      (.ok (.iadd (plain .s32 500 no no))) = true ∧
    ({ launch0 with regs := 496 } : Launch).holds (.iadd (plain .s32 500 no no)) = false ∧ (Instr.iadd (plain .s32 500 no no)).isThreadWord = true := by
  decide +kernel
theorem wit_RefusedWords_traps : trapsAtOnce (wordAt 0x3C0D) 0 := by unfold trapsAtOnce; decide +kernel
theorem wit_RefusedWords_page :
    validVa at0 = true ∧ (match noExec.translate (noExec.block 0).ctx at0 with | .ok p => p.x | .error _ => true) = false ∧
    noExec.standing at0 (noExec.crewThreads 0) = [0] ∧ noExec.cur = some (.group 0 at0 [0]) := by decide +kernel

/-- The sequencer of block 0 stands at a word in memory. -/
def streamAt (w : BitVec 96) : State := { wordAt w with cur := some (.stream 0) }
/-- The word of the sequencer reads so. -/
def streamed (s : State) (i : Instr) : Bool :=
  decide (s.todo = [] ∧ s.cur = some (.stream 0)) &&
  match s.fetch (s.block 0).ctx (s.block 0).sequencer.pc with
  | .ok (bs, none) => decide (decodeBytes bs = .ok i)
  | _ => false

theorem wit_StepRunsWord :
    stood (wordAt (wordOf (.iadd fAdd))) (.ok (.iadd fAdd)) = true ∧ (Instr.iadd fAdd).isThreadWord = true ∧ launch0.holds (.iadd fAdd) = true ∧
    streamed (streamAt (wordOf (.mend (plain .b32 0 no no)))) (.mend (plain .b32 0 no no)) = true ∧ (Instr.mend (plain .b32 0 no no)).isSeqWord = true ∧
    streamed (streamAt (wordOf (.iadd fAdd))) (.iadd fAdd) = true ∧ (Instr.iadd fAdd).isSeqWord = false ∧
    Instr.takeover.fromHost = false ∧ State.reset.helm.modules ≠ 0 := by decide +kernel
theorem wit_StepRunsWord_event :
    ({ State.reset with agenda := [.takeover] } : State).todo = [] ∧ ({ State.reset with agenda := [.takeover] } : State).cur = none := ⟨rfl, rfl⟩

theorem wit_NothingElseStops :
    ({ State.reset with todo := [.noMemory 7] } : State).todo = .noMemory 7 :: [] ∧ State.reset.todo.head? = none := ⟨rfl, by decide +kernel⟩

/-- A scratchpad store, performed, writes the bytes of its datum, the least first (R4). -/
theorem test_st_s :
    let s := after (.stS { fSt with sb := .imm 4 }) (one [(8, reg 0x100), (10, reg 0x11223344)])
    (s.thread 0).lates.length = 1 ∧
    (((after (.accessPerformed 0 (((s.thread 0).lates.head?.map (·.1)).getD 9)) s).core 0).scratch.map fun e => (e.1, e.2.val)) =
      [(260, 0x44), (261, 0x33), (262, 0x22), (263, 0x11)] := by decide +kernel
/-- The values a load or an atomic of thread 0 has ready to write. -/
def ready (s : State) : List (List (Loc × W32)) := (s.thread 0).out.filterMap fun o => o.wb.map fun l => l.map fun x => (x.1, x.2.val)
/-- A load of a negative byte extends its sign (R68). -/
theorem test_ld_s8 :
    let s := after (.ldS (plain .s8 20 (vr 8) (.imm 1))) (withBytes (one []) [0x44, 0x83, 0x22])
    ready (s.loadNow 0 (((s.thread 0).out.head?.map (·.id)).getD 0)) = [[(.v 20, 0xFFFFFF83)]] := by decide +kernel
/-- A compare-and-swap that finds its value returns it and writes the new one (R200). -/
theorem test_atom_s_cas :
    let s := after (.atomS fCas) (withBytes (one [(10, reg 5), (11, reg 9)]) [5])
    let s := after (.accessPerformed 0 (((s.thread 0).lates.head?.map (·.1)).getD 9)) s
    (s.core 0).scratch.head?.map (·.2.val) = some 9 ∧ ready s = [[(.v 20, 5)]] := by decide +kernel

end Sys2Proof.Tests
end

section
/-! SUPPORT. Integer instructions: what a well-formed form gives, the value of each operation of the table of integer results, and that
each completes with it (R139 to R155). -/

namespace Sys2Proof.Machine

open Sys2Proof.Claim

/-! ## What a well-formed form gives -/

theorem formOf_of_shape {i : Instr} {f : Fields} {sh : Shape} (hs : i.shape = some (f, sh)) : formOf i = sh := by
  simp [formOf, hs]

/-- A well-formed word has a type of its form and an extension that its form permits (R79 step 4). -/
theorem type_and_extension_of_wellFormed {i : Instr} {f : Fields} {sh : Shape} (hs : i.shape = some (f, sh))
    (hw : i.WellFormed) : f.ty ∈ sh.tys ∧ sh.xc = true := by
  simp only [Instr.WellFormed, Instr.illegal, hs, Shape.illegal] at hw
  constructor
  · by_contra h
    simp [h] at hw
  · by_contra h
    simp only [Bool.not_eq_true] at h
    simp only [h, Bool.not_false, Bool.true_or, if_true] at hw
    split_ifs at hw

/-- The type a source is read as has no more registers than the source. -/
def SrcShape.fits (sh : SrcShape) : Prop := sh.valueOf.2.regs ≤ sh.valueOf.1 ∨ sh.valueOf.1 = 0

theorem fits_absent : SrcShape.fits .absent := .inr rfl
theorem fits_val {n : Nat} {ty : Ty} {ar : Bool} (h : ty.regs ≤ n) : SrcShape.fits (.val n ty ar) := .inl h

/-- Every well-formed form of an operation completes with a value. -/
def Computes (mk : Fields → Instr) (value : Fields → Nat → Nat → Nat → Nat) : Prop :=
  ∀ f, (mk f).WellFormed → Completes (mk f) f (aluPart (mk f) f (value f))

section

variable {mk : Fields → Instr} {g value : Fields → Nat → Nat → Nat → Nat}

/-- An operation of classes 0 to 2 with meaning m computes what m does of operands of its sources' sizes, where its type and its
extension are its form's. -/
theorem Computes.of_form {sh : Fields → Shape} (m : Fields → State → Host.Outcome State Fault Refusal)
    (hx : ∀ f s, exec (mk f) s = m f s) (hm : ∀ f s, m f s = s.alu (mk f) f (formOf (mk f)) (g f))
    (hs : ∀ f, (mk f).shape = some (f, sh f))
    (hv : ∀ f, f.ty ∈ (sh f).tys → (sh f).xc = true → SrcShape.fits (sh f).a ∧ SrcShape.fits (sh f).b ∧
      ∀ a b x, a < 2 ^ (32 * (sh f).a.valueOf.1) → b < 2 ^ (32 * (sh f).b.valueOf.1) → x < 2 ^ (32 * (sh f).xcRegs) →
        g f a b x = value f a b x) :
    Computes mk value := by
  intro f hw
  obtain ⟨ht, hxc⟩ := type_and_extension_of_wellFormed (hs f) hw
  obtain ⟨ha, hb, hv⟩ := hv f ht hxc
  rw [← formOf_of_shape (hs f)] at ha hb hv
  exact Completes.of_alu (fun s => (hx f s).trans (hm f s)) ha hb fun a b x h1 h2 h3 => by rw [hv a b x h1 h2 h3]

end

/-! ## The integer types -/

/-- The types of R140. -/
def intTys : List Ty := [.b32, .s32, .u64, .s64]

theorem mem_intTys {ty : Ty} : ty ∈ intTys ↔ ty = .b32 ∨ ty = .s32 ∨ ty = .u64 ∨ ty = .s64 := by simp [intTys]

theorem wide_eq_width {f : Fields} (h : f.ty ∈ intTys) : wide f = width f.ty := by
  rcases mem_intTys.1 h with h | h | h | h <;> simp [wide, width, Ty.regs, h]

theorem width_pos {ty : Ty} (h : ty ∈ intTys) : 0 < width ty := by
  rcases mem_intTys.1 h with h | h | h | h <;> simp [width, Ty.regs, h]

theorem intTy_of_word {ty : Ty} (h : ty ∈ [Ty.b32, .s32]) : ty ∈ intTys := (by decide : [Ty.b32, .s32] ⊆ intTys) h
theorem intTy_of_long {ty : Ty} (h : ty ∈ [Ty.u64, .s64]) : ty ∈ intTys := (by decide : [Ty.u64, .s64] ⊆ intTys) h
theorem regs_of_word {ty : Ty} (h : ty ∈ [Ty.b32, .s32]) : ty.regs = 1 :=
  (by decide : ∀ ty ∈ [Ty.b32, .s32], ty.regs = 1) ty h
theorem regs_of_long {ty : Ty} (h : ty ∈ [Ty.u64, .s64]) : ty.regs = 2 :=
  (by decide : ∀ ty ∈ [Ty.u64, .s64], ty.regs = 2) ty h
theorem wide_of_word {f : Fields} (h : f.ty ∈ [Ty.b32, .s32]) : wide f = 32 := by
  rw [wide_eq_width (intTy_of_word h), width, regs_of_word h]
theorem wide_of_unsigned {f : Fields} (h : f.ty ∈ [Ty.b32, .u64]) : wide f = width f.ty :=
  wide_eq_width ((by decide : [Ty.b32, .u64] ⊆ intTys) h)

theorem intOf_eq_int {f : Fields} (h : f.ty ∈ intTys) (x : Nat) : intOf f.ty x = int f x := by
  rw [int, wide_eq_width h]
  rcases mem_intTys.1 h with h | h | h | h <;> simp only [h, width, Ty.regs, Nat.mul_one, Nat.reduceMul] <;>
    simp [intAt, signed, h, intOf_b32, intOf_s32, intOf_u64, intOf_s64]

theorem least_eq_minOf {f : Fields} (h : f.ty ∈ intTys) : least f = minOf f.ty := by
  rcases mem_intTys.1 h with h | h | h | h <;> simp [least, signed, wide, minOf, h]

theorem greatest_eq_maxOf {f : Fields} (h : f.ty ∈ intTys) : greatest f = maxOf f.ty := by
  rcases mem_intTys.1 h with h | h | h | h <;> simp [greatest, signed, wide, maxOf, h]

theorem minOf_le_maxOf (ty : Ty) : minOf ty ≤ maxOf ty := by cases ty <;> decide

/-- An exact integer is saturated and kept in the bits of its type (R140). -/
theorem intResult_eq_narrow {f : Fields} (h : f.ty ∈ intTys) (x : Int) : intResult f x = narrow f x := by
  rw [intResult, narrow, ofSigned_eq, satInt, clamp_eq (minOf_le_maxOf f.ty), wide_eq_width h, least_eq_minOf h,
    greatest_eq_maxOf h]

theorem intResult_intOf (op : Int → Int → Int) {f : Fields} {a b : Nat} (h : f.ty ∈ intTys) :
    intResult f (op (intOf f.ty a) (intOf f.ty b)) = narrow f (op (int f a) (int f b)) := by
  rw [intResult_eq_narrow h, intOf_eq_int h, intOf_eq_int h]

/-- The bits of the integer that some bits stand for are those bits. -/
theorem ofInt_intAt (f : Fields) {w a : Nat} (ha : a < 2 ^ w) : (BitVec.ofInt w (intAt f w a)).toNat = a := by
  unfold intAt
  split
  · rw [BitVec.ofInt_toInt, BitVec.toNat_ofNat, Nat.mod_eq_of_lt ha]
  · rw [BitVec.ofInt_natCast, BitVec.toNat_ofNat, BitVec.toNat_ofNat, Nat.mod_mod, Nat.mod_eq_of_lt ha]

theorem ofSigned_int {f : Fields} {a : Nat} (h : f.ty ∈ [Ty.b32, .s32]) (ha : a < 2 ^ 32) : ofSigned 32 (int f a) = a := by
  rw [ofSigned_eq, int, wide_of_word h, ofInt_intAt f ha]

/-! ## Arithmetic -/

/-- `imulhi` (R140): the high word of 64 bits. -/
theorem ofSigned_high_word (p : Int) : ofSigned 32 (p / (2 ^ 32 : Nat)) = ((BitVec.ofInt 64 p).extractLsb' 32 32).toNat := by
  rw [BitVec.extractLsb'_toNat, BitVec.toNat_ofInt, Nat.shiftRight_eq_div_pow, ofSigned]
  omega

/-- `imin` (R142). -/
theorem ofSigned_min {f : Fields} {a b : Nat} (h : f.ty ∈ [Ty.b32, .s32]) (ha : a < 2 ^ 32) (hb : b < 2 ^ 32) :
    ofSigned 32 (min (int f a) (int f b)) = if int f a ≤ int f b then a else b := by
  rw [min_def, apply_ite (ofSigned 32), ofSigned_int h ha, ofSigned_int h hb]

/-- `imax` (R142). -/
theorem ofSigned_max {f : Fields} {a b : Nat} (h : f.ty ∈ [Ty.b32, .s32]) (ha : a < 2 ^ 32) (hb : b < 2 ^ 32) :
    ofSigned 32 (max (int f a) (int f b)) = if int f a ≤ int f b then b else a := by
  rw [max_def, apply_ite (ofSigned 32), ofSigned_int h ha, ofSigned_int h hb]

/-- The absolute value of a word, as its number and as its bits. -/
theorem toNat_abs_word {a : Nat} (ha : a < 2 ^ 32) : (BitVec.ofNat 32 a).abs.toNat = (intOf .s32 a).natAbs := by
  rw [intOf_s32, BitVec.toNat_abs, BitVec.msb_eq_decide, BitVec.toInt_eq_toNat_cond, BitVec.toNat_ofNat,
    Nat.mod_eq_of_lt ha]
  simp only [decide_eq_true_eq]
  split_ifs <;> omega

/-- Only the least s32 has an absolute value above the greatest. -/
theorem natAbs_word_bound {a : Nat} (ha : a < 2 ^ 32) :
    (intOf .s32 a).natAbs ≤ 2 ^ 31 ∧ ((intOf .s32 a).natAbs = 2 ^ 31 ↔ a = 2 ^ 31) := by
  rw [intOf_s32, BitVec.toInt_eq_toNat_cond, BitVec.toNat_ofNat, Nat.mod_eq_of_lt ha]
  split_ifs <;> omega

/-- `iabs` (R142). -/
theorem absolute_eq (sat : Bool) {a : Nat} (ha : a < 2 ^ 32) :
    ofSigned 32 (if sat then clamp (intOf .s32 a).natAbs 0 2147483647 else (intOf .s32 a).natAbs) =
      if sat && a == 2 ^ 31 then 2 ^ 31 - 1 else (BitVec.ofNat 32 a).abs.toNat := by
  obtain ⟨hle, heq⟩ := natAbs_word_bound ha
  rw [toNat_abs_word ha]
  generalize (intOf .s32 a).natAbs = m at hle heq ⊢
  cases sat with
  | false =>
    simp only [ofSigned, Bool.false_and, Bool.false_eq_true, if_false]
    omega
  | true =>
    simp only [clamp, ofSigned, Bool.true_and, beq_iff_eq, if_true]
    split_ifs <;> omega

/-- `lea` (R155): base and scaled index, in 64 bits. -/
theorem ofSigned_scaled (a k : Nat) (y : Int) :
    ofSigned 64 ((a : Int) + y * (2 ^ k : Nat)) = (BitVec.ofNat 64 a + (BitVec.ofInt 64 y <<< k)).toNat := by
  have hk : BitVec.twoPow 64 k = BitVec.ofNat 64 (2 ^ k) := BitVec.eq_of_toNat_eq (by simp)
  rw [ofSigned_eq, BitVec.ofInt_add, BitVec.ofInt_natCast, BitVec.ofInt_mul, BitVec.ofInt_natCast,
    BitVec.shiftLeft_eq_mul_twoPow, hk]

/-! ## Comparisons -/

/-- The six conditions of R151. -/
theorem condHolds_eq_cond {c : Nat} (hc : condOk c = true) (a b : Int) : condHolds c a b = Claim.cond c a b := by
  have h6 : c < 6 := by simpa [condOk] using hc
  interval_cases c <;> simp [condHolds, Claim.cond, Bool.beq_eq_decide_eq, bne]

/-! ## Logic -/

section Logic

variable {w a b : Nat}

theorem and_eq_bitVec (ha : a < 2 ^ w) (hb : b < 2 ^ w) : a &&& b = (BitVec.ofNat w a &&& BitVec.ofNat w b).toNat := by
  simp [Nat.mod_eq_of_lt ha, Nat.mod_eq_of_lt hb]

theorem or_eq_bitVec (ha : a < 2 ^ w) (hb : b < 2 ^ w) : a ||| b = (BitVec.ofNat w a ||| BitVec.ofNat w b).toNat := by
  simp [Nat.mod_eq_of_lt ha, Nat.mod_eq_of_lt hb]

theorem xor_eq_bitVec (ha : a < 2 ^ w) (hb : b < 2 ^ w) : a ^^^ b = (BitVec.ofNat w a ^^^ BitVec.ofNat w b).toNat := by
  simp [Nat.mod_eq_of_lt ha, Nat.mod_eq_of_lt hb]

theorem andn_eq_bitVec (ha : a < 2 ^ w) (hb : b < 2 ^ w) :
    a &&& (2 ^ w - 1 - b) = (BitVec.ofNat w a &&& ~~~BitVec.ofNat w b).toNat := by
  simp [Nat.mod_eq_of_lt ha, Nat.mod_eq_of_lt hb]

theorem orn_eq_bitVec (ha : a < 2 ^ w) (hb : b < 2 ^ w) :
    a ||| (2 ^ w - 1 - b) = (BitVec.ofNat w a ||| ~~~BitVec.ofNat w b).toNat := by
  simp [Nat.mod_eq_of_lt ha, Nat.mod_eq_of_lt hb]

end Logic

/-! ## Shifts and bit fields by type -/

/-- `bfe` (R146), unsigned and signed. -/
theorem bitExtract_eq {f : Fields} {a : Nat} (b : Nat) (h : f.ty ∈ [Ty.b32, .s32]) (ha : a < 2 ^ 32) :
    bitExtract f.ty a b =
      (let pos := min (b % 256) 32
       let len := min (b / 256 % 256) 32
       let ext : BitVec 64 := if signed f then (BitVec.ofNat 32 a).signExtend 64 else (BitVec.ofNat 32 a).setWidth 64
       let field : BitVec len := (ext >>> pos).setWidth len
       (if signed f then field.signExtend 32 else field.setWidth 32).toNat) := by
  simp only [List.mem_cons, List.not_mem_nil, or_false] at h
  rcases h with h | h
  · simp only [h, bitExtract_b32 a b ha, signed, Bool.false_eq_true, if_false]
  · simp only [h, bitExtract_s32, signed, if_true]

/-- `shf` (R145), by its direction. -/
theorem funnel_eq {r : Rnd} {hi lo : Nat} (n : Nat) (h1 : hi < 2 ^ 32) (h2 : lo < 2 ^ 32) :
    funnel (r == .rtz) hi n lo =
      (let both := BitVec.ofNat 32 hi ++ BitVec.ofNat 32 lo
       if r = .rtz then ((both >>> min n 32).extractLsb' 0 32).toNat else ((both <<< min n 32).extractLsb' 32 32).toNat) := by
  by_cases h : r = .rtz
  · simp only [h, beq_self_eq_true, funnel_right n h1 h2, if_true]
  · simp only [h, beq_eq_false_iff_ne.2 h, funnel_left n h1 h2, if_false]

/-- `prmt` (R149), by what each control picks. -/
theorem permute_eq_pickByte {a : Nat} (sel b : Nat) (ha : a < 2 ^ 32) :
    permute a sel b = ofBytes ((List.range 4).map fun k =>
      BitVec.ofNat 8 (pickByte ((leBytes 4 a ++ leBytes 4 b).map (·.toNat)) (sel / 2 ^ (5 * k) % 32))) := by
  rw [permute_eq]
  congr 2
  funext k
  rw [permuteByte_eq _ ha (Nat.mod_lt _ (by norm_num))]
  rfl

/-- The type of the factors of `imad`: 32 bits, with the sign of the type of the sum (R136). -/
def factorTy : Ty → Ty
  | .u64 => .b32
  | .s64 => .s32
  | t => t

theorem regs_factorTy {ty : Ty} (h : ty ∈ intTys) : (factorTy ty).regs = 1 :=
  (by decide : ∀ ty ∈ intTys, (factorTy ty).regs = 1) ty h

theorem intOf_factorTy {f : Fields} (h : f.ty ∈ intTys) (x : Nat) : intOf (factorTy f.ty) x = intAt f 32 x := by
  rcases mem_intTys.1 h with h | h | h | h <;> simp [h, factorTy, intAt, signed, intOf_b32, intOf_s32]

/-! ## Families of forms -/

section Families

variable {mk : Fields → Instr} {g value : Fields → Nat → Nat → Nat → Nat} {tys : List Ty}

/-- Two sources of the operation's type (R136). -/
theorem Computes.of_int2 {n : Fields → Nat} {ar sat : Bool} (m : Fields → State → Host.Outcome State Fault Refusal)
    (hx : ∀ f s, exec (mk f) s = m f s) (hm : ∀ f s, m f s = s.alu (mk f) f (formOf (mk f)) (g f))
    (hs : ∀ f, (mk f).shape = some (f, int2 f tys (n f) ar sat)) (hn : ∀ f, f.ty ∈ tys → f.ty.regs = n f)
    (hv : ∀ f, f.ty ∈ tys → ∀ a b x, a < 2 ^ (32 * n f) → b < 2 ^ (32 * n f) → g f a b x = value f a b x) :
    Computes mk value :=
  .of_form m hx hm hs fun f ht _ => ⟨fits_val (hn f ht).le, fits_val (hn f ht).le, fun a b x ha hb _ => hv f ht a b x ha hb⟩

/-- A source of the operation's type and a count of one register (R144). -/
theorem Computes.of_shift (m : Fields → State → Host.Outcome State Fault Refusal)
    (hx : ∀ f s, exec (mk f) s = m f s) (hm : ∀ f s, m f s = s.alu (mk f) f (formOf (mk f)) (g f))
    (hs : ∀ f, (mk f).shape = some (f, shiftShape f tys)) (hi : tys ⊆ intTys)
    (hv : ∀ f, f.ty ∈ intTys → ∀ a n x, a < 2 ^ width f.ty → g f a n x = value f a n x) : Computes mk value :=
  .of_form m hx hm hs fun f ht _ => ⟨fits_val le_rfl, fits_val le_rfl, fun a n x ha _ _ => hv f (hi ht) a n x ha⟩

/-- One source of the operation's type (R148). -/
theorem Computes.of_bits {dst : Fields → DstShape} (m : Fields → State → Host.Outcome State Fault Refusal)
    (hx : ∀ f s, exec (mk f) s = m f s) (hm : ∀ f s, m f s = s.alu (mk f) f (formOf (mk f)) (g f))
    (hs : ∀ f, (mk f).shape = some (f, { countShape f with dst := dst f }))
    (hv : ∀ f, f.ty ∈ intTys → ∀ a b x, a < 2 ^ width f.ty → g f a b x = value f a b x) : Computes mk value :=
  .of_form m hx hm hs fun f ht _ =>
    ⟨fits_val le_rfl, fits_absent, fun a b x ha _ _ => hv f ((by decide : [Ty.b32, .u64] ⊆ intTys) ht) a b x ha⟩

end Families

/-! ## The operations of the table -/

theorem iadd_computes : Computes .iadd fun f a b _ => narrow f (int f a + int f b) :=
  .of_int2 execIadd (fun _ _ => rfl) (fun _ _ => rfl) (fun _ => rfl) (fun _ => regs_of_word) fun _ h _ _ _ _ _ =>
    intResult_intOf (· + ·) (intTy_of_word h)

theorem isub_computes : Computes .isub fun f a b _ => narrow f (int f a - int f b) :=
  .of_int2 execIsub (fun _ _ => rfl) (fun _ _ => rfl) (fun _ => rfl) (fun _ => regs_of_word) fun _ h _ _ _ _ _ =>
    intResult_intOf (· - ·) (intTy_of_word h)

theorem imul_computes : Computes .imul fun f a b _ => narrow f (int f a * int f b) :=
  .of_int2 execImul (fun _ _ => rfl) (fun _ _ => rfl) (fun _ => rfl) (fun _ => regs_of_word) fun _ h _ _ _ _ _ =>
    intResult_intOf (· * ·) (intTy_of_word h)

theorem iadd64_computes : Computes .iadd64 fun f a b _ => narrow f (int f a + int f b) :=
  .of_int2 execIadd64 (fun _ _ => rfl) (fun _ _ => rfl) (fun _ => rfl) (fun _ => regs_of_long) fun _ h _ _ _ _ _ =>
    intResult_intOf (· + ·) (intTy_of_long h)

theorem isub64_computes : Computes .isub64 fun f a b _ => narrow f (int f a - int f b) :=
  .of_int2 execIsub64 (fun _ _ => rfl) (fun _ _ => rfl) (fun _ => rfl) (fun _ => regs_of_long) fun _ h _ _ _ _ _ =>
    intResult_intOf (· - ·) (intTy_of_long h)

theorem imulhi_computes :
    Computes .imulhi fun f a b _ => ((BitVec.ofInt 64 (int f a * int f b)).extractLsb' 32 32).toNat :=
  .of_int2 execImulhi (fun _ _ => rfl) (fun _ _ => rfl) (fun _ => rfl) (fun _ => regs_of_word) fun f h a b _ _ _ => by
    rw [intOf_eq_int (intTy_of_word h), intOf_eq_int (intTy_of_word h), ofSigned_high_word]

theorem imad_computes : Computes .imad fun f a b c => narrow f (intAt f 32 a * intAt f 32 b + int f c) := by
  refine .of_form execImad (fun _ _ => rfl) (fun _ _ => rfl) (fun _ => rfl) fun f (h : f.ty ∈ intTys) _ =>
    ⟨fits_val (regs_factorTy h).le, fits_val (regs_factorTy h).le, fun a b c _ _ _ => ?_⟩
  show intResult f (intOf (factorTy f.ty) a * intOf (factorTy f.ty) b + intOf f.ty c) = _
  rw [intResult_eq_narrow h, intOf_factorTy h, intOf_factorTy h, intOf_eq_int h]

theorem imin_computes : Computes .imin fun f a b _ => if int f a ≤ int f b then a else b :=
  .of_int2 execImin (fun _ _ => rfl) (fun _ _ => rfl) (fun _ => rfl) (fun _ => regs_of_word) fun f h a b _ ha hb => by
    rw [intOf_eq_int (intTy_of_word h), intOf_eq_int (intTy_of_word h), ofSigned_min h ha hb]

theorem imax_computes : Computes .imax fun f a b _ => if int f a ≤ int f b then b else a :=
  .of_int2 execImax (fun _ _ => rfl) (fun _ _ => rfl) (fun _ => rfl) (fun _ => regs_of_word) fun f h a b _ ha hb => by
    rw [intOf_eq_int (intTy_of_word h), intOf_eq_int (intTy_of_word h), ofSigned_max h ha hb]

theorem iabs_computes :
    Computes .iabs fun f a _ _ => if f.sat && a == 2 ^ 31 then 2 ^ 31 - 1 else (BitVec.ofNat 32 a).abs.toNat :=
  .of_form execIabs (fun _ _ => rfl) (fun _ _ => rfl) (fun _ => rfl) fun f _ _ =>
    ⟨fits_val le_rfl, fits_absent, fun _ _ _ ha _ _ => absolute_eq f.sat ha⟩

theorem and_computes : Computes .and fun f a b _ => (BitVec.ofNat (wide f) a &&& BitVec.ofNat (wide f) b).toNat :=
  .of_int2 execAnd (fun _ _ => rfl) (fun _ _ => rfl) (fun _ => rfl) (fun _ _ => rfl) fun f h a b _ ha hb => by
    rw [wide_of_unsigned h]
    exact and_eq_bitVec ha hb

theorem or_computes : Computes .or fun f a b _ => (BitVec.ofNat (wide f) a ||| BitVec.ofNat (wide f) b).toNat :=
  .of_int2 execOr (fun _ _ => rfl) (fun _ _ => rfl) (fun _ => rfl) (fun _ _ => rfl) fun f h a b _ ha hb => by
    rw [wide_of_unsigned h]
    exact or_eq_bitVec ha hb

theorem xor_computes : Computes .xor fun f a b _ => (BitVec.ofNat (wide f) a ^^^ BitVec.ofNat (wide f) b).toNat :=
  .of_int2 execXor (fun _ _ => rfl) (fun _ _ => rfl) (fun _ => rfl) (fun _ _ => rfl) fun f h a b _ ha hb => by
    rw [wide_of_unsigned h]
    exact xor_eq_bitVec ha hb

theorem andn_computes : Computes .andn fun f a b _ => (BitVec.ofNat (wide f) a &&& ~~~BitVec.ofNat (wide f) b).toNat :=
  .of_int2 execAndn (fun _ _ => rfl) (fun _ _ => rfl) (fun _ => rfl) (fun _ _ => rfl) fun f h a b _ ha hb => by
    rw [wide_of_unsigned h]
    exact andn_eq_bitVec ha hb

theorem orn_computes : Computes .orn fun f a b _ => (BitVec.ofNat (wide f) a ||| ~~~BitVec.ofNat (wide f) b).toNat :=
  .of_int2 execOrn (fun _ _ => rfl) (fun _ _ => rfl) (fun _ => rfl) (fun _ _ => rfl) fun f h a b _ ha hb => by
    rw [wide_of_unsigned h]
    exact orn_eq_bitVec ha hb

theorem shl_computes : Computes .shl fun f a b _ => (BitVec.ofNat (wide f) a <<< b).toNat :=
  .of_shift execShl (fun _ _ => rfl) (fun _ _ => rfl) (fun _ => rfl) (by decide) fun f h a b _ _ => by
    rw [wide_eq_width h, shlBits_eq b]

theorem shr_computes : Computes .shr fun f a b _ => (BitVec.ofNat (wide f) a >>> b).toNat :=
  .of_shift execShr (fun _ _ => rfl) (fun _ _ => rfl) (fun _ => rfl) (by decide) fun f h a b _ _ => by
    rw [wide_eq_width h, shrBits_eq b]

theorem sar_computes : Computes .sar fun f a b _ => ((BitVec.ofNat (wide f) a).sshiftRight b).toNat :=
  .of_shift execSar (fun _ _ => rfl) (fun _ _ => rfl) (fun _ => rfl) (by decide) fun f h a b _ _ => by
    rw [wide_eq_width h, sarBits_eq b (width_pos h)]

theorem rot_computes : Computes .rot fun f a b _ => ((BitVec.ofNat (wide f) a).rotateLeft b).toNat :=
  .of_shift execRot (fun _ _ => rfl) (fun _ _ => rfl) (fun _ => rfl) (by decide) fun f h a b _ ha => by
    rw [wide_eq_width h, rotBits_eq b ha]

theorem popc_computes : Computes .popc fun f a _ _ => countBits (wide f) fun k => a.testBit k :=
  .of_bits execPopc (fun _ _ => rfl) (fun _ _ => rfl) (fun _ => rfl) fun f h a _ _ _ => by
    rw [wide_eq_width h, popCount, countBits]

theorem clz_computes : Computes .clz fun f a _ _ => countBits (wide f) fun k => decide (a < 2 ^ k) :=
  .of_bits execClz (fun _ _ => rfl) (fun _ _ => rfl) (fun _ => rfl) fun f h a _ _ ha => by
    rw [wide_eq_width h]
    exact leadZeros_eq _ a ha

theorem ctz_computes : Computes .ctz fun f a _ _ => countBits (wide f) fun k => a % 2 ^ (k + 1) == 0 :=
  .of_bits execCtz (fun _ _ => rfl) (fun _ _ => rfl) (fun _ => rfl) fun f h a _ _ _ => by
    rw [wide_eq_width h]
    exact trailZeros_eq _ a

theorem brev_computes : Computes .brev fun f a _ _ => fromBits (wide f) fun k => a.testBit (wide f - 1 - k) :=
  .of_bits execBrev (fun _ _ => rfl) (fun _ _ => rfl) (fun _ => rfl) fun f h a _ _ _ => by
    rw [wide_eq_width h]
    exact bitReverse_eq _ a

theorem shf_computes : Computes .shf fun f a b c =>
    let both := BitVec.ofNat 32 a ++ BitVec.ofNat 32 c
    if f.rnd = .rtz then ((both >>> min b 32).extractLsb' 0 32).toNat else ((both <<< min b 32).extractLsb' 32 32).toNat :=
  .of_form execShf (fun _ _ => rfl) (fun _ _ => rfl) (fun _ => rfl) fun _ _ _ =>
    ⟨fits_val le_rfl, fits_val le_rfl, fun _ b _ ha _ hc => funnel_eq b ha hc⟩

theorem bfe_computes : Computes .bfe fun f a b _ =>
    let pos := min (b % 256) 32
    let len := min (b / 256 % 256) 32
    let ext : BitVec 64 := if signed f then (BitVec.ofNat 32 a).signExtend 64 else (BitVec.ofNat 32 a).setWidth 64
    let field : BitVec len := (ext >>> pos).setWidth len
    (if signed f then field.signExtend 32 else field.setWidth 32).toNat :=
  .of_form execBfe (fun _ _ => rfl) (fun _ _ => rfl) (fun _ => rfl) fun f (h : f.ty ∈ [Ty.b32, .s32]) _ =>
    ⟨fits_val (regs_of_word h).le, fits_val le_rfl, fun _ b _ ha _ _ => bitExtract_eq b h ha⟩

theorem bfi_computes : Computes .bfi fun _ a b c =>
    let pos := min (b % 256) 32
    let len := min (b / 256 % 256) 32
    fromBits 32 fun k => if pos ≤ k ∧ k < pos + len then a.testBit (k - pos) else c.testBit k :=
  .of_form execBfi (fun _ _ => rfl) (fun _ _ => rfl) (fun _ => rfl) fun _ _ _ =>
    ⟨fits_val le_rfl, fits_val le_rfl, fun a b c _ _ hc => bitInsert_eq a b c hc⟩

theorem prmt_computes : Computes .prmt fun _ a b c =>
    let bytes := (leBytes 4 a ++ leBytes 4 c).map (·.toNat)
    ofBytes ((List.range 4).map fun k => BitVec.ofNat 8 (pickByte bytes (b / 2 ^ (5 * k) % 32))) :=
  .of_form execPrmt (fun _ _ => rfl) (fun _ _ => rfl) (fun _ => rfl) fun _ _ _ =>
    ⟨fits_val le_rfl, fits_val le_rfl, fun _ b c ha _ _ => permute_eq_pickByte b c ha⟩

theorem icmp_computes :
    Computes .icmp fun f a b _ => if Claim.cond f.xc.toNat (int f a) (int f b) then 1 else 0 := by
  refine .of_form execIcmp (fun _ _ => rfl) (fun _ _ => rfl) (fun _ => rfl) fun f (h : f.ty ∈ [Ty.b32, .s32]) hc =>
    ⟨fits_val (regs_of_word h).le, fits_val (regs_of_word h).le, fun a b _ _ _ _ => ?_⟩
  rw [intOf_eq_int (intTy_of_word h), intOf_eq_int (intTy_of_word h), condHolds_eq_cond hc]

theorem icmp64_computes :
    Computes .icmp64 fun f a b _ => if Claim.cond f.xc.toNat (int f a) (int f b) then 1 else 0 := by
  refine .of_form execIcmp64 (fun _ _ => rfl) (fun _ _ => rfl) (fun _ => rfl) fun f (h : f.ty ∈ [Ty.u64, .s64]) hc =>
    ⟨fits_val (regs_of_long h).le, fits_val (regs_of_long h).le, fun a b _ _ _ _ => ?_⟩
  rw [intOf_eq_int (intTy_of_long h), intOf_eq_int (intTy_of_long h), condHolds_eq_cond hc]

theorem mov64_computes : Computes .mov64 fun _ a _ _ => a :=
  .of_form execMov64 (fun _ _ => rfl) (fun _ _ => rfl) (fun _ => rfl) fun f (h : f.ty ∈ [Ty.u64, .s64]) _ =>
    ⟨fits_val (regs_of_long h).le, fits_absent, fun _ _ _ _ _ _ => rfl⟩

theorem lea_computes : Computes .lea fun f a b _ =>
    (BitVec.ofNat 64 a + (BitVec.ofInt 64 (int f b) <<< (f.xc.toNat % 32))).toNat := by
  refine .of_form execLea (fun _ _ => rfl) (fun _ _ => rfl) (fun _ => rfl) fun f (h : f.ty ∈ [Ty.b32, .s32]) _ =>
    ⟨fits_val le_rfl, fits_val (regs_of_word h).le, fun a b _ _ _ _ => ?_⟩
  rw [intOf_eq_int (intTy_of_word h), ofSigned_scaled]

end Sys2Proof.Machine

open Sys2Proof.Machine Sys2Proof.Claim

/-- Settles O1: each operation of the table by its own lemma (R140, R142 to R149, R151, R153, R155). -/
theorem integerResults : Obligations.IntegerResults := by
  unfold Obligations.IntegerResults
  simp only [intTable, List.forall_mem_cons]
  exact ⟨iadd_computes, isub_computes, imul_computes, imulhi_computes, imad_computes, iadd64_computes, isub64_computes,
    imin_computes, imax_computes, iabs_computes, and_computes, or_computes, xor_computes, andn_computes, orn_computes,
    shl_computes, shr_computes, sar_computes, rot_computes, shf_computes, bfe_computes, bfi_computes, popc_computes,
    clz_computes, ctz_computes, brev_computes, prmt_computes, icmp_computes, icmp64_computes, mov64_computes,
    lea_computes, List.forall_mem_nil _⟩

end

section
/-! SUPPORT. Carries, selection and moves (R141, R150, R152 to R154). -/

namespace Sys2Proof.Machine

open Sys2Proof.Claim

/-- An instruction with meaning m, which its group performs, completes with the parts its threads do. -/
theorem Completes.of_meaning {i : Instr} {f : Fields} {body : Nat → State → Except Stop State}
    {part : Nat → State → Option State} (m : State → Host.Outcome State Fault Refusal) (hx : ∀ s, exec i s = m s)
    (hm : ∀ s, m s = s.perform i f body) (h : ∀ t s s', part t s = some s' → body t s = .ok s') : Completes i f part :=
  .of_perform (fun s => (hx s).trans (hm s)) h

/-! ## Fields of XC -/

theorem xc_low_four (x : BitVec 10) : (x.extractLsb' 0 4).toNat = x.toNat % 16 := by
  simp [BitVec.extractLsb'_toNat]

theorem xc_high_four (x : BitVec 10) : (x.extractLsb' 4 4).toNat = x.toNat / 16 % 16 := by
  simp [BitVec.extractLsb'_toNat, Nat.shiftRight_eq_div_pow]

theorem State.readP_val_le_one (s : State) (t n : Nat) : (s.readP t n).val ≤ 1 := by
  simp only [State.readP]
  split <;> omega

/-! ## Carries -/

/-- Sum and carry (R141). -/
theorem addCarry_eq {a b c : Nat} (hc : c ≤ 1) :
    addCarry a b (c == 1) =
      ((BitVec.ofNat 32 a + BitVec.ofNat 32 b + BitVec.ofNat 32 c).toNat, decide (2 ^ 32 ≤ a + b + c)) := by
  interval_cases c <;> simp [addCarry]

/-- Difference and borrow (R141). -/
theorem subBorrow_eq {a b c : Nat} (ha : a < 2 ^ 32) (hb : b < 2 ^ 32) (hc : c ≤ 1) :
    subBorrow a b (c == 1) =
      ((BitVec.ofNat 32 a - BitVec.ofNat 32 b - BitVec.ofNat 32 c).toNat, decide (a < b + c)) := by
  have hx : (if b + c ≤ a then a - (b + c) else (a + 2 ^ 33 - (b + c)) % 2 ^ 32) =
      (BitVec.ofNat 32 a - BitVec.ofNat 32 b - BitVec.ofNat 32 c).toNat := by
    simp only [BitVec.toNat_sub, BitVec.toNat_ofNat]
    split <;> omega
  rw [← hx]
  interval_cases c <;> simp [subBorrow]

/-- An operation with a carry in and out completes with a sum or difference of words and its carry or borrow. -/
theorem Completes.of_carry {i : Instr} {f : Fields} {op : Nat → Nat → Bool → Nat × Bool} {value : W32 → W32 → W32 → W32}
    {out : Nat → Nat → Nat → Bool} (he : ∀ s, exec i s = s.carryOp i f op)
    (hop : ∀ a b c, a < 2 ^ 32 → b < 2 ^ 32 → c ≤ 1 →
      op a b (c == 1) = ((value (BitVec.ofNat 32 a) (BitVec.ofNat 32 b) (BitVec.ofNat 32 c)).toNat, out a b c)) :
    Completes i f (carryPart i f value out) := by
  refine .of_meaning (fun s => s.carryOp i f op) he (fun _ => rfl) fun t s s' hp => ?_
  cases hs : s.sources t f 1 .b32 1 .b32 0 with
  | error e => simp [carryPart, hs] at hp
  | ok v =>
    obtain ⟨a, b, x⟩ := v
    obtain ⟨ha, hb, -⟩ := State.sources_lt (ta := .b32) (tb := .b32) (.inl le_rfl) (.inl le_rfl) hs
    have hc : (if f.xc.getLsbD 8 then s.readP t (f.xc.toNat / 16 % 16) else ({ val := 0 } : Opd)).val ≤ 1 := by
      split
      · exact s.readP_val_le_one t _
      · exact Nat.zero_le 1
    simp only [carryPart, hs, xc_low_four, xc_high_four, Option.some.injEq] at hp
    simp only [← hp, hop _ _ _ ha hb hc]

theorem iaddc_completes (f : Fields) : Completes (.iaddc f) f (iaddcPart f) :=
  .of_carry (op := addCarry) (fun _ => rfl) fun _ _ _ _ _ hc => addCarry_eq hc

theorem isubb_completes (f : Fields) : Completes (.isubb f) f (isubbPart f) :=
  .of_carry (op := subBorrow) (fun _ => rfl) fun _ _ _ ha hb hc => subBorrow_eq ha hb hc

/-! ## Selection and truth tables -/

/-- `sel` (R150). -/
theorem sel_completes (f : Fields) : Completes (.sel f) f (selPart f) := by
  refine .of_meaning (execSel f) (fun _ => rfl) (fun _ => rfl) fun t s s' hp => ?_
  cases hs : s.sources t f f.ty.regs f.ty f.ty.regs f.ty 0 with
  | error e => simp [selPart, hs] at hp
  | ok v =>
    obtain ⟨a, b, x⟩ := v
    simp only [selPart, hs, xc_low_four, Option.some.injEq] at hp
    simp only [← hp, bne_iff_ne]
    rfl

/-- `plop` (R152). -/
theorem plop_completes (f : Fields) : Completes (.plop f) f (plopPart f) := by
  refine .of_meaning (execPlop f) (fun _ => rfl) (fun _ => rfl) fun t s s' hp => ?_
  cases hs : s.sources t f 1 .b32 1 .b32 0 with
  | error e => simp [plopPart, hs] at hp
  | ok v =>
    obtain ⟨a, b, x⟩ := v
    simp only [plopPart, hs, Option.some.injEq] at hp
    rw [← hp]
    rfl

/-! ## Moves and placement -/

/-- A queue with an oldest entry gives it up (R290). -/
theorem State.popQueue_cons {s : State} {blk q : Nat} {e : QEntry} {rest : List QEntry}
    (h : tgetD (s.block blk).queues q [] = e :: rest) :
    s.popQueue blk q = some (e, s.modBlock blk fun b => { b with queues := tset b.queues q rest }) := by
  simp only [State.popQueue, h]

/-- A source of `mov` that is no queue is read and written (R153). -/
theorem movPart_reads {f : Fields} {t : Nat} {s s' : State} (hq : ∀ q, f.sa ≠ .special (.queue q))
    (h : movPart f t s = some s') :
    ∃ a, s.readSrc t 1 f.ty f.sa = .ok a ∧ s.writeDst t (formOf (.mov f)) f a.val a.poison a.tags (s.here t) = s' := by
  unfold movPart at h
  split at h
  · exact absurd ‹_› (hq _)
  · split at h
    · cases h
    · exact ⟨_, ‹_›, Option.some.inj h⟩

/-- `mov` from a queue and from any other source (R153). -/
theorem mov_completes (f : Fields) : Completes (.mov f) f (movPart f) := by
  refine .of_meaning (execMov f) (fun _ => rfl) (fun _ => rfl) fun t s s' hp => ?_
  by_cases hq : ∃ q, f.sa = .special (.queue q)
  · obtain ⟨q, hq⟩ := hq
    cases hr : tgetD (s.block (blockOf t)).queues q.toNat [] with
    | nil => simp [movPart, hq, hr] at hp
    | cons e rest =>
      simp only [movPart, hq, hr, Option.some.injEq, BitVec.toNat_setWidth] at hp
      simp only [hq, State.popQueue_cons hr, ← hp]
  · simp only [not_exists] at hq
    obtain ⟨a, ha, hp⟩ := movPart_reads hq hp
    split
    · exact absurd ‹_› (hq _)
    · simp only [ha, hp]

/-- The placement values by their selectors (R154). -/
theorem placement_eq {s : State} {t k : Nat} (hk : k < 5) :
    s.placement t k = [t % 32, t % 128 / 32, (s.block (blockOf t)).core % 64 / 4, (s.crew (crewOf t)).sub].getD k
      (s.block (blockOf t)).core := by
  have hl : t % 128 % 32 = t % 32 := Nat.mod_mod_of_dvd t (by norm_num)
  interval_cases k <;> simp [State.placement, tidOf, hl]

/-- `movsr` (R154). -/
theorem movsr_completes (f : Fields) (hw : (Instr.movsr f).WellFormed) : Completes (.movsr f) f (movsrPart f) := by
  have hx : decide (f.xc.toNat < 5) = true := (type_and_extension_of_wellFormed rfl hw).2
  have hk := of_decide_eq_true hx
  refine .of_meaning (execMovsr f) (fun _ => rfl) (fun _ => rfl) fun t s s' hp => ?_
  simp only [movsrPart, Option.some.injEq] at hp
  rw [Nat.mod_eq_of_lt (lt_trans hk (by norm_num)), placement_eq hk, hp]

end Sys2Proof.Machine

open Sys2Proof Sys2Proof.Machine

/-- Settles O2: the carries by the sum and the difference of three words, the others by what their parts write (R141, R150,
R152 to R154). -/
theorem carrySelectAndMove : Obligations.CarrySelectAndMove := by
  unfold Obligations.CarrySelectAndMove
  exact ⟨fun f => ⟨fun _ => iaddc_completes f, fun _ => isubb_completes f⟩,
    fun f => ⟨fun _ => sel_completes f, fun _ => plop_completes f, fun _ => mov_completes f, movsr_completes f⟩⟩

end

section
/-! SUPPORT. Floating-point instructions of class 1: the exponent of a fraction, the values and classes of codes, rounding to an
integer, scaling by a power of two, and that each operation of the table of float results and `fscale` complete with their values
(R161 to R167). -/

namespace Sys2Proof.Machine

open Sys2Proof.Claim

/-! ## The exponent of a fraction -/

/-- A fraction lies below a power of two, by integers. -/
theorem lt_pow_iff {n d : Nat} (hd : 0 < d) (e : Int) :
    (if e ≥ 0 then decide (n < d * 2 ^ e.toNat) else decide (n * 2 ^ (-e).toNat < d)) = true ↔ (n : ℚ) / d < 2 ^ e := by
  have hd' : (0 : ℚ) < d := by exact_mod_cast hd
  rw [div_lt_iff₀ hd']
  split
  · rename_i h
    obtain ⟨k, rfl⟩ := Int.eq_ofNat_of_zero_le h
    rw [decide_eq_true_eq, ← Nat.cast_lt (α := ℚ), mul_comm ((2 : ℚ) ^ _)]
    simp
  · rename_i h
    obtain ⟨k, hk⟩ := Int.eq_ofNat_of_zero_le (show 0 ≤ -e by omega)
    rw [decide_eq_true_eq, ← Nat.cast_lt (α := ℚ), show e = -(k : Int) by omega, zpow_neg, ← div_eq_inv_mul,
      lt_div_iff₀ (by positivity)]
    simp

theorem pow_log2_le {n : Nat} (hn : 0 < n) : (2 : ℚ) ^ (n.log2 : Int) ≤ n := by
  exact_mod_cast Nat.log2_self_le hn.ne'

theorem lt_pow_log2 (n : Nat) : (n : ℚ) < 2 ^ ((n.log2 : Int) + 1) := by
  exact_mod_cast Nat.lt_log2_self

/-- A fraction lies between the power of two of its exponent and the next. -/
theorem log2Floor_bounds {n d : Nat} (hn : 0 < n) (hd : 0 < d) :
    (2 : ℚ) ^ log2Floor n d ≤ (n : ℚ) / d ∧ (n : ℚ) / d < 2 ^ (log2Floor n d + 1) := by
  have hd' : (0 : ℚ) < d := by exact_mod_cast hd
  have hlo : (2 : ℚ) ^ ((n.log2 : Int) - d.log2 - 1) ≤ (n : ℚ) / d := by
    rw [show (n.log2 : Int) - d.log2 - 1 = n.log2 - (d.log2 + 1) by ring, zpow_sub₀ two_ne_zero]
    exact div_le_div₀ (Nat.cast_nonneg _) (pow_log2_le hn) hd' (lt_pow_log2 d).le
  have hhi : (n : ℚ) / d < 2 ^ ((n.log2 : Int) - d.log2 + 1) := by
    rw [show (n.log2 : Int) - d.log2 + 1 = n.log2 + 1 - d.log2 by ring, zpow_sub₀ two_ne_zero]
    exact div_lt_div₀ (lt_pow_log2 n) (pow_log2_le hd) (by positivity) (by positivity)
  by_cases h : (n : ℚ) / d < 2 ^ ((n.log2 : Int) - d.log2)
  · rw [log2Floor, if_pos ((lt_pow_iff hd _).2 h), sub_add_cancel]
    exact ⟨hlo, h⟩
  · rw [log2Floor, if_neg (mt (lt_pow_iff hd _).1 h)]
    exact ⟨not_lt.1 h, hhi⟩

theorem log2Floor_lt {n d : Nat} {e : Int} (hn : 0 < n) (hd : 0 < d) (h : (n : ℚ) / d < 2 ^ e) : log2Floor n d < e :=
  (zpow_lt_zpow_iff_right₀ one_lt_two).1 ((log2Floor_bounds hn hd).1.trans_lt h)

theorem le_log2Floor {n d : Nat} {e : Int} (hn : 0 < n) (hd : 0 < d) (h : 2 ^ e ≤ (n : ℚ) / d) : e ≤ log2Floor n d :=
  Int.lt_add_one_iff.1 ((zpow_lt_zpow_iff_right₀ one_lt_two).1 (h.trans_lt (log2Floor_bounds hn hd).2))

/-! ## The values of codes -/

/-- A dyadic value as a fraction, whatever the sign of its exponent. -/
theorem dyadic_eq (neg : Bool) (m : Nat) (e : Int) : dyadic neg m e = .fin neg (m * 2 ^ e.toNat) (2 ^ (-e).toNat) := by
  unfold dyadic
  split
  · rw [show (-e).toNat = 0 by omega, pow_zero]
  · rw [show e.toNat = 0 by omega, pow_zero, mul_one]

/-- A finite code stands for a significand of at most mant + 1 bits times a power of two that the format bounds (R113). -/
theorem Fmt.decode_fin {m : Fmt} {x n d : Nat} {neg : Bool} (h : m.decode x = .fin neg n d) :
    ∃ (k : Nat) (e : Int), k < 2 ^ (m.mant + 1) ∧ m.emin - m.mant ≤ e ∧
      e ≤ m.emin + (m.maxCode / 2 ^ m.mant : Nat) - m.mant ∧ n = k * 2 ^ e.toNat ∧ d = 2 ^ (-e).toNat := by
  have hp : (2 : Nat) ^ (m.mant + 1) = 2 * 2 ^ m.mant := by ring
  have h0 : 0 < (2 : Nat) ^ m.mant := by positivity
  simp only [Fmt.decode, dyadic_eq] at h
  split at h
  · split at h <;> cases h
  rename_i hc
  have hq : (0 : Int) ≤ (m.maxCode / 2 ^ m.mant : Nat) := Int.natCast_nonneg _
  split at h
  · rename_i hs
    cases h
    exact ⟨_, _, by omega, le_rfl, by omega, rfl, rfl⟩
  · rename_i hs
    cases h
    have h1 : 1 ≤ x % 2 ^ (m.width - 1) / 2 ^ m.mant := (Nat.one_le_div_iff h0).2 (by omega)
    have h2 := Nat.div_le_div_right (c := 2 ^ m.mant) (Nat.le_of_not_gt hc)
    have h3 := Nat.mod_lt (x % 2 ^ (m.width - 1)) h0
    exact ⟨_, _, by omega, by omega, by omega, rfl, rfl⟩

theorem Fmt.decode_den_pos {m : Fmt} {x n d : Nat} {neg : Bool} (h : m.decode x = .fin neg n d) : 0 < d := by
  obtain ⟨k, e, -, -, -, -, rfl⟩ := Fmt.decode_fin h
  positivity

/-! ## The lesser and the greater, conditions, classes -/

theorem minMax_eq_lesser (m : Fmt) (x y : Nat) : m.minMax false x y = lesser m x y := by
  cases hx : (m.decode x).isNan <;> cases hy : (m.decode y).isNan <;> simp [Fmt.minMax, lesser, hx, hy]

theorem minMax_eq_greater (m : Fmt) (x y : Nat) : m.minMax true x y = greater m x y := by
  cases hx : (m.decode x).isNan <;> cases hy : (m.decode y).isNan <;> simp [Fmt.minMax, greater, hx, hy]

/-- Of two values at most one is below the other, and then neither is a NaN. -/
theorem FV.lt_asymm {a b : FV} (h : a.lt false b = true) : b.lt false a = false ∧ a.isNan = false ∧ b.isNan = false := by
  cases a <;> cases b <;> simp_all [FV.lt, FV.isNan]
  omega

/-- The conditions of R164 by their codes. -/
theorem fcond_eq_floatCond {c : Nat} (hc : c < 14) (a b : FV) : fcond c a b = floatCond c a b := by
  have hab := FV.lt_asymm (a := a) (b := b)
  have hba := FV.lt_asymm (a := b) (b := a)
  unfold fcond floatCond
  generalize a.lt false b = lt, b.lt false a = gt, a.isNan = x, b.isNan = y at *
  interval_cases c <;> revert lt gt x y <;> decide

/-- The code after the greatest finite one has an exponent of ones and no mantissa, as IEEE 754 has it. -/
def Fmt.Ieee (m : Fmt) : Prop :=
  0 < m.mant ∧ m.mant < m.width - 1 ∧ m.maxCode + 1 = (2 ^ (m.width - 1 - m.mant) - 1) * 2 ^ m.mant

theorem testBit_eq_div (x k : Nat) : x.testBit k = (x / 2 ^ k % 2 == 1) := by
  rw [Nat.testBit_eq_decide_div_mod_eq, beq_eq_decide]

/-- Where the exponent field of a code is of ones, and where it is zero, by the code. -/
theorem exponent_field {c K M : Nat} (hM : 0 < M) (hK : 1 < K) (hc : c < K * M) :
    (c / M = K - 1 ↔ (K - 1) * M ≤ c) ∧ (c / M = 0 ↔ c < M) ∧ ((K - 1) * M ≤ c → c = (K - 1) * M + c % M) ∧
      (c < M → c % M = c) ∧ M ≤ (K - 1) * M := by
  have hd := Nat.div_add_mod c M
  have hq : c / M < K := Nat.div_lt_of_lt_mul (by rwa [mul_comm])
  have top : (K - 1) * M ≤ c → c / M = K - 1 := fun h => le_antisymm (by omega) ((Nat.le_div_iff_mul_le hM).2 h)
  refine ⟨⟨fun h => h ▸ Nat.div_mul_le_self c M, top⟩, Nat.div_eq_zero_iff_lt hM, fun h => ?_, Nat.mod_eq_of_lt,
    Nat.le_mul_of_pos_left _ (by omega)⟩
  rw [top h, mul_comm] at hd
  exact hd.symm

/-- The class of a code by its fields (R165). -/
theorem classOf_eq_floatClass {m : Fmt} (hm : m.Ieee) (x : Nat) : m.classOf x = floatClass m x := by
  obtain ⟨h0, h1, hc⟩ := hm
  obtain ⟨k, hk⟩ : ∃ k, m.width - 1 = k + m.mant := ⟨m.width - 1 - m.mant, by omega⟩
  have hp : (2 : Nat) ^ (k + m.mant) = 2 ^ k * 2 ^ m.mant := pow_add ..
  have hx : x % 2 ^ m.mant = x % 2 ^ (k + m.mant) % 2 ^ m.mant :=
    (Nat.mod_mod_of_dvd x (Dvd.intro_left _ hp.symm)).symm
  rw [hk, Nat.add_sub_cancel] at hc
  simp only [Fmt.classOf, floatClass, testBit_eq_div, hk, hx, Nat.add_sub_cancel]
  have hlt : x % 2 ^ (k + m.mant) < 2 ^ k * 2 ^ m.mant := hp ▸ Nat.mod_lt _ (by positivity)
  generalize x % 2 ^ (k + m.mant) = c at hlt ⊢
  obtain ⟨ones, zeros, whole, subnormal, least⟩ :=
    exponent_field (Nat.two_pow_pos m.mant) (Nat.one_lt_two_pow (by omega)) hlt
  have quiet : c / 2 ^ (m.mant - 1) % 2 = c % 2 ^ m.mant / 2 ^ (m.mant - 1) % 2 := by
    obtain ⟨j, hj⟩ : ∃ j, m.mant = j + 1 := ⟨m.mant - 1, by omega⟩
    rw [hj, Nat.add_sub_cancel, pow_succ, Nat.mod_mul_right_div_self, Nat.mod_mod]
  simp only [hc, ones, zeros, gt_iff_lt]
  by_cases hs : (2 ^ k - 1) * 2 ^ m.mant ≤ c
  · have hi := whole hs
    rw [quiet, if_pos hs]
    by_cases hz : c % 2 ^ m.mant = 0
    · rw [if_neg (by omega), if_pos (by omega), if_pos hz]
    · rw [if_pos (by omega), if_neg hz]
  · rw [if_neg (by omega), if_neg (by omega), if_neg hs]
    by_cases hz : c < 2 ^ m.mant
    · simp only [if_pos hz, subnormal hz]
    · rw [if_neg (by omega), if_neg hz, if_neg hz]

/-! ## Rounding to an integer -/

/-- A quotient rounded upwards. -/
theorem ceil_eq (n : Nat) {d : Nat} (hd : 0 < d) : (n + d - 1) / d = if n % d = 0 then n / d else n / d + 1 := by
  have hn := Nat.div_add_mod n d
  have hr := Nat.mod_lt n hd
  rw [mul_comm] at hn
  split
  · exact Nat.div_eq_of_lt_le (by omega) (by rw [Nat.add_mul, Nat.one_mul]; omega)
  · exact Nat.div_eq_of_lt_le (by rw [Nat.add_mul, Nat.one_mul]; omega)
      (by rw [Nat.add_mul, Nat.add_mul, Nat.one_mul]; omega)

/-- Rounding to an integer by quotient and remainder, and by floor and ceiling (R115, R167). -/
theorem roundInc_eq_integral (rnd : Rnd) (neg : Bool) (n : Nat) {d : Nat} (hd : 0 < d) :
    roundInc rnd neg (n / d) (n % d) d = integral rnd neg n d := by
  have hn := Nat.div_add_mod n d
  have hr := Nat.mod_lt n hd
  rw [mul_comm] at hn
  simp only [roundInc, integral, ceil_eq n hd, Nat.add_mul, Nat.mul_assoc, Nat.one_mul]
  generalize n / d = q at hn ⊢
  generalize n % d = r at hn hr ⊢
  by_cases h0 : r = 0
  · cases rnd <;> simp only [h0, if_true, ite_self]
    rw [if_pos (by omega)]
  · cases rnd <;> simp only [h0, if_false]
    simp only [Bool.or_eq_true, Bool.and_eq_true, decide_eq_true_eq, beq_iff_eq]
    split_ifs <;> omega

/-- `fround` (R167). -/
theorem roundBits_eq (m : Fmt) (rnd : Rnd) (x : Nat) : roundBits m rnd x =
    match m.decode x with
    | .fin neg n d => m.round .rne false (.fin neg (integral rnd neg n d) 1)
    | v => m.round .rne false v := by
  unfold roundBits
  cases hx : m.decode x with
  | fin neg n d => simp only [roundInc_eq_integral rnd neg n (Fmt.decode_den_pos hx)]
  | _ => rfl

/-! ## Scaling by a power of two -/

/-- The code of a magnitude whose exponent lies above another is at least that other's. -/
theorem le_roundMag {m : Fmt} (rnd : Rnd) (neg : Bool) {n d : Nat} {e : Int} (hn : 0 < n) (hd : 0 < d)
    (h : (2 : ℚ) ^ e ≤ (n : ℚ) / d) : (e - m.emin).toNat * 2 ^ m.mant ≤ m.roundMag rnd neg n d := by
  have he := le_log2Floor hn hd h
  simp only [Fmt.roundMag, hn.ne', if_false]
  refine le_trans (Nat.mul_le_mul_right _ (Int.toNat_le_toNat ?_)) (Nat.le_add_right _ _)
  split <;> omega

/-- A positive magnitude below half of the least subnormal is rounded as a third of it is (R115). -/
theorem roundMag_of_tiny {m : Fmt} (hm : m.emin < 0) (rnd : Rnd) (neg : Bool) {n d : Nat} (hn : 0 < n)
    (h : 2 * (n * 2 ^ (m.mant - m.emin).toNat) < d) : m.roundMag rnd neg n d = roundInc rnd neg 0 1 3 := by
  have he : log2Floor n d < m.emin := by
    refine (log2Floor_lt (e := m.emin - m.mant) hn (by omega) ((lt_pow_iff (by omega) _).1 ?_)).trans_le (by omega)
    rw [if_neg (by omega), neg_sub, decide_eq_true_eq]
    omega
  have hk : ¬ m.emin - m.mant ≥ 0 := by omega
  simp only [Fmt.roundMag, hn.ne', he, hk, if_false, if_true, sub_self, Int.toNat_zero, zero_mul, zero_add, neg_sub]
  have hp : 0 < n * 2 ^ (m.mant - m.emin).toNat := by positivity
  generalize n * 2 ^ (m.mant - m.emin).toNat = r at h hp ⊢
  rw [Nat.div_eq_of_lt (by omega), Nat.mod_eq_of_lt (by omega)]
  cases rnd <;> simp [roundInc, hp.ne']
  omega

/-- Two magnitudes of one sign that have one code, or lie above the largest, are rounded alike. -/
theorem Fmt.round_congr {m : Fmt} {rnd : Rnd} {sat neg : Bool} {n d n' d' : Nat}
    (h : m.roundMag rnd neg n d = m.roundMag rnd neg n' d' ∨
      m.maxCode < m.roundMag rnd neg n d ∧ m.maxCode < m.roundMag rnd neg n' d') :
    m.round rnd sat (.fin neg n d) = m.round rnd sat (.fin neg n' d') := by
  rcases h with h | ⟨h, h'⟩
  · simp only [Fmt.round, h]
  · simp only [Fmt.round, Nat.not_le.2 h, Nat.not_le.2 h', if_false]

/-- A format whose values lie between 2^-1074 and 2^1024. -/
def Fmt.Bounded (m : Fmt) : Prop := m.mant ≤ 52 ∧ m.emin < 0 ∧ -1022 ≤ m.emin ∧ m.maxCode < 2047 * 2 ^ m.mant

/-- The parts of a finite value of such a format. -/
theorem Fmt.Bounded.decode_le {m : Fmt} (hm : m.Bounded) {x n d : Nat} {neg : Bool} (h : m.decode x = .fin neg n d) :
    ∃ i j, n < 2 ^ i ∧ d = 2 ^ j ∧ i ≤ 2200 ∧ j ≤ 1074 := by
  obtain ⟨h1, h2, h3, h4⟩ := hm
  obtain ⟨k, e, hk, he1, he2, rfl, rfl⟩ := Fmt.decode_fin h
  have hq : m.maxCode / 2 ^ m.mant < 2047 := Nat.div_lt_of_lt_mul (by rwa [mul_comm])
  refine ⟨m.mant + 1 + e.toNat, _, ?_, rfl, by omega, by omega⟩
  rw [pow_add]
  exact Nat.mul_lt_mul_of_pos_right hk (by positivity)

/-- Multiplied by 2^4000 or more, every positive value rounds above the largest. -/
theorem Fmt.Bounded.over {m : Fmt} (hm : m.Bounded) {n j k : Nat} (rnd : Rnd) (neg : Bool) (hn : 0 < n) (hj : j ≤ 1074)
    (hk : 4000 ≤ k) : m.maxCode < m.roundMag rnd neg (n * 2 ^ k) (2 ^ j) := by
  obtain ⟨h1, h2, h3, h4⟩ := hm
  have hge : (2 : ℚ) ^ ((k - j : Nat) : Int) ≤ ((n * 2 ^ k : Nat) : ℚ) / (2 ^ j : Nat) := by
    rw [le_div_iff₀ (by positivity)]
    exact_mod_cast calc 2 ^ (k - j) * 2 ^ j = 2 ^ k := by rw [← pow_add, Nat.sub_add_cancel (by omega)]
      _ ≤ n * 2 ^ k := Nat.le_mul_of_pos_left _ hn
  exact h4.trans_le ((Nat.mul_le_mul_right _ (by omega)).trans (le_roundMag rnd neg (by positivity) (by positivity) hge))

/-- Divided by 2^4000 or more, every positive value rounds as one below half of the least subnormal. -/
theorem Fmt.Bounded.under {m : Fmt} (hm : m.Bounded) {n d i k : Nat} (rnd : Rnd) (neg : Bool) (hn : 0 < n) (hd : 0 < d)
    (hn' : n < 2 ^ i) (hi : i ≤ 2200) (hk : 4000 ≤ k) :
    m.roundMag rnd neg n (d * 2 ^ k) = roundInc rnd neg 0 1 3 := by
  obtain ⟨h1, h2, h3, h4⟩ := hm
  refine roundMag_of_tiny h2 rnd neg hn ?_
  generalize hp : (m.mant - m.emin).toNat = p
  calc 2 * (n * 2 ^ p) < 2 * (2 ^ i * 2 ^ p) :=
        Nat.mul_lt_mul_of_pos_left (Nat.mul_lt_mul_of_pos_right hn' (by positivity)) two_pos
    _ = 2 ^ (i + p + 1) := by rw [← pow_add, ← pow_succ']
    _ ≤ 2 ^ k := Nat.pow_le_pow_right two_pos (by omega)
    _ ≤ d * 2 ^ k := Nat.le_mul_of_pos_left _ hd

/-- `fscale` with the count clamped, and with any count (R166). -/
theorem scaleBits_eq {m : Fmt} (hm : m.Bounded) (rnd : Rnd) (sat : Bool) (x : Nat) (n : Int) :
    scaleBits m rnd sat x n =
      match m.decode x with
      | .fin neg p q => m.round rnd sat (if 0 ≤ n then .fin neg (p * 2 ^ n.toNat) q else .fin neg p (q * 2 ^ (-n).toNat))
      | v => m.round rnd sat v := by
  unfold scaleBits
  cases hx : m.decode x with
  | fin neg p q =>
    obtain ⟨i, j, hp', rfl, hi, hj⟩ := hm.decode_le hx
    dsimp only
    rcases Nat.eq_zero_or_pos p with rfl | hp
    · simp only [zero_mul]
      split <;> split <;> exact Fmt.round_congr (.inl rfl)
    have hc : clamp n (-4000) 4000 = if n < -4000 then -4000 else if 4000 < n then 4000 else n := rfl
    rw [hc]
    rcases lt_or_ge n (-4000) with hlo | hlo
    · rw [if_pos hlo, if_neg (by norm_num), if_neg (by omega)]
      exact Fmt.round_congr (.inl ((hm.under rnd neg hp (by positivity) hp' hi (by norm_num)).trans
        (hm.under rnd neg hp (by positivity) hp' hi (by omega)).symm))
    rw [if_neg hlo.not_gt]
    rcases lt_or_ge 4000 n with hhi | hhi
    · rw [if_pos hhi, if_pos (by norm_num), if_pos (by omega)]
      exact Fmt.round_congr (.inr ⟨hm.over rnd neg hp hj (by norm_num), hm.over rnd neg hp hj (by omega)⟩)
    · rw [if_neg hhi.not_gt]
  | _ => rfl

/-! ## Families of forms -/

section Families

variable {mk : Fields → Instr} {g value : Fields → Nat → Nat → Nat → Nat} {tys : List Ty} {n : Nat}

/-- Two sources of the operation's type (R157). -/
theorem Computes.of_flt2 {sat : Bool} {rnds : Nat} (m : Fields → State → Host.Outcome State Fault Refusal)
    (hx : ∀ f s, exec (mk f) s = m f s) (hm : ∀ f s, m f s = s.alu (mk f) f (formOf (mk f)) (g f))
    (hs : ∀ f, (mk f).shape = some (f, flt2 f tys n sat rnds)) (hn : ∀ ty ∈ tys, ty.regs = n)
    (hv : ∀ f a b x, g f a b x = value f a b x) : Computes mk value :=
  .of_form m hx hm hs fun f ht _ =>
    ⟨fits_val (hn _ ht).le, fits_val (hn _ ht).le, fun a b x _ _ _ => hv f a b x⟩

/-- Three sources of the operation's type (R157). -/
theorem Computes.of_flt3 (m : Fields → State → Host.Outcome State Fault Refusal)
    (hx : ∀ f s, exec (mk f) s = m f s) (hm : ∀ f s, m f s = s.alu (mk f) f (formOf (mk f)) (g f))
    (hs : ∀ f, (mk f).shape = some (f, flt3 f tys n)) (hn : ∀ ty ∈ tys, ty.regs = n)
    (hv : ∀ f a b x, g f a b x = value f a b x) : Computes mk value :=
  .of_form m hx hm hs fun f ht _ =>
    ⟨fits_val (hn _ ht).le, fits_val (hn _ ht).le, fun a b x _ _ _ => hv f a b x⟩

end Families

/-! ## The operations of the table -/

theorem fadd_computes :
    Computes .fadd fun f a b _ => rounded fmtF32 f ((fmtF32.decode a).add f.rnd (fmtF32.decode b)) :=
  .of_flt2 execFadd (fun _ _ => rfl) (fun _ _ => rfl) (fun _ => rfl) (by decide) fun _ _ _ _ => rfl

theorem fsub_computes :
    Computes .fsub fun f a b _ => rounded fmtF32 f ((fmtF32.decode a).add f.rnd (fmtF32.decode b).negate) :=
  .of_flt2 execFsub (fun _ _ => rfl) (fun _ _ => rfl) (fun _ => rfl) (by decide) fun _ _ _ _ => rfl

theorem fmul_computes : Computes .fmul fun f a b _ => rounded fmtF32 f ((fmtF32.decode a).mul (fmtF32.decode b)) :=
  .of_flt2 execFmul (fun _ _ => rfl) (fun _ _ => rfl) (fun _ => rfl) (by decide) fun _ _ _ _ => rfl

theorem ffma_computes : Computes .ffma fun f a b c =>
    rounded fmtF32 f (((fmtF32.decode a).mul (fmtF32.decode b)).add f.rnd (fmtF32.decode c)) :=
  .of_flt3 execFfma (fun _ _ => rfl) (fun _ _ => rfl) (fun _ => rfl) (by decide) fun _ _ _ _ => rfl

theorem fmin_computes : Computes .fmin fun _ a b _ => lesser fmtF32 a b :=
  .of_flt2 execFmin (fun _ _ => rfl) (fun _ _ => rfl) (fun _ => rfl) (by decide) fun _ a b _ => minMax_eq_lesser fmtF32 a b

theorem fmax_computes : Computes .fmax fun _ a b _ => greater fmtF32 a b :=
  .of_flt2 execFmax (fun _ _ => rfl) (fun _ _ => rfl) (fun _ => rfl) (by decide) fun _ a b _ => minMax_eq_greater fmtF32 a b

theorem fcmp_computes :
    Computes .fcmp fun f a b _ => if floatCond f.xc.toNat (fmtF32.decode a) (fmtF32.decode b) then 1 else 0 := by
  refine .of_form execFcmp (fun _ _ => rfl) (fun _ _ => rfl) (fun _ => rfl) fun f _ (hc : decide (f.xc.toNat < 14) = true) =>
    ⟨fits_val le_rfl, fits_val le_rfl, fun a b _ _ _ _ => ?_⟩
  rw [fcond_eq_floatCond (of_decide_eq_true hc)]

/-- The scalar formats of class 1. -/
theorem ieee_of_scalar {ty : Ty} (h : ty ∈ [Ty.f32, .f64]) : (fmtOf ty).Ieee := by
  simp only [List.mem_cons, List.not_mem_nil, or_false] at h
  rcases h with rfl | rfl <;> simp [Fmt.Ieee, fmtOf, fmtF32, fmtF64]

theorem bounded_of_scalar {ty : Ty} (h : ty ∈ [Ty.f32, .f64]) : (fmtOf ty).Bounded := by
  simp only [List.mem_cons, List.not_mem_nil, or_false] at h
  rcases h with rfl | rfl <;> simp [Fmt.Bounded, fmtOf, fmtF32, fmtF64]

theorem fclass_computes :
    Computes .fclass fun f a _ _ => if f.xc.getLsbD (floatClass (fmtOf f.ty) a) then 1 else 0 := by
  refine .of_form execFclass (fun _ _ => rfl) (fun _ _ => rfl) (fun _ => rfl) fun f (h : f.ty ∈ [Ty.f32, .f64]) _ =>
    ⟨fits_val le_rfl, fits_absent, fun a _ _ _ _ _ => ?_⟩
  rw [classOf_eq_floatClass (ieee_of_scalar h)]
  rfl

theorem fround_computes : Computes .fround fun f a _ _ =>
    match (fmtOf f.ty).decode a with
    | .fin neg n d => (fmtOf f.ty).round .rne false (.fin neg (integral f.rnd neg n d) 1)
    | v => (fmtOf f.ty).round .rne false v :=
  .of_form execFround (fun _ _ => rfl) (fun _ _ => rfl) (fun _ => rfl) fun f _ _ =>
    ⟨fits_val le_rfl, fits_absent, fun a _ _ _ _ _ => roundBits_eq (fmtOf f.ty) f.rnd a⟩

theorem dadd_computes :
    Computes .dadd fun f a b _ => rounded fmtF64 f ((fmtF64.decode a).add f.rnd (fmtF64.decode b)) :=
  .of_flt2 execDadd (fun _ _ => rfl) (fun _ _ => rfl) (fun _ => rfl) (by decide) fun _ _ _ _ => rfl

theorem dmul_computes : Computes .dmul fun f a b _ => rounded fmtF64 f ((fmtF64.decode a).mul (fmtF64.decode b)) :=
  .of_flt2 execDmul (fun _ _ => rfl) (fun _ _ => rfl) (fun _ => rfl) (by decide) fun _ _ _ _ => rfl

theorem dfma_computes : Computes .dfma fun f a b c =>
    rounded fmtF64 f (((fmtF64.decode a).mul (fmtF64.decode b)).add f.rnd (fmtF64.decode c)) :=
  .of_flt3 execDfma (fun _ _ => rfl) (fun _ _ => rfl) (fun _ => rfl) (by decide) fun _ _ _ _ => rfl

theorem dmin_computes : Computes .dmin fun _ a b _ => lesser fmtF64 a b :=
  .of_flt2 execDmin (fun _ _ => rfl) (fun _ _ => rfl) (fun _ => rfl) (by decide) fun _ a b _ => minMax_eq_lesser fmtF64 a b

theorem dmax_computes : Computes .dmax fun _ a b _ => greater fmtF64 a b :=
  .of_flt2 execDmax (fun _ _ => rfl) (fun _ _ => rfl) (fun _ => rfl) (by decide) fun _ a b _ => minMax_eq_greater fmtF64 a b

theorem dcmp_computes :
    Computes .dcmp fun f a b _ => if floatCond f.xc.toNat (fmtF64.decode a) (fmtF64.decode b) then 1 else 0 := by
  refine .of_form execDcmp (fun _ _ => rfl) (fun _ _ => rfl) (fun _ => rfl) fun f _ (hc : decide (f.xc.toNat < 14) = true) =>
    ⟨fits_val le_rfl, fits_val le_rfl, fun a b _ _ _ _ => ?_⟩
  rw [fcond_eq_floatCond (of_decide_eq_true hc)]

theorem hadd2_computes : Computes .hadd2 fun f a b c => Claim.halves (fun x y _ =>
    rounded (fmtOf f.ty) f (((fmtOf f.ty).decode x).add f.rnd ((fmtOf f.ty).decode y))) a b c :=
  .of_flt2 execHadd2 (fun _ _ => rfl) (fun _ _ => rfl) (fun _ => rfl) (by decide) fun _ _ _ _ => rfl

theorem hmul2_computes : Computes .hmul2 fun f a b c => Claim.halves (fun x y _ =>
    rounded (fmtOf f.ty) f (((fmtOf f.ty).decode x).mul ((fmtOf f.ty).decode y))) a b c :=
  .of_flt2 execHmul2 (fun _ _ => rfl) (fun _ _ => rfl) (fun _ => rfl) (by decide) fun _ _ _ _ => rfl

theorem hfma2_computes : Computes .hfma2 fun f a b c => Claim.halves (fun x y z =>
    rounded (fmtOf f.ty) f ((((fmtOf f.ty).decode x).mul ((fmtOf f.ty).decode y)).add f.rnd ((fmtOf f.ty).decode z))) a b c :=
  .of_flt3 execHfma2 (fun _ _ => rfl) (fun _ _ => rfl) (fun _ => rfl) (by decide) fun _ _ _ _ => rfl

theorem hmin2_computes : Computes .hmin2 fun f a b c => Claim.halves (fun x y _ => lesser (fmtOf f.ty) x y) a b c :=
  .of_flt2 execHmin2 (fun _ _ => rfl) (fun _ _ => rfl) (fun _ => rfl) (by decide) fun f _ _ _ => by
    simp only [minMax_eq_lesser (fmtOf f.ty)]
    rfl

theorem hmax2_computes : Computes .hmax2 fun f a b c => Claim.halves (fun x y _ => greater (fmtOf f.ty) x y) a b c :=
  .of_flt2 execHmax2 (fun _ _ => rfl) (fun _ _ => rfl) (fun _ => rfl) (by decide) fun f _ _ _ => by
    simp only [minMax_eq_greater (fmtOf f.ty)]
    rfl

theorem fscale_computes : Computes .fscale fun f a b _ => scaled f a b := by
  refine .of_form execFscale (fun _ _ => rfl) (fun _ _ => rfl) (fun _ => rfl) fun f (h : f.ty ∈ [Ty.f32, .f64]) _ =>
    ⟨fits_val le_rfl, fits_val le_rfl, fun a b _ _ _ _ => ?_⟩
  rw [scaleBits_eq (bounded_of_scalar h), toSigned_eq 32 b (by norm_num)]
  rfl

end Sys2Proof.Machine

open Sys2Proof.Machine Sys2Proof.Claim

/-- Settles O3: each operation of the table by its own lemma, and `fscale` by the bound on its count (R161 to R167). -/
theorem floatResults : Obligations.FloatResults := by
  unfold Obligations.FloatResults
  refine ⟨?_, fscale_computes⟩
  simp only [floatTable, List.forall_mem_cons]
  exact ⟨fadd_computes, fsub_computes, fmul_computes, ffma_computes, fmin_computes, fmax_computes, fcmp_computes,
    fclass_computes, fround_computes, dadd_computes, dmul_computes, dfma_computes, dmin_computes, dmax_computes,
    dcmp_computes, hadd2_computes, hmul2_computes, hfma2_computes, hmin2_computes, hmax2_computes, List.forall_mem_nil _⟩

end

section
/-! SUPPORT. Conversions of class 2: packed elements, the integer types of `cvt`, blocks, and that each conversion completes with the
value of its rule (R172 to R176). -/

namespace Sys2Proof.Machine

open Sys2Proof.Claim

/-! ## Scalars (R172) -/

/-- The integer that bits of an integer type stand for. -/
def intBits (w : Nat) (sg : Bool) (a : Nat) : Int :=
  if sg then (BitVec.ofNat w a).toInt else ((BitVec.ofNat w a).toNat : Int)

/-- An integer type of `cvt` by its width and its sign. -/
theorem intType_facts {ty : Ty} {w : Nat} {sg : Bool} (h : convInt ty = some (w, sg)) :
    intWidth ty = w ∧ 32 * ty.regs = max 32 w ∧ minOf ty = loOf w sg ∧ maxOf ty = hiOf w sg ∧ scalarFloat ty = false := by
  cases ty <;> simp [convInt] at h <;> obtain ⟨rfl, rfl⟩ := h <;>
    simp [intWidth, Ty.regs, minOf, maxOf, loOf, hiOf, scalarFloat]

theorem intOf_eq_intBits {ty : Ty} {w : Nat} {sg : Bool} (h : convInt ty = some (w, sg)) (x : Nat) :
    intOf ty x = intBits w sg x := by
  cases ty <;> simp [convInt] at h <;> obtain ⟨rfl, rfl⟩ := h <;> simp [intBits, intOf, toSigned_eq]

theorem scalarFloat_of_convInt {ty : Ty} (h : convInt ty = none) (ht : ty ∈ cvtTys) : scalarFloat ty = true := by
  revert h; revert ty; decide

/-- The bits of an integer in the registers of its type (R172). -/
theorem intRegs_eq_extend {ty : Ty} {w : Nat} {sg : Bool} (h : convInt ty = some (w, sg)) (x : Int) :
    intRegs ty x = extend w sg x := by
  obtain ⟨hw, hr, -⟩ := intType_facts h
  rw [intRegs, hw, hr, intOf_eq_intBits h, ofSigned_eq, ofSigned_eq, intBits, extend, BitVec.ofNat_toNat, BitVec.setWidth_eq]
  cases sg with
  | true => rfl
  | false => simp only [Bool.false_eq_true, if_false, BitVec.ofInt_natCast, BitVec.toNat_setWidth, BitVec.toNat_ofNat]

theorem clamp_eq_intoRange {ty : Ty} {w : Nat} {sg : Bool} (h : convInt ty = some (w, sg)) (x : Int) :
    clamp x (minOf ty) (maxOf ty) = intoRange w sg x := by
  obtain ⟨-, -, hlo, hhi, -⟩ := intType_facts h
  rw [clamp_eq (minOf_le_maxOf ty), hlo, hhi, intoRange]

/-- `cvt`, in its four rows (R172). -/
theorem convert_eq {f : Fields} (hd : f.ty ∈ cvtTys) (hs : f.stype ∈ cvtTys) (a : Nat) :
    convert f.ty f.stype f.rnd f.sat a = convertTo f a := by
  unfold convert convertTo
  cases hsi : convInt f.stype with
  | none =>
    rw [scalarFloat_of_convInt hsi hs]
    cases hdi : convInt f.ty with
    | none => simp only [scalarFloat_of_convInt hdi hd, if_true]
    | some v =>
      obtain ⟨w, sg⟩ := v
      obtain ⟨-, -, hlo, hhi, hf⟩ := intType_facts hdi
      simp only [hf, if_true, Bool.false_eq_true, if_false]
      cases hx : (fmtOf f.stype).decode a with
      | nan => rfl
      | inf neg => simp only [intRegs_eq_extend hdi, hlo, hhi]
      | fin neg n d =>
        simp only [intRegs_eq_extend hdi, clamp_eq_intoRange hdi, roundInc_eq_integral f.rnd neg n (Fmt.decode_den_pos hx)]
  | some v =>
    obtain ⟨v, sg⟩ := v
    obtain ⟨-, -, -, -, hf⟩ := intType_facts hsi
    simp only [hf, Bool.false_eq_true, if_false, intOf_eq_intBits hsi]
    cases hdi : convInt f.ty with
    | none => simp only [scalarFloat_of_convInt hdi hd, if_true]; rfl
    | some v =>
      obtain ⟨w, sgn⟩ := v
      obtain ⟨-, -, -, -, hf'⟩ := intType_facts hdi
      simp only [hf', Bool.false_eq_true, if_false, intRegs_eq_extend hdi, satInt, clamp_eq_intoRange hdi]
      rfl

/-! ## Packed values (R173) -/

/-- A sum by addition to an accumulator. -/
theorem foldl_add_eq_sum (g : Nat → Nat) (l : List Nat) (z : Nat) :
    l.foldl (fun acc k => acc + g k) z = z + (l.map g).sum := by
  induction l generalizing z with
  | nil => rfl
  | cons k l ih => rw [List.foldl_cons, ih, List.map_cons, List.sum_cons, Nat.add_assoc]

theorem packElems_eq_pack (w n : Nat) (g : Nat → Nat) : packElems w n g = pack w n g := by
  rw [packElems, foldl_add_eq_sum, pack, Nat.zero_add]

theorem elemOf_eq_element : elemOf = element := rfl

theorem convertPacked_eq {f : Fields} {r : Nat × Nat × Nat × Bool} (h : cvtxForm f.ty f.stype = some r) (a b : Nat) :
    convertPacked f.ty f.stype f.rnd f.sat a b = convertPackedTo f a b := by
  unfold convertPacked convertPackedTo
  generalize hd : f.ty = ty at h ⊢
  generalize hs : f.stype = st at h ⊢
  cases ty <;> cases st <;> simp [cvtxForm] at h <;>
    simp [packElems_eq_pack, cvtxElem, packSource, hd, hs, elemOf_eq_element, fmtOf]

/-! ## Blocks (R175, R176) -/

theorem band_eq_element (x : Nat) : x / 2 ^ 16 % 2 ^ 16 = element 16 x 1 := by
  rw [element, Nat.mul_one]

theorem blockElems_eq_eight (f : Fields) (x : Nat) : (List.range 8).map (blockElem f.ty x) = eight f x :=
  List.map_congr_left fun k _ => by simp only [blockElem, beq_iff_eq, elemOf_eq_element]

theorem quot_eq_over (a b : FV) : a.quot b = over_ a b := by cases a <;> cases b <;> rfl

theorem foldl_maxMag_eq_greatestMag (l : List FV) : (l.map FV.mag).foldl maxMag (0, 1) = greatestMag l := by
  rw [List.foldl_map]
  rfl

theorem fp4_sign_zero (neg : Bool) : fmtFp4.sign neg 0 = if neg then 8 else 0 := by cases neg <;> rfl

/-- `q4enc` (R175). -/
theorem quantise_eq (f : Fields) (a b : Nat) : quantise f.ty f.rnd a b = quantised f a b := by
  simp only [quantise, quantised, band_eq_element, blockElems_eq_eight, quot_eq_over, foldl_maxMag_eq_greatestMag,
    packElems_eq_pack, fp4_sign_zero]

/-- A value of a block from its code, its scale and its band (R124). -/
theorem blockValue_eq (block scale band k : Nat) : blockValue (elemOf 4 block k) (scale % 256) (band / 2 ^ 16) =
    ((fmtFp4.decode (element 4 block k)).mul (fmtE3m5.decode (scale % 256))).mul (fmtBf16.decode (element 16 band 1)) := by
  rw [blockValue, band_eq_element, Nat.mod_mod, elemOf_eq_element, show (16 : Nat) = 2 ^ 4 by norm_num, element, Nat.mod_mod]

/-- `q4dec` (R176). -/
theorem decodeBlock_eq (f : Fields) (a b c : Nat) :
    decodeBlock f.ty f.rnd f.sat a (c % 256) (b / 2 ^ 16) = dequantised f a b c := by
  simp only [decodeBlock, dequantised, blockValue_eq, packElems_eq_pack, beq_iff_eq]

/-! ## The operations of the table -/

theorem cvt_computes : Computes .cvt fun f a _ _ => convertTo f a := by
  refine .of_form execCvt (fun _ _ => rfl) (fun _ _ => rfl) (fun _ => rfl) fun f (h : f.ty ∈ cvtTys)
    (hx : (decide (f.xc.toNat < 16) && cvtTys.contains f.stype) = true) =>
    ⟨fits_val le_rfl, fits_absent, fun a _ _ _ _ _ => convert_eq h ?_ a⟩
  exact List.contains_iff_mem.1 (Bool.and_eq_true_iff.1 hx).2

/-- Every source row of `cvtx` has elements of one register, and at least one register of them in SA (R173). -/
theorem cvtxForm_sources {ty st : Ty} {d na nb : Nat} {pack : Bool} (h : cvtxForm ty st = some (d, na, nb, pack)) :
    st.regs ≤ na ∧ (st.regs ≤ nb ∨ nb = 0) := by
  cases ty <;> cases st <;> simp [cvtxForm] at h <;> obtain ⟨-, rfl, rfl, -⟩ := h <;> simp [Ty.regs]

/-- A pair of types is a row of R173 where the type is its shape's, and its sources fit. -/
theorem cvtxShape_row {f : Fields} (h : f.ty ∈ (cvtxShape f).tys) :
    ∃ r, cvtxForm f.ty f.stype = some r ∧ SrcShape.fits (cvtxShape f).a ∧ SrcShape.fits (cvtxShape f).b := by
  cases hr : cvtxForm f.ty f.stype with
  | none => simp [cvtxShape, hr] at h
  | some r =>
    obtain ⟨d, na, nb, pack⟩ := r
    obtain ⟨ha, hb⟩ := cvtxForm_sources hr
    simp only [cvtxShape, hr]
    refine ⟨_, rfl, fits_val ha, ?_⟩
    split
    · exact fits_absent
    · rename_i h0
      exact fits_val (hb.resolve_right (by simpa using h0))

theorem cvtx_computes : Computes .cvtx fun f a b _ => convertPackedTo f a b := by
  refine .of_form execCvtx (fun _ _ => rfl) (fun _ _ => rfl) (fun _ => rfl) fun f h _ => ?_
  obtain ⟨r, hr, ha, hb⟩ := cvtxShape_row h
  exact ⟨ha, hb, fun a b _ _ _ _ => convertPacked_eq hr a b⟩

theorem q4enc_computes : Computes .q4enc fun f a b _ => quantised f a b :=
  .of_form execQ4enc (fun _ _ => rfl) (fun _ _ => rfl) (fun _ => rfl) fun f (h : f.ty ∈ [Ty.f32, .bf16x2]) _ =>
    ⟨fits_val ((by decide : ∀ ty ∈ [Ty.f32, .bf16x2], ty.regs ≤ if ty == .f32 then 8 else 4) f.ty h), fits_val le_rfl, fun a b _ _ _ _ => quantise_eq f a b⟩

theorem q4dec_computes : Computes .q4dec fun f a b c => dequantised f a b c :=
  .of_form execQ4dec (fun _ _ => rfl) (fun _ _ => rfl) (fun _ => rfl) fun f _ _ =>
    ⟨fits_val le_rfl, fits_val le_rfl, fun a b c _ _ _ => decodeBlock_eq f a b c⟩

end Sys2Proof.Machine

open Sys2Proof.Machine Sys2Proof.Claim

/-- Settles O7: each conversion of the table by its own lemma (R172 to R176). -/
theorem conversionResults : Obligations.ConversionResults := by
  unfold Obligations.ConversionResults
  simp only [convTable, List.forall_mem_cons]
  exact ⟨cvt_computes, cvtx_computes, q4enc_computes, q4dec_computes, List.forall_mem_nil _⟩

end


section
/-! SUPPORT. What leaves the registers and the scratchpads as they are: the bookkeeping of an access that is entered or held, and of a
write to memory. -/

namespace Sys2Proof.Machine

open Sys2Proof.Claim

/-- Registers, predicates and scratchpad bytes stand. -/
def localStands (s s' : State) : Prop := (∀ u l, s'.getLoc u l = s.getLoc u l) ∧ scratchStands s s'

theorem localStands.refl (s : State) : localStands s s := ⟨fun _ _ => rfl, fun _ _ => rfl⟩

theorem localStands.trans {s s1 s2 : State} (h : localStands s s1) (h1 : localStands s1 s2) : localStands s s2 :=
  ⟨fun u l => (h1.1 u l).trans (h.1 u l), fun c j => (h1.2 c j).trans (h.2 c j)⟩

theorem localStands.foldl {α : Type} (f : State → α → State) (h : ∀ s a, localStands s (f s a)) (l : List α) (s : State) :
    localStands s (l.foldl f s) := by
  induction l generalizing s with
  | nil => exact .refl s
  | cons a l ih => exact (h s a).trans (ih _)

/-- A change of threads that keeps their registers. -/
theorem localStands_modThread (s : State) (t : Nat) {f : Thread → Thread} (hv : ∀ th, (f th).v = th.v)
    (hp : ∀ th, (f th).p = th.p) : localStands s (s.modThread t f) := by
  refine ⟨fun u l => ?_, fun _ _ => rfl⟩
  have h : ((s.modThread t f).thread u).v = (s.thread u).v ∧ ((s.modThread t f).thread u).p = (s.thread u).p := by
    rw [State.thread_modThread]
    split
    · exact ⟨hv _, hp _⟩
    · exact ⟨rfl, rfl⟩
  cases l with
  | v n => simp only [State.getLoc, Thread.getV, h.1]
  | s n => rfl
  | p n => simp only [State.getLoc, Thread.getP, h.2]

/-- A change of a core that keeps its scratchpad. -/
theorem localStands_modCore (s : State) (k : Nat) {f : Core → Core} (h : (f (s.core k)).scratch = (s.core k).scratch) :
    localStands s (s.modCore k f) := by
  refine ⟨fun u l => by cases l <;> rfl, fun c j => ?_⟩
  rw [State.core_modCore]
  split
  · rename_i hc
    subst hc
    rw [Core.sByte, h, Core.sByte]
  · rfl

theorem localStands_consume (s : State) (t : Nat) (a : W64) (g : Tags) : localStands s (s.consume t a g) := by
  unfold State.consume
  split
  · exact .refl s
  · exact localStands_modThread s t (fun _ => rfl) (fun _ => rfl)

theorem localStands_entered (s : State) (t : Nat) (a : W64) (f : Fields) : localStands s (entered s t a f) :=
  (localStands_consume s t a _).trans (localStands_modThread _ t (fun _ => rfl) (fun _ => rfl))

theorem localStands_hold (s : State) (t : Nat) (a : W64) (e : Effect) : localStands s (s.hold t a e) :=
  localStands_modCore s _ rfl

theorem localStands_enterUnits (s : State) (t : Nat) (q : Option Nat) (us : List LateUnit) :
    localStands s (s.enterUnits t q us) := by
  unfold State.enterUnits
  refine .foldl _ (fun s u => ?_) us s
  exact localStands_modThread { s with nextId := s.nextId + 1 } t (fun _ => rfl) (fun _ => rfl)

theorem localStands_dropLate (s : State) (t id : Nat) : localStands s (s.dropLate t id) :=
  localStands_modThread s t (fun _ => rfl) (fun _ => rfl)

theorem localStands_logWrite (s : State) (t : Nat) (x : LogOld) : localStands s (s.logWrite t x) := by
  unfold State.logWrite
  split
  · exact .refl s
  · refine ⟨fun u l => ?_, fun _ _ => rfl⟩
    cases l with
    | s n =>
      simp only [State.getLoc, Crew.getS, State.crew_modCrew]
      split <;> rfl
    | _ => rfl

/-! ## Memory -/

@[simp] theorem State.hold_mem (s : State) (t : Nat) (a : W64) (e : Effect) : (s.hold t a e).mem = s.mem := rfl

@[simp] theorem State.enterUnits_mem (s : State) (t : Nat) (q : Option Nat) (us : List LateUnit) :
    (s.enterUnits t q us).mem = s.mem := by
  unfold State.enterUnits
  refine foldl_keeps (fun s : State => s.mem) _ (fun _ _ => ?_) us s
  rfl

@[simp] theorem entered_mem (s : State) (t : Nat) (a : W64) (f : Fields) : (entered s t a f).mem = s.mem := by
  simp [entered, State.pastGuard, State.advance]

/-- An effect that is no acquire and has units of its own is held or enters them; registers, memory and scratchpads stand (R188, R308). -/
theorem State.emit_stands {s : State} {t : Nat} {a : W64} {e : Effect} {us : List LateUnit} (hu : s.unitsOf t a e = some us)
    (ha : e.acquires = false) : localStands s (s.emit t a e) ∧ (s.emit t a e).mem = s.mem := by
  unfold State.emit
  split
  · exact ⟨localStands_hold .., rfl⟩
  · simp only [State.enter, hu, ha, Bool.false_eq_true, if_false]
    exact ⟨localStands_enterUnits .., State.enterUnits_mem ..⟩

end Sys2Proof.Machine
end

section
/-! SUPPORT. Stores at their issue: the bytes of a data group and the units that hold them, the operands of a store, what each store
does in one thread, and that each completes (R177, R178, R184, R188, R190, R192, R194). -/

namespace Sys2Proof.Machine

open Sys2Proof.Claim

/-! ## Bytes of a data group -/

theorem count_eq (f : Fields) : 2 ^ (f.xc.extractLsb' 0 2).toNat = f.count := by
  rw [BitVec.extractLsb'_toNat, Nat.shiftRight_zero, Fields.count]

theorem bytesAt_eq_accessBytes (f : Fields) : bytesAt f = accessBytes f := by rw [bytesAt, accessBytes, count_eq]

theorem Ty.bytes_cases (ty : Ty) : ty.bytes = 16 ∨ 0 < ty.bytes ∧ ty.bytes ≤ 8 := by cases ty <;> simp [Ty.bytes]

theorem Ty.regs_of_bytes {ty : Ty} (h : ty.bytes = 16) : ty.regs = 4 := by revert h; cases ty <;> simp [Ty.bytes, Ty.regs]

theorem leBytes_append (m n x : Nat) : leBytes (m + n) x = leBytes m x ++ leBytes n (x / 2 ^ (8 * m)) := by
  simp only [leBytes, List.range_add, List.map_append, List.map_map]
  congr 1
  refine List.map_congr_left fun k _ => ?_
  rw [Function.comp_apply, Nat.div_div_eq_div_mul, ← pow_add, Nat.mul_add]

theorem flatMap_range_two_mul {α : Type} (g : Nat → α) (n : Nat) :
    (List.range (2 * n)).map g = (List.range n).flatMap fun k => [g (2 * k), g (2 * k + 1)] := by
  induction n with
  | zero => rfl
  | succ n ih => rw [Nat.mul_succ, List.range_succ, List.range_succ, List.range_succ]; simp [ih]

theorem elemBytes_length (ty : Ty) (data k : Nat) : (elemBytes ty data k).length = ty.bytes := leBytes_length ..

/-- The parts of an element of 16 bytes, and of a smaller one (R305). -/
theorem halves_elemBytes (ty : Ty) (data k : Nat) : Machine.halves (elemBytes ty data k) =
    if ty.bytes = 16 then [(0, leBytes 8 (data / 2 ^ (64 * (2 * k)))), (8, leBytes 8 (data / 2 ^ (64 * (2 * k + 1))))]
    else [(0, elemBytes ty data k)] := by
  rw [Machine.halves, elemBytes_length]
  by_cases h : ty.bytes = 16
  · rw [if_pos h, if_neg (by omega), elemBytes, h, Ty.regs_of_bytes h, show 16 = 8 + 8 by norm_num, leBytes_append,
      List.take_left' (leBytes_length 8 _), List.drop_left' (leBytes_length 8 _), Nat.div_div_eq_div_mul, ← pow_add]
    ring_nf
  · rw [if_neg h, if_pos (by have := Ty.bytes_cases ty; omega)]

/-- The parts of a store, element by element (R190, R305). -/
theorem dataPieces_eq (f : Fields) (data : Nat) : dataPieces f data = (List.range f.count).flatMap fun k =>
    (Machine.halves (elemBytes f.ty data k)).map fun h => (f.ty.bytes * k + h.1, h.2) := by
  simp only [dataPieces, halves_elemBytes]
  split
  · rename_i h
    rw [flatMap_range_two_mul, h]
    refine List.flatMap_congr fun k _ => ?_
    simp only [List.map_cons, List.map_nil]
    ring_nf
  · rw [List.map_eq_flatMap]
    rfl

/-- A part of an element lies in it, and holds something. -/
theorem mem_halves_elemBytes {ty : Ty} {data k : Nat} {h : Nat × List Byte} (hh : h ∈ Machine.halves (elemBytes ty data k)) :
    0 < h.2.length ∧ h.1 + h.2.length ≤ ty.bytes := by
  have hc := Ty.bytes_cases ty
  rw [halves_elemBytes] at hh
  split at hh
  · simp only [List.mem_cons, List.not_mem_nil, or_false] at hh
    rcases hh with rfl | rfl <;> simp only [leBytes_length] <;> omega
  · rw [List.mem_singleton] at hh
    subst hh
    simp only [elemBytes_length]
    omega

/-- The last part of a sector that a store covers whole (R409). -/
theorem closes_eq {f : Fields} {base k : Nat} {h : Nat × List Byte} (hk : k < f.count) (hl : 0 < h.2.length)
    (hh : h.1 + h.2.length ≤ f.ty.bytes) : closes f base (f.ty.bytes * k + h.1) h.2.length =
      (h.1 + h.2.length == f.ty.bytes && lastOfSector base f.ty.bytes f.count k) := by
  have hm : (f.ty.bytes * k + h.1 + h.2.length) % f.ty.bytes = 0 ↔ h.1 + h.2.length = f.ty.bytes := by
    rw [Nat.add_assoc, Nat.mul_add_mod]
    constructor
    · intro h0
      rcases Nat.lt_or_eq_of_le hh with hlt | heq
      · rw [Nat.mod_eq_of_lt hlt] at h0; omega
      · exact heq
    · intro h0; rw [h0, Nat.mod_self]
  rw [closes, lastOfSector, Bool.eq_iff_iff]
  simp only [decide_eq_true_eq, Bool.and_eq_true, beq_iff_eq, hm, Nat.mul_add, Nat.mul_one]
  constructor
  · rintro ⟨h1, h2, h3⟩
    exact ⟨h1, ⟨by rw [← h2]; congr 1; omega, by omega⟩, hk⟩
  · rintro ⟨h1, ⟨h2, h3⟩, -⟩
    exact ⟨h1, by rw [← h2]; congr 1; omega, by omega⟩

/-- The units of a scratchpad store (R190, R305). -/
theorem scratchUnits_eq (f : Fields) (core off data : Nat) (own : Bool) :
    scratchUnits f core off data own = scratchPieces f core off data own := by
  rw [scratchUnits, scratchPieces, dataPieces_eq, List.map_flatMap]
  refine List.flatMap_congr fun k hk => ?_
  rw [List.map_map]
  refine List.map_congr_left fun h hh => ?_
  obtain ⟨hl, hb⟩ := mem_halves_elemBytes hh
  rw [Function.comp_apply, closes_eq (List.mem_range.1 hk) hl hb, Nat.add_assoc]

/-- The bytes of a store, in the order of its parts. -/
theorem bytesOf_eq (f : Fields) (data : Nat) : bytesOf f.ty f.count data = (dataPieces f data).flatMap (·.2) := by
  rw [bytesOf, dataPieces_eq, List.flatMap_assoc]
  refine List.flatMap_congr fun k _ => ?_
  rw [List.flatMap_map]
  unfold Machine.halves
  split <;> simp

theorem bytesOf_length (f : Fields) (data : Nat) : (bytesOf f.ty f.count data).length = bytesAt f := by
  rw [bytesAt_eq_accessBytes, bytesOf, List.length_flatMap]
  simp [elemBytes_length, accessBytes, Nat.mul_comm]

/-- The units of the elements of a `.g` store from one on, each on its page (R190, R305). -/
theorem rawUnits_eq (f : Fields) (va : W64) (data : Nat) (ps : List Page) (k : Nat) : rawUnits f va data k ps =
    (List.range ps.length).flatMap fun j => match ps[j]? with
      | some p => (Machine.halves (elemBytes f.ty data (k + j))).map fun h =>
          .mem f.scope.toNat (va + BitVec.ofNat 64 (f.ty.bytes * (k + j) + h.1)) { p with pa := p.pa + h.1 } h.2
            (h.1 + h.2.length == f.ty.bytes && lastOfSector va.toNat f.ty.bytes f.count (k + j))
      | none => [] := by
  induction ps generalizing k with
  | nil => rfl
  | cons p ps ih =>
    rw [rawUnits, ih, List.length_cons, List.range_succ_eq_map, List.flatMap_cons, List.flatMap_map]
    simp only [List.getElem?_cons_zero, List.getElem?_cons_succ, Nat.add_zero, Nat.succ_eq_add_one, Nat.add_assoc, Nat.add_comm 1]

/-- The units of a `.g` store of elements (R190, R305). -/
theorem rawUnits_eq_pieces {f : Fields} (va : W64) (data : Nat) {ps : List Page} (h : ps.length = f.count) :
    rawUnits f va data 0 ps = (dataPieces f data).flatMap fun x => match ps[x.1 / f.ty.bytes]? with
      | some p => [.mem f.scope.toNat (va + BitVec.ofNat 64 x.1) { p with pa := p.pa + x.1 % f.ty.bytes } x.2
          (closes f va.toNat x.1 x.2.length)]
      | none => [] := by
  rw [rawUnits_eq, dataPieces_eq, List.flatMap_assoc, h]
  refine List.flatMap_congr fun k hk => ?_
  have hk := List.mem_range.1 hk
  rw [List.flatMap_map, Nat.zero_add, List.getElem?_eq_getElem (h ▸ hk)]
  dsimp only
  rw [List.map_eq_flatMap]
  refine List.flatMap_congr fun x hx => ?_
  obtain ⟨hl, hb⟩ := mem_halves_elemBytes hx
  have hd : (f.ty.bytes * k + x.1) / f.ty.bytes = k := by
    rw [Nat.mul_add_div (by omega), Nat.div_eq_of_lt (by omega), Nat.add_zero]
  have hm : (f.ty.bytes * k + x.1) % f.ty.bytes = x.1 := by
    rw [Nat.mul_add_mod, Nat.mod_eq_of_lt (by omega)]
  rw [hd, hm, List.getElem?_eq_getElem (h ▸ hk), closes_eq hk hl hb]

/-! ## Units of a `.g` store -/

theorem frameAddrs_eq (p : Page) (va : W64) : frameAddrs p.frame va = frameBytes p va := by
  have h : va.toNat % 2 ^ 16 / 1024 * 256 + va.toNat % 2 ^ 16 % 1024 / 4 = va.toNat % 2 ^ 16 / 4 := by omega
  simp only [frameAddrs, frameBytes, Nat.add_assoc, h]

theorem gForm_sc (f : Fields) : gForm f 1 = .sc ↔ f.xc.getLsbD 2 = true := by
  unfold gForm
  split
  · exact ⟨fun _ => ‹_›, fun _ => rfl⟩
  · refine ⟨fun h => ?_, fun h => absurd h ‹_›⟩
    split at h <;> cases h

/-- The units that a `.g` store of this device enters (R190, R192, R194). -/
theorem storeUnits_eq {f : Fields} {a va : W64} {pages frames : List Page} {data : Nat}
    (hc : frames = [] → pages.length = f.count) : storeUnits f a va pages frames data = globalPieces f a va pages frames data := by
  cases pages with
  | nil => simp [storeUnits, globalPieces, rawUnits]
  | cons p ps =>
    cases frames with
    | nil => exact rawUnits_eq_pieces va data (hc rfl)
    | cons sp r =>
      simp only [storeUnits, globalPieces, specialUnits, blockUnits, frameAddrs_eq, ne_eq, gForm_sc]
      cases f.xc.getLsbD 2 <;> simp [specialBand]

theorem unitsOf_storeG {s : State} {t : Nat} {a : W64} {f : Fields} {va : W64} {pages frames : List Page} {data : Nat}
    (hp : ∀ p ∈ pages, p.peer = none) (hc : frames = [] → pages.length = f.count) :
    s.unitsOf t a (.storeG f va pages frames data) = some (globalPieces f a va pages frames data) := by
  have h : pages.any (·.peer.isSome) = false := by
    simp only [List.any_eq_false, Option.isSome_iff_ne_none, ne_eq, Classical.not_not]
    exact hp
  simp only [State.unitsOf, h, Bool.false_eq_true, if_false, storeUnits_eq hc]

/-! ## Operands of a store -/

theorem addr64_of_addressG {f : Fields} {d : Bool} {t : Nat} {s : State} {o : Opd} {va : W64}
    (h : addressG f d t s = some (o, va)) : s.addr64 t f d = (o, va) ∧ o.poison = false := by
  unfold addressG at h
  split at h
  · cases h
  · rename_i o' hr
    split at h
    · cases h
    · rename_i hp
      cases h
      exact ⟨by rw [State.addr64, hr]; rfl, by simpa using hp⟩

theorem addr32_of_addressS {f : Fields} {d : Bool} {t : Nat} {s : State} {o : Opd} {x : Nat}
    (h : addressS f d t s = some (o, x)) : s.addr32 t f d = (o, x) ∧ o.poison = false := by
  unfold addressS at h
  split at h
  · cases h
  · rename_i o' hr
    split at h
    · cases h
    · rename_i hp
      cases h
      refine ⟨?_, by simpa using hp⟩
      simp only [State.addr32, hr, BitVec.toNat_add, BitVec.toNat_ofNat, Nat.mod_add_mod]
      cases d <;> rfl

theorem dataOf_of_storeData {f : Fields} {n t : Nat} {s : State} {d : Opd} (h : storeData f n t s = some d) :
    s.dataOf t f n = d ∧ d.poison = false := by
  have he : storeData f n t s = if (s.dataOf t f n).poison then none else some (s.dataOf t f n) := rfl
  rw [he] at h
  split at h
  · cases h
  · rename_i hp
    cases h
    exact ⟨rfl, by simpa using hp⟩

theorem checkS_of_placeS {t x n size off : Nat} {s : State} (h : placeS t x n size s = some off) :
    s.checkS t x n size = .ok off := by
  simp only [placeS] at h
  split at h
  · rename_i hc
    cases h
    simp only [State.checkS]
    rw [if_neg (by omega), if_neg (by omega)]
  · cases h

theorem checkX_of_placeX {t x n size core off : Nat} {s : State} (h : placeX t x n size s = some (core, off)) :
    s.checkX t x n size = .ok (core, off) := by
  simp only [placeX] at h
  split at h
  · rename_i hc
    obtain ⟨hx, hm, ho⟩ := hc
    cases h
    simp only [State.checkX, peerCore, ho, hm, ge_iff_le, Nat.not_le.2 hx]
    simp
  · cases h

/-! ## Release -/

theorem ord_has_release (o : BitVec 2) : (o = 2 || o = 3) = o.getLsbD 1 := by revert o; decide

/-- What a store does that orders earlier accesses before it goes on as its release does (R204, R205, R347). -/
theorem releasing_of_ordered {f : Fields} {t : Nat} {s s' : State} {k : State → State} (a : W64)
    (h : ordered f t s k = some s') : s.releasing t a f (fun s => .ok (k s)) = .ok s' := by
  simp only [ordered, Bool.true_and] at h
  simp only [State.releasing, ord_has_release]
  split at h
  · rename_i hc
    rw [if_pos hc]
    split at h
    · rename_i hd
      cases h
      simp only [State.released, hd, if_true]
    · cases h
  · rename_i hc
    cases h
    rw [if_neg hc]

/-- The same of a store that is never held back. -/
theorem released_of_ordered {f : Fields} {t : Nat} {s s' : State} {k : State → State} (a : W64)
    (h : ordered f t s k (held := false) = some s') :
    (if f.ord = 2 || f.ord = 3 then s.released t a f.scope.toNat 2 (fun s => .ok (k s)) else .ok (k s)) = .ok s' := by
  simp only [ordered, Bool.false_and, Bool.not_false, Bool.and_true] at h
  simp only [ord_has_release]
  split at h
  · rename_i hc
    rw [if_pos hc]
    split at h
    · rename_i hd
      cases h
      simp only [State.released, hd, if_true]
    · cases h
  · rename_i hc
    cases h
    rw [if_neg hc]

/-- A relaxed store orders nothing (R179). -/
theorem ordered_relaxed {f : Fields} (h : f.ord = 0) (t : Nat) (s : State) (k : State → State) (held : Bool) :
    ordered f t s k held = some (k s) := by
  rw [ordered, h, if_neg (by simp)]

/-! ## What each store does in one thread -/

/-- `st.g`: its operands, its pages and its frames, and the effect it emits. -/
theorem storeGlobalPart_some {f : Fields} {t : Nat} {s s' : State} (h : storeGlobalPart f t s = some s') :
    ∃ o va d pages frames, addressG f true t s = some (o, va) ∧ storeData f (lsRegs f) t s = some d ∧
      s.locate t va (s.geometry t f va true).1 (s.geometry t f va true).2 .store (fmtOk f) f.scope.toNat = .ok pages ∧
      s.framesOf t f va pages (some d.val) = .ok frames ∧
      ordered f t (s.consume t (s.here t) (o.tags ||| d.tags))
        (fun s1 => s1.emit t (s.here t) (.storeG f va pages frames d.val)) = some s' := by
  unfold storeGlobalPart at h
  split at h
  · split at h
    · cases h
    · split at h
      · cases h
      · exact ⟨_, _, _, _, _, ‹_›, ‹_›, ‹_›, ‹_›, h⟩
  · cases h

/-- `st.x`: its operands and its place, and the effect it emits. -/
theorem storeXPart_some {f : Fields} {t : Nat} {s s' : State} (h : storeXPart f t s = some s') :
    ∃ o x d core off, addressS f true t s = some (o, x) ∧ storeData f (lsRegs f) t s = some d ∧
      placeX t x (bytesAt f) f.ty.bytes s = some (core, off) ∧
      ordered f t (s.consume t (s.here t) (o.tags ||| d.tags))
        (fun s1 => s1.emit t (s.here t) (.storeX f core off d.val)) = some s' := by
  unfold storeXPart at h
  split at h
  · split at h
    · cases h
    · exact ⟨_, _, _, _, _, ‹_›, ‹_›, ‹_›, h⟩
  · cases h

/-- `st.s`: its operands and its place, and what it stores there. -/
theorem storeSPart_some {f : Fields} {t : Nat} {s s' : State} (h : storeSPart f t s = some s') :
    ∃ o x d off, addressS f true t s = some (o, x) ∧ storeData f (lsRegs f) t s = some d ∧
      placeS t x (bytesAt f) f.ty.bytes s = some off ∧
      ordered f t (s.consume t (s.here t) (o.tags ||| d.tags))
        (fun s1 => s1.storeOwn t f off d.val (o.tags ||| d.tags ||| ((s.thread t).getP f.gp.toNat).tags)) (held := false) =
          some s' := by
  unfold storeSPart at h
  split at h
  · split at h
    · cases h
    · refine ⟨_, _, _, _, ‹_›, ‹_›, ‹_›, ?_⟩
      simpa only [State.storeOwn, scratchUnits_eq, bytesOf_eq, bytesAt_eq_accessBytes] using h
  · cases h

/-- The band record word of `bscale` for an operand (R178). -/
def bandWord (x : Nat) : Nat :=
  match fmtF32.decode x with
  | .fin _ n d => if n = 0 then 0x3F80 else fmtBf16.round .rup false (.fin false n (189 * d))
  | _ => 0x17FC0

/-- `bscale`: its operands, its page and its record, the effect it emits and the register it writes. -/
theorem bscalePart_some {f : Fields} {t : Nat} {s s' : State} (h : bscalePart f t s = some s') :
    ∃ o va x p bp, addressG f false t s = some (o, va) ∧ s.readSrc t 1 .f32 f.sb = .ok x ∧ x.poison = false ∧
      s.locate t va 1 1 .store (·.fmt == 1) 0 = .ok [p] ∧
      s.frameAt (s.coreOf t) (s.block (blockOf t)).ctx (frameBytes p va).2 true 0 = .ok bp ∧
      ((s.consume t (s.here t) (o.tags ||| x.tags)).emit t (s.here t) (.bscale (frameBytes p va).2 bp (bandWord x.val))).writeLoc t
        (.v f.dst.toNat) (BitVec.ofNat 32 (bandWord x.val) <<< 16) false (o.tags ||| x.tags) = s' := by
  unfold bscalePart at h
  split at h
  · split at h
    · cases h
    · rename_i hp
      split at h
      · dsimp only at h
        split at h
        · cases h
        · cases h
          exact ⟨_, _, _, _, _, ‹_›, ‹_›, Bool.eq_false_iff.2 hp, ‹_›, ‹_›, rfl⟩
      · cases h
  · cases h

/-! ## Completion -/

theorem stG_completes (f : Fields) : Completes (.stG f) f (storeGlobalPart f) := by
  refine .of_meaning (execStG f) (fun _ => rfl) (fun _ => rfl) fun t s s' hp => ?_
  obtain ⟨o, va, d, pages, frames, ha, hd, hl, hf, ho⟩ := storeGlobalPart_some hp
  obtain ⟨ha, hop⟩ := addr64_of_addressG ha
  obtain ⟨hd, hdp⟩ := dataOf_of_storeData hd
  simp only [State.storeGlobal, ha, hd, hop, hdp, hl, hf, Bool.false_eq_true, if_false]
  exact releasing_of_ordered _ ho

theorem stX_completes (f : Fields) : Completes (.stX f) f (storeXPart f) := by
  refine .of_meaning (execStX f) (fun _ => rfl) (fun _ => rfl) fun t s s' hp => ?_
  obtain ⟨o, x, d, core, off, ha, hd, hl, ho⟩ := storeXPart_some hp
  obtain ⟨ha, hop⟩ := addr32_of_addressS ha
  obtain ⟨hd, hdp⟩ := dataOf_of_storeData hd
  have hc := checkX_of_placeX hl
  rw [bytesAt_eq_accessBytes] at hc
  simp only [ha, hd, hop, hdp, hc, Bool.false_eq_true, if_false]
  exact releasing_of_ordered _ ho

theorem stS_completes (f : Fields) : Completes (.stS f) f (storeSPart f) := by
  refine .of_meaning (execStS f) (fun _ => rfl) (fun _ => rfl) fun t s s' hp => ?_
  obtain ⟨o, x, d, off, ha, hd, hl, ho⟩ := storeSPart_some hp
  obtain ⟨ha, hop⟩ := addr32_of_addressS ha
  obtain ⟨hd, hdp⟩ := dataOf_of_storeData hd
  have hc := checkS_of_placeS hl
  rw [bytesAt_eq_accessBytes] at hc
  simp only [ha, hd, hop, hdp, hc, Bool.false_eq_true, if_false]
  exact released_of_ordered _ ho

/-- The band record word by the parts of its operand (R178). -/
theorem bandWord_eq (x : Nat) : bandWord x =
    if (fmtF32.decode x).isSpecial then 0x17FC0
    else if (fmtF32.decode x).mag.1 = 0 then 0x3F80
    else fmtBf16.round .rup false (.fin false (fmtF32.decode x).mag.1 (189 * (fmtF32.decode x).mag.2)) := by
  unfold bandWord
  cases fmtF32.decode x <;> rfl

/-- The low half of a word, moved to the high one. -/
theorem low_half_shifted (w : Nat) : BitVec.ofNat 32 (w % 2 ^ 16 * 2 ^ 16) = BitVec.ofNat 32 w <<< 16 := by
  apply BitVec.eq_of_toNat_eq
  simp only [BitVec.toNat_ofNat, BitVec.toNat_shiftLeft, Nat.shiftLeft_eq]
  omega

theorem bscale_completes (f : Fields) : Completes (.bscale f) f (bscalePart f) := by
  refine .of_meaning (execBscale f) (fun _ => rfl) (fun _ => rfl) fun t s s' hp => ?_
  obtain ⟨o, va, x, p, bp, ha, hx, hxp, hl, hf, ho⟩ := bscalePart_some hp
  obtain ⟨ha, hop⟩ := addr64_of_addressG ha
  rw [← frameAddrs_eq] at hf ho
  simp only [ha, hop, hx, hxp, hl, List.head?_cons, Option.map_some, Option.getD_some, hf, Bool.false_eq_true, if_false,
    low_half_shifted, ← bandWord_eq, ho]

end Sys2Proof.Machine
end

section
/-! SUPPORT. What a store leaves at its issue: registers, memory and scratchpads, but for the destination of `bscale` and what a tainted
`st.s` writes at once (R196, R308). -/

namespace Sys2Proof.Machine

open Sys2Proof.Claim

/-- A thread alone in its group performs an instruction that completes. -/
theorem Completes.exec_alone {i : Instr} {f : Fields} {part : Nat → State → Option State} (hc : Completes i f part)
    (ho : i.once = false) {s s' : State} {a : W64} {t : Nat} (h : Alone s i f a t) (hp : part t (entered s t a f) = some s') :
    exec i s = .next s' := by
  obtain ⟨⟨c, hcur⟩, hst, hg, hw, -, hsh⟩ := h
  refine hc s s' c a [t] hcur ?_
  rw [entered] at hp
  simp only [ho, Bool.false_eq_true, if_false, State.runGroup, hst, hsh, hg, hw, hp, Bool.not_true, Bool.or_false]

/-! ## Effects that are held or entered -/

theorem storeGlobalPart_stands {f : Fields} (hr : f.ord = 0) {t : Nat} {s s' : State} (h : storeGlobalPart f t s = some s') :
    localStands s s' ∧ s'.mem = s.mem := by
  obtain ⟨o, va, d, pages, frames, -, -, -, -, ho⟩ := storeGlobalPart_some h
  rw [ordered_relaxed hr, Option.some.injEq] at ho
  subst ho
  obtain ⟨hl, hm⟩ := State.emit_stands (s := s.consume t (s.here t) (o.tags ||| d.tags)) (t := t) (a := s.here t)
    (e := .storeG f va pages frames d.val) rfl rfl
  exact ⟨(localStands_consume ..).trans hl, hm.trans (State.consume_mem ..)⟩

theorem storeXPart_stands {f : Fields} (hr : f.ord = 0) {t : Nat} {s s' : State} (h : storeXPart f t s = some s') :
    localStands s s' ∧ s'.mem = s.mem := by
  obtain ⟨o, x, d, core, off, -, -, -, ho⟩ := storeXPart_some h
  rw [ordered_relaxed hr, Option.some.injEq] at ho
  subst ho
  obtain ⟨hl, hm⟩ := State.emit_stands (s := s.consume t (s.here t) (o.tags ||| d.tags)) (t := t) (a := s.here t)
    (e := .storeX f core off d.val) rfl rfl
  exact ⟨(localStands_consume ..).trans hl, hm.trans (State.consume_mem ..)⟩

/-- What stands of a state that an instruction has entered stands of the one before it. -/
theorem stands_of_entered {s s' : State} {t : Nat} {a : W64} {f : Fields}
    (h : localStands (entered s t a f) s' ∧ s'.mem = (entered s t a f).mem) : dataStands s s' ∧ scratchStands s s' := by
  have hl := (localStands_entered s t a f).trans h.1
  exact ⟨⟨hl.1, h.2.trans (entered_mem ..)⟩, hl.2⟩

/-- A relaxed `st.g` or `st.x` writes nothing at its issue. -/
theorem storeParts_exec {f : Fields} {s s' : State} {a : W64} {t : Nat} (hr : f.ord = 0) {e : (Fields → Instr) × (Fields → Nat → State → Option State)}
    (he : e ∈ storeParts) (h : Alone s (e.1 f) f a t) (hp : e.2 f t (entered s t a f) = some s') :
    exec (e.1 f) s = .next s' ∧ dataStands s s' ∧ scratchStands s s' := by
  simp only [storeParts, List.mem_cons, List.not_mem_nil, or_false] at he
  rcases he with rfl | rfl
  · exact ⟨(stG_completes f).exec_alone rfl h hp, stands_of_entered (storeGlobalPart_stands hr hp)⟩
  · exact ⟨(stX_completes f).exec_alone rfl h hp, stands_of_entered (storeXPart_stands hr hp)⟩

/-! ## A write of a scratchpad -/

/-- Values written one after another in a table. -/
theorem tget_foldl_tset {α : Type} (m : Tab α) (off : Nat) (g : Nat → α) (n j : Nat) :
    tget ((List.range n).foldl (fun m k => tset m (off + k) (g k)) m) j =
      if off ≤ j ∧ j < off + n then some (g (j - off)) else tget m j := by
  induction n with
  | zero => rw [if_neg (by omega)]; rfl
  | succ n ih =>
    rw [List.range_succ, List.foldl_append, List.foldl_cons, List.foldl_nil, tget_tset, ih]
    by_cases hj : j = off + n
    · rw [if_pos hj, if_pos (by omega), hj, Nat.add_sub_cancel_left]
    · rw [if_neg hj]
      exact if_congr (by omega) rfl rfl

/-- Bytes written are read back, and every other byte of the scratchpad is as before. -/
theorem Core.sByte_sWrite (c : Core) (ctx : BitVec 16) (off : Nat) (bs : List Byte) (j : Nat) :
    (c.sWrite ctx off bs).sByte j = if off ≤ j ∧ j < off + bs.length then bs.getD (j - off) 0 else c.sByte j := by
  simp only [Core.sByte, Core.sWrite, tget_foldl_tset]
  by_cases h : off ≤ j ∧ j < off + bs.length
  · rw [if_pos h, if_pos h]
  · rw [if_neg h, if_neg h]

theorem Core.setTag_scratch (c : Core) (k : Nat) (g : Tags) : (c.setTag k g).scratch = c.scratch := rfl

theorem Core.tagStore_scratch (c : Core) (off n : Nat) (g : Tags) : (c.tagStore off n g).scratch = c.scratch := by
  unfold Core.tagStore
  exact foldl_keeps Core.scratch _ (fun c k => Core.setTag_scratch c k _) _ c

theorem Core.tagClear_scratch (c : Core) (off n : Nat) : (c.tagClear off n).scratch = c.scratch := by
  unfold Core.tagClear
  exact foldl_keeps Core.scratch _ (fun c k => Core.setTag_scratch c k 0) _ c

theorem Core.sByte_of_scratch {c c' : Core} (h : c'.scratch = c.scratch) (j : Nat) : c'.sByte j = c.sByte j := by
  rw [Core.sByte, h, Core.sByte]

theorem State.wakeS_eq (s : State) (core off n : Nat) : s.wakeS core off n = s ∨ ∃ l, s.wakeS core off n = s.addTodo l := by
  unfold State.wakeS
  split
  · exact .inr ⟨_, rfl⟩
  · exact .inl rfl

theorem localStands_wakeS (s : State) (core off n : Nat) : localStands s (s.wakeS core off n) := by
  rcases s.wakeS_eq core off n with h | ⟨l, h⟩ <;> rw [h] <;> exact .refl s

theorem State.wakeS_mem (s : State) (core off n : Nat) : (s.wakeS core off n).mem = s.mem := by
  rcases s.wakeS_eq core off n with h | ⟨l, h⟩ <;> rw [h]
  rfl

/-- A change of a core's scratchpad writes some bytes there, and nothing else of registers, memory and scratchpads. -/
theorem dataStands_padWrite {s s1 : State} {core off : Nat} {bs : List Byte} {f : Core → Core} (n : Nat) (hl : localStands s s1)
    (hm : s1.mem = s.mem) (hf : ∀ c j, (f c).sByte j = if off ≤ j ∧ j < off + bs.length then bs.getD (j - off) 0 else c.sByte j) :
    let s' := (s1.modCore core f).wakeS core off n
    dataStands s s' ∧ ∀ c j, (s'.core c).sByte j =
      if c = core ∧ off ≤ j ∧ j < off + bs.length then bs.getD (j - off) 0 else (s.core c).sByte j := by
  have hw := localStands_wakeS (s1.modCore core f) core off n
  refine ⟨⟨fun u l => (hw.1 u l).trans ?_, (State.wakeS_mem ..).trans hm⟩, fun c j => (hw.2 c j).trans ?_⟩
  · rw [← hl.1 u l]
    cases l <;> rfl
  · rw [State.core_modCore]
    by_cases hc : c = core
    · simp only [hc, if_true, hf, hl.2 core j, true_and]
    · simp only [hc, if_false, hl.2 c j, false_and]

/-! ## A tainted `st.s` -/

theorem State.settle_of_none {s : State} {t : Nat} (h : (s.thread t).lates = []) (p : Nat × Option Nat × LateUnit → Bool) :
    s.settle t p = s := by
  rw [State.settle, h]
  rfl

theorem State.settlePad_of_nothing {s : State} (h : nothingLate s) (core off n : Nat) (p : LateUnit → Bool) :
    s.settlePad core off n p = s := by
  unfold State.settlePad
  generalize s.threads.map (·.1) = l
  induction l with
  | nil => rfl
  | cons t l ih => rw [List.foldl_cons, State.settle_of_none (h t), ih]

/-- A change of threads that keeps what they have to wait for. -/
theorem nothingLate_modThread {s : State} (h : nothingLate s) (t : Nat) {f : Thread → Thread} (hf : ∀ th, (f th).pend = th.pend) :
    nothingLate (s.modThread t f) := by
  intro u
  rw [State.thread_modThread]
  split
  · rw [Thread.lates, hf]; exact h u
  · exact h u

theorem nothingLate_consume {s : State} (h : nothingLate s) (t : Nat) (a : W64) (g : Tags) : nothingLate (s.consume t a g) := by
  unfold State.consume
  split
  · exact h
  · exact nothingLate_modThread h t fun _ => rfl

theorem nothingLate_entered {s : State} (h : nothingLate s) (t : Nat) (a : W64) (f : Fields) : nothingLate (entered s t a f) :=
  nothingLate_modThread (nothingLate_consume h t a _) t fun _ => rfl

theorem localStands_logSectors (s : State) (t off n : Nat) : localStands s (s.logSectors t off n) := by
  unfold State.logSectors
  exact .foldl _ (fun s _ => localStands_logWrite s t _) _ s

theorem State.logSectors_mem (s : State) (t off n : Nat) : (s.logSectors t off n).mem = s.mem := by
  unfold State.logSectors
  exact foldl_keeps (fun s : State => s.mem) _ (fun s _ => State.logWrite_mem s t _) _ s

/-- Where nothing is still to be performed, a tainted `st.s` writes at once (R196, R317). -/
theorem State.storeS_eq {s : State} (h : nothingLate s) (t off : Nat) (bs : List Byte) (g : Tags) : s.storeS t off bs g =
    ((s.logSectors t off bs.length).modCore (s.block (blockOf t)).core fun c =>
      (c.sWrite (s.block (blockOf t)).ctx off bs).tagStore off bs.length (g ||| (s.thread t).tagUnion)).wakeS
        (s.block (blockOf t)).core off bs.length := by
  simp only [State.storeS, State.settleReaders, State.settlePad_of_nothing h]

/-- What a tainted thread stores by `st.s` is written at once, and nothing else (R196). -/
theorem State.storeS_stands {s : State} (h : nothingLate s) (t off : Nat) (bs : List Byte) (g : Tags) :
    dataStands s (s.storeS t off bs g) ∧ scratchBut s (s.storeS t off bs g) (s.block (blockOf t)).core off bs.length := by
  rw [State.storeS_eq h]
  obtain ⟨hd, hs⟩ := dataStands_padWrite (core := (s.block (blockOf t)).core) bs.length (localStands_logSectors s t off bs.length)
    (State.logSectors_mem s t off bs.length)
    fun c j => (Core.sByte_of_scratch (Core.tagStore_scratch _ off bs.length (g ||| (s.thread t).tagUnion)) j).trans
      (Core.sByte_sWrite c (s.block (blockOf t)).ctx off bs j)
  exact ⟨hd, fun c j hn => (hs c j).trans (if_neg hn)⟩

/-- What an `st.s` leaves: its bytes are entered as units, or written at once (R196, R308). -/
theorem State.storeOwn_stands {s : State} (h : nothingLate s) (t : Nat) (f : Fields) (off data : Nat) (g : Tags) :
    dataStands s (s.storeOwn t f off data g) ∧
      scratchBut s (s.storeOwn t f off data g) (s.block (blockOf t)).core off (bytesAt f) := by
  simp only [State.storeOwn]
  split
  · have hl := localStands_enterUnits s t (some s.seq) (scratchUnits f (s.coreOf t) off data true)
    exact ⟨⟨hl.1, State.enterUnits_mem ..⟩, fun c j _ => hl.2 c j⟩
  · rw [State.settleAt, State.settle_of_none (h t), ← bytesOf_length f data]
    exact State.storeS_stands h t off _ g

theorem State.consume_block (s : State) (t : Nat) (a : W64) (g : Tags) (b : Nat) : (s.consume t a g).block b = s.block b := by
  rw [State.block, State.consume_blocks, State.block]

theorem entered_block (s : State) (t : Nat) (a : W64) (f : Fields) (b : Nat) : (entered s t a f).block b = s.block b :=
  State.consume_block s t a _ b

/-- A relaxed `st.s` writes at its issue at most its own bytes, those of a tainted thread. -/
theorem stS_exec {f : Fields} {s s' : State} {a : W64} {t x off : Nat} {o : Opd} (hr : f.ord = 0) (h : Alone s (.stS f) f a t)
    (hn : nothingLate s) (hp : storeSPart f t (entered s t a f) = some s') (hx : addressS f true t (entered s t a f) = some (o, x))
    (hoff : placeS t x (bytesAt f) f.ty.bytes (entered s t a f) = some off) :
    exec (.stS f) s = .next s' ∧ dataStands s s' ∧ scratchBut s s' (s.block (blockOf t)).core off (bytesAt f) := by
  refine ⟨(stS_completes f).exec_alone rfl h hp, ?_⟩
  obtain ⟨o', x', d, off', hx', -, hoff', ho⟩ := storeSPart_some hp
  rw [hx', Option.some.injEq, Prod.mk.injEq] at hx
  obtain ⟨rfl, rfl⟩ := hx
  rw [hoff', Option.some.injEq] at hoff
  subst hoff
  rw [ordered_relaxed hr, Option.some.injEq] at ho
  subst ho
  have hl := (localStands_entered s t a f).trans (localStands_consume _ t ((entered s t a f).here t) (o'.tags ||| d.tags))
  obtain ⟨⟨hg, hm⟩, hs⟩ := State.storeOwn_stands (nothingLate_consume (nothingLate_entered hn t a f) t ((entered s t a f).here t)
    (o'.tags ||| d.tags)) t f off' d.val (o'.tags ||| d.tags ||| (((entered s t a f).thread t).getP f.gp.toNat).tags)
  rw [State.consume_block, entered_block] at hs
  exact ⟨⟨fun u l => (hg u l).trans (hl.1 u l), hm.trans ((State.consume_mem ..).trans (entered_mem ..))⟩,
    fun c j hn => (hs c j hn).trans (hl.2 c j)⟩

/-! ## `bscale` -/

/-- A register that is not the one written stands (R65). -/
theorem State.getLoc_writeV {s : State} {t d u : Nat} {l : Loc} (h : ¬(u = t ∧ l = .v d)) (x : W32) (p : Bool) (g : Tags) :
    (s.writeLoc t (.v d) x p g).getLoc u l = s.getLoc u l := by
  have hw : ∀ (s : State) r, (s.putLoc t (.v d) r).getLoc u l = s.getLoc u l := by
    intro s r
    cases l with
    | s n => rfl
    | p n =>
      simp only [State.putLoc, State.getLoc, State.thread_modThread]
      split <;> rfl
    | v n =>
      simp only [State.putLoc, State.getLoc, State.thread_modThread]
      split
      · rename_i hu
        rw [Thread.getV, tgetD_tset, if_neg (fun hn => h ⟨hu.1, by rw [hn]⟩), Thread.getV]
      · rfl
  rw [State.writeLoc, if_neg (by simp), hw]
  exact (localStands_logWrite s t _).1 u l

theorem State.writeV_cores (s : State) (t d : Nat) (x : W32) (p : Bool) (g : Tags) :
    (s.writeLoc t (.v d) x p g).cores = s.cores := State.writeLoc_cores ..

/-- `bscale` writes its destination at its issue, and nothing else of registers, memory and scratchpads (R177). -/
theorem bscale_exec {f : Fields} {s s' : State} {a : W64} {t : Nat} (h : Alone s (.bscale f) f a t)
    (hp : bscalePart f t (entered s t a f) = some s') :
    exec (.bscale f) s = .next s' ∧ s'.mem = s.mem ∧ (∀ u l, ¬mayWrite [t] [.v f.dst.toNat] u l → s'.getLoc u l = s.getLoc u l) ∧
      scratchStands s s' := by
  refine ⟨(bscale_completes f).exec_alone rfl h hp, ?_⟩
  obtain ⟨o, va, x, p, bp, -, -, -, -, -, rfl⟩ := bscalePart_some hp
  obtain ⟨hl, hm⟩ := State.emit_stands (s := (entered s t a f).consume t ((entered s t a f).here t) (o.tags ||| x.tags)) (t := t)
    (a := (entered s t a f).here t) (e := .bscale (frameBytes p va).2 bp (bandWord x.val)) rfl rfl
  have hl := ((localStands_entered s t a f).trans (localStands_consume ..)).trans hl
  have hm := hm.trans ((State.consume_mem ..).trans (entered_mem ..))
  refine ⟨(State.writeLoc_mem ..).trans hm, fun u l hn => ?_, fun c j => ?_⟩
  · refine (State.getLoc_writeV (fun hu => hn ?_) ..).trans (hl.1 u l)
    exact ⟨by simp [hu.2], t, by simp, .inl hu.1.symm⟩
  · rw [State.core, State.writeV_cores]
    exact hl.2 c j

end Sys2Proof.Machine
end

section
/-! SUPPORT. A unit of an access is performed (R305, R308): what comes before it, bytes of memory as they are read, where no cache and no
outbound path holds anything, and the write of a unit to the home slice, the outbound path and the L1 (R190, R192, R195, R330, R331). -/

namespace Sys2Proof.Machine

open Sys2Proof.Claim

/-! ## ACCESS_PERFORMED -/

/-- Nothing is performed before a unit that comes next among those that touch what it touches (R186, R302). -/
theorem ahead_of_due {s : State} {t id : Nat} {q : Option Nat} {u : LateUnit} (h : due s t id q u) : s.ahead t id q u = [] := by
  obtain ⟨-, hown, hgroup⟩ := h
  have h1 : ((s.thread t).lates.takeWhile (·.1 != id)).filter (·.2.2.meets u.spans) = [] :=
    List.filter_eq_nil_iff.2 fun x hx => by simp [hown x hx]
  rw [State.ahead, h1, List.map_nil, List.nil_append]
  cases q with
  | none => rfl
  | some k =>
    refine List.flatMap_eq_nil_iff.2 fun v hv => List.map_eq_nil_iff.2 (List.filter_eq_nil_iff.2 fun x hx => ?_)
    obtain ⟨hv, hlt⟩ := List.mem_filter.1 hv
    by_cases hq : x.2.1 = some k
    · simp [hgroup (by simp) v hv (of_decide_eq_true hlt) x hx hq]
    · simp [hq]

/-- An access of a thread that was performed at its home slice is acknowledged (R204). -/
def State.acknowledge (s : State) (t id : Nat) : State :=
  (s.modThread t fun th => { th with pend := th.pend.filter fun p => !(p.1 == id && p.2 == .home) }).addTodo [.fences]

theorem localStands_acknowledge (s : State) (t id : Nat) : localStands s (s.acknowledge t id) := by
  have h : localStands s (s.modThread t fun th => { th with pend := th.pend.filter fun p => !(p.1 == id && p.2 == .home) }) :=
    localStands_modThread s t (fun _ => rfl) (fun _ => rfl)
  exact h.trans ⟨fun u l => by cases l <;> rfl, fun _ _ => rfl⟩

@[simp] theorem State.acknowledge_mem (s : State) (t id : Nat) : (s.acknowledge t id).mem = s.mem := rfl
@[simp] theorem State.acknowledge_out (s : State) (t id die : Nat) : (s.acknowledge t id).out die = s.out die := rfl
@[simp] theorem State.acknowledge_core (s : State) (t id c : Nat) : (s.acknowledge t id).core c = s.core c := rfl

/-- A unit that comes next is performed alone (R302, R305). -/
theorem exec_due {s : State} {t id : Nat} {q : Option Nat} {u : LateUnit} (h : due s t id q u)
    (hu : ∀ f pc va pg sp bp d x sc bd, u ≠ .encode f pc va pg sp bp d x sc bd) :
    exec (.accessPerformed t id) s = .next (((s.dropLate t id).performUnit t u).acknowledge t id) := by
  rw [← State.performLate_eq (n := ((s.crewThreads (crewOf t)).map fun v => (s.thread v).pend.length).sum) (w := false) h.1
    (ahead_of_due h) hu]
  rfl

/-- An encode store that comes next goes on (R192, R304). -/
theorem exec_due_encode {s : State} {t id : Nat} {q : Option Nat} {u : LateUnit} (h : due s t id q u)
    (hu : ∃ f pc va pg sp bp d x sc bd, u = .encode f pc va pg sp bp d x sc bd) :
    exec (.accessPerformed t id) s = .next ((s.stepEncode t id q false u).acknowledge t id) := by
  obtain ⟨f, pc, va, pg, sp, bp, d, x, sc, bd, rfl⟩ := hu
  have hp : State.performLate (s.lateBound t) s t id false = s.stepEncode t id q false (.encode f pc va pg sp bp d x sc bd) := by
    rw [State.lateBound, State.performLate]
    simp only [h.1, ahead_of_due h, List.foldl_nil, List.isEmpty_nil, Bool.not_true, Bool.false_eq_true, if_false]
  show Host.Outcome.next (((State.performLate (s.lateBound t) s t id false).modThread t _).addTodo _) = _
  rw [hp]
  rfl

/-! ## Bytes as they are read (R126, R127) -/

/-- Two states translate alike: memory, the helm's registers, the contexts and the leaves kept are one. -/
structure sameSpace (s s' : State) : Prop where
  mem : s'.mem = s.mem
  helm : s'.helm = s.helm
  ctxs : s'.ctxs = s.ctxs
  leaves : s'.leaves = s.leaves

section Space

variable {s s' : State} (h : sameSpace s s')
include h

theorem sameSpace.populated (pa n : Nat) : s'.populated pa n = s.populated pa n := by
  rw [State.populated, h.helm, State.populated]

theorem sameSpace.pteOk (e : Pte) (level : Nat) : s'.pteOk e level = s.pteOk e level := by
  simp only [State.pteOk, h.populated, h.helm]

theorem sameSpace.entryAt (va table level : Nat) : s'.entryAt va table level = s.entryAt va table level := by
  simp only [State.entryAt, h.populated, h.pteOk, h.mem]

theorem sameSpace.walk (va l table : Nat) : s'.walk va l table = s.walk va l table := by
  induction l generalizing table with
  | zero => simp only [State.walk, h.entryAt]
  | succ l ih => simp only [State.walk, h.entryAt, ih]

theorem sameSpace.leaf (ctx : BitVec 16) (va : Nat) : s'.leaf ctx va = s.leaf ctx va := by
  simp only [State.leaf, h.leaves, h.mem, h.helm, h.walk]

theorem sameSpace.translate (ctx : BitVec 16) (va : W64) : s'.translate ctx va = s.translate ctx va := by
  simp only [State.translate, h.leaf]

theorem sameSpace.tableFrames (ctx : BitVec 16) (l table : Nat) : s'.tableFrames ctx l table = s.tableFrames ctx l table := by
  induction l generalizing table with
  | zero => simp only [State.tableFrames, h.entryAt, h.translate]
  | succ l ih => simp only [State.tableFrames, h.entryAt, ih]

theorem sameSpace.isFrame (base : Nat) : s'.isFrame base = s.isFrame base := by
  simp only [State.isFrame, h.ctxs, h.mem, h.helm, h.tableFrames]

theorem sameSpace.kept (pa : Nat) (b : Byte) : s'.kept pa b = s.kept pa b := by
  simp only [State.kept, h.isFrame]

theorem sameSpace.keptBytes (pa : Nat) (bs : List Byte) : s'.keptBytes pa bs = s.keptBytes pa bs := by
  simp only [State.keptBytes, h.kept]

end Space

theorem State.keptBytes_length (s : State) (pa : Nat) (bs : List Byte) : (s.keptBytes pa bs).length = bs.length := by
  simp [State.keptBytes]

theorem State.keptBytes_getD (s : State) (pa : Nat) (bs : List Byte) {k : Nat} (hk : k < bs.length) :
    (s.keptBytes pa bs).getD k 0 = s.kept (pa + k) (bs.getD k 0) := by
  simp [State.keptBytes, List.getD_eq_getElem?_getD, hk]

/-- A write at the home slice stores its bytes, reserved bytes of a scale frame aside (R126, R320). -/
theorem stored_of_memWrite {s s' : State} {pa : Nat} {bs : List Byte} (hs : s.memOk)
    (hm : s'.mem = memWrite s.mem pa (s.keptBytes pa bs)) : stored s s' pa bs := by
  intro a
  rw [hm, memGet_memWrite hs, State.keptBytes_length]
  split
  · rename_i h
    rw [State.keptBytes_getD _ _ _ (by omega), Nat.add_sub_cancel' h.1]
  · rfl

/-! ## A write that leaves a core -/

theorem localStands_writeHome (s : State) (pa : Nat) (bs : List Byte) (cl mk : List Nat) : localStands s (s.writeHome pa bs cl mk) := by
  unfold State.writeHome
  dsimp only
  split <;> exact ⟨fun u l => by cases l <;> rfl, fun _ _ => rfl⟩

theorem State.writeHome_cores (s : State) (pa : Nat) (bs : List Byte) (cl mk : List Nat) :
    (s.writeHome pa bs cl mk).cores = s.cores := by
  unfold State.writeHome
  dsimp only
  split <;> rfl

theorem localStands_landWrite (s : State) (w : OutWrite) : localStands s (s.landWrite w) := by
  unfold State.landWrite
  split <;> exact localStands_writeHome ..

theorem State.landWrite_cores (s : State) (w : OutWrite) : (s.landWrite w).cores = s.cores := by
  unfold State.landWrite
  split <;> exact State.writeHome_cores ..

/-- A write by an agent of a die once its threads have it to wait for. -/
def State.noted (s : State) (die : Nat) (ts : List Nat) (pa : Nat) : State :=
  ts.foldl (fun s' t => s'.modThread t fun th =>
    { th with pend := th.pend ++ [(s.nextId, if homeDie pa = die then PendKind.home else .outbound die s.nextId)] })
    { s with nextId := s.nextId + 1 }

theorem localStands_noted (s : State) (die : Nat) (ts : List Nat) (pa : Nat) : localStands s (s.noted die ts pa) := by
  unfold State.noted
  refine localStands.trans (s1 := { s with nextId := s.nextId + 1 }) ⟨fun u l => by cases l <;> rfl, fun _ _ => rfl⟩
    (.foldl _ (fun s t => ?_) ts _)
  exact localStands_modThread s t (fun _ => rfl) (fun _ => rfl)

/-- It changes nothing but threads and the count of identifiers. -/
theorem State.noted_eq (s : State) (die : Nat) (ts : List Nat) (pa : Nat) :
    s.noted die ts pa = { s with threads := (s.noted die ts pa).threads, nextId := s.nextId + 1 } := by
  unfold State.noted
  have h : ∀ (l : List Nat) (s0 : State) (p : Nat × PendKind),
      l.foldl (fun s' t => s'.modThread t fun th => { th with pend := th.pend ++ [p] }) s0 =
        { s0 with threads := (l.foldl (fun s' t => s'.modThread t fun th => { th with pend := th.pend ++ [p] }) s0).threads } := by
    intro l
    induction l with
    | nil => intro s0 p; rfl
    | cons t l ih =>
      intro s0 p
      rw [List.foldl_cons, ih]
      rfl
  exact h ts _ _

/-- The write itself (R330, R331). -/
def State.outWrite (s : State) (pa : Nat) (bs : List Byte) (cl mk : List Nat) (half : Option Bool) (core : Option Nat) : OutWrite :=
  { id := s.nextId, pa := pa, data := bs, cleans := cl, marks := mk, half := half, core := core, since := s.cycle }

theorem State.storeHome_eq (s : State) (die : Nat) (ts : List Nat) (pa : Nat) (bs : List Byte) (cl mk : List Nat) (half : Option Bool)
    (core : Option Nat) : s.storeHome die ts pa bs cl mk half core =
      if homeDie pa = die then (s.noted die ts pa).landWrite (s.outWrite pa bs cl mk half core)
      else { s.noted die ts pa with outbound := tset s.outbound die (s.out die ++ [s.outWrite pa bs cl mk half core]) } := by
  have hc : (s.noted die ts pa).cycle = s.cycle := by rw [State.noted_eq]
  have ho : (s.noted die ts pa).outbound = s.outbound := by rw [State.noted_eq]
  have h1 : s.storeHome die ts pa bs cl mk half core =
      if homeDie pa = die then (s.noted die ts pa).landWrite
        { s.outWrite pa bs cl mk half core with since := (s.noted die ts pa).cycle }
      else { s.noted die ts pa with outbound := tset (s.noted die ts pa).outbound die ((s.noted die ts pa).out die ++
        [{ s.outWrite pa bs cl mk half core with since := (s.noted die ts pa).cycle }]) } := rfl
  rw [h1, hc, ho, State.out, ho]
  rfl

end Sys2Proof.Machine
end

section
/-! SUPPORT. A unit of a store is performed where no L1 holds a line: what it writes in memory, the outbound path, the L1 or a scratchpad,
and nothing else (R190, R195, R305, R330, R331). -/

namespace Sys2Proof.Machine

open Sys2Proof.Claim

/-! ## No line in any L1 -/

theorem mem_of_tget {α : Type} {m : Tab α} {k : Nat} {x : α} (h : tget m k = some x) : (k, x) ∈ m := by
  induction m with
  | nil => simp at h
  | cons e r ih =>
    obtain ⟨j, y⟩ := e
    rw [tget_cons] at h
    split at h
    · rename_i hj
      rw [Option.some.injEq] at h
      rw [hj, h]
      exact List.mem_cons_self
    · exact List.mem_cons_of_mem _ (ih h)

theorem l1_of_uncached {s : State} (h : uncached s) (c : Nat) : (s.core c).l1 = [] := by
  unfold State.core tgetD
  cases hc : tget s.cores c with
  | none => rfl
  | some x => exact h.2 _ (mem_of_tget hc)

theorem State.combineOwn_of_empty {s : State} {core : Nat} (h : (s.core core).l1 = []) (pa : Nat) : s.combineOwn core pa = s := by
  rw [State.combineOwn, h, List.foldl_nil]

theorem State.recall_of_uncached {s : State} (h : uncached s) (pa : Nat) : s.recall pa = s := by
  have hk : ∀ l : List (Nat × Core), (∀ c ∈ l, c.2.l1 = []) →
      l.foldl (fun s c => c.2.l1.foldl (fun s l => if l.red.isSome && l.pa / 128 == pa / 128 then s.combine c.1 l else s) s) s = s := by
    intro l
    induction l with
    | nil => exact fun _ => rfl
    | cons c l ih =>
      intro hl
      rw [List.foldl_cons, hl c List.mem_cons_self, List.foldl_nil]
      exact ih fun x hx => hl x (List.mem_cons_of_mem _ hx)
  exact hk s.cores h.2

theorem State.out_of_uncached {s : State} (h : uncached s) (die : Nat) : s.out die = [] := by
  rw [State.out, h.1]
  rfl

/-- Where no write stands in an outbound path, bytes are read as memory holds them (R331). -/
theorem State.homeRead_of_uncached {s : State} (h : uncached s) (die pa n : Nat) : s.homeRead die pa n = seen s pa n := by
  simp only [State.homeRead, State.homeByte, State.out_of_uncached h, List.foldl_nil, seen]

theorem atHome_iff (scope : Nat) (pg : Page) : atHome scope pg = true ↔ goesHome scope pg := by
  simp [atHome, goesHome]

/-! ## What stands -/

theorem localStands_updateOwn (s : State) (core pa : Nat) (bs : List Byte) (cl mk : List Nat) :
    localStands s (s.updateOwn core pa bs cl mk) := localStands_modCore s core rfl

theorem localStands_updateNibble (s : State) (core pa : Nat) (hi : Bool) (v : Byte) : localStands s (s.updateNibble core pa hi v) :=
  localStands_modCore s core rfl

theorem localStands_putLine (s : State) (core : Nat) (l : L1Line) : localStands s (s.putLine core l) := localStands_modCore s core rfl

theorem localStands_storeHome (s : State) (die : Nat) (ts : List Nat) (pa : Nat) (bs : List Byte) (cl mk : List Nat) (half : Option Bool)
    (core : Option Nat) : localStands s (s.storeHome die ts pa bs cl mk half core) := by
  rw [State.storeHome_eq]
  split
  · exact (localStands_noted ..).trans (localStands_landWrite ..)
  · exact (localStands_noted s die ts pa).trans ⟨fun u l => by cases l <;> rfl, fun _ _ => rfl⟩

/-- What an access notes of its own leaves addresses to be translated as they were. -/
theorem sameSpace_noted (s : State) (die : Nat) (ts : List Nat) (pa : Nat) : sameSpace s (s.noted die ts pa) := by
  rw [State.noted_eq]
  exact ⟨rfl, rfl, rfl, rfl⟩

theorem sameSpace_dropLate (s : State) (t id : Nat) : sameSpace s (s.dropLate t id) := ⟨rfl, rfl, rfl, rfl⟩

/-- A write of a die to a line of its own is performed there (R330). -/
theorem State.storeHome_own_mem {s : State} {die pa : Nat} (h : homeDie pa = die) (ts : List Nat) (bs : List Byte) (cl mk : List Nat)
    (core : Option Nat) : (s.storeHome die ts pa bs cl mk none core).mem = memWrite s.mem pa (s.keptBytes pa bs) := by
  have hs := sameSpace_noted s die ts pa
  rw [State.storeHome_eq, if_pos h]
  exact (State.writeHome_mem ..).trans (by rw [hs.mem, hs.keptBytes]; rfl)

/-- A write of half a byte of a die to a line of its own (R305, R330). -/
theorem State.storeHome_nibble_mem {s : State} {die pa : Nat} (h : homeDie pa = die) (ts : List Nat) (x : Byte) (cl mk : List Nat)
    (hi : Bool) (core : Option Nat) : (s.storeHome die ts pa [x] cl mk (some hi) core).mem =
      memWrite s.mem pa (s.keptBytes pa [mergeNibble hi x (memGet s.mem pa)]) := by
  have hs := sameSpace_noted s die ts pa
  rw [State.storeHome_eq, if_pos h]
  exact (State.writeHome_mem ..).trans (by rw [hs.keptBytes, hs.mem]; rfl)

/-- A write of a die to a line of another enters the die's outbound path (R331). -/
theorem State.storeHome_away {s : State} {die pa : Nat} (h : homeDie pa ≠ die) (ts : List Nat) (bs : List Byte) (cl mk : List Nat)
    (half : Option Bool) (core : Option Nat) : (s.storeHome die ts pa bs cl mk half core).mem = s.mem ∧
      (s.storeHome die ts pa bs cl mk half core).out die = s.out die ++ [s.outWrite pa bs cl mk half core] := by
  rw [State.storeHome_eq, if_neg h]
  refine ⟨(sameSpace_noted s die ts pa).mem, ?_⟩
  simp [State.out]

/-! ## A line of the L1 -/

/-- The line that an access to an empty L1 fills (R303). -/
def State.freshLine (s : State) (core : Nat) (ctx : BitVec 16) (va : W64) (pg : Page) : L1Line :=
  { ctx := ctx, line := va.toNat / 128, pa := pg.pa - va.toNat % 128, leaf := pg,
    data := s.homeRead (dieOf core) (pg.pa - va.toNat % 128) 128, poison := s.linePoison (dieOf core) (pg.pa - va.toNat % 128) }

theorem State.fill_of_empty {s : State} {core : Nat} (h : (s.core core).l1 = []) (ctx : BitVec 16) (va : W64) (pg : Page) :
    s.fill core ctx va pg = (s.freshLine core ctx va pg, s.putLine core (s.freshLine core ctx va pg)) := by
  have hroom : s.makeRoom core = s := by
    rw [State.makeRoom, h]
    rfl
  have hline : (s.core core).line ctx va = none := by
    rw [Core.line, h]
    rfl
  simp only [State.fill, hline, hroom]
  rfl

/-- A line that is put in the L1 is found there. -/
theorem State.line_putLine (s : State) (core : Nat) (l : L1Line) {ctx : BitVec 16} {va : W64} (hc : l.ctx = ctx)
    (hv : l.line = va.toNat / 128) : ((s.putLine core l).core core).line ctx va = some l := by
  have hkey : ∀ x : L1Line, (x.ctx == ctx && x.line == va.toNat / 128) = true →
      (!(x.ctx == l.ctx && x.line == l.line)) = false := by
    intro x hx
    rw [hc, hv, hx]
    rfl
  have hnone : ((s.core core).l1.filter fun x => !(x.ctx == l.ctx && x.line == l.line)).find?
      (fun x => x.ctx == ctx && x.line == va.toNat / 128) = none := by
    refine List.find?_eq_none.2 fun x hx h => ?_
    rw [List.mem_filter, hkey x h] at hx
    exact Bool.noConfusion hx.2
  simp only [State.putLine, State.core_modCore, if_true, Core.line, List.find?_append, hnone, Option.none_or]
  simp [hc, hv]

theorem maskOf_getLsbD {off n k : Nat} (hk : k < n) (h : off + n ≤ 128) : (maskOf off n).getLsbD (off + k) = true := by
  rw [maskOf, BitVec.getLsbD_ofNat, Nat.testBit_mul_two_pow, Nat.testBit_two_pow_sub_one]
  simp
  omega

/-- Bytes written in a line of the L1 stand there, dirty. -/
theorem L1Line.write_holds {l : L1Line} {off : Nat} {bs : List Byte} (hl : l.data.length = 128) (h : off + bs.length ≤ 128)
    (cl mk : List Nat) : ((l.write off bs true cl mk).data.drop off).take bs.length = bs ∧
      ∀ k < bs.length, (l.write off bs true cl mk).dirty.getLsbD (off + k) = true := by
  refine ⟨?_, fun k hk => ?_⟩
  · have ho : (l.data.take off).length = off := by simp [hl]; omega
    simp only [L1Line.write, List.append_assoc]
    rw [List.drop_left' ho, List.take_left]
  · simp only [L1Line.write, if_true, BitVec.getLsbD_or, maskOf_getLsbD hk h, Bool.or_true]

/-! ## The bytes of a unit -/

/-- Bytes of a store are performed where no L1 holds a line (R190, R195, R303). -/
theorem State.gWrite_storedAt {s : State} {core scope : Nat} {pg : Page} {va : W64} {bs : List Byte} (hc : (s.core core).l1 = [])
    (hm : s.memOk) (hi : inLine va pg bs.length) (t : Nat) (ctx : BitVec 16) (whole : Bool) :
    localStands s (s.gWrite t core ctx scope va pg bs whole) ∧
      storedAt s (s.gWrite t core ctx scope va pg bs whole) core ctx scope va pg bs := by
  by_cases hh : goesHome scope pg
  · simp only [State.gWrite, (atHome_iff ..).2 hh, if_true, State.combineOwn_of_empty hc]
    generalize (if whole = true then [pg.pa / 32] else []) = cl
    refine ⟨(localStands_storeHome ..).trans (localStands_updateOwn ..), fun _ hd => ?_, fun _ hd => ?_, fun hn => absurd hh hn⟩
    · exact stored_of_memWrite hm (State.storeHome_own_mem hd [t] bs cl [] none)
    · obtain ⟨hmem, hout⟩ := State.storeHome_away (s := s) hd [t] bs cl [] none none
      exact ⟨hmem, _, hout, rfl, rfl, rfl⟩
  · have ha : atHome scope pg = false := Bool.eq_false_iff.2 fun h => hh ((atHome_iff ..).1 h)
    simp only [State.gWrite, ha, Bool.false_eq_true, if_false, State.fill_of_empty hc]
    generalize (if whole = true then [pg.pa / 32] else []) = cl
    have hlen : (s.freshLine core ctx va pg).data.length = 128 := by simp [State.freshLine, State.homeRead]
    obtain ⟨hdata, hdirty⟩ := L1Line.write_holds hlen hi.2 cl []
    refine ⟨(localStands_putLine ..).trans (localStands_putLine ..), fun h => absurd h hh, fun h => absurd h hh, fun _ => ⟨rfl, _,
      State.line_putLine _ _ _ rfl rfl, ?_, hdata, hdirty⟩⟩
    show pg.pa - va.toNat % 128 + va.toNat % 128 = pg.pa
    have := Nat.mod_le pg.pa 128
    have := hi.1
    omega

/-- What a write makes of a state whose unit is taken off it makes of the state before, and an acknowledgement changes none of it. -/
theorem storedAt_performed {s s1 : State} {t id core scope : Nat} {ctx : BitVec 16} {va : W64} {pg : Page} {bs : List Byte}
    (h : storedAt (s.dropLate t id) s1 core ctx scope va pg bs) :
    storedAt s (s1.acknowledge t id) core ctx scope va pg bs := by
  obtain ⟨h1, h2, h3⟩ := h
  refine ⟨fun hg hd a => ?_, h2, h3⟩
  rw [← (sameSpace_dropLate s t id).kept]
  exact h1 hg hd a

/-- The bytes of a `.g` store of this device are performed (R190, R195, R303, R330, R331). -/
theorem exec_due_mem {s : State} {t id : Nat} {q : Option Nat} {scope : Nat} {va : W64} {pg : Page} {bs : List Byte} {whole : Bool}
    (h : due s t id q (.mem scope va pg bs whole)) (hp : pg.peer = none) (hu : uncached s) (hm : s.memOk)
    (hi : inLine va pg bs.length) : ∃ s', exec (.accessPerformed t id) s = .next s' ∧ (∀ u l, s'.getLoc u l = s.getLoc u l) ∧
      scratchStands s s' ∧ storedAt s s' (s.coreOf t) (s.block (blockOf t)).ctx scope va pg bs := by
  obtain ⟨hl, hs⟩ := State.gWrite_storedAt (s := s.dropLate t id) (core := s.coreOf t) (scope := scope) (l1_of_uncached hu _) hm hi t
    (s.block (blockOf t)).ctx whole
  have hperf : (s.dropLate t id).performUnit t (.mem scope va pg bs whole) =
      (s.dropLate t id).gWrite t (s.coreOf t) (s.block (blockOf t)).ctx scope va pg bs whole := by
    simp only [State.performUnit, hp]
    rfl
  have hloc := ((localStands_dropLate s t id).trans hl).trans (localStands_acknowledge _ t id)
  rw [← hperf] at hloc hs
  exact ⟨_, exec_due h (by intros; nofun), hloc.1, hloc.2, storedAt_performed hs⟩

/-! ## Scratchpad bytes -/

/-- The bytes of a scratchpad store are performed (R196, R305). -/
theorem exec_due_scratch {s : State} {t id : Nat} {q : Option Nat} {core off : Nat} {bs : List Byte} {own whole : Bool}
    (h : due s t id q (.scratch core off bs own whole)) : ∃ s', exec (.accessPerformed t id) s = .next s' ∧ dataStands s s' ∧
      ∀ c j, (s'.core c).sByte j =
        if c = core ∧ off ≤ j ∧ j < off + bs.length then bs.getD (j - off) 0 else (s.core c).sByte j := by
  refine ⟨_, exec_due h (by intros; nofun), ?_⟩
  obtain ⟨hd, hs⟩ := dataStands_padWrite (core := core) (off := off) (bs := bs) (f := fun c =>
      let c := c.sWrite ((s.dropLate t id).block (blockOf t)).ctx off bs
      let c := if own && !whole then c.tagStore off bs.length 0 else c.tagClear off bs.length
      if whole then { c with spoison := c.spoison.filter (· != off / 32) } else c) bs.length
    (localStands_dropLate s t id) rfl fun c j => by
      rw [← Core.sByte_sWrite c ((s.dropLate t id).block (blockOf t)).ctx off bs j]
      refine Core.sByte_of_scratch ?_ j
      cases whole
      · cases own
        · exact Core.tagClear_scratch ..
        · exact Core.tagStore_scratch ..
      · cases own <;> exact Core.tagClear_scratch ..
  have hl := localStands_acknowledge ((s.dropLate t id).performUnit t (.scratch core off bs own whole)) t id
  exact ⟨⟨fun u l => (hl.1 u l).trans (hd.1 u l), hd.2⟩, hs⟩

/-! ## A nibble -/

/-- The bits of a byte made of two nibbles. -/
theorem getLsbD_nibbles (x y : BitVec 4) (i : Nat) :
    BitVec.getLsbD (x ++ y : Byte) i = if i < 4 then y.getLsbD i else x.getLsbD (i - 4) :=
  BitVec.getLsbD_append

/-- The nibble of a byte is one of its halves. -/
theorem mergeNibble_eq (hi : Bool) (v : Nat) (b : Byte) : mergeNibble hi (BitVec.ofNat 8 (17 * (v % 16))) b = withNibble hi v b := by
  have hv : BitVec.ofNat 8 (17 * (v % 16)) = BitVec.ofNat 4 v ++ BitVec.ofNat 4 v := by
    refine BitVec.eq_of_toNat_eq ?_
    rw [BitVec.toNat_append, BitVec.toNat_ofNat, BitVec.toNat_ofNat, ← Nat.shiftLeft_add_eq_or_of_lt (by omega), Nat.shiftLeft_eq]
    omega
  rw [hv, withNibble]
  generalize BitVec.ofNat 4 v = n
  refine BitVec.eq_of_getLsbD_eq fun i hlt => ?_
  cases hi <;> interval_cases i <;>
    simp [mergeNibble, getLsbD_nibbles, -BitVec.getLsbD_eq_getElem]

/-- A nibble of a `.g` store to a line of the die is performed (R192, R305, R330). -/
theorem exec_due_nibble {s : State} {t id : Nat} {q : Option Nat} {scope v : Nat} {va : W64} {pg : Page} {hi : Bool}
    (h : due s t id q (.nibble scope va pg hi v)) (hu : uncached s) (hm : s.memOk) (hg : goesHome scope pg)
    (hd : homeDie pg.pa = dieOf (s.coreOf t)) :
    ∃ s', exec (.accessPerformed t id) s = .next s' ∧ (∀ u l, s'.getLoc u l = s.getLoc u l) ∧ scratchStands s s' ∧
      stored s s' pg.pa [withNibble hi v (memGet s.mem pg.pa)] := by
  refine ⟨_, exec_due h (by intros; nofun), ?_⟩
  have hc : ((s.dropLate t id).core ((s.dropLate t id).coreOf t)).l1 = [] := l1_of_uncached hu (s.coreOf t)
  have hperf : (s.dropLate t id).performUnit t (.nibble scope va pg hi v) =
      ((s.dropLate t id).storeHome (dieOf (s.coreOf t)) [t] pg.pa [BitVec.ofNat 8 (17 * (v % 16))] [] [] (some hi)).updateNibble
        (s.coreOf t) pg.pa hi (BitVec.ofNat 8 (17 * (v % 16))) := by
    simp only [State.performUnit, State.gNibble, (atHome_iff ..).2 hg, if_true, State.combineOwn_of_empty hc]
    rfl
  have hl : localStands s (((s.dropLate t id).performUnit t (.nibble scope va pg hi v)).acknowledge t id) := by
    rw [hperf]
    exact (((localStands_dropLate s t id).trans (localStands_storeHome ..)).trans (localStands_updateNibble ..)).trans
      (localStands_acknowledge _ t id)
  refine ⟨hl.1, hl.2, stored_of_memWrite hm ?_⟩
  rw [State.acknowledge_mem, hperf]
  refine (State.storeHome_nibble_mem (s := s.dropLate t id) hd [t] _ [] [] hi none).trans ?_
  rw [(sameSpace_dropLate s t id).keptBytes, mergeNibble_eq]
  rfl

end Sys2Proof.Machine
end

section
/-! SUPPORT. An encode store that comes next becomes the units of its block against the scale and the band of its page (R128, R192). -/

namespace Sys2Proof.Machine

open Sys2Proof.Claim

/-! ## The block -/

/-- The block code of an encode store, or none where the block is written special (R128, R192). -/
theorem encodeBlock_eq (f : Fields) (data scale band : Nat) :
    encodeBlock f.ty f.rnd data scale band = if writesSpecial f data band then none else some (encoded f data scale band) := by
  simp only [encodeBlock, writesSpecial, encoded, blockElems_eq_eight, quot_eq_over, fp4_sign_zero, packElems_eq_pack] <;> rfl

theorem encodeUnits_special {f : Fields} {data band : Nat} (h : writesSpecial f data band = true) (va : W64) (pg sp bp : Page)
    (scale : Nat) : encodeUnits f va pg sp bp data scale band = blockUnits f.scope.toNat va pg 0 ++
      [.mem f.scope.toNat (frameBytes pg va).1 sp [0] false, .mem f.scope.toNat (frameBytes pg va).2 bp (leBytes 4 0x17FC0) false] := by
  have hz : leBytes 1 0 = [0] := rfl
  simp only [encodeUnits, encodeBlock_eq, h, if_true, specialUnits, frameAddrs_eq, specialBand, hz]

theorem encodeUnits_plain {f : Fields} {data band : Nat} (h : writesSpecial f data band = false) (va : W64) (pg sp bp : Page)
    (scale : Nat) : encodeUnits f va pg sp bp data scale band = blockUnits f.scope.toNat va pg (encoded f data scale band) := by
  simp only [encodeUnits, encodeBlock_eq, h, Bool.false_eq_true, if_false]

/-- The nibbles of a block are still to be written where its units are still to be performed. -/
theorem nibblesDue_of_blockUnits {s : State} {t : Nat} {q : Option Nat} {scope : Nat} {va : W64} {pg : Page} {code : Nat}
    (h : ∀ u ∈ blockUnits scope va pg code, stillDue s t q u) : nibblesDue s t q scope va pg code :=
  fun _ hk => h _ (List.mem_map.2 ⟨_, List.mem_range.2 hk, rfl⟩)

/-! ## What it reads -/

/-- Bytes read at their home slice where nothing holds others (R195, R331). -/
theorem State.gRead_home {s : State} (hu : uncached s) {scope : Nat} {pg : Page} (hg : goesHome scope pg) (core : Nat) (ctx : BitVec 16)
    (va : W64) (n : Nat) :
    s.gRead core ctx scope va pg n = (seen s pg.pa n, s.homePoisoned (dieOf core) pg.pa n, s) := by
  simp only [State.gRead, (atHome_iff ..).2 hg, if_true, State.recall_of_uncached hu, State.homeRead_of_uncached hu]

/-- An encode store at SCOPE 3 or wider goes by the scale and the band that memory holds (R192). -/
theorem State.encodeNow_home {s : State} (hu : uncached s) {f : Fields} (hf : 3 ≤ f.scope.toNat) (t : Nat) (va : W64) (pg sp bp : Page)
    (data : Nat) (hw : writesSpecial f data (ofBytes (seen s bp.pa 4)) = true → sp.w = true ∧ bp.w = true) :
    s.encodeNow t f va pg sp bp data none none =
      (.ok (encodeUnits f va pg sp bp data (ofBytes (seen s sp.pa 1)) (ofBytes (seen s bp.pa 4))), s) := by
  simp only [State.encodeNow, State.gRead_home hu (.inl hf), encodeBlock_eq]
  cases hx : writesSpecial f data (ofBytes (seen s bp.pa 4)) with
  | false => simp
  | true => simp [(hw hx).1, (hw hx).2]

/-! ## Units in the place of another -/

/-- Units take the place of an access that a thread has still to perform. -/
def State.becomes (s : State) (t id : Nat) (q : Option Nat) (us : List LateUnit) : State :=
  State.modThread { s with nextId := s.nextId + us.length } t fun th => { th with
    pend := th.pend.flatMap fun p =>
      if p.1 = id then us.zipIdx.map (fun x => (s.nextId + x.2, PendKind.late q s.cycle x.1)) else [p] }

theorem State.stepEncode_eq {s : State} {f : Fields} {pc va : W64} {pg sp bp : Page} {data : Nat} {t id : Nat} {q : Option Nat}
    {us : List LateUnit} (hs : sp.peer = none) (hb : bp.peer = none) (h : s.encodeNow t f va pg sp bp data none none = (.ok us, s)) :
    s.stepEncode t id q false (.encode f pc va pg sp bp data false none none) = s.becomes t id q us := by
  simp only [State.stepEncode, hs, hb, h]
  rfl

theorem localStands_becomes (s : State) (t id : Nat) (q : Option Nat) (us : List LateUnit) : localStands s (s.becomes t id q us) :=
  localStands.trans (s1 := { s with nextId := s.nextId + us.length }) ⟨fun u l => by cases l <;> rfl, fun _ _ => rfl⟩
    (localStands_modThread _ t (fun _ => rfl) (fun _ => rfl))

theorem dataStands_becomes (s : State) (t id : Nat) (q : Option Nat) (us : List LateUnit) :
    dataStands s ((s.becomes t id q us).acknowledge t id) :=
  ⟨((localStands_becomes s t id q us).trans (localStands_acknowledge _ t id)).1, rfl⟩

/-- An entry of what a thread has to wait for is a late unit of it. -/
theorem mem_lates_of_pend {th : Thread} {id c : Nat} {q : Option Nat} {u : LateUnit} (h : (id, PendKind.late q c u) ∈ th.pend) :
    (id, q, u) ∈ th.lates :=
  List.mem_filterMap.2 ⟨_, h, rfl⟩

/-- A late unit of a thread is an entry of what it has to wait for. -/
theorem pend_of_mem_lates {th : Thread} {x : Nat × Option Nat × LateUnit} (h : x ∈ th.lates) : ∃ k, (x.1, k) ∈ th.pend := by
  obtain ⟨p, hp, hx⟩ := List.mem_filterMap.1 h
  split at hx
  · rename_i hk
    rw [Option.some.injEq] at hx
    subst hx
    exact ⟨p.2, hp⟩
  · cases hx

/-- A thread that has something to wait for is listed. -/
theorem listed_of_pend {s : State} {t : Nat} {p : Nat × PendKind} (h : p ∈ (s.thread t).pend) : (tget s.threads t).isSome := by
  cases hg : tget s.threads t with
  | none => simp [State.thread, tgetD, hg] at h
  | some x => rfl

/-- An acknowledgement leaves every late unit. -/
theorem mem_lates_acknowledge {s : State} {t id i : Nat} {c : Nat} {q : Option Nat} {u : LateUnit}
    (h : (i, PendKind.late q c u) ∈ (s.thread t).pend) : (i, q, u) ∈ ((s.acknowledge t id).thread t).lates := by
  refine mem_lates_of_pend (c := c) ?_
  rw [State.acknowledge, State.thread_addTodo, State.thread_modThread, if_pos ⟨rfl, listed_of_pend h⟩]
  exact List.mem_filter.2 ⟨h, by simp⟩

/-- The units that take the place of an access are still to be performed. -/
theorem stillDue_becomes {s : State} {t id : Nat} {q q' : Option Nat} {u' : LateUnit} (h : (id, q', u') ∈ (s.thread t).lates)
    {us : List LateUnit} {u : LateUnit} (hu : u ∈ us) : stillDue ((s.becomes t id q us).acknowledge t id) t q u := by
  obtain ⟨k, hk⟩ := pend_of_mem_lates h
  obtain ⟨n, hn, rfl⟩ := List.mem_iff_getElem.1 hu
  refine ⟨s.nextId + n, mem_lates_acknowledge (c := s.cycle) ?_⟩
  rw [State.becomes, State.thread_modThread, if_pos ⟨rfl, listed_of_pend hk⟩]
  refine List.mem_flatMap.2 ⟨_, hk, ?_⟩
  rw [if_pos rfl]
  exact List.mem_map.2 ⟨(us[n], n), List.mem_zipIdx_iff_getElem?.2 (List.getElem?_eq_getElem hn), rfl⟩

/-! ## An encode store goes on -/

/-- An encode store whose frame bytes may be written as it needs becomes its units (R192). -/
theorem exec_encode_becomes {s : State} {t id : Nat} {q : Option Nat} {f : Fields} {pc va : W64} {p sp bp : Page} {data : Nat}
    (h : due s t id q (.encode f pc va p sp bp data false none none)) (hs : sp.peer = none) (hb : bp.peer = none) (hu : uncached s)
    (hf : 3 ≤ f.scope.toNat) (hw : writesSpecial f data (ofBytes (seen s bp.pa 4)) = true → sp.w = true ∧ bp.w = true) :
    exec (.accessPerformed t id) s = .next ((s.becomes t id q
      (encodeUnits f va p sp bp data (ofBytes (seen s sp.pa 1)) (ofBytes (seen s bp.pa 4)))).acknowledge t id) := by
  rw [exec_due_encode h ⟨_, _, _, _, _, _, _, _, _, _, rfl⟩, State.stepEncode_eq hs hb (State.encodeNow_home hu hf t va p sp bp data hw)]

/-- The units of an encode store at SCOPE 3 or wider, once it comes next (R128, R192). -/
theorem exec_due_encodeStore {s : State} {t id : Nat} {q : Option Nat} {f : Fields} {pc va : W64} {p sp bp : Page} {data : Nat}
    (h : due s t id q (.encode f pc va p sp bp data false none none)) (hs : sp.peer = none) (hb : bp.peer = none) (hu : uncached s)
    (hf : 3 ≤ f.scope.toNat) :
    let scale := ofBytes (seen s sp.pa 1)
    let band := ofBytes (seen s bp.pa 4)
    ∃ s', exec (.accessPerformed t id) s = .next s' ∧
      (writesSpecial f data band = false → dataStands s s' ∧ nibblesDue s' t q f.scope.toNat va p (encoded f data scale band)) ∧
      (writesSpecial f data band = true → sp.w = true → bp.w = true → dataStands s s' ∧ nibblesDue s' t q f.scope.toNat va p 0 ∧
        stillDue s' t q (.mem f.scope.toNat (frameBytes p va).1 sp [0] false) ∧
        stillDue s' t q (.mem f.scope.toNat (frameBytes p va).2 bp (leBytes 4 0x17FC0) false)) := by
  intro scale band
  have hmem := List.mem_of_find?_eq_some h.1
  by_cases hw : writesSpecial f data band = true → sp.w = true ∧ bp.w = true
  · refine ⟨_, exec_encode_becomes h hs hb hu hf hw, fun hx => ⟨dataStands_becomes .., nibblesDue_of_blockUnits fun u hm => ?_⟩,
      fun hx _ _ => ⟨dataStands_becomes .., nibblesDue_of_blockUnits fun u hm => ?_, ?_, ?_⟩⟩
    · rw [encodeUnits_plain hx]
      exact stillDue_becomes hmem hm
    all_goals rw [encodeUnits_special hx]
    · exact stillDue_becomes hmem (List.mem_append_left _ hm)
    · exact stillDue_becomes hmem (List.mem_append_right _ List.mem_cons_self)
    · exact stillDue_becomes hmem (List.mem_append_right _ (List.mem_cons_of_mem _ List.mem_cons_self))
  · rw [Classical.not_imp] at hw
    refine ⟨_, exec_due_encode h ⟨_, _, _, _, _, _, _, _, _, _, rfl⟩, fun hx => ?_, fun _ h1 h2 => absurd ⟨h1, h2⟩ hw.2⟩
    rw [hw.1] at hx
    exact Bool.noConfusion hx

end Sys2Proof.Machine
end

section
/-! CLAIM. Every store completes, and its units write its bytes. -/

open Sys2Proof Sys2Proof.Machine Sys2Proof.Claim

/-- Settles O22: each store completes by the outcome of its part in one thread; a relaxed one leaves what it only notes; and a unit that
comes next is performed alone, so that the state after it is the one its write makes. -/
theorem stores : Obligations.Stores := by
  unfold Obligations.Stores
  refine ⟨fun f => ⟨fun _ => stG_completes f, fun _ => stS_completes f, fun _ => stX_completes f, fun _ => bscale_completes f⟩,
    fun f s a t s' hr => ⟨fun e he _ h hp => storeParts_exec hr he h hp, fun o x off _ h hn hp hx hoff => stS_exec hr h hn hp hx hoff,
      fun _ h hp => bscale_exec h hp⟩,
    fun s t a f va pages frames data hp hc => unitsOf_storeG hp hc,
    fun s t a f core off data => congrArg some (scratchUnits_eq ..),
    fun s t id q core off bs own whole h => exec_due_scratch h,
    fun s t id q scope va pg bs whole h hp hu hm hi => exec_due_mem h hp hu hm hi,
    fun s t id q scope va pg hi v h _ hu hm hg hd => exec_due_nibble h hu hm hg hd,
    fun s t id q f pc va p sp bp data h hs hb hu hf => exec_due_encodeStore h hs hb hu hf⟩

end

section
/-! SUPPORT. A load at SCOPE 0 that an L1 line answers under its own copy of the leaf (R423), where the page tables' leaf permits no read:
the state in which the checks of its page at SCOPE 6 and those it makes itself differ. -/

namespace Sys2Proof.Machine

open Sys2Proof.Claim

/-- `ld.g.b32` of v20 at the address in v8:v9, relaxed, at SCOPE 0. -/
def narrowLoad : Fields := plain .b32 20 (vr 8) (.imm 0)

/-- The leaf of page 0 as the L1 took it, readable. -/
def readableLeaf : Page :=
  { pa := 0, r := true, w := true, x := false, fmt := 0, peer := none, frame := 0, synonym := none, size := 2 ^ 16 }

/-- Thread 0 at a load of address 0. The L1 of its core holds that line with a readable leaf; the leaf that a controller keeps for the
page is valid and permits nothing. -/
def staleLeaf : State :=
  { threads := [(0, { pc := 0 })]
    crews := [(0, { sub := 0 })]
    blocks := [(0, { ctx := 1, task := 0, index := 0, node := 0, core := 0, tba := 0, reckon := 65536,
                     launch := { regions := [{ base := 0, extent := 128, stride := 0, acc := .r }] } })]
    cores := [(0, { l1 := [{ ctx := 1, line := 0, pa := 0, leaf := readableLeaf, data := List.replicate 128 0 }] })]
    leaves := [{ ctx := 1, page := 0, level := 0, entry := 1 }]
    cur := some (.group 0 0 [0]) }

theorem staleLeaf_alone : Alone staleLeaf (.ldG narrowLoad) narrowLoad 0 0 :=
  ⟨⟨0, rfl⟩, by decide +kernel, by decide +kernel, by decide +kernel, by decide +kernel, by decide +kernel⟩

/-- At SCOPE 6 the access translates, and its page permits no read. -/
theorem staleLeaf_locate : (entered staleLeaf 0 0 narrowLoad).locate 0 0 4 1 .load (fmtOk narrowLoad) =
    .error (.trap .permission 0) := by decide +kernel

/-- The program counter of thread 0 in a next state. -/
def nextPc : Host.Outcome State Fault Refusal → Option W64
  | .next s => some (s.thread 0).pc
  | _ => none

/-- The load at SCOPE 0 passes its checks under the line's copy of the leaf and goes on. -/
theorem staleLeaf_goes_on : nextPc (exec (.ldG narrowLoad) staleLeaf) = some 12 := by decide +kernel

/-- A thread that raises PERMISSION there stays at its word. -/
theorem staleLeaf_raise_stays :
    nextPc (.next ((staleLeaf.pastGuard 0 0 narrowLoad).raise 0 0 .permission 0 0)) = some 0 := by decide +kernel

end Sys2Proof.Machine
end

section
/-! CLAIM. The checks of an address as the statement orders them do not hold of every load. -/

open Sys2Proof Sys2Proof.Machine Sys2Proof.Claim

/-- Refutes O26: the statement checks the pages of a `ld.g` at SCOPE 6 whatever its SCOPE is. At SCOPE 0 to 2 a line of the L1 answers with
its copy of the leaf (R423), so that a load whose leaf in the tables permits no read completes instead of raising PERMISSION. -/
theorem not_addressChecks : ¬ Obligations.AddressChecks := by
  unfold Obligations.AddressChecks
  rintro ⟨hload, -, -⟩
  obtain ⟨-, htrap⟩ := hload narrowLoad staleLeaf 0 0 { val := 0 } rfl staleLeaf_alone (by decide +kernel)
  have hraise := htrap .permission 0 rfl staleLeaf_locate
  have hpc := staleLeaf_goes_on
  rw [hraise, staleLeaf_raise_stays] at hpc
  exact absurd hpc (by decide)

end

section
/-! SUPPORT. A load of a block form whose first unit has read more than the four bytes of a block: the state in which the word that holds
the scale code takes a bit of the block. -/

namespace Sys2Proof.Machine

open Sys2Proof.Claim

/-- `ld.g.b32.sc` of v20 and v21. -/
def blockLoad : Fields := { plain .b32 20 (vr 8) (.imm 0) with xc := 4 }

/-- A scale byte and a band record word that a load has read, all zero. -/
def zeroFrame : List (Option Got) :=
  [some { bytes := [0], poison := false }, some { bytes := [0, 0, 0, 0], poison := false }]

/-- The load with its block still to be read. -/
def blockUnread : LateLoad := { f := blockLoad, block := true, got := none :: zeroFrame }

/-- Five bytes from offset 0 of core 0's scratchpad part, as the block of the load. -/
def fiveBytes : LateUnit := .readS 5 0 0 0 5

/-- The result outstanding for v20 and v21. -/
def blockResult : Outstanding := { id := 5, dests := [.v 20, .v 21], seq := 0, late := some blockUnread }

/-- Thread 0 with that load, whose first unit comes next; the fifth byte that it reads is 1. -/
def longBlock : State :=
  { threads := [(0, { pc := 0, out := [blockResult], pend := [(1, .late none 0 fiveBytes)] })]
    cores := [(0, { scratch := [(4, { val := 1, ctx := 0 })] })] }

/-- What the unit gets. -/
def fiveGot : Got := { bytes := [0, 0, 0, 0, 1], poison := false }

theorem longBlock_due : due longBlock 0 1 none fiveBytes := ⟨rfl, by decide, fun h => absurd rfl h⟩

theorem longBlock_reads : pieceRead longBlock fiveBytes 5 0 fiveGot := ⟨rfl, rfl, by decide +kernel⟩

/-- The values of the result 5 of thread 0 in a next state. -/
def nextValues : Host.Outcome State Fault Refusal → Option (List (Loc × Reg))
  | .next s => (resultAt s 0 5).bind (·.wb)
  | _ => none

/-- The fifth byte of the block stands in the second register, where the scale code belongs. -/
theorem longBlock_values : nextValues (exec (.accessPerformed 0 1) longBlock) = some [(.v 20, { val := 0 }), (.v 21, { val := 1 })] := by
  decide +kernel

/-- The same load with every part read. -/
def blockRead : LateLoad := { blockUnread with got := some fiveGot :: zeroFrame }

theorem blockRead_complete : ∀ j < blockRead.got.length, ∃ x, blockRead.got.getD j none = some x ∧ x.failed = false := by
  intro j hj
  have hj : j < 3 := hj
  interval_cases j <;> exact ⟨_, rfl, rfl⟩

end Sys2Proof.Machine
end

section
/-! CLAIM. The values of a load are not those that the statement gives, where a unit of a block has read more bytes than a block has. -/

open Sys2Proof Sys2Proof.Machine Sys2Proof.Claim

/-- Refutes O21: its clause on a unit that is performed lets a unit of a block form have any length. A block of five bytes, whose fifth is 1,
leaves 1 in the second register of an `.sc` load, where the statement has the scale code 0. -/
theorem not_loads : ¬ Obligations.Loads := by
  unfold Obligations.Loads
  rintro ⟨-, -, -, hunit⟩
  obtain ⟨s', o', hexec, -, -, hres, -, -, -, hvalues⟩ :=
    hunit longBlock 0 1 none fiveBytes 5 0 fiveGot blockResult blockUnread longBlock_due longBlock_reads rfl rfl (by decide)
  have hwb := hvalues blockRead_complete (fun _ => rfl) (fun h => absurd h (by decide))
  have hnext : nextValues (exec (.accessPerformed 0 1) longBlock) = o'.wb := by
    rw [hexec, nextValues, hres]
    rfl
  rw [longBlock_values, hwb] at hnext
  exact absurd hnext (by decide +kernel)

end

section
/-! SUPPORT. Bytes and numbers, the value of every atomic operation (R199), and the read-modify-write of an atomic at the home slice and
in a scratchpad (R200, R201). -/

namespace Sys2Proof.Machine

open Sys2Proof.Claim

/-! ## Bytes and numbers -/

/-- The bytes of the number that bytes stand for are those bytes (R4). -/
theorem leBytes_ofBytes (bs : List Byte) : leBytes bs.length (ofBytes bs) = bs := by
  induction bs with
  | nil => rfl
  | cons b bs ih =>
    have hb : b.toNat < 256 := b.isLt
    have hnum : ofBytes (b :: bs) = b.toNat + 256 * ofBytes bs := rfl
    have hlow : leBytes 1 (ofBytes (b :: bs)) = [b] := by
      rw [hnum]
      simp only [leBytes, List.range_one, List.map_cons, List.map_nil, Nat.mul_zero, pow_zero, Nat.div_one, List.cons.injEq, and_true]
      refine BitVec.eq_of_toNat_eq ?_
      rw [BitVec.toNat_ofNat]
      omega
    have hhigh : ofBytes (b :: bs) / 2 ^ (8 * 1) = ofBytes bs := by
      rw [hnum]
      omega
    rw [List.length_cons, Nat.add_comm, leBytes_append, hlow, hhigh, ih, List.singleton_append]

@[simp] theorem Core.sRead_length (c : Core) (off n : Nat) : (c.sRead off n).length = n := by simp [Core.sRead]

@[simp] theorem seen_length (s : State) (pa n : Nat) : (seen s pa n).length = n := by simp [seen]

/-- A byte of a range of a scratchpad part. -/
theorem Core.sRead_getD (c : Core) (off n : Nat) {k : Nat} (hk : k < n) : (c.sRead off n).getD k 0 = c.sByte (off + k) := by
  simp [Core.sRead, List.getD_eq_getElem?_getD, hk]

/-! ## The value of an atomic operation (R199) -/

theorem atomTypes_aop_le {f : Fields} (h : f.ty ∈ atomTypes f.aop) : f.aop ≤ 7 := by
  by_contra hn
  rw [atomTypes, if_neg (by omega), if_neg (by omega), if_neg hn] at h
  exact List.not_mem_nil h

/-- The bits of an integer type's value are kept by its reading as an integer. -/
theorem ofSigned_wide_int {f : Fields} {a : Nat} (ha : a < 2 ^ wide f) : ofSigned (wide f) (int f a) = a := by
  rw [ofSigned_eq, int, ofInt_intAt f ha]

theorem atomBits_eq_wide {f : Fields} (h : f.ty ∈ intTys) : atomBits f = wide f := by
  rcases mem_intTys.1 h with h | h | h | h <;> simp [atomBits, wide, h]

theorem wide_eq_regs {f : Fields} (h : f.ty ∈ intTys) : 32 * f.ty.regs = wide f := (wide_eq_width h).symm

section Integers

variable {f : Fields} {a b : Nat} (h : f.ty ∈ intTys) (ha : a < 2 ^ atomBits f) (hb : b < 2 ^ atomBits f)
include h ha hb

theorem ofSigned_intOf_min : ofSigned (32 * f.ty.regs) (min (intOf f.ty a) (intOf f.ty b)) = if int f a ≤ int f b then a else b := by
  rw [atomBits_eq_wide h] at ha hb
  rw [intOf_eq_int h, intOf_eq_int h, wide_eq_regs h, min_def, apply_ite (ofSigned (wide f)), ofSigned_wide_int ha,
    ofSigned_wide_int hb]

theorem ofSigned_intOf_max : ofSigned (32 * f.ty.regs) (max (intOf f.ty a) (intOf f.ty b)) = if int f a ≤ int f b then b else a := by
  rw [atomBits_eq_wide h] at ha hb
  rw [intOf_eq_int h, intOf_eq_int h, wide_eq_regs h, max_def, apply_ite (ofSigned (wide f)), ofSigned_wide_int ha,
    ofSigned_wide_int hb]

end Integers

/-- Sums: of integers to the width of their type, of floating-point values rounded once. -/
theorem atomValue_add {f : Fields} (hop : f.aop = 0) (h : f.ty ∈ atomTypes f.aop) (old b : Nat) :
    atomValue f.aop f.ty f.rnd old b = atomNew f old b := by
  have hty : f.ty ∈ [Ty.b32, .s32, .u64, .s64, .f32, .f64, .bf16x2] := by rwa [atomTypes, if_pos hop] at h
  simp only [List.mem_cons, List.not_mem_nil, or_false] at hty
  rcases hty with hty | hty | hty | hty | hty | hty | hty <;> simp only [atomValue, atomNew, hop, hty, wide] <;> rfl

/-- The lesser of two values. -/
theorem atomValue_min {f : Fields} {old b : Nat} (hop : f.aop = 1) (h : f.ty ∈ atomTypes f.aop) (ho : old < 2 ^ atomBits f)
    (hb : b < 2 ^ atomBits f) : atomValue f.aop f.ty f.rnd old b = atomNew f old b := by
  have hty : f.ty ∈ [Ty.b32, .s32, .u64, .s64, .f32, .f64] := by rwa [atomTypes, hop, if_neg (by omega), if_pos (by omega)] at h
  by_cases hi : f.ty ∈ intTys
  · have hmin := ofSigned_intOf_min hi ho hb
    rcases mem_intTys.1 hi with hty | hty | hty | hty <;> simp only [hty] at hmin <;>
      simpa only [atomValue, atomNew, hop, hty, if_true] using hmin
  · have hf : f.ty = .f32 ∨ f.ty = .f64 := by
      simp only [List.mem_cons, List.not_mem_nil, or_false] at hty
      rw [mem_intTys] at hi
      tauto
    rcases hf with hty | hty <;> simp only [atomValue, atomNew, hop, hty] <;> exact minMax_eq_lesser _ old b

/-- The greater of two values. -/
theorem atomValue_max {f : Fields} {old b : Nat} (hop : f.aop = 2) (h : f.ty ∈ atomTypes f.aop) (ho : old < 2 ^ atomBits f)
    (hb : b < 2 ^ atomBits f) : atomValue f.aop f.ty f.rnd old b = atomNew f old b := by
  have hty : f.ty ∈ [Ty.b32, .s32, .u64, .s64, .f32, .f64] := by rwa [atomTypes, hop, if_neg (by omega), if_pos (by omega)] at h
  by_cases hi : f.ty ∈ intTys
  · have hmax := ofSigned_intOf_max hi ho hb
    rcases mem_intTys.1 hi with hty | hty | hty | hty <;> simp only [hty] at hmax <;>
      simpa only [atomValue, atomNew, hop, hty, Nat.reduceEqDiff, if_false] using hmax
  · have hf : f.ty = .f32 ∨ f.ty = .f64 := by
      simp only [List.mem_cons, List.not_mem_nil, or_false] at hty
      rw [mem_intTys] at hi
      tauto
    rcases hf with hty | hty <;> simp only [atomValue, atomNew, hop, hty] <;> exact minMax_eq_greater _ old b

/-- Logic, exchange and compare-and-swap of the unsigned types. -/
theorem atomValue_bits {f : Fields} {old b : Nat} (hop : 3 ≤ f.aop) (h : f.ty ∈ atomTypes f.aop) (ho : old < 2 ^ atomBits f)
    (hb : b < 2 ^ (if f.aop = 7 then 2 * atomBits f else atomBits f)) : atomValue f.aop f.ty f.rnd old b = atomNew f old b := by
  have hle := atomTypes_aop_le h
  have hty : f.ty ∈ [Ty.b32, .u64] := by rwa [atomTypes, if_neg (by omega), if_neg (by omega), if_pos hle] at h
  have hi : f.ty ∈ intTys := (by decide : [Ty.b32, .u64] ⊆ intTys) hty
  have hw := wide_eq_regs hi
  rw [atomBits_eq_wide hi] at ho hb
  have hcases : f.aop = 3 ∨ f.aop = 4 ∨ f.aop = 5 ∨ f.aop = 6 ∨ f.aop = 7 := by omega
  rcases hcases with hop | hop | hop | hop | hop <;> simp only [hop, Nat.reduceEqDiff, if_false] at hb <;>
    simp only [atomValue, atomNew, hop, hw]
  · exact and_eq_bitVec ho hb
  · exact or_eq_bitVec ho hb
  · exact xor_eq_bitVec ho hb

/-- The new value of every operation of R199. -/
theorem atomValue_eq_atomNew {f : Fields} {old b : Nat} (h : f.ty ∈ atomTypes f.aop) (ho : old < 2 ^ atomBits f)
    (hb : b < 2 ^ (if f.aop = 7 then 2 * atomBits f else atomBits f)) : atomValue f.aop f.ty f.rnd old b = atomNew f old b := by
  by_cases h3 : 3 ≤ f.aop
  · exact atomValue_bits h3 h ho hb
  · have hb' : b < 2 ^ atomBits f := by rwa [if_neg (by omega)] at hb
    have hcases : f.aop = 0 ∨ f.aop = 1 ∨ f.aop = 2 := by omega
    rcases hcases with hop | hop | hop
    · exact atomValue_add hop h old b
    · exact atomValue_min hop h ho hb'
    · exact atomValue_max hop h ho hb'

/-- An element of a type of R199 takes its bits in memory. -/
theorem atomBits_eq_bytes {f : Fields} (h : f.ty ∈ atomTypes f.aop) : atomBits f = 8 * f.ty.bytes := by
  have hsub : ∀ n ≤ 7, ∀ ty ∈ atomTypes n, ty ∈ [Ty.b32, .s32, .u64, .s64, .f32, .f64, .bf16x2] := by decide
  have hty := hsub _ (atomTypes_aop_le h) _ h
  simp only [List.mem_cons, List.not_mem_nil, or_false] at hty
  rcases hty with hty | hty | hty | hty | hty | hty | hty <;> simp [atomBits, Ty.bytes, hty]

/-- The number that the bytes of an element stand for has the bits of its type. -/
theorem ofBytes_lt_atomBits {f : Fields} (h : f.ty ∈ atomTypes f.aop) {bs : List Byte} (hl : bs.length = f.ty.bytes) :
    ofBytes bs < 2 ^ atomBits f := by
  rw [atomBits_eq_bytes h, ← hl]
  exact ofBytes_lt bs

/-! ## At the home slice -/

theorem settled_of_uncached {s : State} (h : uncached s) : settled s :=
  ⟨h.1, fun c hc l hl => by rw [h.2 c hc] at hl; exact absurd hl List.not_mem_nil⟩

/-- Without partials nothing is recalled (R202). -/
theorem State.recall_of_settled {s : State} (h : settled s) (pa : Nat) : s.recall pa = s := by
  have hlines : ∀ (l : List L1Line) (c : Nat) (s : State), (∀ x ∈ l, x.red = none) →
      l.foldl (fun s x => if x.red.isSome && x.pa / 128 == pa / 128 then s.combine c x else s) s = s := by
    intro l c s hl
    refine List.foldlRecOn l _ (motive := fun s' => s' = s) rfl fun s' hs x hx => ?_
    rw [hs, hl x hx]
    rfl
  refine List.foldlRecOn s.cores _ (motive := fun s' => s' = s) rfl fun s' hs c hc => ?_
  rw [hs]
  exact hlines c.2.l1 c.1 s (h.2 c hc)

/-- Without writes in an outbound path none is performed (R331). -/
theorem State.flush_of_empty {s : State} (h : s.outbound = []) (die pa n : Nat) : s.flush die pa n = s := by
  have hout : s.out die = [] := by
    rw [State.out, h]
    rfl
  rw [State.flush, hout]
  rfl

/-- A write of this device at the home slice, and in the copies that the core's L1 holds (R303). -/
def State.writeBoth (s : State) (core pa : Nat) (bs : List Byte) : State := (s.writeHome pa bs).updateOwn core pa bs

@[simp] theorem State.writeBoth_mem (s : State) (core pa : Nat) (bs : List Byte) :
    (s.writeBoth core pa bs).mem = memWrite s.mem pa (s.keptBytes pa bs) := State.writeHome_mem ..

/-- The read-modify-write at the home slice (R200, R201), where no partial stands and no write is under way. -/
theorem State.gAtom_eq {s : State} (h : settled s) (core : Nat) (f : Fields) (pa b : Nat) :
    s.gAtom core f pa b =
      let old := ofBytes (seen s pa f.ty.bytes)
      let new := atomValue f.aop f.ty f.rnd old b
      (old, s.poisoned pa f.ty.bytes,
        if s.poisoned pa f.ty.bytes = true ∨ f.aop = 7 ∧ new = old then s else s.writeBoth core pa (leBytes f.ty.bytes new)) := by
  have hold : s.homeWord pa f.ty.bytes = ofBytes (seen s pa f.ty.bytes) := rfl
  simp only [State.gAtom, State.recall_of_settled h, State.flush_of_empty h.1, hold]
  generalize ofBytes (seen s pa f.ty.bytes) = old
  generalize atomValue f.aop f.ty f.rnd old b = new
  cases hp : s.poisoned pa f.ty.bytes
  · by_cases hc : f.aop = 7 ∧ new = old
    · simp [hc]
    · have hb : (decide (f.aop = 7) && decide (new = old)) = false := by simpa using hc
      simp [hb, hc, State.writeBoth]
  · simp

/-- What an atomic at the home slice returns and stores (R199, R200, R201). -/
theorem State.gAtom_stores {s : State} {f : Fields} {pa b : Nat} (h : f.ty ∈ atomTypes f.aop)
    (hb : b < 2 ^ (if f.aop = 7 then 2 * atomBits f else atomBits f)) (hm : s.memOk) (hs : settled s) (core : Nat) :
    let old := ofBytes (seen s pa f.ty.bytes)
    let r := s.gAtom core f pa b
    (s.poisoned pa f.ty.bytes = false → r.1 = old ∧ r.2.1 = false ∧ (f.aop = 7 → atomNew f old b = old → r.2.2 = s) ∧
      (¬(f.aop = 7 ∧ atomNew f old b = old) → stored s r.2.2 pa (leBytes f.ty.bytes (atomNew f old b)))) ∧
    (s.poisoned pa f.ty.bytes = true → r.2.1 = true ∧ r.2.2 = s) := by
  have hnew := atomValue_eq_atomNew h (ofBytes_lt_atomBits h (seen_length s pa f.ty.bytes)) hb
  simp only [State.gAtom_eq hs, hnew]
  refine ⟨fun hp => ⟨trivial, hp, fun h7 he => if_pos (.inr ⟨h7, he⟩), fun hn => ?_⟩, fun hp => ⟨hp, if_pos (.inl hp)⟩⟩
  rw [if_neg (by simp [hp, hn])]
  exact stored_of_memWrite hm (State.writeBoth_mem ..)

/-! ## In a scratchpad -/

/-- The read-modify-write in a scratchpad (R197, R200, R201). -/
theorem State.sAtom_eq (s : State) (t : Nat) (f : Fields) (core off b : Nat) (own : Bool) (g : Tags) :
    s.sAtom t f core off b own g =
      let n := f.ty.bytes
      let old := ofBytes ((s.core core).sRead off n)
      let new := atomValue f.aop f.ty f.rnd old b
      (old, (s.core core).sectorPoison off n,
        if (s.core core).sectorPoison off n = true ∨ f.aop = 7 ∧ new = old then s
        else (s.modCore core fun c =>
          let c := c.sWrite (s.block (blockOf t)).ctx off (leBytes n new)
          if own then c.tagStore off n g else c.tagClear off n).wakeS core off n) := by
  simp only [State.sAtom]
  generalize ofBytes ((s.core core).sRead off f.ty.bytes) = old
  generalize atomValue f.aop f.ty f.rnd old b = new
  cases hp : (s.core core).sectorPoison off f.ty.bytes
  · by_cases hc : f.aop = 7 ∧ new = old
    · simp [hc]
    · have hb : (decide (f.aop = 7) && decide (new = old)) = false := by simpa using hc
      simp [hb, hc, State.modCore]
  · simp

/-- What a read-modify-write in a scratchpad leaves: registers, memory and every scratchpad byte but those of its element, which hold the
new value (R200, R201). -/
theorem State.sAtom_stands (s : State) (t : Nat) (f : Fields) (core off b : Nat) (own : Bool) (g : Tags) :
    let n := f.ty.bytes
    let s' := (s.sAtom t f core off b own g).2.2
    let new := atomValue f.aop f.ty f.rnd (ofBytes ((s.core core).sRead off n)) b
    dataStands s s' ∧ ((s.core core).sectorPoison off n = true → s' = s) ∧ ((s.core core).sectorPoison off n = false → ∀ c j, (s'.core c).sByte j =
      if c = core ∧ off ≤ j ∧ j < off + n then (leBytes n new).getD (j - off) 0 else (s.core c).sByte j) := by
  rw [State.sAtom_eq]
  dsimp only
  split
  · rename_i hc
    refine ⟨⟨fun _ _ => rfl, rfl⟩, fun _ => rfl, fun hp c j => ?_⟩
    obtain ⟨-, hold⟩ := hc.resolve_left (by simp [hp])
    have hbytes := leBytes_ofBytes ((s.core core).sRead off f.ty.bytes)
    rw [Core.sRead_length] at hbytes
    rw [hold, hbytes]
    split
    · rename_i hj
      rw [Core.sRead_getD _ _ _ (by omega), Nat.add_sub_cancel' hj.2.1, hj.1]
    · rfl
  · rename_i hc
    obtain ⟨hd, hs⟩ := dataStands_padWrite (s := s) (core := core) (off := off)
      (bs := leBytes f.ty.bytes (atomValue f.aop f.ty f.rnd (ofBytes ((s.core core).sRead off f.ty.bytes)) b))
      (f := fun c =>
        let c := c.sWrite (s.block (blockOf t)).ctx off
          (leBytes f.ty.bytes (atomValue f.aop f.ty f.rnd (ofBytes ((s.core core).sRead off f.ty.bytes)) b))
        if own then c.tagStore off f.ty.bytes g else c.tagClear off f.ty.bytes) f.ty.bytes (.refl s) rfl fun c j => by
          rw [← Core.sByte_sWrite c (s.block (blockOf t)).ctx off]
          refine Core.sByte_of_scratch ?_ j
          cases own
          · exact Core.tagClear_scratch ..
          · exact Core.tagStore_scratch ..
    rw [leBytes_length] at hs
    exact ⟨hd, fun hp => absurd (.inl hp) hc, fun _ => hs⟩

/-- No other core is touched. -/
theorem State.sAtom_other_core (s : State) (t : Nat) (f : Fields) {core c : Nat} (hc : c ≠ core) (off b : Nat) (own : Bool) (g : Tags) :
    (s.sAtom t f core off b own g).2.2.core c = s.core c := by
  rw [State.sAtom_eq]
  dsimp only
  split
  · rfl
  · have hw : ∀ s : State, (s.wakeS core off f.ty.bytes).core c = s.core c := fun s => by
      rcases s.wakeS_eq core off f.ty.bytes with h | ⟨l, h⟩ <;> rw [h]
      rfl
    rw [hw, State.core_modCore, if_neg hc]

end Sys2Proof.Machine
end

section
/-! CLAIM. The value of every atomic operation, and its read-modify-write. -/

open Sys2Proof Sys2Proof.Machine Sys2Proof.Claim

/-- Settles O24: the value by operation and type; at the home slice nothing is recalled and nothing is under way, so that the value is
written once; in a scratchpad the new bytes stand, which are the old ones where a compare-and-swap writes nothing. -/
theorem atomicOperations : Obligations.AtomicOperations := by
  unfold Obligations.AtomicOperations
  refine ⟨fun f old b h ho hb => atomValue_eq_atomNew h ho hb, fun s core f pa b h hb hm hs => State.gAtom_stores h hb hm hs core,
    fun s t core f off b own g h hb => ?_⟩
  have hnew := atomValue_eq_atomNew h (ofBytes_lt_atomBits h (Core.sRead_length (s.core core) off f.ty.bytes)) hb
  obtain ⟨⟨-, hmem⟩, hpoison, hbytes⟩ := State.sAtom_stands s t f core off b own g
  rw [hnew] at hbytes
  have hpair : (s.sAtom t f core off b own g).1 = ofBytes ((s.core core).sRead off f.ty.bytes) ∧
      (s.sAtom t f core off b own g).2.1 = (s.core core).sectorPoison off f.ty.bytes := by
    rw [State.sAtom_eq]
    exact ⟨rfl, rfl⟩
  refine ⟨fun hp => ⟨hpair.1, hpair.2.trans hp, hmem, fun c hc => State.sAtom_other_core s t f hc off b own g, fun a => ?_⟩,
    fun hp => ⟨hpair.2.trans hp, hpoison hp⟩⟩
  rw [hbytes hp core a]
  simp only [true_and]

end

section
/-! SUPPORT. What is written is read back: the tag sets of scratchpad sectors (R196), the home slices and the outbound path of a die
(R330, R331), and a line of the L1 (R195, R303). -/

namespace Sys2Proof.Machine

open Sys2Proof.Claim

/-! ## Tag sets of sectors -/

theorem tget_tdel {α : Type} (m : Tab α) (k n : Nat) : tget (tdel m k) n = if n = k then none else tget m n := by
  induction m with
  | nil => simp [tdel]
  | cons e r ih =>
    obtain ⟨j, x⟩ := e
    have hcons : tdel ((j, x) :: r) k = if j = k then tdel r k else (j, x) :: tdel r k := by
      by_cases hj : j = k <;> simp [tdel, hj]
    rw [hcons]
    split
    · rw [ih, tget_cons]
      by_cases hn : n = k
      · rw [if_pos hn, if_pos hn]
      · rw [if_neg hn, if_neg hn, if_neg (by omega)]
    · rw [tget_cons, tget_cons, ih]
      by_cases hn : n = k
      · rw [if_pos hn, if_neg (by omega), if_pos hn]
      · rw [if_neg hn, if_neg hn]

theorem Core.sectorTag_setTag (c : Core) (k j : Nat) (g : Tags) :
    tgetD (c.setTag k g).stags j 0 = if j = k then g else tgetD c.stags j 0 := by
  by_cases hg : g = 0
  · rw [Core.setTag, if_pos hg, hg, tgetD, tget_tdel]
    split <;> rfl
  · rw [Core.setTag, if_neg hg, tgetD_tset]

/-- Tag sets set one after another, each from the one its sector had. -/
theorem sectorTag_foldl (F : Nat → Tags → Tags) {ks : List Nat} (hn : ks.Nodup) (c : Core) (j : Nat) :
    tgetD (ks.foldl (fun c k => c.setTag k (F k (tgetD c.stags k 0))) c).stags j 0 =
      if j ∈ ks then F j (tgetD c.stags j 0) else tgetD c.stags j 0 := by
  induction ks generalizing c with
  | nil => rfl
  | cons k ks ih =>
    obtain ⟨hk, hn⟩ := List.nodup_cons.1 hn
    rw [List.foldl_cons, ih hn, Core.sectorTag_setTag]
    by_cases hj : j = k
    · rw [if_neg (hj ▸ hk), if_pos hj, if_pos (hj ▸ List.mem_cons_self), hj]
    · simp only [hj, if_false, List.mem_cons, false_or]

/-- The sectors of a range are those that have a byte of it. -/
theorem mem_sectorsOf {off n k : Nat} : k ∈ sectorsOf off n ↔ 32 * k < off + n ∧ off < 32 * k + 32 := by
  simp only [sectorsOf, List.mem_map, List.mem_range]
  constructor
  · rintro ⟨i, hi, rfl⟩
    omega
  · intro h
    exact ⟨k - off / 32, by omega, by omega⟩

theorem sectorsOf_nodup (off n : Nat) : (sectorsOf off n).Nodup :=
  List.nodup_range.map fun _ _ h => Nat.add_left_cancel h

/-- The tag sets after a store (R196). -/
theorem Core.sectorTag_tagStore (c : Core) (off n : Nat) (g : Tags) (k : Nat) :
    tgetD (c.tagStore off n g).stags k 0 = sectorAfter off n g (tgetD c.stags k 0) k := by
  have hfold := sectorTag_foldl (fun k old => if off ≤ 32 * k ∧ 32 * k + 32 ≤ off + n then g else old ||| g) (sectorsOf_nodup off n) c k
  refine hfold.trans ?_
  rw [sectorAfter]
  by_cases hw : off ≤ 32 * k ∧ 32 * k + 32 ≤ off + n
  · rw [if_pos hw, if_pos (mem_sectorsOf.2 ⟨by omega, by omega⟩), if_pos hw]
  · rw [if_neg hw, if_neg hw]
    exact if_congr mem_sectorsOf rfl rfl

/-! ## A store to a scratchpad -/

theorem State.wakeS_core (s : State) (core off n c : Nat) : (s.wakeS core off n).core c = s.core c := by
  rcases s.wakeS_eq core off n with h | ⟨l, h⟩ <;> rw [h]
  rfl

theorem State.wakeS_thread (s : State) (core off n u : Nat) : (s.wakeS core off n).thread u = s.thread u := by
  rcases s.wakeS_eq core off n with h | ⟨l, h⟩ <;> rw [h]
  rfl

theorem State.logSectors_cores (s : State) (t off n : Nat) : (s.logSectors t off n).cores = s.cores := by
  unfold State.logSectors
  exact foldl_keeps (fun s : State => s.cores) _ (fun s _ => State.logWrite_cores s t _) _ s

theorem State.logSectors_threads (s : State) (t off n : Nat) : (s.logSectors t off n).threads = s.threads := by
  unfold State.logSectors
  exact foldl_keeps (fun s : State => s.threads) _ (fun s _ => State.logWrite_threads s t _) _ s

/-- The core of a block after a store of one of its threads, and every other core (R196). -/
theorem State.storeS_core {s : State} (h : nothingLate s) (t off : Nat) (bs : List Byte) (g : Tags) (c : Nat) :
    (s.storeS t off bs g).core c = if c = (s.block (blockOf t)).core then
      ((s.core c).sWrite (s.block (blockOf t)).ctx off bs).tagStore off bs.length (g ||| (s.thread t).tagUnion) else s.core c := by
  have hlog : ∀ k, (s.logSectors t off bs.length).core k = s.core k := fun k => by
    rw [State.core, State.logSectors_cores, State.core]
  rw [State.storeS_eq h, State.wakeS_core, State.core_modCore, hlog]

theorem State.storeS_thread {s : State} (h : nothingLate s) (t off : Nat) (bs : List Byte) (g : Tags) (u : Nat) :
    (s.storeS t off bs g).thread u = s.thread u := by
  rw [State.storeS_eq h, State.wakeS_thread, State.thread_modCore, State.thread, State.logSectors_threads, State.thread]

/-- A scratchpad store is read back, with the tag sets of its sectors (R196). -/
theorem State.storeS_reads_back {s : State} (h : nothingLate s) (t off : Nat) (bs : List Byte) (g : Tags) :
    let core := (s.block (blockOf t)).core
    let s' := s.storeS t off bs g
    (∀ a, (s'.core core).sByte a = if off ≤ a ∧ a < off + bs.length then bs.getD (a - off) 0 else (s.core core).sByte a) ∧
    (∀ k, tgetD (s'.core core).stags k 0 = sectorAfter off bs.length (g ||| (s.thread t).tagUnion) (tgetD (s.core core).stags k 0) k) ∧
    (∀ c, c ≠ core → s'.core c = s.core c) ∧ s'.mem = s.mem ∧ ∀ u, s'.thread u = { s.thread u with out := (s'.thread u).out } := by
  refine ⟨fun a => ?_, fun k => ?_, fun c hc => ?_, (State.storeS_stands h t off bs g).1.2, fun u => ?_⟩
  · rw [State.storeS_core h, if_pos rfl, Core.sByte_of_scratch (Core.tagStore_scratch ..), Core.sByte_sWrite]
  · rw [State.storeS_core h, if_pos rfl, Core.sectorTag_tagStore]
    rfl
  · rw [State.storeS_core h, if_neg hc]
  · rw [State.storeS_thread h]

/-! ## A write of a die -/

theorem State.writeHome_threads (s : State) (pa : Nat) (bs : List Byte) (cl mk : List Nat) :
    (s.writeHome pa bs cl mk).threads = s.threads := by
  unfold State.writeHome
  dsimp only
  split <;> rfl

theorem State.writeHome_outbound (s : State) (pa : Nat) (bs : List Byte) (cl mk : List Nat) :
    (s.writeHome pa bs cl mk).outbound = s.outbound := by
  unfold State.writeHome
  dsimp only
  split <;> rfl

theorem State.writeHome_marked (s : State) (pa : Nat) (bs : List Byte) (cl mk : List Nat) :
    (s.writeHome pa bs cl mk).marked = remark s.marked pa bs.length cl mk := by
  unfold State.writeHome
  dsimp only
  split <;> rfl

/-- The sectors that a write names are marked (R296, R408). -/
theorem mem_remark {marked marks : List Nat} {k : Nat} (pa n : Nat) (cleans : List Nat) (h : k ∈ marks) :
    k ∈ remark marked pa n cleans marks := by
  rw [remark, addMarks]
  generalize (unmark marked pa n).filter (fun k => !cleans.contains k) = old
  rw [List.mem_append, List.mem_filter]
  by_cases hk : k ∈ old
  · exact .inl hk
  · exact .inr ⟨h, by simpa using hk⟩

/-- What is added to the accesses of threads one after another: those of each listed thread named have it, and none is lost. -/
theorem mem_pend_foldl (p : Nat × PendKind) (ts : List Nat) (s : State) (t : Nat) (hl : (tget s.threads t).isSome)
    (h : t ∈ ts ∨ p ∈ (s.thread t).pend) :
    p ∈ ((ts.foldl (fun s' t => s'.modThread t fun th => { th with pend := th.pend ++ [p] }) s).thread t).pend := by
  induction ts generalizing s with
  | nil => exact h.resolve_left List.not_mem_nil
  | cons u ts ih =>
    rw [List.foldl_cons]
    refine ih _ (by rwa [State.modThread_threads, tget_tmod_isSome]) ?_
    rw [List.mem_cons] at h
    rw [State.thread_modThread]
    by_cases hu : t = u
    · rw [if_pos ⟨hu, hu ▸ hl⟩]
      exact .inr (List.mem_append_right _ List.mem_cons_self)
    · rw [if_neg (fun hc => hu hc.1)]
      exact h.imp_left fun h => h.resolve_left hu

/-- The threads that a write of a die names have it to wait for (R204, R332). -/
theorem mem_pend_noted (s : State) (die pa : Nat) {ts : List Nat} {t : Nat} (ht : t ∈ ts) (hl : (tget s.threads t).isSome) :
    (s.nextId, if homeDie pa = die then PendKind.home else .outbound die s.nextId) ∈ ((s.noted die ts pa).thread t).pend := by
  unfold State.noted
  exact mem_pend_foldl _ ts { s with nextId := s.nextId + 1 } t hl (.inl ht)

/-- A write of a die to a line of its own is in memory at once (R330). -/
theorem State.storeHome_own {s : State} {die pa : Nat} (hm : s.memOk) (hd : homeDie pa = die) (ts : List Nat) (bs : List Byte)
    (cleans marks : List Nat) :
    let s' := s.storeHome die ts pa bs cleans marks
    stored s s' pa bs ∧ s'.outbound = s.outbound ∧ (∀ k ∈ marks, k ∈ s'.marked) ∧
    ∀ t ∈ ts, (tget s.threads t).isSome → ∃ p ∈ (s'.thread t).pend, p = (s.nextId, .home) := by
  have hland : s.storeHome die ts pa bs cleans marks = (s.noted die ts pa).writeHome pa bs cleans marks := by
    rw [State.storeHome_eq, if_pos hd]
    rfl
  refine ⟨stored_of_memWrite hm (State.storeHome_own_mem hd ts bs cleans marks none), ?_, fun k hk => ?_, fun t ht hl => ?_⟩
  · rw [hland, State.writeHome_outbound, State.noted_eq]
  · rw [hland, State.writeHome_marked]
    exact mem_remark _ _ _ hk
  · have hp := mem_pend_noted s die pa ht hl
    rw [if_pos hd] at hp
    refine ⟨_, ?_, rfl⟩
    rw [hland, State.thread, State.writeHome_threads]
    exact hp

/-- A write of a die to a line of another is read by the agents of that die alone, and stands in its outbound path (R331, R332). -/
theorem State.storeHome_other {s : State} {die pa : Nat} (hd : homeDie pa ≠ die) (ts : List Nat) (bs : List Byte) (cleans marks : List Nat) :
    let s' := s.storeHome die ts pa bs cleans marks
    s'.mem = s.mem ∧ (∀ t ∈ ts, (tget s.threads t).isSome → ∃ p ∈ (s'.thread t).pend, p.2 = .outbound die s.nextId) ∧
    (∀ a, s'.homeByte die a = if pa ≤ a ∧ a < pa + bs.length then s.kept a (bs.getD (a - pa) 0) else s.homeByte die a) ∧
    ∀ d a, d ≠ die → s'.homeByte d a = s.homeByte d a := by
  have heq : s.storeHome die ts pa bs cleans marks = { s.noted die ts pa with
      outbound := tset s.outbound die (s.out die ++ [s.outWrite pa bs cleans marks none none]) } := by
    rw [State.storeHome_eq, if_neg hd]
  have hspace : sameSpace s (s.storeHome die ts pa bs cleans marks) := by
    rw [heq, State.noted_eq]
    exact ⟨rfl, rfl, rfl, rfl⟩
  have hout : ∀ d, (s.storeHome die ts pa bs cleans marks).out d =
      if d = die then s.out die ++ [s.outWrite pa bs cleans marks none none] else s.out d := by
    intro d
    rw [heq, State.out, tgetD_tset]
    rfl
  refine ⟨hspace.mem, fun t ht hl => ?_, fun a => ?_, fun d a hne => ?_⟩
  · have hp := mem_pend_noted s die pa ht hl
    rw [if_neg hd] at hp
    rw [heq]
    exact ⟨_, hp, rfl⟩
  · rw [State.homeByte, hspace.kept, hspace.mem, hout, if_pos rfl, List.foldl_append, List.foldl_cons, List.foldl_nil, OutWrite.over]
    exact apply_ite (s.kept a) ..
  · rw [State.homeByte, hspace.kept, hspace.mem, hout, if_neg hne, State.homeByte]

/-! ## A line of the L1 -/

theorem State.makeRoom_of_room {s : State} {core : Nat} (h : (s.core core).l1.length < (s.core core).l1Lines) : s.makeRoom core = s := by
  have hshrink : ∀ fuel, s.shrinkL1 core ((s.core core).l1Lines - 1) fuel = s := by
    intro fuel
    cases fuel with
    | zero => rfl
    | succ n => exact if_pos (by omega)
  exact hshrink _

/-- A miss in an L1 with room fills the line (R303). -/
theorem State.fill_of_miss {s : State} {core : Nat} {ctx : BitVec 16} {va : W64} (hm : (s.core core).line ctx va = none)
    (hr : (s.core core).l1.length < (s.core core).l1Lines) (pg : Page) :
    s.fill core ctx va pg = (s.freshLine core ctx va pg, s.putLine core (s.freshLine core ctx va pg)) := by
  simp only [State.fill, hm, State.makeRoom_of_room hr]
  rfl

/-- A hit takes the leaf's copy and fills nothing (R303, R423). -/
theorem State.fill_of_hit {s : State} {core : Nat} {ctx : BitVec 16} {va : W64} {l : L1Line} (hl : (s.core core).line ctx va = some l)
    (hr : l.red = none) {pg : Page} (hp : l.pa = pg.pa - va.toNat % 128) : s.fill core ctx va pg = ({ l with leaf := pg }, s) := by
  simp [State.fill, hl, hr, hp]

theorem Core.line_some {c : Core} {ctx : BitVec 16} {va : W64} {l : L1Line} (h : c.line ctx va = some l) :
    l ∈ c.l1 ∧ l.ctx = ctx ∧ l.line = va.toNat / 128 := by
  have hkey := List.find?_some h
  simp only [Bool.and_eq_true, beq_iff_eq] at hkey
  exact ⟨List.mem_of_find?_eq_some h, hkey⟩

/-- An ordinary line for an address of a context, whole, under a page. -/
structure holdsAddress (l : L1Line) (ctx : BitVec 16) (va : W64) (pg : Page) : Prop where
  ctx : l.ctx = ctx
  line : l.line = va.toNat / 128
  pa : l.pa = pg.pa - va.toNat % 128
  red : l.red = none
  whole : l.data.length = 128

theorem holdsAddress_freshLine (s : State) (core : Nat) (ctx : BitVec 16) (va : W64) (pg : Page) :
    holdsAddress (s.freshLine core ctx va pg) ctx va pg :=
  ⟨rfl, rfl, rfl, rfl, by simp [State.freshLine, State.homeRead]⟩

/-- Where the L1 has room, or holds the line under the page, an access finds it; no other core and no byte of memory changes. -/
theorem State.fill_holds {s : State} {core : Nat} {ctx : BitVec 16} {va : W64} {pg : Page}
    (hw : ∀ l ∈ (s.core core).l1, l.data.length = 128 ∧ l.red = none) (hr : (s.core core).l1.length < (s.core core).l1Lines)
    (hp : ∀ l, (s.core core).line ctx va = some l → l.pa + va.toNat % 128 = pg.pa) :
    holdsAddress (s.fill core ctx va pg).1 ctx va pg ∧ sameSpace s (s.fill core ctx va pg).2 ∧
      ∀ c, c ≠ core → (s.fill core ctx va pg).2.core c = s.core c := by
  cases hl : (s.core core).line ctx va with
  | none =>
    rw [State.fill_of_miss hl hr]
    refine ⟨holdsAddress_freshLine s core ctx va pg, ⟨rfl, rfl, rfl, rfl⟩, fun c hc => ?_⟩
    rw [State.putLine, State.core_modCore, if_neg hc]
  | some l =>
    obtain ⟨hmem, hctx, hline⟩ := Core.line_some hl
    obtain ⟨hlen, hred⟩ := hw l hmem
    have hpa : l.pa = pg.pa - va.toNat % 128 := by have := hp l hl; omega
    rw [State.fill_of_hit hl hred hpa]
    exact ⟨⟨hctx, hline, hpa, hred, hlen⟩, ⟨rfl, rfl, rfl, rfl⟩, fun _ _ => rfl⟩

theorem atHome_of_narrow {scope : Nat} {pg : Page} (hs : scope < 3) (hn : pg.synonym = none) : atHome scope pg = false := by
  simp [atHome, hn, hs]

/-- A write of SCOPE 0 to 2 stands in the L1 of its core, where it is read back (R195). -/
theorem State.gWrite_reads_back {s : State} {core scope : Nat} {ctx : BitVec 16} {va : W64} {pg : Page} {bs : List Byte} (t : Nat)
    (hs : scope < 3) (hn : pg.synonym = none) (hb : va.toNat % 128 + bs.length ≤ 128)
    (hw : ∀ l ∈ (s.core core).l1, l.data.length = 128 ∧ l.red = none) (hr : (s.core core).l1.length < (s.core core).l1Lines)
    (hp : ∀ l, (s.core core).line ctx va = some l → l.pa + va.toNat % 128 = pg.pa) :
    let s' := s.gWrite t core ctx scope va pg bs
    s'.mem = s.mem ∧ (∀ c, c ≠ core → s'.core c = s.core c) ∧ (s'.gRead core ctx scope va pg bs.length).1 = s.keptBytes pg.pa bs := by
  obtain ⟨hline, hspace, hcores⟩ := State.fill_holds hw hr hp
  have hhome := atHome_of_narrow hs hn
  have hgw : s.gWrite t core ctx scope va pg bs = (s.fill core ctx va pg).2.putLine core
      (((s.fill core ctx va pg).1.write (va.toNat % 128) bs true).noteWriter (va.toNat % 128) t) := by
    simp only [State.gWrite, hhome, Bool.false_eq_true, if_false]
  generalize s.fill core ctx va pg = filled at hline hspace hcores hgw
  obtain ⟨l, s1⟩ := filled
  have hfound := State.line_putLine s1 core ((l.write (va.toNat % 128) bs true).noteWriter (va.toNat % 128) t) (va := va)
    hline.ctx hline.line
  have hhit := State.fill_of_hit (pg := pg) hfound hline.red hline.pa
  dsimp only
  rw [hgw]
  refine ⟨hspace.mem, fun c hc => ?_, ?_⟩
  · rw [State.putLine, State.core_modCore, if_neg hc]
    exact hcores c hc
  · have hkept : ∀ a b, (s1.putLine core ((l.write (va.toNat % 128) bs true).noteWriter (va.toNat % 128) t)).kept a b = s.kept a b :=
      sameSpace.kept ⟨hspace.mem, hspace.helm, hspace.ctxs, hspace.leaves⟩
    simp only [State.gRead, hhome, Bool.false_eq_true, if_false, hhit, hkept]
    rw [State.keptBytes]
    congr 2
    exact (L1Line.write_holds hline.whole hb [] []).1

end Sys2Proof.Machine
end

section
/-! CLAIM. What is written is read back. -/

open Sys2Proof Sys2Proof.Machine Sys2Proof.Claim

/-- Settles O25: by where the write stands, in the scratchpad, at the home slice, in the outbound path of its die or in the L1 of its core. -/
theorem readBack : Obligations.ReadBack := by
  unfold Obligations.ReadBack
  exact ⟨fun s t off bs g h => State.storeS_reads_back h t off bs g,
    fun s die ts pa bs cleans marks hm hd => State.storeHome_own hm hd ts bs cleans marks,
    fun s die ts pa bs cleans marks hd => State.storeHome_other hd ts bs cleans marks,
    fun s t core ctx scope va pg bs hs hn hb hw hr hp _ => State.gWrite_reads_back t hs hn hb hw hr hp⟩

end

section
/-! SUPPORT. What the performance of accesses leaves (R308): registers, marks, crews, blocks, the place in the issue order and the effects
that are held. Whatever unit is performed, and whatever that brings about in caches, memory and the fabric, these stand. -/

namespace Sys2Proof.Machine

open Sys2Proof.Claim

/-- Between two states accesses have been performed, at most. -/
structure onlyAccesses (s s' : State) : Prop where
  v : ∀ u, (s'.thread u).v = (s.thread u).v
  p : ∀ u, (s'.thread u).p = (s.thread u).p
  marks : ∀ u, (s'.thread u).marks = (s.thread u).marks
  crews : s'.crews = s.crews
  blocks : s'.blocks = s.blocks
  seq : s'.seq = s.seq
  held : ∀ c, (s'.core c).held = (s.core c).held

namespace onlyAccesses

theorem refl (s : State) : onlyAccesses s s := ⟨fun _ => rfl, fun _ => rfl, fun _ => rfl, rfl, rfl, rfl, fun _ => rfl⟩

theorem trans {s s1 s2 : State} (h : onlyAccesses s s1) (h1 : onlyAccesses s1 s2) : onlyAccesses s s2 :=
  ⟨fun u => (h1.v u).trans (h.v u), fun u => (h1.p u).trans (h.p u), fun u => (h1.marks u).trans (h.marks u),
    h1.crews.trans h.crews, h1.blocks.trans h.blocks, h1.seq.trans h.seq, fun c => (h1.held c).trans (h.held c)⟩

theorem foldl {α : Type} (f : State → α → State) (h : ∀ s a, onlyAccesses s (f s a)) (l : List α) (s : State) :
    onlyAccesses s (l.foldl f s) := by
  induction l generalizing s with
  | nil => exact .refl s
  | cons a l ih => exact (h s a).trans (ih _)

theorem ite {s a b : State} {c : Prop} [Decidable c] (ha : onlyAccesses s a) (hb : onlyAccesses s b) :
    onlyAccesses s (if c then a else b) := by
  split
  · exact ha
  · exact hb

/-- A change of other fields. -/
theorem of_fields {s s' : State} (ht : s'.threads = s.threads := by rfl) (hc : s'.crews = s.crews := by rfl)
    (hb : s'.blocks = s.blocks := by rfl) (hk : s'.cores = s.cores := by rfl) (hs : s'.seq = s.seq := by rfl) : onlyAccesses s s' := by
  have hth : ∀ u, s'.thread u = s.thread u := fun u => by rw [State.thread, ht, State.thread]
  have hco : ∀ c, s'.core c = s.core c := fun c => by rw [State.core, hk, State.core]
  exact ⟨fun u => by rw [hth], fun u => by rw [hth], fun u => by rw [hth], hc, hb, hs, fun c => by rw [hco]⟩

/-- The registers of its threads and crews stand. -/
theorem getLoc {s s' : State} (h : onlyAccesses s s') (u : Nat) (l : Loc) : s'.getLoc u l = s.getLoc u l := by
  cases l with
  | v n => simp only [State.getLoc, Thread.getV, h.v]
  | s n => simp only [State.getLoc, State.crew, h.crews]
  | p n => simp only [State.getLoc, Thread.getP, h.p]

theorem block {s s' : State} (h : onlyAccesses s s') (b : Nat) : s'.block b = s.block b := by
  rw [State.block, h.blocks, State.block]

theorem coreOf {s s' : State} (h : onlyAccesses s s') (t : Nat) : s'.coreOf t = s.coreOf t := by
  rw [State.coreOf, h.block, State.coreOf]

/-- A thread holds back its effects as before (R188). -/
theorem holds {s s' : State} (h : onlyAccesses s s') (t : Nat) : s'.holds t = s.holds t := by
  rw [State.holds, h.coreOf, h.held, Thread.tagUnion, h.marks]
  rfl

end onlyAccesses

/-- A change of threads that keeps their registers and marks. -/
theorem onlyAccesses_modThread (s : State) (t : Nat) {f : Thread → Thread} (hv : ∀ th, (f th).v = th.v := by intro _; rfl)
    (hp : ∀ th, (f th).p = th.p := by intro _; rfl) (hm : ∀ th, (f th).marks = th.marks := by intro _; rfl) :
    onlyAccesses s (s.modThread t f) := by
  have h : ∀ u, ((s.modThread t f).thread u).v = (s.thread u).v ∧ ((s.modThread t f).thread u).p = (s.thread u).p ∧
      ((s.modThread t f).thread u).marks = (s.thread u).marks := by
    intro u
    rw [State.thread_modThread]
    split
    · exact ⟨hv _, hp _, hm _⟩
    · exact ⟨rfl, rfl, rfl⟩
  exact ⟨fun u => (h u).1, fun u => (h u).2.1, fun u => (h u).2.2, rfl, rfl, rfl, fun _ => rfl⟩

/-- A change of a core that keeps its held effects. -/
theorem onlyAccesses_modCore (s : State) (k : Nat) {f : Core → Core} (h : (f (s.core k)).held = (s.core k).held) :
    onlyAccesses s (s.modCore k f) := by
  refine ⟨fun _ => rfl, fun _ => rfl, fun _ => rfl, rfl, rfl, rfl, fun c => ?_⟩
  rw [State.core_modCore]
  split
  · rename_i hc
    rw [hc, h]
  · rfl

theorem onlyAccesses_addTodo (s : State) (l : List Todo) : onlyAccesses s (s.addTodo l) := .of_fields

theorem onlyAccesses_memory (s : State) (m : List Host.Cell) : onlyAccesses s { s with mem := m } := .of_fields

theorem onlyAccesses_modHelm (s : State) (f : Helm → Helm) : onlyAccesses s (s.modHelm f) := .of_fields

theorem onlyAccesses_modCtx (s : State) (c : BitVec 16) (f : Context → Context) : onlyAccesses s (s.modCtx c f) := .of_fields

theorem onlyAccesses_freeWord (s : State) : onlyAccesses s s.freeWord.2 := .of_fields

theorem onlyAccesses_choose (s : State) (n : Nat) : onlyAccesses s (s.choose n).2 := .of_fields

/-! ## Records and reports -/

theorem onlyAccesses_helmTouch (s : State) (pa n : Nat) : onlyAccesses s (s.helmTouch pa n) :=
  .ite (.refl s) (onlyAccesses_addTodo s _)

theorem onlyAccesses_pushReport (s : State) (c : BitVec 16) (bs : List Byte) : onlyAccesses s (s.pushReport c bs) :=
  (((onlyAccesses_memory s _).trans (onlyAccesses_modHelm _ _)).trans (onlyAccesses_helmTouch _ _ 32)).trans
    (onlyAccesses_addTodo _ _)

theorem onlyAccesses_reportLost (s : State) (c : BitVec 16) : onlyAccesses s (s.reportLost c) :=
  .ite ((onlyAccesses_pushReport s c _).trans (onlyAccesses_modCtx ..)) (.refl s)

theorem onlyAccesses_report (s : State) (c : BitVec 16) (r : Report) : onlyAccesses s (s.report c r) := by
  unfold State.report
  refine .ite (.refl s) (.ite (onlyAccesses_modHelm ..) ?_)
  split
  · exact .refl s
  · exact (onlyAccesses_reportLost s c).trans (.ite (onlyAccesses_pushReport ..) (onlyAccesses_modCtx ..))

theorem onlyAccesses_errorRecord (s : State) (e : ErrRec) : onlyAccesses s (s.errorRecord e) := by
  unfold State.errorRecord
  refine .ite (.refl s) ((onlyAccesses_modHelm s _).trans (.ite (onlyAccesses_modHelm ..) ?_))
  exact (((onlyAccesses_memory _ _).trans (onlyAccesses_modHelm _ _)).trans (onlyAccesses_helmTouch _ _ 32)).trans
    (onlyAccesses_addTodo _ _)

/-! ## Home slices and outbound paths -/

theorem onlyAccesses_writeHome (s : State) (pa : Nat) (bs : List Byte) (cl mk : List Nat) : onlyAccesses s (s.writeHome pa bs cl mk) := by
  unfold State.writeHome
  exact .ite .of_fields .of_fields

theorem onlyAccesses_landWrite (s : State) (w : OutWrite) : onlyAccesses s (s.landWrite w) := by
  unfold State.landWrite
  split <;> exact onlyAccesses_writeHome ..

/-- A change of what stands at every key of a table. -/
theorem tget_map {α : Type} (m : Tab α) (g : α → α) (k : Nat) : tget (m.map fun p => (p.1, g p.2)) k = (tget m k).map g := by
  induction m with
  | nil => rfl
  | cons e r ih =>
    rw [List.map_cons, tget_cons, ih]
    obtain ⟨j, x⟩ := e
    rw [tget_cons]
    split <;> rfl

theorem State.thread_ackAll (s : State) (die k u : Nat) :
    ({ s with threads := s.threads.map fun p => (p.1, p.2.ack die k) } : State).thread u = (s.thread u).ack die k := by
  have h : tget (s.threads.map fun p => (p.1, p.2.ack die k)) u = (tget s.threads u).map (·.ack die k) :=
    tget_map s.threads (·.ack die k) u
  simp only [State.thread, tgetD, h]
  cases tget s.threads u <;> rfl

theorem onlyAccesses_performOut (s : State) (die : Nat) (w : OutWrite) : onlyAccesses s (s.performOut die w) := by
  refine (onlyAccesses_landWrite s w).trans ?_
  have h : ∀ u, (s.performOut die w).thread u = ((s.landWrite w).thread u).ack die w.id := State.thread_ackAll (s.landWrite w) die w.id
  exact ⟨fun u => by rw [h]; rfl, fun u => by rw [h]; rfl, fun u => by rw [h]; rfl, rfl, rfl, rfl, fun _ => rfl⟩

theorem onlyAccesses_flush (s : State) (die pa n : Nat) : onlyAccesses s (s.flush die pa n) := by
  unfold State.flush
  exact .ite (.refl s) (.trans .of_fields (.foldl _ (fun s w => onlyAccesses_performOut s die w) _ _))

theorem onlyAccesses_noted (s : State) (die : Nat) (ts : List Nat) (pa : Nat) : onlyAccesses s (s.noted die ts pa) :=
  .trans (s1 := { s with nextId := s.nextId + 1 }) .of_fields (.foldl _ (fun s t => onlyAccesses_modThread s t) ts _)

theorem onlyAccesses_storeHome (s : State) (die : Nat) (ts : List Nat) (pa : Nat) (bs : List Byte) (cl mk : List Nat)
    (half : Option Bool) (core : Option Nat) : onlyAccesses s (s.storeHome die ts pa bs cl mk half core) := by
  rw [State.storeHome_eq]
  exact .ite ((onlyAccesses_noted ..).trans (onlyAccesses_landWrite ..)) ((onlyAccesses_noted s die ts pa).trans .of_fields)

/-! ## The L1 -/

theorem onlyAccesses_dropLine (s : State) (core : Nat) (l : L1Line) : onlyAccesses s (s.dropLine core l) := onlyAccesses_modCore s core rfl

theorem onlyAccesses_putLine (s : State) (core : Nat) (l : L1Line) : onlyAccesses s (s.putLine core l) := onlyAccesses_modCore s core rfl

theorem onlyAccesses_updateOwn (s : State) (core pa : Nat) (bs : List Byte) (cl mk : List Nat) :
    onlyAccesses s (s.updateOwn core pa bs cl mk) := onlyAccesses_modCore s core rfl

theorem onlyAccesses_updateNibble (s : State) (core pa : Nat) (hi : Bool) (v : Byte) : onlyAccesses s (s.updateNibble core pa hi v) :=
  onlyAccesses_modCore s core rfl

theorem onlyAccesses_acquireAction (s : State) (core : Nat) (ctx : BitVec 16) : onlyAccesses s (s.acquireAction core ctx) :=
  onlyAccesses_modCore s core rfl

theorem onlyAccesses_combine (s : State) (core : Nat) (l : L1Line) : onlyAccesses s (s.combine core l) := by
  unfold State.combine
  split
  · exact .refl s
  · refine ((onlyAccesses_dropLine s core l).trans (onlyAccesses_flush _ (dieOf core) l.pa 128)).trans ?_
    dsimp only
    split
    · exact onlyAccesses_errorRecord ..
    · exact .foldl _ (fun s k => .ite (onlyAccesses_writeHome ..) (.refl s)) _ _

theorem onlyAccesses_writeBack (s : State) (core : Nat) (ts : List Nat) (l : L1Line) : onlyAccesses s (s.writeBack core ts l) := by
  unfold State.writeBack
  refine .foldl _ (fun s k => ?_) _ s
  unfold State.writeBackSector
  exact .trans (.ite (onlyAccesses_errorRecord s _) (.refl s)) (.foldl _ (fun s r => onlyAccesses_storeHome ..) _ _)

theorem onlyAccesses_evict (s : State) (core : Nat) (l : L1Line) : onlyAccesses s (s.evict core l) :=
  .ite (onlyAccesses_combine ..) ((onlyAccesses_writeBack ..).trans (onlyAccesses_dropLine ..))

theorem onlyAccesses_cleanLine (s : State) (core : Nat) (ts : List Nat) (l : L1Line) : onlyAccesses s (s.cleanLine core ts l) :=
  .ite (onlyAccesses_combine ..) (.ite (.refl s) ((onlyAccesses_writeBack ..).trans (onlyAccesses_putLine ..)))

theorem onlyAccesses_releaseAction (s : State) (core : Nat) (ts : List Nat) : onlyAccesses s (s.releaseAction core ts) := by
  unfold State.releaseAction
  exact .foldl _ (fun s l => onlyAccesses_cleanLine s core ts l) _ s

theorem onlyAccesses_recall (s : State) (pa : Nat) : onlyAccesses s (s.recall pa) := by
  unfold State.recall
  refine .foldl _ (fun s c => ?_) _ s
  exact .foldl _ (fun s l => .ite (onlyAccesses_combine s c.1 l) (.refl s)) _ s

theorem onlyAccesses_combineOwn (s : State) (core pa : Nat) : onlyAccesses s (s.combineOwn core pa) := by
  unfold State.combineOwn
  exact .foldl _ (fun s l => .ite (onlyAccesses_combine s core l) (.refl s)) _ s

theorem onlyAccesses_shrinkL1 (s : State) (core n fuel : Nat) : onlyAccesses s (s.shrinkL1 core n fuel) := by
  induction fuel generalizing s with
  | zero => exact .refl s
  | succ fuel ih =>
    unfold State.shrinkL1
    refine .ite (.refl s) ((onlyAccesses_choose s ((s.core core).l1.length - 1)).trans ?_)
    simp only
    split
    · exact (onlyAccesses_evict ..).trans (ih _)
    · exact .refl _

theorem onlyAccesses_makeRoom (s : State) (core : Nat) : onlyAccesses s (s.makeRoom core) := onlyAccesses_shrinkL1 ..

theorem onlyAccesses_fill (s : State) (core : Nat) (ctx : BitVec 16) (va : W64) (pg : Page) : onlyAccesses s (s.fill core ctx va pg).2 := by
  unfold State.fill
  dsimp only
  split
  · split
    · exact ((onlyAccesses_evict ..).trans (onlyAccesses_makeRoom ..)).trans (onlyAccesses_putLine ..)
    · exact .refl s
  · exact (onlyAccesses_makeRoom ..).trans (onlyAccesses_putLine ..)

theorem onlyAccesses_gRead (s : State) (core : Nat) (ctx : BitVec 16) (scope : Nat) (va : W64) (pg : Page) (n : Nat) :
    onlyAccesses s (s.gRead core ctx scope va pg n).2.2 := by
  unfold State.gRead
  split
  · exact onlyAccesses_recall ..
  · exact onlyAccesses_fill ..

theorem onlyAccesses_gWrite (s : State) (t core : Nat) (ctx : BitVec 16) (scope : Nat) (va : W64) (pg : Page) (bs : List Byte)
    (whole : Bool) : onlyAccesses s (s.gWrite t core ctx scope va pg bs whole) := by
  unfold State.gWrite
  exact .ite (((onlyAccesses_combineOwn ..).trans (onlyAccesses_storeHome ..)).trans (onlyAccesses_updateOwn ..))
    ((onlyAccesses_fill ..).trans (onlyAccesses_putLine ..))

theorem onlyAccesses_gNibble (s : State) (t core : Nat) (ctx : BitVec 16) (scope : Nat) (va : W64) (pg : Page) (hi : Bool) (v : Nat) :
    onlyAccesses s (s.gNibble t core ctx scope va pg hi v) := by
  unfold State.gNibble
  exact .ite (((onlyAccesses_combineOwn ..).trans (onlyAccesses_storeHome ..)).trans (onlyAccesses_updateNibble ..))
    ((onlyAccesses_fill ..).trans (onlyAccesses_putLine ..))

theorem onlyAccesses_writeThrough (s : State) (core : Option Nat) (pa : Nat) (bs : List Byte) (poison : List Bool) (cl : List Nat) :
    onlyAccesses s (s.writeThrough core pa bs poison cl) := by
  unfold State.writeThrough
  cases core with
  | none => exact onlyAccesses_writeHome ..
  | some c =>
    exact (((onlyAccesses_combineOwn s c pa).trans (onlyAccesses_flush ..)).trans (onlyAccesses_writeHome ..)).trans
      (onlyAccesses_updateOwn ..)

theorem onlyAccesses_readThrough (s : State) (core : Option Nat) (pa n : Nat) : onlyAccesses s (s.readThrough core pa n).2.2 := by
  unfold State.readThrough
  have h := onlyAccesses.foldl (fun s l => s.recall (128 * l)) (fun s l => onlyAccesses_recall s _)
    ((List.range ((pa + n + 127) / 128 - pa / 128)).map (pa / 128 + ·)) s
  cases core with
  | none => exact h
  | some c => exact h.trans (onlyAccesses_flush ..)

/-! ## Atomics -/

theorem onlyAccesses_gAtom (s : State) (core : Nat) (f : Fields) (pa b : Nat) : onlyAccesses s (s.gAtom core f pa b).2.2 := by
  have h := (onlyAccesses_recall s pa).trans (onlyAccesses_flush _ (dieOf core) pa f.ty.bytes)
  unfold State.gAtom
  dsimp only
  split
  · exact h
  · split
    · exact h
    · exact (h.trans (onlyAccesses_writeHome ..)).trans (onlyAccesses_updateOwn ..)

theorem onlyAccesses_gRedHome (s : State) (t core : Nat) (f : Fields) (pa b : Nat) : onlyAccesses s (s.gRedHome t core f pa b) := by
  refine ((onlyAccesses_recall s pa).trans (onlyAccesses_flush _ (dieOf core) pa f.ty.bytes)).trans ?_
  exact .ite (onlyAccesses_errorRecord ..) ((onlyAccesses_writeHome ..).trans (onlyAccesses_updateOwn ..))

theorem onlyAccesses_gRedL1 (s : State) (t core : Nat) (ctx : BitVec 16) (f : Fields) (va : W64) (pg : Page) (b : Nat) :
    onlyAccesses s (s.gRedL1 t core ctx f va pg b) := by
  unfold State.gRedL1
  dsimp only
  split
  · split
    · exact onlyAccesses_putLine ..
    · exact (onlyAccesses_evict ..).trans (onlyAccesses_putLine ..)
  · exact (onlyAccesses_makeRoom ..).trans (onlyAccesses_putLine ..)

theorem onlyAccesses_wakeS (s : State) (core off n : Nat) : onlyAccesses s (s.wakeS core off n) :=
  .ite (onlyAccesses_addTodo ..) (.refl s)

theorem Core.setTag_held (c : Core) (k : Nat) (g : Tags) : (c.setTag k g).held = c.held := rfl

theorem Core.tagStore_held (c : Core) (off n : Nat) (g : Tags) : (c.tagStore off n g).held = c.held := by
  unfold Core.tagStore
  exact foldl_keeps Core.held _ (fun c k => Core.setTag_held c k _) _ c

theorem Core.tagClear_held (c : Core) (off n : Nat) : (c.tagClear off n).held = c.held := by
  unfold Core.tagClear
  exact foldl_keeps Core.held _ (fun c k => Core.setTag_held c k _) _ c

theorem onlyAccesses_sAtom (s : State) (t : Nat) (f : Fields) (core off b : Nat) (own : Bool) (g : Tags) :
    onlyAccesses s (s.sAtom t f core off b own g).2.2 := by
  rw [State.sAtom_eq]
  refine .ite (.refl s) ((onlyAccesses_modCore s core ?_).trans (onlyAccesses_wakeS ..))
  cases own
  · exact Core.tagClear_held ..
  · exact Core.tagStore_held ..

/-! ## Results and requests -/

theorem onlyAccesses_answer (s : State) (t id : Nat) (wb : List (Loc × Reg)) : onlyAccesses s (s.answer t id wb) :=
  onlyAccesses_modThread s t

theorem onlyAccesses_acquired (s : State) (t ord scope : Nat) : onlyAccesses s (s.acquired t ord scope) :=
  .ite (onlyAccesses_acquireAction ..) (.refl s)

theorem onlyAccesses_gotUnit (s : State) (t out k : Nat) (g : Got) : onlyAccesses s (s.gotUnit t out k g) := by
  unfold State.gotUnit
  refine .trans (s1 := s.modThread t fun th => { th with out := th.out.map fun o =>
    if o.id = out then { o with late := o.late.map fun l => { l with got := l.got.set k (some g) } } else o })
    (onlyAccesses_modThread s t) ?_
  simp only
  split
  · exact (onlyAccesses_answer ..).trans (onlyAccesses_acquired ..)
  · exact .refl _

theorem onlyAccesses_modLate (s : State) (t id : Nat) (g : LateUnit → LateUnit) : onlyAccesses s (s.modLate t id g) :=
  onlyAccesses_modThread s t

theorem onlyAccesses_dropLate (s : State) (t id : Nat) : onlyAccesses s (s.dropLate t id) := onlyAccesses_modThread s t

theorem onlyAccesses_endGroupOp (s : State) (t seq status : Nat) : onlyAccesses s (s.endGroupOp t seq status) := .of_fields

theorem onlyAccesses_postedFailure (s : State) (r : Request) (va : W64) (status : Nat) : onlyAccesses s (s.postedFailure r va status) :=
  (onlyAccesses_modThread s r.t).trans (onlyAccesses_report ..)

theorem onlyAccesses_endEncodeRead (s : State) (r : Request) (id : Nat) (band : Bool) (va : W64) (st : Nat) (data : List Byte) :
    onlyAccesses s (s.endEncodeRead r id band va st data) :=
  .ite (.refl s) (.ite ((onlyAccesses_dropLate ..).trans (onlyAccesses_postedFailure ..)) (onlyAccesses_modLate ..))

theorem onlyAccesses_endRequest (s : State) (r : Request) (as : List Answer) : onlyAccesses s (s.endRequest r as) := by
  unfold State.endRequest
  dsimp only
  split
  case h_1 => exact onlyAccesses_gotUnit ..
  case h_2 => exact onlyAccesses_endEncodeRead ..
  case h_3 => exact (onlyAccesses_answer ..).trans (onlyAccesses_acquired ..)
  case h_4 => exact .ite (.refl s) (onlyAccesses_postedFailure ..)
  case h_5 => exact .ite (.refl s) (onlyAccesses_postedFailure ..)
  case h_6 =>
    exact (((onlyAccesses_endGroupOp s r.t _ _).trans (onlyAccesses_freeWord _)).trans (onlyAccesses_answer ..)).trans
      (onlyAccesses_acquired ..)
  case h_7 => exact (onlyAccesses_endGroupOp s r.t _ _).trans (onlyAccesses_answer ..)
  case h_8 => exact onlyAccesses_answer ..
  case h_9 => exact .of_fields
  case h_10 => exact .of_fields

theorem onlyAccesses_sendRequest (s : State) (t : Nat) (ctx : BitVec 16) (kind : ReqKind) (members : List (BitVec 12)) (pa : Nat)
    (data : List Byte) (own : List Answer) (handle : Option Nat) (ordered : Bool) (poison : List Bool) :
    onlyAccesses s (s.sendRequest t ctx kind members pa data own handle ordered poison) := by
  unfold State.sendRequest
  refine .ite (.trans .of_fields (onlyAccesses_endRequest ..)) (.ite (.trans .of_fields (onlyAccesses_endRequest ..)) ?_)
  split <;> exact .of_fields

/-! ## Groups -/

theorem onlyAccesses_memberRead (s : State) (core : Option Nat) (ctx : BitVec 16) (va : W64) (n : Nat) :
    onlyAccesses s (s.memberRead core ctx va n).2.2 := by
  unfold State.memberRead
  split
  · exact .refl s
  · split
    · exact .refl s
    · exact onlyAccesses_readThrough ..

theorem onlyAccesses_memberWrite (s : State) (core : Option Nat) (ctx : BitVec 16) (va : W64) (sc : Bool) (data : List Byte)
    (poison : List Bool) : onlyAccesses s (s.memberWrite core ctx va sc data poison).2 := by
  unfold State.memberWrite
  split
  · exact .refl s
  · split
    · exact onlyAccesses_writeThrough ..
    · split
      · exact .refl s
      · dsimp only
        split
        · split
          · split
            · exact ((onlyAccesses_writeThrough ..).trans (onlyAccesses_writeThrough ..)).trans (onlyAccesses_writeThrough ..)
            · exact .refl s
          · exact (onlyAccesses_writeThrough ..).trans (onlyAccesses_writeThrough ..)
        · exact .refl s

theorem onlyAccesses_groupRequest (s : State) (t : Nat) (kind : ReqKind) (h : W32) (va : W64) (data : List Byte)
    {self : State → Nat × List Byte × State} (hself : ∀ s, onlyAccesses s (self s).2.2) (poison : List Bool) :
    onlyAccesses s (s.groupRequest t kind h va data self poison) := by
  unfold State.groupRequest
  dsimp only
  split
  · exact .trans .of_fields (onlyAccesses_endRequest ..)
  · split
    · split
      · exact (hself s).trans (onlyAccesses_sendRequest ..)
      · exact onlyAccesses_sendRequest ..
    · exact onlyAccesses_sendRequest ..

/-! ## Effects and units -/

theorem onlyAccesses_performEffect (s : State) (t : Nat) (e : Effect) : onlyAccesses s (s.performEffect t e) := by
  unfold State.performEffect
  dsimp only
  split
  case h_1 =>
    split
    · exact onlyAccesses_sendRequest ..
    · exact .refl s
  case h_2 => exact .refl s
  case h_3 => exact .refl s
  case h_4 => exact .refl s
  case h_5 =>
    split
    · exact onlyAccesses_sendRequest ..
    · exact ((onlyAccesses_gAtom ..).trans (onlyAccesses_answer ..)).trans (onlyAccesses_acquired ..)
  case h_6 => exact ((onlyAccesses_sAtom ..).trans (onlyAccesses_answer ..)).trans (onlyAccesses_acquired ..)
  case h_7 =>
    split
    · exact onlyAccesses_sendRequest ..
    · exact .ite (onlyAccesses_gRedHome ..) (onlyAccesses_gRedL1 ..)
  case h_8 => exact (onlyAccesses_sAtom ..).trans (.ite (onlyAccesses_errorRecord ..) (.refl _))
  case h_9 => exact .ite (onlyAccesses_acquireAction ..) (.refl s)
  case h_10 => exact onlyAccesses_groupRequest s t _ _ _ _ (fun s => onlyAccesses_memberRead ..) _
  case h_11 => exact onlyAccesses_groupRequest s t _ _ _ _ (fun s => onlyAccesses_memberWrite ..) _
  case h_12 =>
    split
    · exact onlyAccesses_answer ..
    · split
      · exact onlyAccesses_answer ..
      · refine .trans (s1 := s.switchesFull.2) .of_fields (.ite (onlyAccesses_answer ..) ?_)
        exact .trans .of_fields (onlyAccesses_answer ..)
  case h_13 =>
    split
    · exact onlyAccesses_answer ..
    · exact .trans .of_fields (onlyAccesses_answer ..)
  case h_14 => exact .of_fields
  case h_15 => exact onlyAccesses_report ..
  case h_16 => exact onlyAccesses_sendRequest ..

theorem onlyAccesses_performUnit (s : State) (t : Nat) (u : LateUnit) : onlyAccesses s (s.performUnit t u) := by
  unfold State.performUnit
  cases u with
  | mem scope va pg bs whole =>
    dsimp only
    split
    · exact onlyAccesses_sendRequest ..
    · exact onlyAccesses_gWrite ..
  | nibble scope va pg hi v => exact onlyAccesses_gNibble ..
  | scratch k off bs own whole =>
    refine (onlyAccesses_modCore s k ?_).trans (onlyAccesses_wakeS ..)
    cases own <;> cases whole
    · exact Core.tagClear_held ..
    · exact Core.tagClear_held ..
    · exact Core.tagStore_held ..
    · exact Core.tagClear_held ..
  | read out k scope va pg n =>
    dsimp only
    split
    · exact onlyAccesses_sendRequest ..
    · exact (onlyAccesses_gRead ..).trans (onlyAccesses_gotUnit ..)
  | readS out k core off n => exact onlyAccesses_gotUnit ..
  | effect e at_ => exact onlyAccesses_performEffect ..
  | encode => exact .refl s

/-! ## An encode store -/

theorem onlyAccesses_deliver (s : State) (t : Nat) (a : W64) (c : Cause) (epc bad : W64) : onlyAccesses s (s.deliver t a c epc bad) :=
  .ite (onlyAccesses_modThread s t) (.ite (onlyAccesses_addTodo ..)
    (.trans (s1 := s.rejoinShadow t) .of_fields (onlyAccesses_modThread _ t)))

theorem onlyAccesses_raise (s : State) (t : Nat) (a : W64) (c : Cause) (epc bad : W64) (unit pa : Nat) :
    onlyAccesses s (s.raise t a c epc bad unit pa) := by
  unfold State.raise
  split
  · exact .ite ((onlyAccesses_addTodo s _).trans (onlyAccesses_modThread _ t)) (onlyAccesses_deliver ..)
  · exact onlyAccesses_deliver ..

theorem onlyAccesses_stopEncode (s : State) (t : Nat) (pc bad : W64) : onlyAccesses s (s.stopEncode t pc bad) :=
  .ite (.refl s) ((onlyAccesses_raise ..).trans (onlyAccesses_addTodo ..))

theorem onlyAccesses_askFrame (s : State) (t id : Nat) (sa ba : W64) (sp bp : Page) : onlyAccesses s (s.askFrame t id sa ba sp bp) := by
  unfold State.askFrame
  dsimp only
  split <;> split
  · exact (onlyAccesses_sendRequest ..).trans (onlyAccesses_sendRequest ..)
  · exact onlyAccesses_sendRequest ..
  · exact onlyAccesses_sendRequest ..
  · exact .refl s

theorem onlyAccesses_encodeNow (s : State) (t : Nat) (f : Fields) (va : W64) (pg sp bp : Page) (data : Nat) (sc bd : Option Nat) :
    onlyAccesses s (s.encodeNow t f va pg sp bp data sc bd).2 := by
  unfold State.encodeNow
  cases sc with
  | some v =>
    cases bd with
    | some w => exact .refl s
    | none => exact onlyAccesses_gRead ..
  | none =>
    cases bd with
    | some w => exact onlyAccesses_gRead ..
    | none => exact (onlyAccesses_gRead ..).trans (onlyAccesses_gRead ..)

theorem onlyAccesses_stepEncode (s : State) (t id : Nat) (q : Option Nat) (whole : Bool) (u : LateUnit) :
    onlyAccesses s (s.stepEncode t id q whole u) := by
  unfold State.stepEncode
  split
  · rename_i f pc va pg sp bp data sent sc bd
    refine .ite (.ite (.refl s) ((onlyAccesses_modLate ..).trans (onlyAccesses_askFrame ..))) ?_
    refine (onlyAccesses_encodeNow s t f va pg sp bp data sc bd).trans ?_
    dsimp only
    split
    · exact (onlyAccesses_dropLate ..).trans (onlyAccesses_stopEncode ..)
    · refine .ite ((onlyAccesses_dropLate ..).trans (.foldl _ (fun s u => onlyAccesses_performUnit s t u) _ _)) ?_
      exact .trans .of_fields (onlyAccesses_modThread _ t)
  · exact .refl s

/-! ## What a thread has still to perform -/

theorem onlyAccesses_performLate (n : Nat) (s : State) (t id : Nat) (whole : Bool) : onlyAccesses s (State.performLate n s t id whole) := by
  induction n generalizing s t id whole with
  | zero => exact .refl s
  | succ n ih =>
    unfold State.performLate
    split
    · exact .refl s
    · rename_i q u _
      refine (onlyAccesses.foldl (fun s x => State.performLate n s x.1 x.2 true) (fun s x => ih s x.1 x.2 true) (s.ahead t id q u) s).trans ?_
      refine .ite (.refl _) ?_
      split
      · exact onlyAccesses_stepEncode ..
      · exact (onlyAccesses_dropLate ..).trans (onlyAccesses_performUnit ..)

theorem onlyAccesses_settle (s : State) (t : Nat) (p : Nat × Option Nat × LateUnit → Bool) : onlyAccesses s (s.settle t p) := by
  unfold State.settle
  exact .foldl _ (fun s x => onlyAccesses_performLate ..) _ s

/-- The release side of an operation performs accesses, and does nothing else to registers, marks, blocks and held effects (R205, R332). -/
theorem onlyAccesses_startRelease (s : State) (t scope ord : Nat) : onlyAccesses s (s.startRelease t scope ord) := by
  unfold State.startRelease
  dsimp only
  refine .trans (s1 := s.settleAll t) (onlyAccesses_settle s t fun _ => true) ?_
  exact .trans (.ite (onlyAccesses_releaseAction ..) (.refl _)) (.ite (onlyAccesses_modThread _ t) (.refl _))

end Sys2Proof.Machine
end

section
/-! SUPPORT. The atomics and reductions (R184, R188, R200, R202, R203): their parts in one thread complete them, a relaxed one only enters
its unit, and that unit changes its element alone. -/

namespace Sys2Proof.Machine

open Sys2Proof.Claim

/-! ## Operands and parts -/

/-- The operands of an atomic whose checks pass are its sources (R199). -/
theorem atomSources_of_atomData {f : Fields} {t : Nat} {s : State} {o b : Opd} (ho : o.poison = false)
    (h : atomData f t s = some b) : s.atomSources t f o = .ok b := by
  unfold atomData at h
  unfold State.atomSources State.operand
  split at h
  · cases h
  · rename_i x hx
    split at h
    · cases h
    · rename_i hp
      cases h
      simp only [ho, if_neg hp, Bool.false_eq_true, if_false]

/-- An ORD with an acquire side (R179). -/
theorem ord_has_acquire (x : BitVec 2) : (x == 1 || x == 3) = x.getLsbD 0 := by
  revert x
  decide

/-- What `atom.g` or `red.g` does once its release is done: it stands outstanding, and emits its effect. -/
def State.globalAtom (s1 : State) (f : Fields) (red : Bool) (t : Nat) (a va : W64) (p : Page) (x : Nat) : State :=
  if red then s1.emit t a (.redG f va p x)
  else (s1.addOut t (destsOf (.atomG f)) none f.la.toNat true (if p.peer.isSome then [] else [p.pa / 128])
    (acq := f.ord.getLsbD 0)).emit t a (.atomG f va p x s1.nextId)

/-- `atom.g` and `red.g`: their operands and their page, and the effect they emit. -/
theorem atomGlobalPart_some {f : Fields} {red : Bool} {t : Nat} {s s' : State} (h : atomGlobalPart f red t s = some s') :
    ∃ o va b p, addressG f false t s = some (o, va) ∧ atomData f t s = some b ∧
      s.locate t va f.ty.bytes 1 (if red then .reduce else .atomic) (·.fmt == 0) (if red then f.scope.toNat else 6) = .ok [p] ∧
      ordered f t (s.consume t (s.here t) (o.tags ||| b.tags)) (fun s1 => s1.globalAtom f red t (s.here t) va p b.val) = some s' := by
  unfold atomGlobalPart at h
  split at h
  · split at h
    · exact ⟨_, _, _, _, ‹_›, ‹_›, ‹_›, h⟩
    · cases h
  · cases h

/-- What an atomic of a scratchpad does once its release is done: it stands outstanding, and emits its effect. -/
def State.padAtom (s1 : State) (i : Instr) (f : Fields) (t : Nat) (a : W64) (core off x : Nat) (own : Bool) (g : Tags) : State :=
  (s1.addOut t (destsOf i) none f.la.toNat (acq := f.ord.getLsbD 0)).emit t a (.atomL f core off x own g s1.nextId)

/-- `red.s`: its operands and its place, and the effect it emits. -/
theorem redScratchPart_some {f : Fields} {t : Nat} {s s' : State} (h : atomScratchPart f true t s = some s') :
    ∃ o x b off, addressS f false t s = some (o, x) ∧ atomData f t s = some b ∧
      placeS t x f.ty.bytes f.ty.bytes s = some off ∧
      ordered f t (s.consume t (s.here t) (o.tags ||| b.tags)) (fun s1 => s1.emit t (s.here t)
        (.redS f (s.coreOf t) off b.val (o.tags ||| b.tags ||| ((s.thread t).getP f.gp.toNat).tags))) = some s' := by
  unfold atomScratchPart at h
  split at h
  · split at h
    · cases h
    · exact ⟨_, _, _, _, ‹_›, ‹_›, ‹_›, h⟩
  · cases h

/-- `atom.s`: its operands and its place, the tags it consumes, and the effect it emits. -/
theorem atomScratchPart_some {f : Fields} {t : Nat} {s s' : State} (h : atomScratchPart f false t s = some s') :
    ∃ o x b off, addressS f false t s = some (o, x) ∧ atomData f t s = some b ∧
      placeS t x f.ty.bytes f.ty.bytes s = some off ∧
      ordered f t (s.consume t (s.here t) (o.tags ||| b.tags ||| (s.core (s.coreOf t)).sectorTags off f.ty.bytes))
        (fun s1 => s1.padAtom (.atomS f) f t (s.here t) (s.coreOf t) off b.val true
          (o.tags ||| b.tags ||| ((s.thread t).getP f.gp.toNat).tags)) = some s' := by
  unfold atomScratchPart at h
  split at h
  · split at h
    · cases h
    · exact ⟨_, _, _, _, ‹_›, ‹_›, ‹_›, h⟩
  · cases h

/-- `atom.x`: its operands and its place, and the effect it emits. -/
theorem atomPeerPart_some {f : Fields} {t : Nat} {s s' : State} (h : atomPeerPart f t s = some s') :
    ∃ o x b core off, addressS f false t s = some (o, x) ∧ atomData f t s = some b ∧
      placeX t x f.ty.bytes f.ty.bytes s = some (core, off) ∧
      ordered f t (s.consume t (s.here t) (o.tags ||| b.tags))
        (fun s1 => s1.padAtom (.atomX f) f t (s.here t) core off b.val false 0) = some s' := by
  unfold atomPeerPart at h
  split at h
  · split at h
    · cases h
    · exact ⟨_, _, _, _, _, ‹_›, ‹_›, ‹_›, h⟩
  · cases h

/-! ## Completion -/

theorem atomG_completes (f : Fields) : Completes (.atomG f) f (atomGlobalPart f false) := by
  refine .of_meaning (execAtomG f) (fun _ => rfl) (fun _ => rfl) fun t s s' hp => ?_
  obtain ⟨o, va, b, p, ha, hb, hl, ho⟩ := atomGlobalPart_some hp
  obtain ⟨ha, hop⟩ := addr64_of_addressG ha
  simp only [Bool.false_eq_true, if_false] at hl
  simp only [ha, atomSources_of_atomData hop hb, hl, ord_has_acquire]
  exact releasing_of_ordered _ ho

theorem redG_completes (f : Fields) : Completes (.redG f) f (atomGlobalPart f true) := by
  refine .of_meaning (execRedG f) (fun _ => rfl) (fun _ => rfl) fun t s s' hp => ?_
  obtain ⟨o, va, b, p, ha, hb, hl, ho⟩ := atomGlobalPart_some hp
  obtain ⟨ha, hop⟩ := addr64_of_addressG ha
  simp only [if_true] at hl
  simp only [ha, atomSources_of_atomData hop hb, hl]
  exact releasing_of_ordered _ ho

theorem atomS_completes (f : Fields) : Completes (.atomS f) f (atomScratchPart f false) := by
  refine .of_meaning (execAtomS f) (fun _ => rfl) (fun _ => rfl) fun t s s' hp => ?_
  obtain ⟨o, x, b, off, ha, hb, hl, ho⟩ := atomScratchPart_some hp
  obtain ⟨ha, hop⟩ := addr32_of_addressS ha
  simp only [ha, atomSources_of_atomData hop hb, checkS_of_placeS hl, ord_has_acquire]
  exact releasing_of_ordered _ ho

/-- The core of a thread after a release is the core before it. -/
theorem State.coreOf_startRelease_consume (s : State) (t : Nat) (a : W64) (g : Tags) (scope ord : Nat) :
    ((s.consume t a g).startRelease t scope ord).coreOf t = s.coreOf t := by
  rw [(onlyAccesses_startRelease ..).coreOf, State.coreOf, State.consume_block, State.coreOf]

/-- Two ways on that agree after the release of an operation, and where there is none, are as good as each other. -/
theorem ordered_congr {f : Fields} {t : Nat} {s : State} {k k' : State → State} {held : Bool} (h : k s = k' s)
    (hr : k (s.startRelease t f.scope.toNat 2) = k' (s.startRelease t f.scope.toNat 2)) : ordered f t s k held = ordered f t s k' held := by
  simp only [ordered, h, hr]

theorem redS_completes (f : Fields) : Completes (.redS f) f (atomScratchPart f true) := by
  refine .of_meaning (execRedS f) (fun _ => rfl) (fun _ => rfl) fun t s s' hp => ?_
  obtain ⟨o, x, b, off, ha, hb, hl, ho⟩ := redScratchPart_some hp
  obtain ⟨ha, hop⟩ := addr32_of_addressS ha
  simp only [ha, atomSources_of_atomData hop hb, checkS_of_placeS hl]
  refine releasing_of_ordered _ ((ordered_congr ?_ ?_).trans ho)
  · rw [State.coreOf, State.consume_block, State.coreOf]
  · rw [State.coreOf_startRelease_consume]

theorem atomX_completes (f : Fields) : Completes (.atomX f) f (atomPeerPart f) := by
  refine .of_meaning (execAtomX f) (fun _ => rfl) (fun _ => rfl) fun t s s' hp => ?_
  obtain ⟨o, x, b, core, off, ha, hb, hl, ho⟩ := atomPeerPart_some hp
  obtain ⟨ha, hop⟩ := addr32_of_addressS ha
  simp only [ha, atomSources_of_atomData hop hb, checkX_of_placeX hl, ord_has_acquire]
  exact releasing_of_ordered _ ho

/-! ## What a relaxed one leaves at its issue -/

theorem State.logDests_stands (s : State) (t : Nat) (ls : List Loc) :
    localStands s (s.logDests t ls) ∧ (s.logDests t ls).mem = s.mem := by
  unfold State.logDests
  refine ⟨.foldl _ (fun s l => ?_) ls s, foldl_keeps (fun s : State => s.mem) _ (fun s l => ?_) ls s⟩
  · split
    · exact .refl s
    · exact localStands_logWrite ..
  · split
    · rfl
    · exact State.logWrite_mem ..

/-- A result that a thread has outstanding is in no register yet (R63). -/
theorem State.addOut_stands (s : State) (t : Nat) (dests : List Loc) (wb : Option (List (Loc × Reg))) (la : Nat) (long : Bool)
    (lines : List Nat) (logged : List Loc) (miss : List Nat) (acq : Bool) (late : Option LateLoad) :
    localStands s (s.addOut t dests wb la long lines logged miss acq late) ∧
      (s.addOut t dests wb la long lines logged miss acq late).mem = s.mem := by
  obtain ⟨hl, hm⟩ := s.logDests_stands t logged
  have hid : localStands (s.logDests t logged) { s.logDests t logged with nextId := s.nextId + 1 } :=
    ⟨fun u l => by cases l <;> rfl, fun _ _ => rfl⟩
  exact ⟨(hl.trans hid).trans (localStands_modThread _ t (fun _ => rfl) fun _ => rfl), hm⟩

/-- An outstanding result whose effect is one unit leaves registers, memory and scratchpads until that is performed. -/
theorem State.addOut_emit_stands {s : State} {t : Nat} {a : W64} {e : Effect} {us : List LateUnit} (hu : ∀ s : State, s.unitsOf t a e = some us)
    (ha : e.acquires = false) (dests : List Loc) (la : Nat) (long : Bool) (lines : List Nat) (acq : Bool) :
    localStands s ((s.addOut t dests none la long lines (acq := acq)).emit t a e) ∧
      ((s.addOut t dests none la long lines (acq := acq)).emit t a e).mem = s.mem := by
  obtain ⟨hl, hm⟩ := s.addOut_stands t dests none la long lines dests [] acq none
  obtain ⟨hle, hme⟩ := State.emit_stands (a := a) (hu (s.addOut t dests none la long lines (acq := acq))) ha
  exact ⟨hl.trans hle, hme.trans hm⟩

section Relaxed

variable {f : Fields} (hr : f.ord = 0)
include hr

theorem relaxed_acquires : (f.ord == 1 || f.ord == 3) = false := by rw [hr]; decide

theorem atomGlobalPart_stands {red : Bool} {t : Nat} {s s' : State} (h : atomGlobalPart f red t s = some s') :
    localStands s s' ∧ s'.mem = s.mem := by
  obtain ⟨o, va, b, p, -, -, -, ho⟩ := atomGlobalPart_some h
  rw [ordered_relaxed hr, Option.some.injEq] at ho
  subst ho
  have hc := localStands_consume s t (s.here t) (o.tags ||| b.tags)
  cases red
  · obtain ⟨hl, hm⟩ := State.addOut_emit_stands (s := s.consume t (s.here t) (o.tags ||| b.tags)) (t := t) (a := s.here t)
      (e := .atomG f va p b.val (s.consume t (s.here t) (o.tags ||| b.tags)).nextId) (fun _ => rfl) (relaxed_acquires hr)
      (destsOf (.atomG f)) f.la.toNat true (if p.peer.isSome then [] else [p.pa / 128]) (f.ord.getLsbD 0)
    exact ⟨hc.trans hl, hm.trans (State.consume_mem ..)⟩
  · obtain ⟨hl, hm⟩ := State.emit_stands (s := s.consume t (s.here t) (o.tags ||| b.tags)) (t := t) (a := s.here t)
      (e := .redG f va p b.val) rfl rfl
    exact ⟨hc.trans hl, hm.trans (State.consume_mem ..)⟩

theorem padAtom_stands (s : State) (i : Instr) (t : Nat) (a : W64) (g0 : Tags) (core off x : Nat) (own : Bool) (g : Tags) :
    localStands s ((s.consume t a g0).padAtom i f t a core off x own g) ∧
      ((s.consume t a g0).padAtom i f t a core off x own g).mem = s.mem := by
  obtain ⟨hl, hm⟩ := State.addOut_emit_stands (s := s.consume t a g0) (t := t) (a := a)
    (e := .atomL f core off x own g (s.consume t a g0).nextId) (fun _ => rfl) (relaxed_acquires hr) (destsOf i) f.la.toNat true []
    (f.ord.getLsbD 0)
  exact ⟨(localStands_consume ..).trans hl, hm.trans (State.consume_mem ..)⟩

theorem redScratchPart_stands {t : Nat} {s s' : State} (h : atomScratchPart f true t s = some s') :
    localStands s s' ∧ s'.mem = s.mem := by
  obtain ⟨o, x, b, off, -, -, -, ho⟩ := redScratchPart_some h
  rw [ordered_relaxed hr, Option.some.injEq] at ho
  subst ho
  obtain ⟨hl, hm⟩ := State.emit_stands (s := s.consume t (s.here t) (o.tags ||| b.tags)) (t := t) (a := s.here t)
    (e := .redS f (s.coreOf t) off b.val (o.tags ||| b.tags ||| ((s.thread t).getP f.gp.toNat).tags)) rfl rfl
  exact ⟨(localStands_consume ..).trans hl, hm.trans (State.consume_mem ..)⟩

theorem atomScratchPart_stands {t : Nat} {s s' : State} (h : atomScratchPart f false t s = some s') :
    localStands s s' ∧ s'.mem = s.mem := by
  obtain ⟨o, x, b, off, -, -, -, ho⟩ := atomScratchPart_some h
  rw [ordered_relaxed hr, Option.some.injEq] at ho
  subst ho
  exact padAtom_stands hr ..

theorem atomPeerPart_stands {t : Nat} {s s' : State} (h : atomPeerPart f t s = some s') :
    localStands s s' ∧ s'.mem = s.mem := by
  obtain ⟨o, x, b, core, off, -, -, -, ho⟩ := atomPeerPart_some h
  rw [ordered_relaxed hr, Option.some.injEq] at ho
  subst ho
  exact padAtom_stands hr ..

end Relaxed

/-- Each atomic and reduction completes with its part. -/
theorem atomicParts_completes {e : (Fields → Instr) × (Fields → Nat → State → Option State)} (he : e ∈ atomicParts) (f : Fields) :
    Completes (e.1 f) f (e.2 f) := by
  simp only [atomicParts, List.mem_cons, List.not_mem_nil, or_false] at he
  rcases he with rfl | rfl | rfl | rfl | rfl
  · exact atomG_completes f
  · exact redG_completes f
  · exact atomS_completes f
  · exact redS_completes f
  · exact atomX_completes f

/-- The part of each, relaxed, leaves registers, memory and scratchpads. -/
theorem atomicParts_stands {e : (Fields → Instr) × (Fields → Nat → State → Option State)} (he : e ∈ atomicParts) {f : Fields}
    (hr : f.ord = 0) {t : Nat} {s s' : State} (h : e.2 f t s = some s') : localStands s s' ∧ s'.mem = s.mem := by
  simp only [atomicParts, List.mem_cons, List.not_mem_nil, or_false] at he
  rcases he with rfl | rfl | rfl | rfl | rfl
  · exact atomGlobalPart_stands hr h
  · exact atomGlobalPart_stands hr h
  · exact atomScratchPart_stands hr h
  · exact redScratchPart_stands hr h
  · exact atomPeerPart_stands hr h

theorem atomicParts_alone {e : (Fields → Instr) × (Fields → Nat → State → Option State)} (he : e ∈ atomicParts) (f : Fields) :
    (e.1 f).once = false := by
  simp only [atomicParts, List.mem_cons, List.not_mem_nil, or_false] at he
  rcases he with rfl | rfl | rfl | rfl | rfl <;> rfl

/-! ## The unit of an atomic in a scratchpad -/

/-- An answer and the acquire side of an operation leave registers and scratchpads. -/
theorem State.answered_stands (s : State) (t id : Nat) (wb : List (Loc × Reg)) (ord scope : Nat) :
    localStands s ((s.answer t id wb).acquired t ord scope) ∧ ((s.answer t id wb).acquired t ord scope).mem = s.mem := by
  have ha : localStands s (s.answer t id wb) := localStands_modThread s t (fun _ => rfl) fun _ => rfl
  unfold State.acquired
  split
  · exact ⟨ha.trans (localStands_modCore _ _ rfl), rfl⟩
  · exact ⟨ha, rfl⟩

/-- The read-modify-write of an element of a scratchpad changes no other byte (R200). -/
theorem State.sAtom_scratchBut {s : State} {f : Fields} {core off : Nat} (hp : (s.core core).sectorPoison off f.ty.bytes = false)
    (t b : Nat) (own : Bool) (g : Tags) : dataStands s (s.sAtom t f core off b own g).2.2 ∧
      scratchBut s (s.sAtom t f core off b own g).2.2 core off f.ty.bytes := by
  obtain ⟨hd, -, hs⟩ := s.sAtom_stands t f core off b own g
  refine ⟨hd, fun c j hn => ?_⟩
  rw [hs hp c j, if_neg]
  rintro ⟨hc, hj⟩
  exact hn ⟨hc, hj⟩

/-- What is performed of a state whose unit is taken off, and acknowledged, leaves what it leaves of the state before. -/
theorem performed_scratchBut {s s1 : State} {t id core off n : Nat} (h : dataStands (s.dropLate t id) s1)
    (hs : scratchBut (s.dropLate t id) s1 core off n) :
    dataStands s (s1.acknowledge t id) ∧ scratchBut s (s1.acknowledge t id) core off n := by
  have hdrop := localStands_dropLate s t id
  have hack := localStands_acknowledge s1 t id
  exact ⟨⟨fun u l => ((hack.1 u l).trans (h.1 u l)).trans (hdrop.1 u l), h.2⟩, fun c j hn => (hack.2 c j).trans (hs c j hn)⟩

theorem exec_due_atomL {s : State} {t id : Nat} {q : Option Nat} {f : Fields} {core off b : Nat} {own : Bool} {g : Tags} {out : Nat}
    {sp : List Span} (h : due s t id q (.effect (.atomL f core off b own g out) sp))
    (hp : (s.core core).sectorPoison off f.ty.bytes = false) :
    ∃ s', exec (.accessPerformed t id) s = .next s' ∧ dataStands s s' ∧ scratchBut s s' core off f.ty.bytes := by
  refine ⟨_, exec_due h (by intros; nofun), ?_⟩
  obtain ⟨hd, hs⟩ := State.sAtom_scratchBut (s := s.dropLate t id) hp t b own g
  obtain ⟨hl, hm⟩ := ((s.dropLate t id).sAtom t f core off b own g).2.2.answered_stands t out
    (atomWb f ((s.dropLate t id).sAtom t f core off b own g).1 ((s.dropLate t id).sAtom t f core off b own g).2.1) f.ord.toNat f.scope.toNat
  exact performed_scratchBut (s1 := (s.dropLate t id).performUnit t (.effect (.atomL f core off b own g out) sp))
    ⟨fun u l => (hl.1 u l).trans (hd.1 u l), hm.trans hd.2⟩ fun c j hn => (hl.2 c j).trans (hs c j hn)

theorem exec_due_redS {s : State} {t id : Nat} {q : Option Nat} {f : Fields} {core off b : Nat} {g : Tags} {sp : List Span}
    (h : due s t id q (.effect (.redS f core off b g) sp)) (hp : (s.core core).sectorPoison off f.ty.bytes = false) :
    ∃ s', exec (.accessPerformed t id) s = .next s' ∧ dataStands s s' ∧ scratchBut s s' core off f.ty.bytes := by
  refine ⟨_, exec_due h (by intros; nofun), ?_⟩
  obtain ⟨hd, hs⟩ := State.sAtom_scratchBut (s := s.dropLate t id) hp t b true g
  have hclean : ((s.dropLate t id).sAtom t f core off b true g).2.1 = false := by
    rw [State.sAtom_eq]
    exact hp
  have hperf : (s.dropLate t id).performUnit t (.effect (.redS f core off b g) sp) =
      ((s.dropLate t id).sAtom t f core off b true g).2.2 := by
    simp only [State.performUnit, State.performEffect, hclean, Bool.false_eq_true, if_false]
  rw [hperf]
  exact performed_scratchBut hd hs

/-! ## The unit of an atomic in memory -/

/-- Registers and scratchpads stand, and so does memory but for n bytes. -/
def memoryBut (s s' : State) (pa n : Nat) : Prop :=
  localStands s s' ∧ ∀ x, ¬(pa ≤ x ∧ x < pa + n) → memGet s'.mem x = memGet s.mem x

theorem memoryBut_of_stands {s s' : State} (h : localStands s s' ∧ s'.mem = s.mem) (pa n : Nat) : memoryBut s s' pa n :=
  ⟨h.1, fun x _ => by rw [h.2]⟩

theorem memoryBut.then_stands {s s1 s' : State} {pa n : Nat} (h : memoryBut s s1 pa n) (h1 : localStands s1 s' ∧ s'.mem = s1.mem) :
    memoryBut s s' pa n :=
  ⟨h.1.trans h1.1, fun x hx => by rw [h1.2, h.2 x hx]⟩

/-- A request to a peer, where the fabric may be used, is sent or waits (R334, R432). -/
theorem State.sendRequest_stands {s : State} (hf : s.helm.fabValid = true) (t : Nat) (ctx : BitVec 16) (kind : ReqKind) (dev : BitVec 12)
    (pa : Nat) (data : List Byte) :
    localStands s (s.sendRequest t ctx kind [dev] pa data) ∧ (s.sendRequest t ctx kind [dev] pa data).mem = s.mem := by
  refine ⟨⟨(onlyAccesses_sendRequest ..).getLoc, ?_⟩, ?_⟩
  all_goals
    simp only [State.sendRequest, hf, Bool.not_true, Bool.false_eq_true, if_false, List.length_nil, List.length_cons, Nat.reduceAdd,
      Nat.zero_ne_one]
  · intro c j
    split <;> rfl
  · split <;> rfl

/-- A write at the home slice, and in the line of the core, changes memory there alone (R195). -/
theorem State.writeBoth_memoryBut {s : State} (hm : s.memOk) (core pa : Nat) (bs : List Byte) :
    memoryBut s (s.writeBoth core pa bs) pa bs.length := by
  refine ⟨(localStands_writeHome s pa bs [] []).trans (localStands_updateOwn ..), fun x hx => ?_⟩
  rw [State.writeBoth_mem, memGet_memWrite hm, State.keptBytes_length, if_neg hx]

theorem State.gAtom_memoryBut {s : State} (hm : s.memOk) (hs : settled s) (core : Nat) (f : Fields) (pa b : Nat) :
    memoryBut s (s.gAtom core f pa b).2.2 pa f.ty.bytes := by
  rw [State.gAtom_eq hs]
  dsimp only
  split
  · exact memoryBut_of_stands ⟨.refl s, rfl⟩ ..
  · have h := State.writeBoth_memoryBut hm core pa (leBytes f.ty.bytes (atomValue f.aop f.ty f.rnd (ofBytes (seen s pa f.ty.bytes)) b))
    rwa [leBytes_length] at h

theorem State.gRedHome_memoryBut {s : State} (hm : s.memOk) (hs : settled s) {f : Fields} {pa : Nat}
    (hp : s.poisoned pa f.ty.bytes = false) (t core b : Nat) : memoryBut s (s.gRedHome t core f pa b) pa f.ty.bytes := by
  simp only [State.gRedHome, State.recall_of_settled hs, State.flush_of_empty hs.1, hp, Bool.false_eq_true, if_false]
  have h := State.writeBoth_memoryBut hm core pa (leBytes f.ty.bytes (atomValue f.aop f.ty f.rnd (s.homeWord pa f.ty.bytes) b))
  rwa [leBytes_length] at h

/-- A reduction below SCOPE 3 makes a partial in the L1 of its core, where that is empty (R202). -/
theorem State.gRedL1_stands {s : State} {core : Nat} (hc : (s.core core).l1 = []) (t : Nat) (ctx : BitVec 16) (f : Fields) (va : W64)
    (pg : Page) (b : Nat) : localStands s (s.gRedL1 t core ctx f va pg b) ∧ (s.gRedL1 t core ctx f va pg b).mem = s.mem := by
  have hnone : (s.core core).line ctx va = none := by rw [Core.line, hc]; rfl
  have hroom : s.makeRoom core = s := by rw [State.makeRoom, hc]; rfl
  simp only [State.gRedL1, hnone, hroom]
  exact ⟨localStands_putLine .., rfl⟩

/-- The effect of an atomic or reduction on memory changes its element alone, and on a peer's page nothing of this device. -/
theorem State.performAtomic_memoryBut {s : State} {t : Nat} {f : Fields} {va : W64} {pg : Page} {b out : Nat} {eff : Effect}
    (he : eff = .atomG f va pg b out ∨ eff = .redG f va pg b) (hm : s.memOk) (hu : uncached s) (hf : s.helm.fabValid = true)
    (hp : s.poisoned pg.pa f.ty.bytes = false) :
    localStands s (s.performEffect t eff) ∧
      ∀ x, ¬(pg.peer = none ∧ pg.pa ≤ x ∧ x < pg.pa + f.ty.bytes) → memGet (s.performEffect t eff).mem x = memGet s.mem x := by
  have hs := settled_of_uncached hu
  cases hpeer : pg.peer with
  | some dev =>
    have hsend : localStands s (s.performEffect t eff) ∧ (s.performEffect t eff).mem = s.mem := by
      rcases he with rfl | rfl <;> simp only [State.performEffect, hpeer] <;> exact State.sendRequest_stands hf ..
    exact ⟨hsend.1, fun x _ => by rw [hsend.2]⟩
  | none =>
    have hbut : memoryBut s (s.performEffect t eff) pg.pa f.ty.bytes := by
      rcases he with rfl | rfl <;> simp only [State.performEffect, hpeer]
      · exact (State.gAtom_memoryBut hm hs ..).then_stands (State.answered_stands ..)
      · split
        · exact State.gRedHome_memoryBut hm hs hp ..
        · exact memoryBut_of_stands (State.gRedL1_stands (l1_of_uncached hu _) ..) ..
    exact ⟨hbut.1, fun x hx => hbut.2 x fun hr => hx ⟨rfl, hr⟩⟩

theorem exec_due_globalAtom {s : State} {t id : Nat} {q : Option Nat} {f : Fields} {va : W64} {pg : Page} {b out : Nat} {sp : List Span}
    {eff : Effect} (he : eff = .atomG f va pg b out ∨ eff = .redG f va pg b) (h : due s t id q (.effect eff sp)) (hm : s.memOk)
    (hu : uncached s) (hf : s.helm.fabValid = true) (hp : s.poisoned pg.pa f.ty.bytes = false) :
    ∃ s', exec (.accessPerformed t id) s = .next s' ∧ (∀ u l, s'.getLoc u l = s.getLoc u l) ∧ scratchStands s s' ∧
      ∀ x, ¬(pg.peer = none ∧ pg.pa ≤ x ∧ x < pg.pa + f.ty.bytes) → memGet s'.mem x = memGet s.mem x := by
  refine ⟨_, exec_due h (by intros; nofun), ?_⟩
  obtain ⟨hl, hmem⟩ := State.performAtomic_memoryBut (s := s.dropLate t id) (t := t) he hm hu hf hp
  have hall := ((localStands_dropLate s t id).trans hl).trans (localStands_acknowledge _ t id)
  exact ⟨hall.1, hall.2, hmem⟩

end Sys2Proof.Machine
end

section
/-! CLAIM. The atomics and reductions complete, and what they leave. -/

open Sys2Proof Sys2Proof.Machine Sys2Proof.Claim

/-- Settles O23: each completes by the outcome of its part in one thread; a relaxed one enters its unit and writes nothing; and the unit,
performed alone, is one read-modify-write, a partial in the L1, or a request to a peer. -/
theorem atomicsAndReductions : Obligations.AtomicsAndReductions := by
  unfold Obligations.AtomicsAndReductions
  exact ⟨fun e he f _ => atomicParts_completes he f,
    fun e he f s a t s' _ hr h hp => ⟨(atomicParts_completes he f).exec_alone (atomicParts_alone he f) h hp,
      stands_of_entered (atomicParts_stands he hr hp)⟩,
    fun s t id q f core off b own g out sp h hp => exec_due_atomL h hp,
    fun s t id q f core off b g sp h hp => exec_due_redS h hp,
    fun s t id q f va pg b out sp eff he h hm hu hf hp => exec_due_globalAtom he h hm hu hf hp⟩

end

section
/-! SUPPORT. An instruction in a thread alone in its group, its outstanding results, and the effects that are issued (R63, R188). -/

namespace Sys2Proof.Machine

open Sys2Proof.Claim

/-! ## One thread alone -/

/-- A thread alone in its group is the one that performs an instruction that its group issues once. -/
theorem State.runOnce_alone {i : Instr} {f : Fields} {s : State} {a : W64} {t : Nat} (h : Alone s i f a t)
    (part : Nat → State → Option State) : s.runOnce i f a part [t] = part t (entered s t a f) := by
  obtain ⟨-, hst, hg, -, hw, hsh⟩ := h
  have hadm : s.admitAll a f [t] = s.pastGuard t a f := by simp [State.admitAll, hg]
  have hfil : [t].filter (fun t => s.guarded t f == some true) = [t] := by simp [hg]
  have hall : [t].all (fun t => s.stands a t && (s.guarded t f).isSome && !s.shadowed t) = true := by simp [hst, hg, hsh]
  simp only [State.runOnce, hall, hadm, hfil, hw, List.nodup_singleton, decide_true, Bool.not_true, Bool.or_self,
    Bool.false_eq_true, if_false, List.foldl_nil, entered]

/-- A thread alone in its group performs an instruction in its turn. -/
theorem State.runGroup_alone {i : Instr} {f : Fields} {s s' : State} {a : W64} {t : Nat} (h : Alone s i f a t)
    {part : Nat → State → Option State} (hp : part t (entered s t a f) = some s') : State.runGroup i f a part [t] s = some s' := by
  obtain ⟨-, hst, hg, hw, -, hsh⟩ := h
  rw [entered] at hp
  simp only [State.runGroup, hst, hsh, hg, hw, hp, Bool.not_true, Bool.or_false, Bool.false_eq_true, if_false]

/-- What an instruction does in a thread alone in its group is what it does. -/
theorem State.perform_alone {i : Instr} {f : Fields} {body : Nat → State → Except Stop State} {s s' : State} {a : W64} {t : Nat}
    (h : Alone s i f a t) (hp : body t (entered s t a f) = .ok s') : s.perform i f body = .next s' := by
  have hbody : ∀ t s s', (body t s).toOption = some s' → body t s = .ok s' := fun t s s' hs => by
    cases hb : body t s with
    | error e => rw [hb] at hs; cases hs
    | ok x => rw [hb] at hs; cases hs; rfl
  have hpart : (body t (entered s t a f)).toOption = some s' := by rw [hp]; rfl
  obtain ⟨c, hcur⟩ := h.cur
  unfold State.perform
  split
  · exact State.onceOp_completes (part := fun t s => (body t s).toOption) hbody hcur ((State.runOnce_alone h _).trans hpart)
  · exact State.threadOp_completes hbody hcur (State.runGroup_alone h hpart)

theorem listed_of_alone {s : State} {i : Instr} {f : Fields} {a : W64} {t : Nat} (h : Alone s i f a t) : (tget s.threads t).isSome :=
  State.listed_of_live (State.stands_iff.1 h.stands).1

/-! ## What an instruction leaves of its thread while it notes and issues its effect -/

/-- From one state to another a thread stays at its instruction and keeps its outstanding results; registers, memory and scratchpads stand. -/
structure staysAt (s s' : State) (t : Nat) : Prop where
  stands : localStands s s'
  mem : s'.mem = s.mem
  pc : (s'.thread t).pc = (s.thread t).pc
  out : ∀ o ∈ (s.thread t).out, o ∈ (s'.thread t).out
  listed : (tget s.threads t).isSome → (tget s'.threads t).isSome

theorem staysAt.refl (s : State) (t : Nat) : staysAt s s t := ⟨.refl s, rfl, rfl, fun _ h => h, id⟩

theorem staysAt.trans {s s1 s2 : State} {t : Nat} (h : staysAt s s1 t) (h1 : staysAt s1 s2 t) : staysAt s s2 t :=
  ⟨h.stands.trans h1.stands, h1.mem.trans h.mem, h1.pc.trans h.pc, fun o ho => h1.out o (h.out o ho), fun hl => h1.listed (h.listed hl)⟩

theorem State.thread_of_threads {s s' : State} (h : s'.threads = s.threads) (t : Nat) : s'.thread t = s.thread t := by
  rw [State.thread, h, State.thread]

theorem staysAt_of_threads {s s' : State} (h : localStands s s') (hm : s'.mem = s.mem) (ht : s'.threads = s.threads) (t : Nat) :
    staysAt s s' t := by
  have hth := State.thread_of_threads ht t
  exact ⟨h, hm, by rw [hth], fun o ho => by rwa [hth], fun hl => by rwa [ht]⟩

theorem staysAt_nextId (s : State) (n t : Nat) : staysAt s { s with nextId := n } t :=
  staysAt_of_threads (s := s) (s' := { s with nextId := n }) ⟨fun u l => by cases l <;> rfl, fun _ _ => rfl⟩ rfl rfl t

theorem staysAt_modThread (s : State) (t : Nat) {f : Thread → Thread} (hv : ∀ th, (f th).v = th.v) (hp : ∀ th, (f th).p = th.p)
    (hpc : ∀ th, (f th).pc = th.pc) (ho : ∀ th, ∀ o ∈ th.out, o ∈ (f th).out) : staysAt s (s.modThread t f) t := by
  refine ⟨localStands_modThread s t hv hp, rfl, ?_, ?_, fun hl => ?_⟩
  · rw [State.thread_modThread]
    split
    · exact hpc _
    · rfl
  · rw [State.thread_modThread]
    split
    · exact ho _
    · exact fun _ h => h
  · rwa [State.modThread_threads, tget_tmod_isSome]

theorem staysAt_consume (s : State) (t : Nat) (a : W64) (g : Tags) : staysAt s (s.consume t a g) t := by
  unfold State.consume
  split
  · exact .refl s t
  · exact staysAt_modThread s t (fun _ => rfl) (fun _ => rfl) (fun _ => rfl) fun _ _ h => h

theorem State.logDests_threads (s : State) (t : Nat) (ls : List Loc) : (s.logDests t ls).threads = s.threads := by
  unfold State.logDests
  refine foldl_keeps (fun s : State => s.threads) _ (fun s l => ?_) ls s
  split
  · rfl
  · exact State.logWrite_threads ..

theorem State.logDests_blocks (s : State) (t : Nat) (ls : List Loc) : (s.logDests t ls).blocks = s.blocks := by
  unfold State.logDests
  refine foldl_keeps (fun s : State => s.blocks) _ (fun s l => ?_) ls s
  split
  · rfl
  · exact State.logWrite_blocks ..

theorem State.logDests_cores (s : State) (t : Nat) (ls : List Loc) : (s.logDests t ls).cores = s.cores := by
  unfold State.logDests
  refine foldl_keeps (fun s : State => s.cores) _ (fun s l => ?_) ls s
  split
  · rfl
  · exact State.logWrite_cores ..

theorem State.logDests_ctxs (s : State) (t : Nat) (ls : List Loc) : (s.logDests t ls).ctxs = s.ctxs := by
  unfold State.logDests
  refine foldl_keeps (fun s : State => s.ctxs) _ (fun s l => ?_) ls s
  split
  · rfl
  · exact State.logWrite_ctxs ..

theorem State.logDests_seq (s : State) (t : Nat) (ls : List Loc) : (s.logDests t ls).seq = s.seq := by
  unfold State.logDests
  refine foldl_keeps (fun s : State => s.seq) _ (fun s l => ?_) ls s
  split
  · rfl
  · exact State.logWrite_seq ..

/-! ## Outstanding results -/

section Outstanding

variable (s : State) (t : Nat) (dests : List Loc) (wb : Option (List (Loc × Reg))) (la : Nat) (long : Bool) (lines : List Nat)
  (logged : List Loc) (miss : List Nat) (acq : Bool) (late : Option LateLoad)

/-- The results a thread has outstanding after one more (R63). -/
theorem State.addOut_thread (hl : (tget s.threads t).isSome) :
    (s.addOut t dests wb la long lines logged miss acq late).thread t = { s.thread t with
      out := (s.thread t).out ++
        [{ id := s.nextId, dests := dests, wb := wb, long := long, la := la, seq := s.seq,
           tags := (s.thread t).tagUnion, lines := lines, asked := s.cycle, miss := miss, acq := acq, late := late }] } := by
  have hth : ({ s.logDests t logged with nextId := s.nextId + 1 } : State).threads = s.threads := State.logDests_threads s t logged
  have hthread : ({ s.logDests t logged with nextId := s.nextId + 1 } : State).thread t = s.thread t := by
    rw [State.thread, hth, State.thread]
  rw [State.addOut, State.thread_modThread, hth, if_pos ⟨rfl, hl⟩, hthread]

theorem staysAt_addOut : staysAt s (s.addOut t dests wb la long lines logged miss acq late) t := by
  obtain ⟨hl, hm⟩ := s.logDests_stands t logged
  have hlog : staysAt s { s.logDests t logged with nextId := s.nextId + 1 } t :=
    (staysAt_of_threads hl hm (State.logDests_threads ..) t).trans (staysAt_nextId _ _ t)
  exact hlog.trans (staysAt_modThread _ t (fun _ => rfl) (fun _ => rfl) (fun _ => rfl) fun _ _ h => List.mem_append_left _ h)

theorem owes_addOut (hl : (tget s.threads t).isSome) : owes (s.addOut t dests wb la long lines logged miss acq late) t dests wb := by
  rw [owes, State.addOut_thread s t dests wb la long lines logged miss acq late hl]
  exact ⟨_, List.mem_append_right _ List.mem_cons_self, rfl, rfl⟩

theorem State.addOut_block (b : Nat) : (s.addOut t dests wb la long lines logged miss acq late).block b = s.block b :=
  congrArg (fun m => tgetD m b _) (State.logDests_blocks s t logged)

theorem State.addOut_core (c : Nat) : (s.addOut t dests wb la long lines logged miss acq late).core c = s.core c :=
  congrArg (fun m => tgetD m c _) (State.logDests_cores s t logged)

theorem State.addOut_ctxs : (s.addOut t dests wb la long lines logged miss acq late).ctxs = s.ctxs := State.logDests_ctxs s t logged

theorem State.addOut_seq : (s.addOut t dests wb la long lines logged miss acq late).seq = s.seq := State.logDests_seq s t logged

/-- An outstanding result holds no effect back (R188). -/
theorem State.addOut_holds (hl : (tget s.threads t).isSome) :
    (s.addOut t dests wb la long lines logged miss acq late).holds t = s.holds t := by
  simp only [State.holds, State.coreOf, State.addOut_block, State.addOut_core, State.addOut_thread s t dests wb la long lines logged
    miss acq late hl]
  rfl

end Outstanding

theorem owes_of_staysAt {s s' : State} {t : Nat} {dests : List Loc} {wb : Option (List (Loc × Reg))} (h : owes s t dests wb)
    (hs : staysAt s s' t) : owes s' t dests wb := by
  obtain ⟨o, ho, hd, hw⟩ := h
  exact ⟨o, hs.out o ho, hd, hw⟩

/-! ## An effect that is a unit -/

theorem staysAt_enterUnits (s : State) (t : Nat) (q : Option Nat) (us : List LateUnit) : staysAt s (s.enterUnits t q us) t := by
  unfold State.enterUnits
  refine List.foldlRecOn us _ (motive := fun s' => staysAt s s' t) (.refl s t) fun s1 h u _ => h.trans ?_
  refine (staysAt_nextId s1 (s1.nextId + 1) t).trans ?_
  exact staysAt_modThread _ t (fun _ => rfl) (fun _ => rfl) (fun _ => rfl) fun _ _ h => h

/-- An effect with units, no acquire, is held or enters them (R188, R308). -/
theorem staysAt_emit {s : State} {t : Nat} {a : W64} {e : Effect} {us : List LateUnit} (hu : s.unitsOf t a e = some us)
    (ha : e.acquires = false) : staysAt s (s.emit t a e) t := by
  unfold State.emit
  split
  · exact staysAt_of_threads (localStands_hold ..) rfl rfl t
  · simp only [State.enter, hu, ha, Bool.false_eq_true, if_false]
    exact staysAt_enterUnits ..

/-- The one unit of an effect that is not held is still to be performed (R308). -/
theorem stillDue_emit {s : State} {t : Nat} {a : W64} {e : Effect} {u : LateUnit} (hu : s.unitsOf t a e = some [u])
    (ha : e.acquires = false) (hh : s.holds t = false) (hl : (tget s.threads t).isSome) : stillDue (s.emit t a e) t (some s.seq) u := by
  have hunit : s.emit t a e = s.enterUnits t (some s.seq) [u] := by
    simp only [State.emit, hh, State.enter, hu, ha, Bool.false_eq_true, if_false]
  rw [hunit]
  refine ⟨s.nextId, mem_lates_of_pend (c := s.cycle) ?_⟩
  have hth : ((s.enterUnits t (some s.seq) [u]).thread t) = { s.thread t with pend := (s.thread t).pend ++ [(s.nextId, .late (some s.seq) s.cycle u)] } := by
    rw [State.enterUnits, List.foldl_cons, List.foldl_nil, State.thread_modThread, if_pos ⟨rfl, hl⟩]
    rfl
  rw [hth]
  exact List.mem_append_right _ List.mem_cons_self

/-! ## The state an instruction has entered -/

theorem entered_listed {s : State} {t : Nat} (hl : (tget s.threads t).isSome) (a : W64) (f : Fields) :
    (tget (entered s t a f).threads t).isSome := by
  rw [entered, State.advance, State.modThread_threads, tget_tmod_isSome]
  exact (staysAt_consume s t a _).listed hl

theorem entered_pc {s : State} {t : Nat} (hl : (tget s.threads t).isSome) (a : W64) (f : Fields) :
    ((entered s t a f).thread t).pc = a + 12 := by
  rw [entered, State.advance, State.thread_modThread, if_pos ⟨rfl, (staysAt_consume s t a _).listed hl⟩]

theorem entered_here {s : State} {t : Nat} (hl : (tget s.threads t).isSome) (a : W64) (f : Fields) : (entered s t a f).here t = a := by
  rw [State.here, entered_pc hl, BitVec.add_sub_cancel]

theorem entered_ctxs (s : State) (t : Nat) (a : W64) (f : Fields) : (entered s t a f).ctxs = s.ctxs := State.consume_ctxs ..

theorem entered_core (s : State) (t : Nat) (a : W64) (f : Fields) (c : Nat) : (entered s t a f).core c = s.core c := by
  have h : (entered s t a f).cores = s.cores := State.consume_cores ..
  rw [State.core, h, State.core]

theorem entered_seq (s : State) (t : Nat) (a : W64) (f : Fields) : (entered s t a f).seq = s.seq := State.consume_seq ..

theorem entered_crew (s : State) (t : Nat) (a : W64) (f : Fields) (c : Nat) : (entered s t a f).crew c = s.crew c := by
  have h : (entered s t a f).crews = s.crews := State.consume_crews ..
  rw [State.crew, h, State.crew]

/-- What an instruction leaves that stays at its program counter after it has entered: registers, memory, and the next address. -/
theorem staysAt.of_entered {s s' : State} {t : Nat} {a : W64} {f : Fields} (hl : (tget s.threads t).isSome)
    (h : staysAt (entered s t a f) s' t) : (s'.thread t).pc = a + 12 ∧ dataStands s s' :=
  ⟨h.pc.trans (entered_pc hl a f), (stands_of_entered ⟨h.stands, h.mem⟩).1⟩

end Sys2Proof.Machine
end

section
/-! SUPPORT. Multicast groups (R211 to R217): the handle of a group, the record it is opened from, the words that open and close one, and
what a group operation notes and asks. -/

namespace Sys2Proof.Machine

open Sys2Proof.Claim

/-! ## Handles -/

/-- A handle names a group of a context where its INDEX, its GEN and its zeros do (R213). -/
theorem groupOf_eq_some {s : State} {ctx : BitVec 16} {h : W32} {g : Group} : s.groupOf ctx h = some g ↔ opens s ctx h.toNat g := by
  unfold State.groupOf opens
  have h64 : (2 : Nat) ^ 6 = 64 := rfl
  rw [h64]
  cases hg : tget (s.ctx ctx).groups (h.toNat % 64) with
  | none => simp
  | some x =>
    simp only [Option.ite_none_right_eq_some, Option.some.injEq]
    constructor
    · rintro ⟨⟨hz, hgen⟩, rfl⟩
      exact ⟨rfl, by omega, by omega⟩
    · rintro ⟨rfl, hh, hgen⟩
      exact ⟨⟨by omega, by omega⟩, rfl⟩

theorem groupOf_eq_none {s : State} {ctx : BitVec 16} {h : W32} (hn : ∀ g, ¬opens s ctx h.toNat g) : s.groupOf ctx h = none := by
  cases hg : s.groupOf ctx h with
  | none => rfl
  | some g => exact absurd (groupOf_eq_some.1 hg) (hn g)

theorem State.ctx_of_ctxs {s s' : State} (h : s'.ctxs = s.ctxs) (c : BitVec 16) : s'.ctx c = s.ctx c := by
  rw [State.ctx, h, State.ctx]

theorem opens_of_ctxs {s s' : State} (h : s'.ctxs = s.ctxs) {ctx : BitVec 16} {n : Nat} {g : Group} :
    opens s' ctx n g ↔ opens s ctx n g := by
  rw [opens, State.ctx_of_ctxs h, opens]

theorem State.ctx_modCtx {s : State} {c : BitVec 16} (h : (tget s.ctxs c.toNat).isSome) (f : Context → Context) :
    (s.modCtx c f).ctx c = f (s.ctx c) := by
  simp only [State.ctx, State.modCtx, tgetD_tmod, h, and_self, if_true]

/-- One clean uniform register as an operand. -/
theorem State.readS_one (s : State) (t n : Nat) : s.readS t n 1 =
    { val := ((s.crew (crewOf t)).getS n).val.toNat, poison := ((s.crew (crewOf t)).getS n).poison,
      tags := ((s.crew (crewOf t)).getS n).tags, place := 0 } := by
  unfold State.readS opdOf
  simp only [List.range_one, List.map_cons, List.map_nil, Nat.add_zero, List.any_cons, List.any_nil, Bool.or_false, List.foldl_cons,
    List.foldl_nil, ofWords, List.foldr_cons, List.foldr_nil, Nat.mul_zero]
  congr 1
  · simp
  · cases hp : ((s.crew (crewOf t)).getS n).poison <;> simp [hp]

/-! ## The answer of an effect -/

/-- A result that a thread has had outstanding since now, and that an effect answers (R63). -/
theorem owes_answer {s : State} {t id : Nat} {dests : List Loc} {wb : List (Loc × Reg)} (hl : (tget s.threads t).isSome)
    (h : ∃ o ∈ (s.thread t).out, o.id = id ∧ o.dests = dests) : owes (s.answer t id wb) t dests (some wb) := by
  obtain ⟨o, ho, hid, hd⟩ := h
  refine ⟨{ o with wb := some wb }, ?_, hd, rfl⟩
  rw [State.answer, State.thread_modThread, if_pos ⟨rfl, hl⟩]
  exact List.mem_map.2 ⟨o, ho, if_pos hid⟩

theorem State.answer_pc (s : State) (t id : Nat) (wb : List (Loc × Reg)) (u : Nat) : ((s.answer t id wb).thread u).pc = (s.thread u).pc := by
  rw [State.answer, State.thread_modThread]
  split <;> rfl

/-- The word that answers a group's opening or closing, in the register that stands outstanding. -/
def State.giveWord (s : State) (t out x : Nat) : State :=
  s.answer t out [((((s.thread t).out.reverse.find? (·.id == out)).bind fun o => o.dests.head?).getD (.s 0),
    { val := BitVec.ofNat 32 x, poison := false, tags := 0 })]

/-- A state in which a thread has just noted a result: the last it has outstanding. -/
def justNoted (s : State) (t id : Nat) (dests : List Loc) : Prop :=
  (tget s.threads t).isSome ∧ ∃ os o, (s.thread t).out = os ++ [o] ∧ o.id = id ∧ o.dests = dests

theorem justNoted_of_threads {s s' : State} (h : s'.threads = s.threads) {t id : Nat} {dests : List Loc} (hj : justNoted s t id dests) :
    justNoted s' t id dests := by
  rw [justNoted, State.thread, h]
  exact hj

theorem justNoted_addOut {s : State} {t : Nat} (hl : (tget s.threads t).isSome) (dests : List Loc) (la : Nat) :
    justNoted (s.addOut t dests none la false) t s.nextId dests :=
  ⟨(staysAt_addOut s t dests none la false [] dests [] false none).listed hl, _, _,
    congrArg Thread.out (State.addOut_thread s t dests none la false [] dests [] false none hl), rfl, rfl⟩

/-- The word is owed to the register of the result just noted. -/
theorem owes_giveWord {s : State} {t id : Nat} {dests : List Loc} (h : justNoted s t id dests) (x : Nat) :
    owes (s.giveWord t id x) t dests (some [(dests.head?.getD (.s 0), { val := BitVec.ofNat 32 x, poison := false, tags := 0 })]) := by
  obtain ⟨hl, os, o, hout, hid, hd⟩ := h
  have hfind : (s.thread t).out.reverse.find? (·.id == id) = some o := by
    rw [hout, List.reverse_append, List.reverse_singleton, List.singleton_append, List.find?_cons_of_pos (by simp [hid])]
  rw [State.giveWord, hfind, Option.bind_some, hd]
  exact owes_answer hl ⟨o, by simp [hout], hid, hd⟩

/-! ## Opening a group -/

/-- Registers a group under a handle that a context has free (R213). -/
def State.register (s : State) (ctx : BitVec 16) (k gen : Nat) (ms : List (BitVec 12)) (ordered : Bool) : State :=
  s.modCtx ctx fun c => { c with groups := tset c.groups k { gen := gen, members := ms, ordered := ordered }, groupGen := gen }

/-- What the opening of a group makes of a state: NO_GROUP, or a new group and its handle. -/
inductive Opened (s : State) (t id : Nat) (ordered : Bool) (ms : List (BitVec 12)) : State → Prop
  | full {s1 : State} (ht : s1.threads = s.threads) (hm : s1.mem = s.mem) (hx : s1.ctxs = s.ctxs) :
      Opened s t id ordered ms (s1.giveWord t id 0xFFFFFF07)
  | registered {s1 : State} {k gen : Nat} (ht : s1.threads = s.threads) (hm : s1.mem = s.mem) (hx : s1.ctxs = s.ctxs) (hk : k < 64)
      (hfree : tget (s.ctx (s.block (blockOf t)).ctx).groups k = none) (hgen : gen < 2 ^ 20) :
      Opened s t id ordered ms ((s1.register (s.block (blockOf t)).ctx k gen ms ordered).giveWord t id (gen * 64 + k))

theorem freeHandle_some {c : Context} {k : Nat} (h : c.freeHandle = some k) : k < 64 ∧ tget c.groups k = none :=
  ⟨List.mem_range.1 (List.mem_of_find?_eq_some h), by simpa using List.find?_some h⟩

theorem performEffect_mcgOpen (s : State) (t id : Nat) (ordered : Bool) (ms : List (BitVec 12)) :
    Opened s t id ordered ms (s.performEffect t (.mcgOpen ordered (some ms) id)) := by
  simp only [State.performEffect]
  split
  · exact .full rfl rfl rfl
  · rename_i k hk
    obtain ⟨hlt, hfree⟩ := freeHandle_some hk
    split
    · exact .full rfl rfl rfl
    · exact .registered (s1 := s.switchesFull.2) rfl rfl rfl hlt hfree (Nat.mod_lt _ (by decide))

/-- What stands of a state whose group a thread opens: registers, memory, and the thread's program counter. -/
theorem Opened.stands {s s' : State} {t id : Nat} {ordered : Bool} {ms : List (BitVec 12)} (h : Opened s t id ordered ms s') :
    s'.mem = s.mem ∧ (s'.thread t).pc = (s.thread t).pc := by
  cases h with
  | full ht hm hx => exact ⟨hm, (State.answer_pc ..).trans (congrArg Thread.pc (State.thread_of_threads ht t))⟩
  | @registered s1 k gen ht hm hx hk hfree hgen =>
    have hth := State.thread_of_threads (s' := s1.register (s.block (blockOf t)).ctx k gen ms ordered) ht t
    exact ⟨hm, (State.answer_pc ..).trans (congrArg Thread.pc hth)⟩

/-- The opening of a group answers NO_GROUP or the handle of a group that its context had free (R213). -/
theorem Opened.result {s s' : State} {t id : Nat} {ordered : Bool} {ms : List (BitVec 12)} {dests : List Loc}
    (h : Opened s t id ordered ms s') (hj : justNoted s t id dests) (hc : (tget s.ctxs (s.block (blockOf t)).ctx.toNat).isSome) :
    ∃ r : W32, owes s' t dests (some [(dests.head?.getD (.s 0), { val := r, poison := false, tags := 0 })]) ∧
      (r = 0xFFFFFF07 ∨ ∃ k g, k < 64 ∧ tget (s.ctx (s.block (blockOf t)).ctx).groups k = none ∧
        opens s' (s.block (blockOf t)).ctx r.toNat g ∧ r.toNat % 64 = k ∧ g.members = ms ∧ g.ordered = ordered) := by
  cases h with
  | full ht hm hx => exact ⟨0xFFFFFF07, owes_giveWord (justNoted_of_threads ht hj) _, .inl rfl⟩
  | @registered s1 k gen ht hm hx hk hfree hgen =>
    have hr : (BitVec.ofNat 32 (gen * 64 + k)).toNat = gen * 64 + k := by
      rw [BitVec.toNat_ofNat]
      omega
    have hctx : ((s1.register (s.block (blockOf t)).ctx k gen ms ordered).ctx (s.block (blockOf t)).ctx).groups =
        tset (s1.ctx (s.block (blockOf t)).ctx).groups k { gen := gen, members := ms, ordered := ordered } := by
      rw [State.register, State.ctx_modCtx (by rwa [hx])]
    refine ⟨BitVec.ofNat 32 (gen * 64 + k), owes_giveWord (justNoted_of_threads ht hj) _,
      .inr ⟨k, { gen := gen, members := ms, ordered := ordered }, hk, hfree, ?_, by omega, rfl, rfl⟩⟩
    rw [hr]
    refine ⟨?_, ?_, hgen⟩
    rotate_left
    · show gen * 64 + k = (gen * 64 + k) % 2 ^ 6 + 2 ^ 6 * gen
      omega
    have hmod : (gen * 64 + k) % 2 ^ 6 = k := by omega
    rw [hmod]
    show tget ((s1.register (s.block (blockOf t)).ctx k gen ms ordered).ctx (s.block (blockOf t)).ctx).groups k = _
    rw [hctx, tget_tset_same]

/-- The members of a record that stands in a block's scratchpad (R212). -/
theorem State.groupRecord_some {s : State} {t x off : Nat} {ms : List (BitVec 12)}
    (hp : placeS t x (8 + 2 * ms.length) 8 s = some off) (hr : groupRecordAt (s.core (s.block (blockOf t)).core) off ms) :
    s.groupRecord t x = .ok (some ms) := by
  obtain ⟨hpos, hmax, hnd, hhead, hmem⟩ := hr
  simp only [placeS, Option.ite_none_right_eq_some, Option.some.injEq] at hp
  obtain ⟨⟨hfit, halign⟩, rfl⟩ := hp
  have hhdr : s.checkS t x 8 8 = .ok ((s.block (blockOf t)).spBase + x) := by
    simp only [State.checkS]
    rw [if_neg (by omega), if_neg (by omega)]
  have hbody : s.checkS t (x + 8) (2 * ms.length) 2 = .ok ((s.block (blockOf t)).spBase + x + 8) := by
    simp only [State.checkS]
    rw [if_neg (by omega), if_neg (by omega), Nat.add_assoc]
  have hread : ((List.range ms.length).map fun k =>
      ofBytes ((s.core (s.block (blockOf t)).core).sRead ((s.block (blockOf t)).spBase + x + 8 + 2 * k) 2)) = ms.map BitVec.toNat := by
    refine List.ext_getElem (by simp) fun k h1 h2 => ?_
    have hk : k < ms.length := by simpa using h1
    rw [List.getElem_map, List.getElem_range, hmem k hk, List.getElem_map, List.getD_eq_getElem _ _ hk]
  have hbig : ((ms.map BitVec.toNat).any (· ≥ 2 ^ 12)) = false := by
    simp only [List.any_eq_false, List.mem_map, decide_eq_true_eq]
    rintro n ⟨m, -, rfl⟩
    have := m.isLt
    omega
  have hdistinct : (ms.map BitVec.toNat).Nodup := hnd.map fun _ _ h => BitVec.eq_of_toNat_eq h
  have hback : (ms.map BitVec.toNat).map (BitVec.ofNat 12) = ms := by
    rw [List.map_map]
    exact (List.map_congr_left fun m _ => by simp).trans (List.map_id ms)
  have hn : ms.length % 2 ^ 13 = ms.length := Nat.mod_eq_of_lt (by omega)
  have hhigh : ms.length / 2 ^ 13 = 0 := Nat.div_eq_of_lt (by omega)
  have hok : (decide (ms.length = 0) || decide (ms.length > 4096) || decide (ms.length / 2 ^ 13 ≠ 0)) = false := by
    simp only [Bool.or_eq_false_iff, decide_eq_false_iff_not]
    omega
  simp only [State.groupRecord, State.coreOf, hhdr, hhead, hn, hok, hbody, hread, hbig, hdistinct, hback, decide_true, Bool.not_true,
    Bool.or_self, Bool.false_eq_true, if_false]

theorem no_tags_or : (0 ||| 0 : Tags) = 0 := by decide

theorem Core.sectorTags_of_empty {c : Core} (h : c.stags = []) (off n : Nat) : c.sectorTags off n = 0 := by
  unfold Core.sectorTags
  refine List.foldlRecOn _ _ (motive := fun g => g = (0 : Tags)) rfl fun g hg k _ => ?_
  rw [hg, h]
  exact no_tags_or

/-- An effect that has no unit of its own is performed where it is issued. -/
theorem State.emit_at_once {s : State} {t : Nat} {a : W64} {e : Effect} (hu : s.unitsOf t a e = none) (hh : s.holds t = false) :
    s.emit t a e = s.performEffect t e := by
  simp only [State.emit, hh, State.enter, hu, Bool.false_eq_true, if_false]

/-- `mcg.open` notes its result and registers the group of its record at once (R212, R213). -/
theorem mcgOpen_exec {f : Fields} {s : State} {a : W64} {t x off : Nat} {o : Opd} {ms : List (BitVec 12)}
    (h : Alone s (.mcgOpen f) f a t) (hx : addressS f false t (entered s t a f) = some (o, x))
    (hh : (entered s t a f).holds t = false) (hn : nothingLate s) (ho : o.tags = 0) (hs : (s.core (s.block (blockOf t)).core).stags = [])
    (hp : placeS t x (8 + 2 * ms.length) 8 s = some off) (hr : groupRecordAt (s.core (s.block (blockOf t)).core) off ms) :
    exec (.mcgOpen f) s = .next (((entered s t a f).addOut t (destsOf (.mcgOpen f)) none f.la.toNat false).performEffect t
      (.mcgOpen (f.xc.getLsbD 0) (some ms) (entered s t a f).nextId)) := by
  show execMcgOpen f s = _
  refine State.perform_alone h ?_
  obtain ⟨hx, hpo⟩ := addr32_of_addressS hx
  have hsettle : (entered s t a f).settleAt t [spanS ((entered s t a f).coreOf t) 0 (2 ^ 20)] = entered s t a f :=
    State.settle_of_none (nothingLate_entered hn t a f t) _
  have hrec : (entered s t a f).groupRecord t x = .ok (some ms) := by
    refine State.groupRecord_some (off := off) ?_ ?_
    · simpa only [placeS, entered_block] using hp
    · rwa [entered_block, entered_core]
  have htags : ∀ off n, ((entered s t a f).core ((entered s t a f).coreOf t)).sectorTags off n = 0 := fun off n =>
    Core.sectorTags_of_empty (by rw [State.coreOf, entered_block, entered_core, hs]) off n
  have hemit : ∀ id, ((entered s t a f).addOut t (destsOf (.mcgOpen f)) none f.la.toNat false).emit t ((entered s t a f).here t)
      (.mcgOpen (f.xc.getLsbD 0) (some ms) id) = ((entered s t a f).addOut t (destsOf (.mcgOpen f)) none f.la.toNat false).performEffect t
      (.mcgOpen (f.xc.getLsbD 0) (some ms) id) := fun id =>
    State.emit_at_once rfl ((State.addOut_holds _ t _ none _ false [] _ [] false none (entered_listed (listed_of_alone h) a f)).trans hh)
  simp only [hx, hsettle, hpo, hrec, htags, ho, no_tags_or, State.consume_zero, hemit, Bool.false_eq_true, if_false]

end Sys2Proof.Machine
end

section
/-! SUPPORT. What the words of a multicast group leave at their issue, and what a group operation asks when it is performed (R211, R215,
R217, R437, R438). -/

namespace Sys2Proof.Machine

open Sys2Proof.Claim

/-! ## Opening and closing -/

theorem mcgOpen_result {f : Fields} {s : State} {a : W64} {t x off : Nat} {o : Opd} {ms : List (BitVec 12)}
    (h : Alone s (.mcgOpen f) f a t) (hx : addressS f false t (entered s t a f) = some (o, x))
    (hh : (entered s t a f).holds t = false) (hn : nothingLate s) (ho : o.tags = 0) (hs : (s.core (s.block (blockOf t)).core).stags = [])
    (hp : placeS t x (8 + 2 * ms.length) 8 s = some off) (hr : groupRecordAt (s.core (s.block (blockOf t)).core) off ms)
    (hc : (tget s.ctxs (s.block (blockOf t)).ctx.toNat).isSome) :
    ∃ s' r, exec (.mcgOpen f) s = .next s' ∧ (s'.thread t).pc = a + 12 ∧ dataStands s s' ∧
      owes s' t (destsOf (.mcgOpen f)) (some [((destsOf (.mcgOpen f)).head?.getD (.s 0), { val := r, poison := false, tags := 0 })]) ∧
      (r = 0xFFFFFF07 ∨ ∃ k g, k < 64 ∧ tget (s.ctx (s.block (blockOf t)).ctx).groups k = none ∧
        opens s' (s.block (blockOf t)).ctx r.toNat g ∧ r.toNat % 64 = k ∧ g.members = ms ∧ g.ordered = f.xc.getLsbD 0) := by
  have hl := entered_listed (listed_of_alone h) a f
  have hnote := staysAt_addOut (entered s t a f) t (destsOf (.mcgOpen f)) none f.la.toNat false [] (destsOf (.mcgOpen f)) [] false none
  have hctxs : ((entered s t a f).addOut t (destsOf (.mcgOpen f)) none f.la.toNat false).ctxs = s.ctxs :=
    (State.addOut_ctxs ..).trans (entered_ctxs ..)
  have hblock : ((entered s t a f).addOut t (destsOf (.mcgOpen f)) none f.la.toNat false).block (blockOf t) = s.block (blockOf t) :=
    (State.addOut_block ..).trans (entered_block ..)
  have hopen := performEffect_mcgOpen ((entered s t a f).addOut t (destsOf (.mcgOpen f)) none f.la.toNat false) t
    (entered s t a f).nextId (f.xc.getLsbD 0) ms
  obtain ⟨hpc, hd⟩ := hnote.of_entered (listed_of_alone h)
  obtain ⟨hmem, hpc'⟩ := hopen.stands
  obtain ⟨r, howes, hres⟩ := hopen.result (justNoted_addOut hl _ _) (by rwa [hctxs, hblock])
  rw [hblock, State.ctx_of_ctxs hctxs] at hres
  exact ⟨_, r, mcgOpen_exec h hx hh hn ho hs hp hr, hpc'.trans hpc,
    ⟨fun u l => ((onlyAccesses_performEffect ..).getLoc u l).trans (hd.1 u l), hmem.trans hd.2⟩, howes, hres⟩

theorem mcgClose_exec {f : Fields} {s : State} {a : W64} {t : Nat} {n : BitVec 8} {u v : Bool} (h : Alone s (.mcgClose f) f a t)
    (hsa : f.sa = .unif n u v) (hh : (entered s t a f).holds t = false) (hp : ((s.crew (crewOf t)).getS n.toNat).poison = false)
    (hg : ((s.crew (crewOf t)).getS n.toNat).tags = 0) :
    exec (.mcgClose f) s = .next (((entered s t a f).addOut t (destsOf (.mcgClose f)) none f.la.toNat false).performEffect t
      (.mcgClose ((s.crew (crewOf t)).getS n.toNat).val (entered s t a f).nextId)) := by
  show execMcgClose f s = _
  refine State.perform_alone h ?_
  have hreg : handleReg f.sa = n.toNat := by rw [hsa]; rfl
  have hemit : ∀ x id, ((entered s t a f).addOut t (destsOf (.mcgClose f)) none f.la.toNat false).emit t ((entered s t a f).here t)
      (.mcgClose x id) = ((entered s t a f).addOut t (destsOf (.mcgClose f)) none f.la.toNat false).performEffect t (.mcgClose x id) :=
    fun x id => State.emit_at_once rfl
      ((State.addOut_holds _ t _ none _ false [] _ [] false none (entered_listed (listed_of_alone h) a f)).trans hh)
  simp only [State.readS_one, hreg, entered_crew, hp, hg, State.consume_zero, hemit, BitVec.ofNat_toNat, BitVec.setWidth_eq,
    Bool.false_eq_true, if_false]

/-- Closes the group of a handle (R214). -/
def State.unregister (s : State) (ctx : BitVec 16) (k : Nat) : State :=
  s.modCtx ctx fun c => { c with groups := tdel c.groups k }

theorem performEffect_mcgClose_open {s : State} {t : Nat} {h : W32} {g : Group} (hg : s.groupOf (s.block (blockOf t)).ctx h = some g)
    (id : Nat) : s.performEffect t (.mcgClose h id) = (s.unregister (s.block (blockOf t)).ctx (h.toNat % 64)).giveWord t id 0 := by
  simp only [State.performEffect, hg]
  rfl

theorem performEffect_mcgClose_none {s : State} {t : Nat} {h : W32} (hg : s.groupOf (s.block (blockOf t)).ctx h = none) (id : Nat) :
    s.performEffect t (.mcgClose h id) = s.giveWord t id 6 := by
  simp only [State.performEffect, hg]
  rfl

theorem mcgClose_result {f : Fields} {s : State} {a : W64} {t : Nat} {n : BitVec 8} {u v : Bool} (h : Alone s (.mcgClose f) f a t)
    (hsa : f.sa = .unif n u v) (hh : (entered s t a f).holds t = false) (hp : ((s.crew (crewOf t)).getS n.toNat).poison = false)
    (hg : ((s.crew (crewOf t)).getS n.toNat).tags = 0) :
    let b := s.block (blockOf t)
    let h := (s.crew (crewOf t)).getS n.toNat
    let result := fun r s' => exec (.mcgClose f) s = .next s' ∧ (s'.thread t).pc = a + 12 ∧ dataStands s s' ∧
      owes s' t (destsOf (.mcgClose f)) (some [((destsOf (.mcgClose f)).head?.getD (.s 0), { val := r, poison := false, tags := 0 })])
    (∀ g, opens s b.ctx h.val.toNat g → (tget s.ctxs b.ctx.toNat).isSome →
      ∃ s', result 0 s' ∧ tget (s'.ctx b.ctx).groups (h.val.toNat % 64) = none) ∧
    ((∀ g, ¬opens s b.ctx h.val.toNat g) → ∃ s', result 6 s' ∧ s'.ctxs = s.ctxs) := by
  intro b hd result
  have hl := entered_listed (listed_of_alone h) a f
  obtain ⟨hpc, hstand⟩ := (staysAt_addOut (entered s t a f) t (destsOf (.mcgClose f)) none f.la.toNat false [] (destsOf (.mcgClose f)) []
    false none).of_entered (listed_of_alone h)
  have hexec := mcgClose_exec h hsa hh hp hg
  have hj := justNoted_addOut hl (destsOf (.mcgClose f)) f.la.toNat
  have hacc := onlyAccesses_performEffect ((entered s t a f).addOut t (destsOf (.mcgClose f)) none f.la.toNat false) t
    (.mcgClose hd.val (entered s t a f).nextId)
  have hctxs : ((entered s t a f).addOut t (destsOf (.mcgClose f)) none f.la.toNat false).ctxs = s.ctxs :=
    (State.addOut_ctxs ..).trans (entered_ctxs ..)
  have hblock : ((entered s t a f).addOut t (destsOf (.mcgClose f)) none f.la.toNat false).block (blockOf t) = b :=
    (State.addOut_block ..).trans (entered_block ..)
  generalize (entered s t a f).addOut t (destsOf (.mcgClose f)) none f.la.toNat false = s2 at *
  have hgroup : ∀ g, s2.groupOf b.ctx hd.val = some g ↔ opens s b.ctx hd.val.toNat g := fun g =>
    groupOf_eq_some.trans (opens_of_ctxs hctxs)
  refine ⟨fun g hopen hc => ?_, fun hnone => ?_⟩
  · have heff := performEffect_mcgClose_open (t := t) (s := s2) (h := hd.val) (g := g) (by rw [hblock]; exact (hgroup g).2 hopen)
      (entered s t a f).nextId
    rw [heff, hblock] at hexec hacc
    refine ⟨_, ⟨hexec, (State.answer_pc ..).trans hpc, ⟨fun u l => (hacc.getLoc u l).trans (hstand.1 u l), hstand.2⟩,
      owes_giveWord (justNoted_of_threads (s' := s2.unregister b.ctx (hd.val.toNat % 64)) rfl hj) 0⟩, ?_⟩
    show tget ((s2.unregister b.ctx (hd.val.toNat % 64)).ctx b.ctx).groups (hd.val.toNat % 64) = none
    rw [State.unregister, State.ctx_modCtx (by rwa [hctxs]), tget_tdel, if_pos rfl]
  · have heff := performEffect_mcgClose_none (t := t) (s := s2) (h := hd.val)
      (by rw [hblock]; exact groupOf_eq_none fun g hg => hnone g ((opens_of_ctxs hctxs).1 hg)) (entered s t a f).nextId
    rw [heff] at hexec hacc
    exact ⟨_, ⟨hexec, (State.answer_pc ..).trans hpc, ⟨fun u l => (hacc.getLoc u l).trans (hstand.1 u l), hstand.2⟩,
      owes_giveWord hj 6⟩, hctxs⟩

/-! ## What a group operation notes -/

/-- The checks of a group access pass (R184, R215). -/
theorem checkMc_of_groupAddressOk {va : W64} {n : Nat} (h : groupAddressOk va n) : checkMc va n = .ok () := by
  obtain ⟨hv, ha⟩ := h
  have hall : ((List.range n).all fun k => validVa (va + BitVec.ofNat 64 k)) = true := by
    refine List.all_eq_true.2 fun k hk => ?_
    have hval := hv k (List.mem_range.1 hk)
    simp only [validVa, Bool.or_eq_true, beq_iff_eq]
    have htop : ((va + BitVec.ofNat 64 k).extractLsb' 56 8).toNat = (va + BitVec.ofNat 64 k).toNat / 2 ^ 56 := by
      rw [BitVec.extractLsb'_toNat, Nat.shiftRight_eq_div_pow, Nat.mod_eq_of_lt]
      have := (va + BitVec.ofNat 64 k).isLt
      omega
    rw [← htop]
    exact hval.imp (fun h => by rw [h]; rfl) fun h => by rw [h]; rfl
  simp only [checkMc, hall, ha, Bool.not_true, Bool.false_eq_true, if_false, ne_eq, not_true]

theorem State.joinGroupOp_cases (s : State) (t reg : Nat) (g : Tags) :
    ∃ l, s.joinGroupOp t reg g = { s with groupOps := l } ∨ s.joinGroupOp t reg g = { s.logDests t [.s reg] with groupOps := l } := by
  unfold State.joinGroupOp
  dsimp only
  split
  · exact ⟨_, .inl rfl⟩
  · exact ⟨_, .inr rfl⟩

theorem staysAt_groupOps (s : State) (l : List GroupOp) (t : Nat) : staysAt s { s with groupOps := l } t :=
  staysAt_of_threads (s := s) (s' := { s with groupOps := l }) ⟨fun u l => by cases l <;> rfl, fun _ _ => rfl⟩ rfl rfl t

theorem staysAt_joinGroupOp (s : State) (t reg : Nat) (g : Tags) : staysAt s (s.joinGroupOp t reg g) t := by
  obtain ⟨l, h | h⟩ := s.joinGroupOp_cases t reg g <;> rw [h]
  · exact staysAt_groupOps s l t
  · obtain ⟨hl, hm⟩ := s.logDests_stands t [.s reg]
    exact (staysAt_of_threads hl hm (State.logDests_threads ..) t).trans (staysAt_groupOps _ l t)

theorem State.joinGroupOp_holds (s : State) (t reg : Nat) (g : Tags) : (s.joinGroupOp t reg g).holds t = s.holds t := by
  obtain ⟨l, h | h⟩ := s.joinGroupOp_cases t reg g <;> rw [h]
  · rfl
  · simp only [State.holds, State.coreOf, State.block, State.core, State.thread, State.logDests_threads, State.logDests_blocks,
      State.logDests_cores]

theorem State.joinGroupOp_seq (s : State) (t reg : Nat) (g : Tags) : (s.joinGroupOp t reg g).seq = s.seq := by
  obtain ⟨l, h | h⟩ := s.joinGroupOp_cases t reg g <;> rw [h]
  exact State.logDests_seq ..

/-- A group operation is noted, its result stands outstanding, and it emits its effect (R215, R217). -/
def State.askGroup (s : State) (i : Instr) (f : Fields) (t : Nat) (a : W64) (long acq : Bool) (e : Nat → Effect) : State :=
  let s1 := s.joinGroupOp t (handleReg f.sb + 1) (s.groupGuards f)
  (s1.addOut t (destsOf i) none f.la.toNat long (logged := (destsOf i).filter (· != .s (handleReg f.sb + 1))) (acq := acq)).emit t a
    (e s1.nextId)

section Ask

variable {e : Nat → Effect} {t : Nat} {a : W64} (hu : ∀ n (s : State), ∃ sp, s.unitsOf t a (e n) = some [.effect (e n) sp])
  (ha : ∀ n, (e n).acquires = false)
include hu ha

theorem staysAt_askGroup (s : State) (i : Instr) (f : Fields) (long acq : Bool) :
    staysAt s (s.askGroup i f t a long acq e) t := by
  obtain ⟨sp, hunit⟩ := hu (s.joinGroupOp t (handleReg f.sb + 1) (s.groupGuards f)).nextId
    ((s.joinGroupOp t (handleReg f.sb + 1) (s.groupGuards f)).addOut t (destsOf i) none f.la.toNat long
      (logged := (destsOf i).filter (· != .s (handleReg f.sb + 1))) (acq := acq))
  exact ((staysAt_joinGroupOp ..).trans (staysAt_addOut ..)).trans (staysAt_emit hunit (ha _))

theorem owes_askGroup {s : State} (hl : (tget s.threads t).isSome) (i : Instr) (f : Fields) (long acq : Bool) :
    owes (s.askGroup i f t a long acq e) t (destsOf i) none := by
  obtain ⟨sp, hunit⟩ := hu (s.joinGroupOp t (handleReg f.sb + 1) (s.groupGuards f)).nextId
    ((s.joinGroupOp t (handleReg f.sb + 1) (s.groupGuards f)).addOut t (destsOf i) none f.la.toNat long
      (logged := (destsOf i).filter (· != .s (handleReg f.sb + 1))) (acq := acq))
  exact owes_of_staysAt (owes_addOut _ t (destsOf i) none _ long [] _ [] acq none ((staysAt_joinGroupOp ..).listed hl))
    (staysAt_emit hunit (ha _))

theorem stillDue_askGroup {s : State} (hl : (tget s.threads t).isSome) (hh : s.holds t = false) (i : Instr) (f : Fields) (long acq : Bool) :
    ∃ out sp, stillDue (s.askGroup i f t a long acq e) t (some s.seq) (.effect (e out) sp) := by
  have hl1 := (staysAt_joinGroupOp s t (handleReg f.sb + 1) (s.groupGuards f)).listed hl
  have hh1 := (State.joinGroupOp_holds s t (handleReg f.sb + 1) (s.groupGuards f)).trans hh
  have hq := State.joinGroupOp_seq s t (handleReg f.sb + 1) (s.groupGuards f)
  unfold State.askGroup
  dsimp only
  generalize s.joinGroupOp t (handleReg f.sb + 1) (s.groupGuards f) = s1 at *
  obtain ⟨sp, hunit⟩ := hu s1.nextId (s1.addOut t (destsOf i) none f.la.toNat long
    (logged := (destsOf i).filter (· != .s (handleReg f.sb + 1))) (acq := acq))
  have hdue := stillDue_emit hunit (ha _) ((State.addOut_holds s1 t _ none _ long [] _ [] acq none hl1).trans hh1)
    ((staysAt_addOut s1 t _ none _ long [] _ [] acq none).listed hl1)
  rw [State.addOut_seq, hq] at hdue
  exact ⟨_, sp, hdue⟩

end Ask

theorem ldredMc_exec {f : Fields} {s : State} {a : W64} {t : Nat} {n : BitVec 8} {u v : Bool} {o : Opd} {va : W64}
    (h : Alone s (.ldredMc f) f a t) (hsb : f.sb = .unif n u v) (ha : addressG f false t (entered s t a f) = some (o, va))
    (hh : (s.crew (crewOf t)).getS n.toNat = { val := ((s.crew (crewOf t)).getS n.toNat).val }) (hok : groupAddressOk va (4 * f.count)) :
    exec (.ldredMc f) s = .next (((entered s t a f).consume t a o.tags).askGroup (.ldredMc f) f t a true (f.ord == 1)
      (.ldred f va ((s.crew (crewOf t)).getS n.toNat).val)) := by
  show execLdredMc f s = _
  refine State.perform_alone h ?_
  obtain ⟨ha, hp⟩ := addr64_of_addressG ha
  have hreg : handleReg f.sb = n.toNat := by rw [hsb]; rfl
  have hclean : ((s.crew (crewOf t)).getS n.toNat).poison = false := by rw [hh]
  have htags : o.tags ||| ((s.crew (crewOf t)).getS n.toNat).tags = o.tags := by rw [hh]; exact BitVec.or_zero
  simp only [ha, hp, State.readS_one, hreg, entered_crew, entered_here (listed_of_alone h), hclean, htags, checkMc_of_groupAddressOk hok,
    BitVec.ofNat_toNat, BitVec.setWidth_eq, Bool.false_eq_true, if_false, State.askGroup]

theorem ldredMc_result {f : Fields} {s : State} {a : W64} {t : Nat} {n : BitVec 8} {u v : Bool} {o : Opd} {va : W64}
    (h : Alone s (.ldredMc f) f a t) (hsb : f.sb = .unif n u v) (hx : addressG f false t (entered s t a f) = some (o, va))
    (hh : (s.crew (crewOf t)).getS n.toNat = { val := ((s.crew (crewOf t)).getS n.toNat).val }) (hr : f.ord = 0)
    (hok : groupAddressOk va (4 * f.count)) :
    ∃ s', exec (.ldredMc f) s = .next s' ∧ (s'.thread t).pc = a + 12 ∧ dataStands s s' ∧ owes s' t (destsOf (.ldredMc f)) none ∧
      ((entered s t a f).holds t = false → o.tags = 0 → ∃ out sp,
        stillDue s' t (some s.seq) (.effect (.ldred f va ((s.crew (crewOf t)).getS n.toNat).val out) sp)) := by
  have hu : ∀ k (s1 : State), ∃ sp, s1.unitsOf t a (.ldred f va ((s.crew (crewOf t)).getS n.toNat).val k) =
    some [.effect (.ldred f va ((s.crew (crewOf t)).getS n.toNat).val k) sp] := fun _ _ => ⟨_, rfl⟩
  have ha : ∀ k, (Effect.ldred f va ((s.crew (crewOf t)).getS n.toNat).val k).acquires = false := fun _ => by
    show (f.ord == 1) = false
    rw [hr]
    decide
  have hc := staysAt_consume (entered s t a f) t a o.tags
  have hl := hc.listed (entered_listed (listed_of_alone h) a f)
  obtain ⟨hpc, hd⟩ := (hc.trans (staysAt_askGroup hu ha _ (.ldredMc f) f true (f.ord == 1))).of_entered (listed_of_alone h)
  refine ⟨_, ldredMc_exec h hsb hx hh hok, hpc, hd, owes_askGroup hu ha hl .., fun hhold htags => ?_⟩
  rw [htags, State.consume_zero, ← entered_seq s t a f]
  exact stillDue_askGroup hu ha (entered_listed (listed_of_alone h) a f) hhold (.ldredMc f) f true (f.ord == 1)

/-! ## The release of a group store -/

/-- The release of a group store that one thread performs (R310, R332). -/
theorem State.stmcRelease_alone {s : State} {f : Fields} {a : W64} {t : Nat} (h : Alone s (.stmc f) f a t) (hh : s.holds t = false)
    (hp : f.ord = 2 → (s.startRelease t 6 2).performed t 6 = true) :
    s.stmcRelease f = (true, if f.ord = 2 then s.startRelease t 6 2 else s) := by
  obtain ⟨⟨c, hcur⟩, hst, hg, hw, -, -⟩ := h
  by_cases hr : f.ord = 2
  · have hstand : s.standing a [t] = [t] := State.standing_eq (by simpa using hst)
    simp only [State.stmcRelease, State.group, hcur, hr, hstand, ne_eq, not_true, if_false, if_true]
    simp only [List.filter_cons, State.guard_of_guarded hg, hh, hw, Bool.not_false, Bool.and_true, if_true, List.filter_nil,
      List.foldl_cons, List.foldl_nil, List.all_cons, List.all_nil, hp hr]
  · simp only [State.stmcRelease, State.group, hcur, hr, ne_eq, not_false_eq_true, if_true, if_false]

theorem stmc_exec {f : Fields} {s s0 : State} {a : W64} {t : Nat} {n : BitVec 8} {u v : Bool} {o : Opd} {va : W64}
    (hrel : s.stmcRelease f = (true, s0)) (h : Alone s0 (.stmc f) f a t) (hsb : f.sb = .unif n u v)
    (ha : addressG f false t (entered s0 t a f) = some (o, va))
    (hh : (s0.crew (crewOf t)).getS n.toNat = { val := ((s0.crew (crewOf t)).getS n.toNat).val })
    (hok : groupAddressOk va (f.ty.bytes * f.count)) (hd : ((entered s0 t a f).readV t f.dst.toNat (lsRegs f)).poison = false) :
    exec (.stmc f) s = .next (((entered s0 t a f).consume t a
      (o.tags ||| ((entered s0 t a f).readV t f.dst.toNat (lsRegs f)).tags)).askGroup (.stmc f) f t a false false
        (.stmc f va ((s0.crew (crewOf t)).getS n.toNat).val ((entered s0 t a f).readV t f.dst.toNat (lsRegs f)).val)) := by
  obtain ⟨ha, hp⟩ := addr64_of_addressG ha
  have hreg : handleReg f.sb = n.toNat := by rw [hsb]; rfl
  have hclean : ((s0.crew (crewOf t)).getS n.toNat).poison = false := by rw [hh]
  have htags : o.tags ||| ((s0.crew (crewOf t)).getS n.toNat).tags = o.tags := by rw [hh]; exact BitVec.or_zero
  show execStmc f s = _
  simp only [execStmc, hrel, Bool.not_true, Bool.false_eq_true, if_false]
  refine State.perform_alone h ?_
  simp only [ha, hp, hd, State.readS_one, hreg, entered_crew, entered_here (listed_of_alone h), hclean, htags,
    checkMc_of_groupAddressOk hok, BitVec.ofNat_toNat, BitVec.setWidth_eq, Bool.false_eq_true, if_false, State.askGroup]

/-- The release that a group store begins with performs accesses alone. -/
theorem onlyAccesses_release (s : State) (t : Nat) (f : Fields) : onlyAccesses s (if f.ord = 2 then s.startRelease t 6 2 else s) :=
  .ite (onlyAccesses_startRelease ..) (.refl s)

theorem stmc_result {f : Fields} {s s0 : State} {a : W64} {t : Nat} {n : BitVec 8} {u v : Bool} {o : Opd} {va : W64}
    (hs0 : s0 = if f.ord = 2 then s.startRelease t 6 2 else s) (h : Alone s (.stmc f) f a t) (h0 : Alone s0 (.stmc f) f a t)
    (hsb : f.sb = .unif n u v) (hhold : s.holds t = false) (hp : f.ord = 2 → s0.performed t 6 = true)
    (hx : addressG f false t (entered s0 t a f) = some (o, va))
    (hh : (s.crew (crewOf t)).getS n.toNat = { val := ((s.crew (crewOf t)).getS n.toNat).val })
    (hok : groupAddressOk va (f.ty.bytes * f.count)) (hd : ((entered s0 t a f).readV t f.dst.toNat (lsRegs f)).poison = false) :
    ∃ s', exec (.stmc f) s = .next s' ∧ (s'.thread t).pc = a + 12 ∧ (∀ u l, s'.getLoc u l = s.getLoc u l) ∧
      owes s' t (destsOf (.stmc f)) none ∧
      (o.tags = 0 → ((entered s0 t a f).readV t f.dst.toNat (lsRegs f)).tags = 0 → ((s.thread t).getP f.gp.toNat).tags = 0 → ∃ out sp,
        stillDue s' t (some s.seq) (.effect (.stmc f va ((s.crew (crewOf t)).getS n.toNat).val
          ((entered s0 t a f).readV t f.dst.toNat (lsRegs f)).val out) sp)) := by
  have hacc : onlyAccesses s s0 := hs0 ▸ onlyAccesses_release s t f
  have hcrew : s0.crew (crewOf t) = s.crew (crewOf t) := by rw [State.crew, hacc.crews, State.crew]
  have hrel : s.stmcRelease f = (true, s0) := by
    rw [hs0]
    refine State.stmcRelease_alone h hhold fun hr => ?_
    rw [hs0, if_pos hr] at hp
    exact hp hr
  have hexec := stmc_exec hrel h0 hsb hx (by rwa [hcrew]) hok hd
  rw [hcrew] at hexec
  generalize hdv : (entered s0 t a f).readV t f.dst.toNat (lsRegs f) = d at *
  have hu : ∀ k (s1 : State), ∃ sp, s1.unitsOf t a (.stmc f va ((s.crew (crewOf t)).getS n.toNat).val d.val k) =
    some [.effect (.stmc f va ((s.crew (crewOf t)).getS n.toNat).val d.val k) sp] := fun _ _ => ⟨_, rfl⟩
  have hacq : ∀ k, (Effect.stmc f va ((s.crew (crewOf t)).getS n.toNat).val d.val k).acquires = false := fun _ => rfl
  have hc := staysAt_consume (entered s0 t a f) t a (o.tags ||| d.tags)
  have hent := entered_listed (listed_of_alone h0) a f
  obtain ⟨hpc, hstand⟩ := (hc.trans (staysAt_askGroup hu hacq _ (.stmc f) f false false)).of_entered (listed_of_alone h0)
  refine ⟨_, hexec, hpc, fun u l => (hstand.1 u l).trans (hacc.getLoc u l), owes_askGroup hu hacq (hc.listed hent) ..,
    fun htags hdt hgt => ?_⟩
  have hgate : (entered s0 t a f).holds t = false := by
    have hguard : ((s0.thread t).getP f.gp.toNat).tags = 0 := by
      rwa [Thread.getP, hacc.p, ← Thread.getP]
    have hstep : onlyAccesses s0 (entered s0 t a f) := by
      rw [entered, State.pastGuard, hguard, State.consume_zero]
      exact onlyAccesses_modThread s0 t
    rw [(hacc.trans hstep).holds, hhold]
  rw [htags, hdt, no_tags_or, State.consume_zero, ← hacc.seq, ← entered_seq s0 t a f]
  exact stillDue_askGroup hu hacq hent hgate (.stmc f) f false false

/-! ## What a group operation asks when it is performed -/

theorem cls_eq_two (k : ReqKind) : (k.cls == 2) = ofGroup k := by cases k <;> rfl

theorem State.portFor_isSome {s : State} : (s.portFor 2).isSome ↔ ∃ p < 32, (tgetD s.ports p {}).state = 2 ∧
    (tgetD s.ports p {}).paused.getLsbD 2 = false ∧ (s.requests.filter (·.port == p)).length < 4096 := by
  simp only [State.portFor, List.find?_isSome, List.mem_range, State.portTakes, Bool.and_eq_true, beq_iff_eq, Bool.not_eq_true',
    decide_eq_true_eq, and_assoc]

/-- The port that a new request of a group takes (R437, R438). -/
def State.portOfGroup (s : State) : Option Nat := if s.unsent.any (fun r => r.kind.cls == 2) then none else s.portFor 2

theorem portOfGroup_isSome {s : State} : s.portOfGroup.isSome ↔ groupPort s := by
  unfold State.portOfGroup groupPort
  rw [← State.portFor_isSome]
  by_cases hw : ∀ r ∈ s.unsent, ofGroup r.kind = false
  · have hany : s.unsent.any (fun r => r.kind.cls == 2) = false := by simpa [cls_eq_two] using hw
    simp only [hany, Bool.false_eq_true, if_false]
    exact (and_iff_right hw).symm
  · have hany : s.unsent.any (fun r => r.kind.cls == 2) = true := by simpa [cls_eq_two] using hw
    simp [hany, hw]

/-- A request to other members of a group is sent, or waits (R211, R438). -/
theorem State.sendRequest_sentTo {s : State} {t : Nat} {kind : ReqKind} {g : Group} (hk : ofGroup kind = true)
    (hf : s.helm.fabValid = true) (hm : g.members ≠ []) (va : W64) (data : List Byte) (handle : Option Nat) (ordered : Bool) :
    let s' := s.sendRequest t (s.block (blockOf t)).ctx kind g.members va.toNat data [] handle ordered []
    sentTo s s' t g va data ∧ s'.mem = s.mem := by
  have hcls : kind.cls = 2 := beq_iff_eq.1 ((cls_eq_two kind).trans hk)
  have hlen : ([] : List Answer).length ≠ g.members.length := fun h => hm (List.length_eq_zero_iff.1 h.symm)
  simp only [State.sendRequest, hf, hlen, hcls, Bool.not_true, Bool.false_eq_true, if_false]
  have hport : (if s.unsent.any (fun r => r.kind.cls == 2) then none
    else ({ s with nextId := s.nextId + 1 } : State).portFor 2) = s.portOfGroup := rfl
  rw [hport]
  cases hp : s.portOfGroup with
  | none =>
    have hno : ¬groupPort s := fun h => by
      have := portOfGroup_isSome.2 h
      rw [hp] at this
      exact Bool.noConfusion this
    exact ⟨⟨_, fun h => absurd h hno, fun _ => ⟨rfl, rfl⟩, rfl, rfl, rfl, rfl, rfl, rfl, rfl⟩, rfl⟩
  | some p =>
    have hyes : groupPort s := portOfGroup_isSome.1 (by rw [hp]; rfl)
    exact ⟨⟨_, fun _ => ⟨rfl, rfl⟩, fun h => absurd hyes h, rfl, rfl, rfl, rfl, rfl, rfl, rfl⟩, rfl⟩

theorem ownMember_none {s : State} {g : Group} (h : s.helm.fabDev ∉ g.members) : s.ownMember g = none := by
  refine List.find?_eq_none.2 fun k hk he => h ?_
  have hlt := List.mem_range.1 hk
  rw [beq_iff_eq, List.getD_eq_getElem _ _ hlt] at he
  exact he ▸ List.getElem_mem hlt

/-- What is asked of a group of other devices (R211). -/
theorem State.groupRequest_sentTo {s : State} {t : Nat} {kind : ReqKind} {h : W32} {g : Group} (hk : ofGroup kind = true)
    (ho : opens s (s.block (blockOf t)).ctx h.toNat g) (hf : s.helm.fabValid = true) (hm : g.members ≠ [])
    (hn : s.helm.fabDev ∉ g.members) (va : W64) (data : List Byte) (self : State → Nat × List Byte × State) :
    sentTo s (s.groupRequest t kind h va data self) t g va data ∧ (s.groupRequest t kind h va data self).mem = s.mem := by
  simp only [State.groupRequest, groupOf_eq_some.2 ho, ownMember_none hn]
  exact State.sendRequest_sentTo hk hf hm ..

/-- The unit of a group operation whose effect asks the members does so, performed alone. -/
theorem exec_due_group {s : State} {t id : Nat} {q : Option Nat} {e : Effect} {sp : List Span} {g : Group} {va : W64} {data : List Byte}
    (h : due s t id q (.effect e sp))
    (he : sentTo (s.dropLate t id) ((s.dropLate t id).performEffect t e) t g va data ∧
      ((s.dropLate t id).performEffect t e).mem = (s.dropLate t id).mem) :
    ∃ s', exec (.accessPerformed t id) s = .next s' ∧ dataStands s s' ∧ sentTo s s' t g va data := by
  refine ⟨_, exec_due h (by intros; nofun), ⟨fun u l => ?_, he.2⟩, he.1⟩
  exact ((localStands_acknowledge _ t id).1 u l).trans (((onlyAccesses_performEffect ..).getLoc u l).trans ((localStands_dropLate s t id).1 u l))

theorem stmcBytes_eq (f : Fields) (data : Nat) :
    stmcBytes f data = if f.xc.getLsbD 2 then leBytes 8 data else (dataPieces f data).flatMap (·.2) := by
  rw [stmcBytes, bytesOf_eq]

/-- `ldred.mc` and `stmc`, performed on a group of other devices (R215, R217). -/
theorem groupUnits_sent {s : State} {t id : Nat} {q : Option Nat} {f : Fields} {va : W64} {h : W32} {out : Nat} {sp : List Span} {g : Group}
    (ho : opens s (s.block (blockOf t)).ctx h.toNat g) (hf : s.helm.fabValid = true) (hm : g.members ≠ [])
    (hn : s.helm.fabDev ∉ g.members) :
    (due s t id q (.effect (.ldred f va h out) sp) → ∃ s', exec (.accessPerformed t id) s = .next s' ∧ dataStands s s' ∧
      sentTo s s' t g va (leBytes (4 * f.count) 0)) ∧
    ∀ data, due s t id q (.effect (.stmc f va h data out) sp) → ∃ s', exec (.accessPerformed t id) s = .next s' ∧ dataStands s s' ∧
      sentTo s s' t g va (if f.xc.getLsbD 2 then leBytes 8 data else (dataPieces f data).flatMap (·.2)) := by
  have ho' : opens (s.dropLate t id) ((s.dropLate t id).block (blockOf t)).ctx h.toNat g := ho
  refine ⟨fun h => exec_due_group h ?_, fun data h => exec_due_group h ?_⟩
  · simp only [State.performEffect]
    exact State.groupRequest_sentTo (kind := .ldred f out) rfl ho' hf hm hn va (leBytes (4 * f.count) 0) _
  · rw [← stmcBytes_eq]
    simp only [State.performEffect]
    exact State.groupRequest_sentTo (kind := .stmc f out) rfl ho' hf hm hn va (stmcBytes f data) _

end Sys2Proof.Machine
end

section
/-! CLAIM. Multicast groups are opened, closed and used. -/

open Sys2Proof Sys2Proof.Machine Sys2Proof.Claim

/-- Settles O38: opening and closing perform their effect at once, in the state that notes their result; a group access notes its
operation and enters one unit; and that unit, performed alone, asks the members by one request. -/
theorem multicastGroups : Obligations.MulticastGroups := by
  unfold Obligations.MulticastGroups
  refine ⟨fun f s a t o x off ms _ h hx _ hh hn ho hs hp hr hc => mcgOpen_result h hx hh hn ho hs hp hr hc,
    fun f s a t n u v _ h hsa _ hh hp hg => mcgClose_result h hsa hh hp hg, fun f s a t n u v o va hsb hx hh => ⟨fun _ h hr hok => ?_, ?_⟩,
    fun s t id q f va h out sp g ho hf hm hn => groupUnits_sent ho hf hm hn⟩
  · obtain ⟨s', he, hpc, hd, how, hdue⟩ := ldredMc_result h hsb hx hh hr hok
    exact ⟨s', he, hpc, hd, how, fun hhold _ ht => hdue hhold ht⟩
  · intro _ s0 d h h0 hhold _ hp hx0 hok hd
    obtain ⟨s', he, hpc, hl, how, hdue⟩ := stmc_result (s0 := s0) rfl h h0 hsb hhold hp hx0 hh hok hd
    exact ⟨s', he, hpc, hl, how, fun _ ht hdt hgt => hdue ht hdt hgt⟩

end
